-- ==== Sys2Proof/Word.lean ====
section
/-! DEFINITION. The byte of a payload and the bits of a frame on the plant line. -/

namespace Sys2Proof

/-- One payload byte (R175). -/
abbrev Byte := BitVec 8

/-- A 6-bit function code (R175, R177). -/
abbrev FuncCode := BitVec 6

end Sys2Proof
end

