-- ==== Sys2Proof/Config.lean ====
section
/-! DEFINITION. What the part fixes: its capacities and its times in milliseconds, each with the rule that states it;
and the free values, which the manual leaves open (opaque constants, so that no proof can see what they are). -/

namespace Sys2Proof.Config

/-- Receive queue places (R162, R163). -/
abbrev rxCapacity : Nat := 8
/-- Answer queue places (R164, R167). -/
abbrev answerCapacity : Nat := 8
/-- Demand entries (R14, R96). -/
abbrev demandCapacity : Nat := 64
/-- Stations on the supervisor list (R138). -/
abbrev supervisorCapacity : Nat := 4
/-- Losses at which an answer, notice or poll is dropped (R170). -/
abbrev dropLimit : Nat := 8
/-- Polls owed at most (R43). -/
abbrev maxBacklog : Nat := 3
/-- Largest chill dose (R62). -/
abbrev maxDose : Nat := 60000
/-- Largest value of the lost-slot count (R191). -/
abbrev maxLostSlots : Nat := 255
/-- Consecutive failed dispatches at which a demand entry faults (R111). -/
abbrev maxAttempts : Nat := 4

/-- Evaluation timer (R58). -/
abbrev evaluationTime : Nat := 2000
/-- Settle timer (R15, R25). -/
abbrev settleTime : Nat := 300000
/-- Clean timer (R79). -/
abbrev cleanTime : Nat := 3600000
/-- Poll period in COLD (R41). -/
abbrev coldPeriod : Nat := 10000
/-- Poll period in MILD (R41). -/
abbrev mildPeriod : Nat := 60000
/-- Hold-off after an accepted assert and after a failure (R109, R110). -/
abbrev assertHoldOff : Nat := 1000
/-- Hold-off after an accepted release (R109). -/
abbrev releaseHoldOff : Nat := 200
/-- Refresh timer (R109, R115). -/
abbrev refreshTime : Nat := 60000
/-- Fault retry timer (R111). -/
abbrev faultRetryTime : Nat := 30000
/-- Status timer (R124). -/
abbrev statusTime : Nat := 30000
/-- Contact filter timer (R126). -/
abbrev filterTime : Nat := 200
/-- Claim timer (R142). -/
abbrev claimTime : Nat := 60000
/-- Store retry timer (R189). -/
abbrev storeRetryTime : Nat := 60000

/-- The address taken from an invalid strap (R191). -/
abbrev fallbackAddress : Nat := 223
/-- regime_on of the default settings (R51, R191). -/
abbrev defaultRegimeOn : Int := 20
/-- regime_off of the default settings (R51, R191). -/
abbrev defaultRegimeOff : Int := 50

/-- DESIGN CHOICE (safe, log 15): R182 gives station 0 for an empty binding position in the DEFINITION view and states
no point number and no offset there: free bytes. -/
opaque emptyBindingByte : Nat → Byte

/-- DESIGN CHOICE (safe, log 16): R185 calls bit 4, the polarity sent, meaningful only while the entry is in flight; on
any other entry the bit is free. -/
opaque polarityBitAtRest : Nat → Bool

end Sys2Proof.Config
end

