-- ==== Sys2Proof/Syntax.lean ====
section
/-! DEFINITION. The commands of the part: one constructor for each row of spec/opcode_table.json, with its operands.
A frame that the request handler takes carries its operands itself: sender, addressing and payload stand in the frame at
the head of the receive queue (R163, R164), so those constructors have no operand of their own (DESIGN CHOICE, log 1). -/

namespace Sys2Proof

/-- Coil slot, 0 to 47 (R1). -/
abbrev Slot := Fin 48
/-- Unit number, 0 to 15 (R119). -/
abbrev UnitNo := Fin 16
/-- Claim entry, 0 to 3 (R140). -/
abbrev ClaimNo := Fin 4

/-- The five protective actions (R95). -/
inductive ActionKind where
  | fs | oac | vfo | pms | fbf
  deriving DecidableEq, Repr

/-- A demand key: target station and action kind (5.2, R96). -/
structure DemandKey where
  station : Nat
  kind : ActionKind
  deriving DecidableEq, Repr

/-- The two states of the plant line (8.1); a 0 bit is sent dominant and a 1 bit recessive (R175). -/
inductive LineLevel where
  | dominant | recessive
  deriving DecidableEq, Repr

/-- The two bits of an acknowledge slot as the frame's sender reads them (R175). -/
structure AckBits where
  first : LineLevel
  second : LineLevel
  deriving DecidableEq, Repr

/-- The level of a low-limit input (R126). -/
inductive ContactLevel where
  | closedLevel | openLevel
  deriving DecidableEq, Repr

/-- How a write that is broken off leaves its item: either is allowed (R187). -/
inductive BrokenWrite where
  | asBefore | failsCheck
  deriving DecidableEq, Repr

/-- The strap pins (R191): eight for the address, four for the zone. -/
structure Strap where
  address : BitVec 8
  zone : BitVec 4
  deriving DecidableEq, Repr

/-- The commands, in the order of spec/opcode_table.json. -/
inductive Instr where
  /-- REPORT (R33): the handler takes a REPORT frame. -/
  | report
  /-- UNIT_STATUS (R123): the handler takes a UNIT_STATUS frame. -/
  | unitStatus
  /-- QUERY_COIL (R182). -/
  | queryCoil
  /-- QUERY_POINT (R32). -/
  | queryPoint
  /-- QUERY_UNIT (R135). -/
  | queryUnit
  /-- QUERY_DEMAND (R117). -/
  | queryDemand
  /-- PART_STATUS (R186). -/
  | partStatus
  /-- READ_FAULTS (R134). -/
  | readFaults
  /-- CREATE (R11). -/
  | create
  /-- ARM (R13). -/
  | arm
  /-- SUSPEND (R20). -/
  | suspend
  /-- RETIRE (R22). -/
  | retire
  /-- RESTART (R80). -/
  | restart
  /-- RELEASE_LOCKOUT (R82). -/
  | releaseLockout
  /-- CLAIM (R141). -/
  | claim
  /-- STAGE_LIMITS (R145). -/
  | stageLimits
  /-- STAGE_DOSE (R145). -/
  | stageDose
  /-- STAGE_TIMING (R145). -/
  | stageTiming
  /-- STAGE_MAP (R145). -/
  | stageMap
  /-- STAGE_BIND (R145). -/
  | stageBind
  /-- COMMIT (R147). -/
  | commit
  /-- ABANDON (R155). -/
  | abandon
  /-- UNIT_SET (R121). -/
  | unitSet
  /-- PART_SET (R52). -/
  | partSet
  /-- SUPERVISOR_SET (R138). -/
  | supervisorSet
  /-- PART_RESTART (R194). -/
  | partRestart
  /-- UNKNOWN_FUNCTION (R165): the handler takes a frame with an unknown function code. -/
  | unknownFunction
  /-- DISCARDED_FUNCTION_FRAME (R165): the handler takes an ACTION, POLL, STAGE_NOTICE or ANSWER frame, or a broadcast request. -/
  | discardedFunctionFrame
  /-- FRAME_RECEPTION (R162): the levels received after the start bit, up to the end of the CRC or the idle that cut the frame short. -/
  | frameReception (levels : List LineLevel)
  /-- LINE_GRANT (R168): the line stands idle. -/
  | lineGrant
  /-- LOST_ARBITRATION (R170): the part's frame on the line loses arbitration. -/
  | lostArbitration
  /-- TRANSMIT_ERROR (R159): the part's frame on the line is broken off. -/
  | transmitError
  /-- ACTION_COMPLETION (R116), with the acknowledge slot as read. -/
  | actionCompletion (ack : AckBits)
  /-- POLL_COMPLETION (R47), with the acknowledge slot as read. -/
  | pollCompletion (ack : AckBits)
  /-- ANSWER_COMPLETION (R167), with the acknowledge slot as read. -/
  | answerCompletion (ack : AckBits)
  /-- STAGE_NOTICE_COMPLETION (R173), with the acknowledge slot as read. -/
  | stageNoticeCompletion (ack : AckBits)
  /-- EVALUATION_EXPIRY (R59) of a slot's evaluation timer. -/
  | evaluationExpiry (slot : Slot)
  /-- RESTART_HOLD_EXPIRY (R85) of a slot's restart hold timer. -/
  | restartHoldExpiry (slot : Slot)
  /-- CLEAN_TIMER_EXPIRY (R79) of a slot's clean timer. -/
  | cleanTimerExpiry (slot : Slot)
  /-- SETTLE_TIMER_EXPIRY (R19) of a slot's settle timer. -/
  | settleTimerExpiry (slot : Slot)
  /-- POLL_PERIOD_EXPIRY (R42). -/
  | pollPeriodExpiry
  /-- CLAIM_TIMER_EXPIRY (R142) of a claim entry's timer. -/
  | claimTimerExpiry (entry : ClaimNo)
  /-- STATUS_TIMER_EXPIRY (R124) of a unit's status timer. -/
  | statusTimerExpiry (unit : UnitNo)
  /-- LL_LEVEL_CHANGE (R126): a unit's low-limit input takes a level. -/
  | llLevelChange (unit : UnitNo) (level : ContactLevel)
  /-- CONTACT_FILTER_EXPIRY (R126) of a unit's filter timer. -/
  | contactFilterExpiry (unit : UnitNo)
  /-- HOLD_OFF_EXPIRY (R104) of a demand entry. -/
  | holdOffExpiry (key : DemandKey)
  /-- REFRESH_TIMER_EXPIRY (R115) of a demand entry. -/
  | refreshTimerExpiry (key : DemandKey)
  /-- FAULT_RETRY_TIMER_EXPIRY (R114) of a demand entry. -/
  | faultRetryTimerExpiry (key : DemandKey)
  /-- STORE_WRITE_BEGIN (R188). -/
  | storeWriteBegin
  /-- STORE_WRITE_COMPLETION (R189), with success or failure. -/
  | storeWriteCompletion (success : Bool)
  /-- STORE_RETRY_TIMER_EXPIRY (R190). -/
  | storeRetryTimerExpiry
  /-- RESET_PIN_HOLD (R132): the reset pin is held; the operand says how a write it breaks off leaves its item (R187). -/
  | resetPinHold (cut : BrokenWrite)
  /-- START_UP_LOAD (R191): power-up or reset-pin release, with the strap pins as read; the last operand matters only where a write was still under way (log 11). -/
  | startUpLoad (strap : Strap) (cut : BrokenWrite)
  /-- PART_RESTART_LOAD_BEGIN (R194), with the strap pins as read again. -/
  | partRestartLoadBegin (strap : Strap)
  /-- LOAD_COMPLETION (R193). -/
  | loadCompletion
  /-- POWER_LOSS (R187); the operand says how a write it breaks off leaves its item. -/
  | powerLoss (cut : BrokenWrite)
  deriving DecidableEq, Repr

end Sys2Proof
end

