-- ==== Sys2Proof/WellFormed.lean ====
section
/-! DEFINITION. Which commands are well formed: the operands that their types do not bound already. -/

namespace Sys2Proof

/-- An individual station address (4.4 of the scope file). -/
def isStation (a : Nat) : Bool := decide (1 ≤ a) && decide (a ≤ 223)

/-- The most levels a frame can announce after its start bit: 28 header bits, 31 payload bytes (the largest value of the
5-bit length field), 16 CRC bits, and a separator after every eighth bit (R175). -/
def maxFrameLevels : Nat := 28 + 31 * 8 + 16 + (28 + 31 * 8 + 16) / 8

/-- A demand key names an individual station (R96). -/
def DemandKey.wellFormed (k : DemandKey) : Bool := isStation k.station

/-- The checks on a command's operands. -/
def Instr.wellFormed : Instr → Bool
  | .frameReception levels => decide (levels.length ≤ maxFrameLevels)
  | .holdOffExpiry k => k.wellFormed
  | .refreshTimerExpiry k => k.wellFormed
  | .faultRetryTimerExpiry k => k.wellFormed
  | .report | .unitStatus | .queryCoil | .queryPoint | .queryUnit | .queryDemand | .partStatus | .readFaults
  | .create | .arm | .suspend | .retire | .restart | .releaseLockout | .claim | .stageLimits | .stageDose
  | .stageTiming | .stageMap | .stageBind | .commit | .abandon | .unitSet | .partSet | .supervisorSet | .partRestart
  | .unknownFunction | .discardedFunctionFrame | .lineGrant | .lostArbitration | .transmitError
  | .actionCompletion _ | .pollCompletion _ | .answerCompletion _ | .stageNoticeCompletion _
  | .evaluationExpiry _ | .restartHoldExpiry _ | .cleanTimerExpiry _ | .settleTimerExpiry _ | .pollPeriodExpiry
  | .claimTimerExpiry _ | .statusTimerExpiry _ | .llLevelChange _ _ | .contactFilterExpiry _
  | .storeWriteBegin | .storeWriteCompletion _ | .storeRetryTimerExpiry
  | .resetPinHold _ | .startUpLoad _ _ | .partRestartLoadBegin _ | .loadCompletion | .powerLoss _ => true

end Sys2Proof
end

