-- ==== Sys2Proof/Machine/State.lean ====
section
/-! DEFINITION. The state of the part as plain data: every field, entry, queue, timer, flag, pin and output that the spec
names, block by block, and the state after reset. A timer is the moment, in milliseconds of the model's clock, at which
it expires, absent while it is stopped (log 3). -/

namespace Sys2Proof.Machine

/-- A table of a fixed number of places. -/
abbrev Table (α : Type) (n : Nat) := Vector α n

/-! ### Power and the hardwired world -/

/-- Where the part stands between supply and service (R191, R193, R194). -/
inductive Power where
  /-- No supply (R187). -/
  | off
  /-- The reset pin is held (R132). -/
  | held
  /-- A start-up load is in progress (R191). -/
  | startLoad
  /-- In service (R193). -/
  | running
  /-- A PART_RESTART load is in progress (R194). -/
  | restartLoad
  deriving DecidableEq, Repr

/-- The filtered contact of a unit (R126). -/
inductive Contact where
  | closed | opened
  deriving DecidableEq, Repr

/-- The contact filter's state, with its filter timer while PENDING (R126). -/
inductive ContactFilter where
  | steady
  | pending (expiry : Nat)
  deriving DecidableEq, Repr

/-- A fan-stop output (R132). -/
inductive FanStop where
  | run | stop
  deriving DecidableEq, Repr

/-- Fan proof (R119). -/
inductive FanProof where
  | unknown | running | stopped
  deriving DecidableEq, Repr

/-- The kinds of a fault summary (R133). -/
inductive FaultKind where
  | contactOpen | sensorLost | actuatorFail | trip | sequenceGap
  deriving DecidableEq, Repr

/-- A unit's fault summary: a set of kinds (R133). -/
structure FaultSummary where
  contactOpen : Bool
  sensorLost : Bool
  actuatorFail : Bool
  trip : Bool
  sequenceGap : Bool
  deriving DecidableEq, Repr

/-- The empty fault summary. -/
def FaultSummary.empty : FaultSummary := ⟨false, false, false, false, false⟩

/-- One entry of the Unit Table (R119). The unit is defined when it has a controller station (R120). -/
structure UnitEntry where
  controller : Option Nat
  zone : Fin 16
  fan : FanProof
  statusTimer : Option Nat
  level : ContactLevel
  contact : Contact
  filter : ContactFilter
  fso : FanStop
  faults : FaultSummary
  deriving DecidableEq, Repr

/-! ### Points and the regime -/

/-- A point key: source station and point number (R27). -/
structure PointKey where
  station : Nat
  point : Nat
  deriving DecidableEq, Repr

/-- The quality of a point (2.3). -/
inductive Quality where
  | none | fresh | stale | lost | fault
  deriving DecidableEq, Repr

/-- One entry of the Point Table (2.1.1). Its index is its place in the table. -/
structure PointEntry where
  key : PointKey
  refs : Nat
  held : Option Int
  lastSeq : Option Byte
  quality : Quality
  miss : Nat
  reported : Bool
  polled : Bool
  streak : Nat
  gaps : Nat
  deriving DecidableEq, Repr

/-- The class of a frame (8.1). -/
inductive FrameClass where
  | urgent | routine
  deriving DecidableEq, Repr

/-- The Poll Engine's offer (2.4): the key it polls, the entry it names for as long as that entry exists (R47, R49), its
class (R45) and its loss count (R170). -/
structure PollOffer where
  key : PointKey
  entry : Option (Fin 96)
  cls : FrameClass
  losses : Nat
  deriving DecidableEq, Repr

/-- The plant-wide regime (R51). -/
inductive Regime where
  | cold | mild
  deriving DecidableEq, Repr

/-! ### Coil records -/

/-- Lifecycle (1.2). -/
inductive Lifecycle where
  | vacant | draft | settling | armed | suspended
  deriving DecidableEq, Repr

/-- Coil kind (R2). -/
inductive CoilKind where
  | hotWater | steam | chilledWater
  deriving DecidableEq, Repr

/-- A binding: a point key and an offset (R4). -/
structure Binding where
  key : PointKey
  offset : Int
  deriving DecidableEq, Repr

/-- The limits group of a profile: A_L, F_L, W, D (R5, R144). -/
structure Limits where
  airLimit : Int
  fluidLimit : Int
  watchBand : Int
  decay : Int
  deriving DecidableEq, Repr

/-- The dose group of a profile: L, U, T (R5, R144). -/
structure DoseMarks where
  lower : Nat
  upper : Nat
  tripDose : Nat
  deriving DecidableEq, Repr

/-- The action map: targets for VFO, PMS and FBF (R5). -/
structure ActionMap where
  vfo : Option Nat
  pms : Option Nat
  fbf : Option Nat
  deriving DecidableEq, Repr

/-- The profile of a record, in the four groups that stage it (R5, R144). -/
structure Profile where
  limits : Limits
  dose : DoseMarks
  hold : Nat
  map : ActionMap
  deriving DecidableEq, Repr

/-- Step-down progress: the kinds already dropped (R86). -/
structure Dropped where
  oac : Bool
  fbf : Bool
  pms : Bool
  vfo : Bool
  deriving DecidableEq, Repr

/-- Nothing dropped yet. -/
def Dropped.empty : Dropped := ⟨false, false, false, false⟩

/-- Recovery phase, with the step-down progress in STEP_DOWN (R69). -/
inductive Phase where
  | fanRestart
  | prove
  | stepDown (dropped : Dropped)
  deriving DecidableEq, Repr

/-- Protection stage, with the phase in RECOVERY (chapter 4). -/
inductive Stage where
  | clear | watch | guard | trip
  | recovery (phase : Phase)
  | lockout
  deriving DecidableEq, Repr

/-- Trip latch (R75). -/
inductive Latch where
  | none
  | trip (n : Fin 3)
  | lockout
  deriving DecidableEq, Repr

/-- Cause of the last stage change (1.1.1). -/
inductive Cause where
  | none | doseWatch | doseGuard | doseTrip | airLimit | sensorLost | contact | actuator | restart
  | lockoutReleased | cleared
  deriving DecidableEq, Repr

/-- The result of a record's last evaluation (R64). -/
structure EvalResult where
  margin : Option Int
  airMargin : Option Int
  available : Bool
  fan : FanProof
  deriving DecidableEq, Repr

/-- One coil record (1.1.1). The tag is 0 while the slot is VACANT (R2). -/
structure Coil where
  lifecycle : Lifecycle
  tag : Nat
  unit : UnitNo
  kind : Option CoilKind
  lat : Option Binding
  ft : Option Binding
  profile : Option Profile
  stage : Stage
  dose : Nat
  tripCount : Nat
  latch : Latch
  cause : Cause
  settleOverdue : Bool
  storeStale : Bool
  writeInFlight : Bool
  evalTimer : Option Nat
  settleTimer : Option Nat
  cleanTimer : Option Nat
  holdTimer : Option Nat
  last : Option EvalResult
  deriving DecidableEq, Repr

/-- A VACANT slot that keeps a unit (R2, R12, R23): every other field empty, CLEAR, 0 or stopped. -/
def Coil.vacant (u : UnitNo) : Coil where
  lifecycle := .vacant
  tag := 0
  unit := u
  kind := none
  lat := none
  ft := none
  profile := none
  stage := .clear
  dose := 0
  tripCount := 0
  latch := .none
  cause := .none
  settleOverdue := false
  storeStale := false
  writeInFlight := false
  evalTimer := none
  settleTimer := none
  cleanTimer := none
  holdTimer := none
  last := none

/-! ### Demands -/

/-- Polarity of an ACTION frame (R95). -/
inductive Polarity where
  | release | assert
  deriving DecidableEq, Repr

/-- Commanded state of a demand entry (5.2). -/
inductive Commanded where
  | released | asserted | unknown
  deriving DecidableEq, Repr

/-- One entry of the Demand Table (5.2). In the queue it holds its join order; in flight, the polarity sent. -/
structure DemandEntry where
  key : DemandKey
  mapRefs : Nat
  demand : Nat
  commanded : Commanded
  queued : Option Nat
  refreshDue : Bool
  inFlight : Option Polarity
  attempts : Nat
  holdOff : Option Nat
  refreshTimer : Option Nat
  faulted : Bool
  retryTimer : Option Nat
  deriving DecidableEq, Repr

/-- The ACTION frame that the Action Dispatcher holds (R107, R108). -/
structure Dispatch where
  key : DemandKey
  polarity : Polarity
  deriving DecidableEq, Repr

/-! ### Claims -/

/-- A staged binding group: a key and an offset as sent, or an unbind (R144, R145). -/
inductive StagedBinding where
  | unbind
  | bind (b : Binding)
  deriving DecidableEq, Repr

/-- The staging area of a claim: six groups, each absent or present (R144). -/
structure Staging where
  limits : Option Limits
  dose : Option DoseMarks
  timing : Option Nat
  map : Option ActionMap
  lat : Option StagedBinding
  ft : Option StagedBinding
  deriving DecidableEq, Repr

/-- The empty staging area. -/
def Staging.empty : Staging := ⟨none, none, none, none, none, none⟩

/-- The state of a claim (R140); a COMMITTED claim keeps whether its commit carries CLAMPED (R147, R153). -/
inductive ClaimState where
  | opened
  | committed (clamped : Bool)
  deriving DecidableEq, Repr

/-- A claim entry that holds a claim (R140). -/
structure Claim where
  holder : Nat
  slot : Slot
  staging : Staging
  timer : Option Nat
  state : ClaimState
  deriving DecidableEq, Repr

/-! ### The plant line -/

/-- A frame on the line (8.1, R175), less its start bit, separators, CRC and acknowledge slot. -/
structure Frame where
  cls : FrameClass
  sender : Byte
  target : Byte
  code : FuncCode
  payload : List Byte
  deriving DecidableEq, Repr

/-- A frame in the receive queue (R163). Its length is that of its payload. -/
structure RxFrame where
  sender : Nat
  target : Nat
  addressed : Bool
  code : FuncCode
  payload : List Byte
  deriving DecidableEq, Repr

/-- The result codes (R181). -/
inductive Result where
  | done | unknownFunction | badLength | notPermitted | noRecord | tagInUse | tableFull | claimedElsewhere
  | notClaimed | noStaging | wrongState | stageBusy | incomplete | inconsistent | outOfRange | pointTableFull
  | demandTableFull | writing | storeFail | refusedCondition
  deriving DecidableEq, Repr

/-- An answer in the answer queue or the deferred list (R166, R181), with its loss count (R170). -/
structure Answer where
  target : Nat
  code : FuncCode
  result : Result
  clamped : Bool
  data : List Byte
  losses : Nat
  deriving DecidableEq, Repr

/-- The notice source's current slot (R171), its loss count (R170), and whether the slot's flag has been set since the
notice now on the line was built (R173). -/
structure NoticeOffer where
  slot : Slot
  losses : Nat
  setAgain : Bool
  deriving DecidableEq, Repr

/-- The four kinds of frame source: the Action Dispatcher and the Poll Engine each stand in one of two places of the
arbiter (8.4). -/
inductive Source where
  | action | poll | answer | notice
  deriving DecidableEq, Repr

/-- The part's own frame on the line (R168). A frame that a PART_RESTART load found on the line is orphaned: it runs
out and is applied nowhere (R118, R174). -/
structure LineFrame where
  source : Source
  frame : Frame
  orphan : Bool
  deriving DecidableEq, Repr

/-- What an acknowledge slot says (R175). -/
inductive Ack where
  | accept | refuse | nothing
  deriving DecidableEq, Repr

/-! ### The retained store -/

/-- A store item: the settings item, a unit item or a coil item (R187). -/
inductive Item where
  | settings
  | unit (n : UnitNo)
  | coil (n : Slot)
  deriving DecidableEq, Repr

/-- An item of the retained memory: never written, valid with its content, or failing its check value (R187). -/
inductive Stored (α : Type) where
  | blank
  | valid (content : α)
  | invalid
  deriving DecidableEq, Repr

/-- Content of the settings item (R187). -/
structure SettingsItem where
  outdoor : Option PointKey
  regimeOn : Int
  regimeOff : Int
  supervisors : List Nat
  deriving DecidableEq, Repr

/-- Content of a unit item (R187). -/
structure UnitItem where
  controller : Option Nat
  zone : Fin 16
  deriving DecidableEq, Repr

/-- Lifecycle as a coil item stores it: SETTLING is written as ARMED (R24). -/
inductive StoredLifecycle where
  | draft | armed | suspended
  deriving DecidableEq, Repr

/-- A stored coil definition (R24). -/
structure CoilDefinition where
  tag : Nat
  unit : UnitNo
  kind : Option CoilKind
  lat : Option Binding
  ft : Option Binding
  profile : Option Profile
  lifecycle : StoredLifecycle
  latch : Latch
  deriving DecidableEq, Repr

/-- Content of a coil item: erased for a VACANT slot, else the definition (R24). -/
inductive CoilItem where
  | erased
  | record (d : CoilDefinition)
  deriving DecidableEq, Repr

/-- The content a write has taken, with the item it goes to (R188). -/
inductive WriteContent where
  | settings (c : SettingsItem)
  | unit (n : UnitNo) (c : UnitItem)
  | coil (n : Slot) (c : CoilItem)
  deriving DecidableEq, Repr

/-- The write under way (R188), whether it carries a commit (R153) and whether its item is marked for re-queue. -/
structure Write where
  content : WriteContent
  carries : Bool
  requeue : Bool
  deriving DecidableEq, Repr

/-- The retained memory: 65 items (R187). -/
structure Retained where
  settings : Stored SettingsItem
  units : Table (Stored UnitItem) 16
  coils : Table (Stored CoilItem) 48
  deriving DecidableEq, Repr

/-- Retained memory that has never been written. -/
def Retained.blank : Retained := ⟨.blank, Vector.replicate 16 .blank, Vector.replicate 48 .blank⟩

/-! ### The whole part -/

/-- The state of the part, block by block. -/
structure State where
  /-- The model's clock in milliseconds (log 3). -/
  now : Nat
  /-- Supply, reset pin and loads (R191, R194). -/
  power : Power
  /-- The strap pins (R191). -/
  strap : Strap
  /-- LI: the station address fixed at the last load (R161, R191). -/
  address : Nat
  /-- LI: the zone fixed at the last load (R161, R191). -/
  zone : Fin 16
  /-- LI: strap validity (R191). -/
  strapValid : Bool
  /-- LI: the receive queue (R163). -/
  rx : List RxFrame
  /-- LI: the answer queue (R167). -/
  answers : List Answer
  /-- LI: the deferred answers (R166). -/
  deferred : List Answer
  /-- LI: one notice flag for each slot (R171). -/
  noticeFlags : Table Bool 48
  /-- LI: the notice source's offer (R171). -/
  notice : Option NoticeOffer
  /-- LI: the part's frame on the line (R168). -/
  line : Option LineFrame
  /-- LI: what the part drove in the acknowledge slot of the last frame received (R162). -/
  ack : Ack
  /-- PT: the 96 places of the Point Table (R27). -/
  points : Table (Option PointEntry) 96
  /-- PT: polls owed (R43). -/
  backlog : Nat
  /-- PT: the poll period timer (R41). -/
  pollTimer : Option Nat
  /-- PT: the length of the period now running (R41). -/
  pollPeriod : Nat
  /-- PT: the poll offer (R44). -/
  poll : Option PollOffer
  /-- DE: the outdoor binding (R51). -/
  outdoor : Option PointKey
  /-- DE: regime_on (R51). -/
  regimeOn : Int
  /-- DE: regime_off (R51). -/
  regimeOff : Int
  /-- DE: the outdoor average (R54). -/
  average : Option Int
  /-- DE: the regime (R55). -/
  regime : Regime
  /-- CT, DE, SM: the coil records (R1). -/
  coils : Table Coil 48
  /-- DT: the demand entries (R96). -/
  demands : List DemandEntry
  /-- DT: the join order given in the present event (R103, log 27). -/
  joinStamp : Nat
  /-- AD: the frame held (R107). -/
  dispatch : Option Dispatch
  /-- UT: the 16 unit entries (R119). -/
  units : Table UnitEntry 16
  /-- EU: the 4 claim entries (R140). -/
  claims : Table (Option Claim) 4
  /-- EU: the supervisor list (R138). -/
  supervisors : List Nat
  /-- RS: the retained memory (R187). -/
  retained : Retained
  /-- RS: the store write queue (R188). -/
  storeQueue : List Item
  /-- RS: the write under way (R188). -/
  writing : Option Write
  /-- RS: the store retry timer (R189). -/
  storeRetry : Option Nat
  /-- RS: the settings item's stale mark (R189). -/
  settingsStale : Bool
  /-- RS: the unit items' stale marks (R189). -/
  unitStale : Table Bool 16
  /-- RS: a PART_RESTART is pending (R194). -/
  restartPending : Bool
  /-- RS: the lost-slot count (R191). -/
  lostSlots : Nat
  /-- RS: bit 3 of PART_STATUS, the last load was a PART_RESTART (R186). -/
  lastLoadRestart : Bool
  /-- RS: bit 4 of PART_STATUS, the settings item loaded its defaults (R186). -/
  settingsDefaulted : Bool
  /-- The model's own: free values taken so far (log 15). -/
  freeCount : Nat
  /-- The model's own: the commands that wait (log 1). -/
  pending : List Instr
  deriving DecidableEq, Repr

/-- A unit as a start-up leaves it before its item is loaded, with its input at a level: contact OPEN (R127), output STOP
(R191), undefined, fan proof UNKNOWN, no fault (R119). Its zone stands for that of a unit whose item is blank, which the spec does
not state: 0 is the model's choice (log 34). -/
def UnitEntry.blank (level : ContactLevel) : UnitEntry where
  controller := none
  zone := 0
  fan := .unknown
  statusTimer := none
  level := level
  contact := .opened
  filter := .steady
  fso := .stop
  faults := .empty

/-- Right after reset: in service, after the start-up load of a retained memory that has never been written (log 5, log 6,
log 7), every field as R50, R51, R118, R119, R127, R140, R174, R191 and R193 give it, and the zone of every unit, whose item is
blank, as log 34 says. -/
def State.reset : State where
  now := 0
  power := .running
  strap := ⟨0, 0⟩
  address := Config.fallbackAddress
  zone := 0
  strapValid := false
  rx := []
  answers := []
  deferred := []
  noticeFlags := Vector.replicate 48 false
  notice := none
  line := none
  ack := .nothing
  points := Vector.replicate 96 none
  backlog := 0
  pollTimer := some Config.coldPeriod
  pollPeriod := Config.coldPeriod
  poll := none
  outdoor := none
  regimeOn := Config.defaultRegimeOn
  regimeOff := Config.defaultRegimeOff
  average := none
  regime := .cold
  coils := Vector.replicate 48 (Coil.vacant 0)
  demands := []
  joinStamp := 0
  dispatch := none
  units := Vector.replicate 16 (UnitEntry.blank .openLevel)
  claims := Vector.replicate 4 none
  supervisors := []
  retained := Retained.blank
  storeQueue := []
  writing := none
  storeRetry := none
  settingsStale := false
  unitStale := Vector.replicate 16 false
  restartPending := false
  lostSlots := 0
  lastLoadRestart := false
  settingsDefaulted := true
  freeCount := 0
  pending := []

/-- No meaning of this model faults: the spec gives every command an effect, and a step that cannot occur in a state
leaves the state as it is (log 2). The type has no constructor. -/
inductive Fault
  deriving DecidableEq, Repr

/-- The ways a command can be refused. -/
inductive Refusal where
  /-- Raised by exec's arm for a command that has no meaning yet; safe, since the model stops. No arm raises it now. -/
  | notModelled (mnemonic : String)
  deriving DecidableEq, Repr

end Sys2Proof.Machine
end

