-- ==== Sys2Proof/Machine/Frames.lean ====
section
/-! DEFINITION. The frame as it passes on the line (8.1, R175): fields most significant bit first, one dominant separator
after every eighth bit, the CRC, and the reading of the acknowledge slot. -/

namespace Sys2Proof.Machine

/-- A 0 bit is sent dominant and a 1 bit recessive (R175). -/
def levelOfBit (b : Bool) : LineLevel := if b then .recessive else .dominant

/-- The bit that a level stands for (R175). -/
def bitOfLevel (l : LineLevel) : Bool :=
  match l with
  | .dominant => false
  | .recessive => true

/-- The bits of a field, most significant first (R175). -/
def fieldBits {w : Nat} (x : BitVec w) : List Bool := (List.range w).map fun i => x.getMsbD i

/-- The number that bits stand for, most significant first. -/
def bitsToNat (bs : List Bool) : Nat := bs.foldl (fun n b => 2 * n + b.toNat) 0

/-- One bit through the generator polynomial x^16 + x^12 + x^5 + 1 (R175). -/
def crcStep (r : BitVec 16) (b : Bool) : BitVec 16 :=
  if r.msb != b then (r <<< 1) ^^^ 0x1021#16 else r <<< 1

/-- The check value, with the register preset to all ones (R175). -/
def crc (bs : List Bool) : BitVec 16 := bs.foldl crcStep 0xFFFF#16

/-- URGENT is sent dominant, ROUTINE recessive (R175). -/
def classBit (c : FrameClass) : Bool :=
  match c with
  | .urgent => false
  | .routine => true

/-- The bits from class to the end of the payload (R175). -/
def Frame.body (f : Frame) : List Bool :=
  classBit f.cls :: (fieldBits f.sender ++ fieldBits f.target ++ fieldBits f.code
    ++ fieldBits (BitVec.ofNat 5 f.payload.length) ++ f.payload.flatMap fieldBits)

/-- Insert one dominant separator after every eighth bit; `n` bits have passed since the last one (R175). -/
def insertSeparators : Nat → List Bool → List LineLevel
  | _, [] => []
  | n, b :: bs =>
    if n = 7 then levelOfBit b :: .dominant :: insertSeparators 0 bs
    else levelOfBit b :: insertSeparators (n + 1) bs

/-- Remove the separators; a separator read as recessive ends the reception there (R175). -/
def removeSeparators : Nat → List LineLevel → List Bool
  | _, [] => []
  | n, l :: ls =>
    if n = 8 then
      match l with
      | .dominant => removeSeparators 0 ls
      | .recessive => []
    else bitOfLevel l :: removeSeparators (n + 1) ls

/-- The levels of a frame after its start bit, up to the end of its CRC (R175). -/
def Frame.levels (f : Frame) : List LineLevel := insertSeparators 0 (f.body ++ fieldBits (crc f.body))

/-- `n` bits from place `at`. -/
def bitSlice (bs : List Bool) (start n : Nat) : List Bool := (bs.drop start).take n

/-- The bits from class to length (R175). -/
abbrev headerBits : Nat := 28

/-- Largest payload of a good frame (R158, R175). -/
abbrev maxPayload : Nat := 24

/-- The part's judgement of a received frame (R158): a frame cut short before its CRC, with a length above 24 or a wrong CRC
is bad and gives none. Levels after the CRC are no part of the frame (log 8). -/
def readFrame (levels : List LineLevel) : Option Frame :=
  let bits := removeSeparators 0 levels
  let len := bitsToNat (bitSlice bits 23 5)
  let total := headerBits + 8 * len
  if bits.length < headerBits ∨ maxPayload < len ∨ bits.length < total + 16 then none
  else if bitsToNat (bitSlice bits total 16) = (crc (bits.take total)).toNat then
    some
      { cls := if bits.headD true then .routine else .urgent
        sender := BitVec.ofNat 8 (bitsToNat (bitSlice bits 1 8))
        target := BitVec.ofNat 8 (bitsToNat (bitSlice bits 9 8))
        code := BitVec.ofNat 6 (bitsToNat (bitSlice bits 17 6))
        payload := (List.range len).map fun k => BitVec.ofNat 8 (bitsToNat (bitSlice bits (headerBits + 8 * k) 8)) }
  else none

/-- How an acknowledge slot is read (R175). -/
def readAck (bits : AckBits) : Ack :=
  match bits.first, bits.second with
  | .dominant, .recessive => .accept
  | .recessive, .dominant => .refuse
  | .recessive, .recessive => .nothing
  | .dominant, .dominant => .nothing

/-- The two bits the part drives for an answer in the slot (R162, R175). -/
def ackBits (a : Ack) : AckBits :=
  match a with
  | .accept => ⟨.dominant, .recessive⟩
  | .refuse => ⟨.recessive, .dominant⟩
  | .nothing => ⟨.recessive, .recessive⟩

end Sys2Proof.Machine
end

