-- ==== Sys2Proof/Machine/Operands.lean ====
section
/-! DEFINITION. The operands that frames carry: the function codes and lengths of R177, and the payload fields of R176,
R178 and R180. -/

namespace Sys2Proof.Machine

/-- The functions of R177. -/
inductive Func where
  | report | unitStatus | poll | action | stageNotice | answer
  | queryCoil | queryPoint | queryUnit | queryDemand | partStatus | readFaults
  | create | arm | suspend | retire | restart | releaseLockout
  | claim | stageLimits | stageDose | stageTiming | stageMap | stageBind | commit | abandon
  | unitSet | partSet | supervisorSet | partRestart
  deriving DecidableEq, Repr

/-- Function codes (R177). -/
def Func.code : Func → FuncCode
  | .report => 1
  | .unitStatus => 2
  | .poll => 3
  | .action => 4
  | .stageNotice => 5
  | .answer => 6
  | .queryCoil => 8
  | .queryPoint => 9
  | .queryUnit => 10
  | .queryDemand => 11
  | .partStatus => 12
  | .readFaults => 13
  | .create => 16
  | .arm => 17
  | .suspend => 18
  | .retire => 19
  | .restart => 20
  | .releaseLockout => 21
  | .claim => 24
  | .stageLimits => 25
  | .stageDose => 26
  | .stageTiming => 27
  | .stageMap => 28
  | .stageBind => 29
  | .commit => 30
  | .abandon => 31
  | .unitSet => 32
  | .partSet => 33
  | .supervisorSet => 34
  | .partRestart => 35

/-- Every function. -/
def Func.all : List Func :=
  [.report, .unitStatus, .poll, .action, .stageNotice, .answer, .queryCoil, .queryPoint, .queryUnit, .queryDemand,
   .partStatus, .readFaults, .create, .arm, .suspend, .retire, .restart, .releaseLockout, .claim, .stageLimits,
   .stageDose, .stageTiming, .stageMap, .stageBind, .commit, .abandon, .unitSet, .partSet, .supervisorSet, .partRestart]

/-- The function with a code, if the part knows it (R177). -/
def Func.ofCode (c : FuncCode) : Option Func := Func.all.find? fun f => f.code == c

/-- Payload lengths (R177). An ANSWER is received only to be discarded, so it has no length of its own here. -/
def Func.length : Func → Nat
  | .report => 5
  | .unitStatus => 2
  | .poll => 1
  | .action => 2
  | .stageNotice => 11
  | .answer => 2
  | .queryCoil => 3
  | .queryPoint => 2
  | .queryUnit => 1
  | .queryDemand => 2
  | .partStatus => 0
  | .readFaults => 1
  | .create => 4
  | .arm => 1
  | .suspend => 1
  | .retire => 1
  | .restart => 1
  | .releaseLockout => 1
  | .claim => 1
  | .stageLimits => 8
  | .stageDose => 6
  | .stageTiming => 2
  | .stageMap => 3
  | .stageBind => 4
  | .commit => 0
  | .abandon => 0
  | .unitSet => 3
  | .partSet => 6
  | .supervisorSet => 5
  | .partRestart => 0

/-- The functions that only the part sends; received, they are discarded (R165). -/
def Func.sentByPart (f : Func) : Bool :=
  match f with
  | .poll | .action | .stageNotice | .answer => true
  | _ => false

/-- The functions that are reports and statuses, taken from broadcasts too (R165). -/
def Func.takenFromBroadcast (f : Func) : Bool :=
  match f with
  | .report | .unitStatus => true
  | _ => false

/-- The requests: every other function (R165). -/
def Func.isRequest (f : Func) : Bool := !f.sentByPart && !f.takenFromBroadcast

/-- Byte `i` of a payload. -/
def byteAt (p : List Byte) (i : Nat) : Nat := (p.getD i 0).toNat

/-- An unsigned two-byte field, high byte first (R176). -/
def wordAt (p : List Byte) (i : Nat) : Nat := byteAt p i * 256 + byteAt p (i + 1)

/-- A signed two-byte field (R176). -/
def int16At (p : List Byte) (i : Nat) : Int := (p.getD i 0 ++ p.getD (i + 1) 0).toInt

/-- A signed one-byte field (R176). -/
def int8At (p : List Byte) (i : Nat) : Int := (p.getD i 0).toInt

/-- A station field in which 0 means none (R176). -/
def stationOrNone (n : Nat) : Option Nat := if n = 0 then none else some n

/-- A slot number, if it is 47 or less (R10). -/
def slotOf (n : Nat) : Option Slot := if h : n < 48 then some ⟨n, h⟩ else none

/-- A unit number, if it is 15 or less (R119). -/
def unitOf (n : Nat) : Option UnitNo := if h : n < 16 then some ⟨n, h⟩ else none

/-- A zone number, if it is 15 or less (R121). -/
def zoneOf (n : Nat) : Option (Fin 16) := if h : n < 16 then some ⟨n, h⟩ else none

/-- Coil kind codes (R176). -/
def coilKindOf (n : Nat) : Option CoilKind :=
  match n with
  | 0 => some .hotWater
  | 1 => some .steam
  | 2 => some .chilledWater
  | _ => none

/-- Action kind codes (R176). -/
def actionKindOf (n : Nat) : Option ActionKind :=
  match n with
  | 0 => some .fs
  | 1 => some .oac
  | 2 => some .vfo
  | 3 => some .pms
  | 4 => some .fbf
  | _ => none

/-- A fan proof that a UNIT_STATUS may carry: RUNNING or STOPPED (R123, R178). -/
def reportedFanOf (n : Nat) : Option FanProof :=
  match n with
  | 1 => some .running
  | 2 => some .stopped
  | _ => none

/-- A point key in its ranges (R27, R32). -/
def PointKey.inRange (k : PointKey) : Bool := isStation k.station && decide (k.point ≤ 63)

/-- The action map that a STAGE_MAP carries (R180). -/
def mapFields (p : List Byte) : ActionMap where
  vfo := stationOrNone (byteAt p 0)
  pms := stationOrNone (byteAt p 1)
  fbf := stationOrNone (byteAt p 2)

/-- The limits that a STAGE_LIMITS carries (R180). -/
def limitsFields (p : List Byte) : Limits where
  airLimit := int16At p 0
  fluidLimit := int16At p 2
  watchBand := int16At p 4
  decay := int16At p 6

/-- The watermarks and trip dose that a STAGE_DOSE carries (R180). -/
def doseFields (p : List Byte) : DoseMarks where
  lower := wordAt p 0
  upper := wordAt p 2
  tripDose := wordAt p 4

/-- The binding or unbind that a STAGE_BIND carries: source station 0 stages an unbind (R180). -/
def bindFields (p : List Byte) : StagedBinding :=
  if byteAt p 1 = 0 then .unbind
  else .bind { key := { station := byteAt p 1, point := byteAt p 2 }, offset := int8At p 3 }

/-- The outdoor binding that a PART_SET carries: station 0 binds none (R180). -/
def outdoorField (p : List Byte) : Option PointKey :=
  if byteAt p 0 = 0 then none else some { station := byteAt p 0, point := byteAt p 1 }

end Sys2Proof.Machine
end

