-- ==== Sys2Proof/Machine/Flags.lean ====
section
/-! DEFINITION. The codings of answers and notices: the codes of named values, sets, absent values and remaining times of
R176, and the result codes of R181. -/

namespace Sys2Proof.Machine

/-- A value sent in one byte. -/
def byteOf (n : Nat) : Byte := BitVec.ofNat 8 n

/-- A signed value sent in one byte, two's complement (R176). -/
def int8Of (x : Int) : Byte := BitVec.ofInt 8 x

/-- An unsigned two-byte value, high byte first (R176). -/
def wordBytes (n : Nat) : List Byte := [byteOf (n / 256), byteOf n]

/-- A signed two-byte value, two's complement, high byte first (R176). -/
def int16Bytes (x : Int) : List Byte :=
  let w := BitVec.ofInt 16 x
  [(w >>> 8).setWidth 8, w.setWidth 8]

/-- An optional one-byte code or count: 255 where absent (R176). -/
def optByte (x : Option Nat) : Byte := byteOf (x.getD 255)

/-- An optional unsigned two-byte value: 65535 where absent (R176). -/
def optWord (x : Option Nat) : List Byte := wordBytes (x.getD 65535)

/-- An optional signed two-byte value: -32768 where absent (R176). -/
def optInt16 (x : Option Int) : List Byte := int16Bytes (x.getD (-32768))

/-- A byte of flags, bit 0 first. -/
def flagsByte (bits : List Bool) : Byte := byteOf (bits.foldr (fun b n => b.toNat + 2 * n) 0)

/-- Whole seconds left until a moment, rounded up (R176). -/
def secondsLeft (now expiry : Nat) : Nat := (expiry - now + 999) / 1000

/-- Tenths of a second left until a moment, rounded up (R176). -/
def tenthsLeft (now expiry : Nat) : Nat := (expiry - now + 99) / 100

/-- Kind codes (R176). -/
def CoilKind.wire : CoilKind → Nat
  | .hotWater => 0
  | .steam => 1
  | .chilledWater => 2

/-- Lifecycle codes (R176). -/
def Lifecycle.wire : Lifecycle → Nat
  | .vacant => 0
  | .draft => 1
  | .settling => 2
  | .armed => 3
  | .suspended => 4

/-- Stage codes (R176). -/
def Stage.wire : Stage → Nat
  | .clear => 0
  | .watch => 1
  | .guard => 2
  | .trip => 3
  | .recovery _ => 4
  | .lockout => 5

/-- Recovery phase codes, 0 outside RECOVERY (R176). -/
def Stage.phaseWire : Stage → Nat
  | .recovery .fanRestart => 1
  | .recovery .prove => 2
  | .recovery (.stepDown _) => 3
  | .clear | .watch | .guard | .trip | .lockout => 0

/-- The step-down progress set: OAC, FBF, PMS, VFO (R176); empty outside STEP_DOWN. -/
def Stage.progress : Stage → Dropped
  | .recovery (.stepDown d) => d
  | .recovery .fanRestart | .recovery .prove | .clear | .watch | .guard | .trip | .lockout => .empty

/-- The step-down progress byte (R176). R176 states no value for bits 4 to 7, which stand for no kind: the model sends 0, its own
choice (log 33). -/
def Dropped.wire (d : Dropped) : Byte := flagsByte [d.oac, d.fbf, d.pms, d.vfo]

/-- Trip latch codes (R176). -/
def Latch.wire : Latch → Nat
  | .none => 0
  | .trip n => n.val + 1
  | .lockout => 4

/-- Cause codes (R176). -/
def Cause.wire : Cause → Nat
  | .none => 0
  | .doseWatch => 1
  | .doseGuard => 2
  | .doseTrip => 3
  | .airLimit => 4
  | .sensorLost => 5
  | .contact => 6
  | .actuator => 7
  | .restart => 8
  | .lockoutReleased => 9
  | .cleared => 10

/-- Quality codes (R176). -/
def Quality.wire : Quality → Nat
  | .none => 0
  | .fresh => 1
  | .stale => 2
  | .lost => 3
  | .fault => 4

/-- Fan proof codes (R176). -/
def FanProof.wire : FanProof → Nat
  | .unknown => 0
  | .running => 1
  | .stopped => 2

/-- Action kind codes (R176). -/
def actionKindWire : ActionKind → Nat
  | .fs => 0
  | .oac => 1
  | .vfo => 2
  | .pms => 3
  | .fbf => 4

/-- Polarity codes (R176). -/
def Polarity.wire : Polarity → Nat
  | .release => 0
  | .assert => 1

/-- Commanded state codes (R176). -/
def Commanded.wire : Commanded → Nat
  | .released => 0
  | .asserted => 1
  | .unknown => 2

/-- The fault summary byte (R176). R176 states no value for bits 5 to 7, which stand for no kind: the model sends 0, its own
choice (log 33). -/
def FaultSummary.wire (f : FaultSummary) : Byte :=
  flagsByte [f.contactOpen, f.sensorLost, f.actuatorFail, f.trip, f.sequenceGap]

/-- Result codes (R181). -/
def Result.wire : Result → Nat
  | .done => 0
  | .unknownFunction => 1
  | .badLength => 2
  | .notPermitted => 3
  | .noRecord => 4
  | .tagInUse => 5
  | .tableFull => 6
  | .claimedElsewhere => 7
  | .notClaimed => 8
  | .noStaging => 9
  | .wrongState => 10
  | .stageBusy => 11
  | .incomplete => 12
  | .inconsistent => 13
  | .outOfRange => 14
  | .pointTableFull => 15
  | .demandTableFull => 16
  | .writing => 17
  | .storeFail => 18
  | .refusedCondition => 19

/-- The payload of an ANSWER: the two-byte header of R181, then the data of a DONE. -/
def Answer.payload (a : Answer) : List Byte :=
  byteOf a.code.toNat :: byteOf (a.result.wire + if a.clamped then 128 else 0)
    :: (if a.result = .done then a.data else [])

/-- A binding in the DEFINITION view: station, point number, offset; station 0 for an empty position (R182), whose other
two bytes are free (log 15). `n` counts the free values taken. -/
def bindingBytes (b : Option Binding) (n : Nat) : List Byte :=
  match b with
  | some b => [byteOf b.key.station, byteOf b.key.point, int8Of b.offset]
  | none => [0, Config.emptyBindingByte n, Config.emptyBindingByte (n + 1)]

end Sys2Proof.Machine
end

