-- ==== Sys2Proof/Machine/Ops.lean ====
section
/-! DEFINITION. The operations that every block shares: places of tables, moments, permissions, target pairs and demanded
kinds, notice flags, dirty marks, fault summaries, fan-stop outputs, and the request handler with its answers. -/

namespace Sys2Proof.Machine

/-! ### Tables and moments -/

/-- Put a value in one place of a table. -/
def tablePut {α : Type} {n : Nat} (t : Table α n) (i : Fin n) (x : α) : Table α n := t.set i.val x i.isLt

/-- Apply a function at every place of a table. -/
def tableMap {α β : Type} {n : Nat} (f : α → β) (t : Table α n) : Table β n := ⟨⟨t.toList.map f⟩, by simp⟩

/-- A list with each value held once, at its first place. -/
def distinct {α : Type} [DecidableEq α] : List α → List α
  | [] => []
  | x :: xs => x :: (distinct xs).filter fun y => y ≠ x

/-- Change one coil record. -/
def State.setCoil (s : State) (i : Slot) (c : Coil) : State := { s with coils := tablePut s.coils i c }

/-- Change one unit entry. -/
def State.setUnit (s : State) (u : UnitNo) (e : UnitEntry) : State := { s with units := tablePut s.units u e }

/-- Change one claim entry. -/
def State.setClaim (s : State) (n : ClaimNo) (c : Option Claim) : State := { s with claims := tablePut s.claims n c }

/-- The clock at the expiry of a timer: the moment it was set for, or the present one if that has passed (log 3). -/
def State.atExpiry (s : State) (expiry : Nat) : State := { s with now := max s.now expiry }

/-- Apply an operation to the slots one after another, from 0 to 47 (log 13). -/
def forSlots (f : Slot → State → State) (s : State) : State := (List.finRange 48).foldl (fun s i => f i s) s

/-- Apply an operation to the units one after another, from 0 to 15. -/
def forUnits (f : UnitNo → State → State) (s : State) : State := (List.finRange 16).foldl (fun s u => f u s) s

/-! ### Permissions (R136) -/

/-- A station is a supervisor when it is on the list, or when the list is empty. -/
def State.isSupervisor (s : State) (a : Nat) : Bool := s.supervisors.isEmpty || s.supervisors.contains a

/-- A station is the unit controller of a record when it is the controller station of the record's unit. -/
def State.isUnitController (s : State) (a : Nat) (i : Slot) : Bool :=
  s.units[s.coils[i].unit].controller == some a

/-- Supervisor or unit controller of the record. -/
def State.mayEdit (s : State) (a : Nat) (i : Slot) : Bool := s.isSupervisor a || s.isUnitController a i

/-! ### Target pairs and demanded kinds -/

/-- The target pairs of a definition, in the order FS, OAC, VFO, PMS, FBF (R5, R118). PMS is not used for STEAM coils. -/
def pairsOf (controller : Option Nat) (kind : Option CoilKind) (map : Option ActionMap) : List DemandKey :=
  (match controller with
    | some a => [⟨a, .fs⟩, ⟨a, .oac⟩]
    | none => [])
  ++ (match map with
    | some m =>
      (m.vfo.map fun a => DemandKey.mk a .vfo).toList
      ++ (if kind = some .steam then [] else (m.pms.map fun a => DemandKey.mk a .pms).toList)
      ++ (m.fbf.map fun a => DemandKey.mk a .fbf).toList
    | none => [])

/-- The target pairs of a record (R5). -/
def State.targetPairs (s : State) (c : Coil) : List DemandKey :=
  pairsOf s.units[c.unit].controller c.kind (c.profile.map (·.map))

/-- Whether a kind has been dropped (R86). -/
def Dropped.has (d : Dropped) (k : ActionKind) : Bool :=
  match k with
  | .oac => d.oac
  | .fbf => d.fbf
  | .pms => d.pms
  | .vfo => d.vfo
  | .fs => false

/-- Add a kind to the step-down progress (R86); FS is never dropped there. -/
def Dropped.add (d : Dropped) (k : ActionKind) : Dropped :=
  match k with
  | .oac => { d with oac := true }
  | .fbf => { d with fbf := true }
  | .pms => { d with pms := true }
  | .vfo => { d with vfo := true }
  | .fs => d

/-- The kind dropped last, by the fixed order OAC, FBF, PMS, VFO (R86). -/
def Dropped.lastKind (d : Dropped) : Option ActionKind :=
  if d.vfo then some .vfo
  else if d.pms then some .pms
  else if d.fbf then some .fbf
  else if d.oac then some .oac
  else none

/-- Whether a stage and phase demand a kind (R90). -/
def Stage.demands (st : Stage) (k : ActionKind) : Bool :=
  match st with
  | .clear | .watch => false
  | .guard => k != .fs
  | .trip | .lockout => true
  | .recovery .fanRestart | .recovery .prove => k != .fs
  | .recovery (.stepDown d) => k != .fs && !d.has k

/-- The pairs a record contributes to: those of an ARMED record whose kind its stage and phase demand (R90, R98). -/
def State.demandedPairs (s : State) (c : Coil) : List DemandKey :=
  if c.lifecycle = .armed then (s.targetPairs c).filter fun k => c.stage.demands k.kind else []

/-! ### Notice flags (R171, R173) -/

/-- Set a slot's notice flag; a current notice of that slot is marked, so that a flag set after its build stays set at its
completion. -/
def State.setNotice (s : State) (i : Slot) : State :=
  { s with
    noticeFlags := tablePut s.noticeFlags i true
    notice := s.notice.map fun n => if n.slot = i then { n with setAgain := true } else n }

/-- The lowest slot whose flag is set (R171). -/
def State.lowestFlag (s : State) : Option Slot := (List.finRange 48).find? fun i => s.noticeFlags[i]

/-- With no current notice, the source chooses the lowest slot whose flag is set (R171). -/
def State.chooseNotice (s : State) : State :=
  match s.notice with
  | some _ => s
  | none => { s with notice := s.lowestFlag.map fun i => { slot := i, losses := 0, setAgain := false } }

/-- The end of an event: the notice source chooses from the flags the whole event has left (log 24), and entries that join
the action queue later take a later join order (R103, log 27). -/
def State.endEvent (s : State) : State := { s.chooseNotice with joinStamp := s.joinStamp + 1 }

/-! ### The store write queue (R188) -/

/-- The item that a write goes to. -/
def WriteContent.item : WriteContent → Item
  | .settings _ => .settings
  | .unit n _ => .unit n
  | .coil n _ => .coil n

/-- Whether an item is being written. -/
def State.isWriting (s : State) (it : Item) : Bool := s.writing.any fun w => w.content.item == it

/-- Mark an item dirty: it joins the queue's tail, stays where it waits, or is marked for re-queue (R188). -/
def State.markDirty (s : State) (it : Item) : State :=
  if s.isWriting it then { s with writing := s.writing.map fun w => { w with requeue := true } }
  else if s.storeQueue.contains it then s
  else { s with storeQueue := s.storeQueue ++ [it] }

/-! ### Fault summaries (R133) -/

/-- Add a kind to a summary. -/
def FaultSummary.add (f : FaultSummary) (k : FaultKind) : FaultSummary :=
  match k with
  | .contactOpen => { f with contactOpen := true }
  | .sensorLost => { f with sensorLost := true }
  | .actuatorFail => { f with actuatorFail := true }
  | .trip => { f with trip := true }
  | .sequenceGap => { f with sequenceGap := true }

/-- Add a kind to a unit's fault summary. -/
def State.addFault (s : State) (u : UnitNo) (k : FaultKind) : State :=
  s.setUnit u { s.units[u] with faults := s.units[u].faults.add k }

/-- Add a kind to the fault summary of every unit that meets a condition. -/
def State.addFaultWhere (s : State) (k : FaultKind) (p : UnitNo → Bool) : State :=
  forUnits (fun u s => if p u then s.addFault u k else s) s

/-! ### Fan-stop outputs (R130, R131) -/

/-- ARMED in TRIP or LOCKOUT. -/
def Coil.tripped (c : Coil) : Bool := c.lifecycle == .armed && (c.stage == .trip || c.stage == .lockout)

/-- SETTLING with a trip latch other than NONE. -/
def Coil.settlesLatched (c : Coil) : Bool := c.lifecycle == .settling && c.latch != .none

/-- Whether a coil of the unit holds the unit's output at STOP (R130). -/
def State.coilHoldsFan (s : State) (u : UnitNo) : Bool :=
  s.coils.toList.any fun c => c.unit == u && (c.tripped || c.settlesLatched)

/-- The output that the conditions of R130 give a unit. While the part is not in service the output is STOP (R132, R191),
but during a PART_RESTART load it is kept, and only an OPEN contact drives it to STOP (R130, log 22). -/
def State.fsoFor (s : State) (u : UnitNo) : FanStop :=
  match s.power with
  | .running => if s.units[u].contact = .opened ∨ s.coilHoldsFan u then .stop else .run
  | .restartLoad => if s.units[u].contact = .opened then .stop else s.units[u].fso
  | .off | .held | .startLoad => .stop

/-- Recompute a unit's fan-stop output (R131). -/
def State.recomputeFso (s : State) (u : UnitNo) : State := s.setUnit u { s.units[u] with fso := s.fsoFor u }

/-! ### The request handler and its answers (R164 to R167) -/

/-- What an owner answers to a request: result, CLAMPED and data (R181). -/
structure Reply where
  result : Result
  clamped : Bool
  data : List Byte
  deriving DecidableEq, Repr

/-- DONE with data. -/
def Reply.done (data : List Byte) : Reply := ⟨.done, false, data⟩

/-- A refusal: the header alone (R181). -/
def Reply.refuse (r : Result) : Reply := ⟨r, false, []⟩

/-- The answer to a request: addressed to its sender (R166). -/
def RxFrame.answer (f : RxFrame) (r : Reply) : Answer where
  target := f.sender
  code := f.code
  result := r.result
  clamped := r.clamped
  data := r.data
  losses := 0

/-- An answer formed by the request handler joins the answer queue at its tail (R166). -/
def State.pushAnswer (s : State) (a : Answer) : State := { s with answers := s.answers ++ [a] }

/-- The conditions other than a waiting frame under which the request handler takes one (R164). -/
def State.handlerReady (s : State) : Bool :=
  s.power == .running && !s.restartPending && s.deferred.isEmpty && decide (s.answers.length < Config.answerCapacity)

/-- The handler takes the frame at the head of the receive queue if it may take one and the frame is of the kind `p`; the
event does not occur otherwise (R164, log 2). -/
def takeFrame (p : RxFrame → Bool) (effect : RxFrame → State → State) (s : State) : State :=
  match s.rx with
  | [] => s
  | f :: rest => if s.handlerReady && p f then effect f { s with rx := rest } else s

/-- What the owner of a request leaves: the state, and the answer it gives at once, if any (R166). -/
abbrev Handled := State × Option Reply

/-- Refuse a request: no state is changed. -/
def refuse (s : State) (r : Result) : Handled := (s, some (.refuse r))

/-- A request taken by the handler (R165): discarded when it came by broadcast, answered BAD_LENGTH when its length is not
its function's, and else judged by its owner, whose answer joins the answer queue. -/
def takeRequest (fn : Func) (owner : RxFrame → State → Handled) (s : State) : State :=
  takeFrame (fun f => f.code == fn.code)
    (fun f s =>
      if !f.addressed then s
      else if f.payload.length ≠ fn.length then s.pushAnswer (f.answer (.refuse .badLength))
      else
        match owner f s with
        | (s, some r) => s.pushAnswer (f.answer r)
        | (s, none) => s)
    s

/-- Judge a request that names a slot in its first byte: OUT_OF_RANGE above 47, NO_RECORD for a VACANT slot (R13, R20, R22,
R80, R82, R141). -/
def withRecord (s : State) (n : Nat) (k : Slot → Handled) : Handled :=
  match slotOf n with
  | none => refuse s .outOfRange
  | some i => if s.coils[i].lifecycle = .vacant then refuse s .noRecord else k i

end Sys2Proof.Machine
end

