-- ==== Sys2Proof/Machine/Points.lean ====
section
/-! DEFINITION. The Point Table and its Poll Engine (chapter 2), and the Regime Monitor (3.1). -/

namespace Sys2Proof.Machine

/-! ### Entries and references -/

/-- A new entry (R28). -/
def PointEntry.new (key : PointKey) (refs : Nat) : PointEntry where
  key := key
  refs := refs
  held := none
  lastSeq := none
  quality := .none
  miss := 0
  reported := false
  polled := false
  streak := 0
  gaps := 0

/-- The place of the entry that holds a key. -/
def indexOf (points : Table (Option PointEntry) 96) (k : PointKey) : Option (Fin 96) :=
  (List.finRange 96).find? fun i => points[i].any fun e => e.key == k

/-- The entry that holds a key. -/
def entryOf (points : Table (Option PointEntry) 96) (k : PointKey) : Option PointEntry :=
  (indexOf points k).bind fun i => points[i]

/-- The references counted on a key: 0 where no entry holds it. -/
def refsOf (points : Table (Option PointEntry) 96) (k : PointKey) : Nat := ((entryOf points k).map (·.refs)).getD 0

/-- The lowest unused place (R30). -/
def lowestUnused (points : Table (Option PointEntry) 96) : Option (Fin 96) :=
  (List.finRange 96).find? fun i => points[i].isNone

/-- The number of entries in use (R27). -/
def pointsInUse (points : Table (Option PointEntry) 96) : Nat := points.toList.countP Option.isSome

/-- Create an entry at the lowest unused place (R30). -/
def createEntry (points : Table (Option PointEntry) 96) (k : PointKey) (refs : Nat) : Table (Option PointEntry) 96 :=
  match lowestUnused points with
  | some i => tablePut points i (some (.new k refs))
  | none => points

/-- References given up and taken by one request (R30). -/
structure RefChange where
  gives : List PointKey
  takes : List PointKey
  deriving DecidableEq, Repr

/-- The new count of a key: the old count, less the references given up, plus those taken (R30). -/
def RefChange.count (ch : RefChange) (points : Table (Option PointEntry) 96) (k : PointKey) : Nat :=
  refsOf points k + ch.takes.count k - ch.gives.count k

/-- The keys that the change newly places, first named first (R30, R31, log 14). -/
def RefChange.placed (ch : RefChange) (points : Table (Option PointEntry) 96) : List PointKey :=
  (distinct ch.takes).filter fun k => refsOf points k == 0 && decide (0 < ch.count points k)

/-- The table after the entries whose new count is 0 are removed and the others hold theirs (R30). -/
def RefChange.recount (ch : RefChange) (points : Table (Option PointEntry) 96) : Table (Option PointEntry) 96 :=
  tableMap
    (fun o => o.bind fun e => if ch.count points e.key = 0 then none else some { e with refs := ch.count points e.key })
    points

/-- The table after the whole change (R30). -/
def RefChange.apply (ch : RefChange) (points : Table (Option PointEntry) 96) : Table (Option PointEntry) 96 :=
  (ch.placed points).foldl (fun t k => createEntry t k (ch.count points k)) (ch.recount points)

/-- The capacity check: the keys newly placed are no more than the unused entries and those the change removes (R31). -/
def RefChange.fits (ch : RefChange) (points : Table (Option PointEntry) 96) : Bool :=
  decide ((ch.placed points).length ≤ 96 - pointsInUse (ch.recount points))

/-! ### The poll offer -/

/-- The poll offer has begun to be sent only while its frame is on the line (R46, R168). -/
def State.pollOnLine (s : State) : Bool := s.line.any fun l => l.source == .poll && !l.orphan

/-- A candidate for polling: a miss count of 1 or more and a clear polled flag (R44). -/
def PointEntry.candidate (e : PointEntry) : Bool := decide (1 ≤ e.miss) && !e.polled

/-- The better of two candidates met in the order of their indexes: the higher miss count, else the earlier (R44). -/
def betterCandidate (best : Option (Fin 96 × PointEntry)) (i : Fin 96) (o : Option PointEntry) : Option (Fin 96 × PointEntry) :=
  match o with
  | none => best
  | some e =>
    if e.candidate then
      match best with
      | none => some (i, e)
      | some (_, b) => if b.miss < e.miss then some (i, e) else best
    else best

/-- The candidate chosen: the highest miss count, and of equal ones the lowest index (R44). -/
def chooseCandidate (points : Table (Option PointEntry) 96) : Option (Fin 96 × PointEntry) :=
  (List.finRange 96).foldl (fun best i => betterCandidate best i points[i]) none

/-- The class of an offer by the backlog (R45). -/
def pollClass (backlog : Nat) : FrameClass := if backlog = 3 then .urgent else .routine

/-- The Poll Engine's choice: while polls are owed and no offer stands, offer the chosen candidate; with no candidate the
backlog becomes 0 (R44). -/
def State.choosePoll (s : State) : State :=
  if s.backlog = 0 ∨ s.poll.isSome then s
  else
    match chooseCandidate s.points with
    | some (i, e) => { s with poll := some { key := e.key, entry := some i, cls := pollClass s.backlog, losses := 0 } }
    | none => { s with backlog := 0 }

/-- A reference change has removed the entry of the offer (R49): an offer not being sent is withdrawn and the engine chooses
again; one being sent goes on without its entry. -/
def State.pollEntryRemoved (s : State) : State :=
  if s.pollOnLine then { s with poll := s.poll.map fun p => { p with entry := none } }
  else ({ s with poll := none } : State).choosePoll

/-- Apply a reference change to the Point Table (R30), with its effect on the poll offer (R49). -/
def State.changeRefs (s : State) (ch : RefChange) : State :=
  let gone := (s.poll.bind (·.entry)).any fun i => s.points[i].isSome && (ch.recount s.points)[i].isNone
  let s := { s with points := ch.apply s.points }
  if gone then s.pollEntryRemoved else s

/-! ### What consumers see (R39) -/

/-- The effective value of a coil binding, if it is available (R39). -/
def State.effective (s : State) (b : Binding) : Option Int :=
  (entryOf s.points b.key).bind fun e =>
    if e.quality = .fresh ∨ e.quality = .stale then e.held.map fun v => v + b.offset else none

/-- A binding is available when its point's quality is FRESH or STALE (R39). -/
def State.available (s : State) (b : Binding) : Bool :=
  (entryOf s.points b.key).any fun e => e.quality == .fresh || e.quality == .stale

/-- FT is required of HOT_WATER and STEAM coils (R4). -/
def ftRequired (kind : Option CoilKind) : Bool := kind == some .hotWater || kind == some .steam

/-- A condition holds of every required binding of a record: LAT for every kind, FT where the kind requires it (R4). A
required position that is empty meets no condition. -/
def Coil.everyRequired (c : Coil) (p : Binding → Bool) : Bool :=
  c.lat.any p && (!ftRequired c.kind || c.ft.any p)

/-- Every required binding of a record is available (R59, R80). -/
def State.requiredAvailable (s : State) (c : Coil) : Bool := c.everyRequired s.available

/-- A record has a binding that names a key. -/
def Coil.binds (c : Coil) (k : PointKey) : Bool :=
  c.lifecycle != .vacant && (c.lat.any (fun b => b.key == k) || c.ft.any (fun b => b.key == k))

/-! ### The Regime Monitor (3.1) -/

/-- The average after an accepted outdoor report (R54). -/
def nextAverage (average : Option Int) (x : Int) : Int :=
  match average with
  | none => x
  | some a => a + (x - a).tdiv 8

/-- The regime after the average has been updated (R55). -/
def nextRegime (regime : Regime) (average on off : Int) : Regime :=
  match regime with
  | .cold => if off ≤ average then .mild else .cold
  | .mild => if average ≤ on then .cold else .mild

/-- An accepted outdoor report (R54, R55). -/
def State.outdoorReport (s : State) (x : Int) : State :=
  let a := nextAverage s.average x
  { s with average := some a, regime := nextRegime s.regime a s.regimeOn s.regimeOff }

/-- The fallback to COLD; the average is kept (R56). -/
def State.fallBack (s : State) : State := { s with regime := .cold }

/-- The length of a poll period that starts in a regime (R41). -/
def periodOf (r : Regime) : Nat :=
  match r with
  | .cold => Config.coldPeriod
  | .mild => Config.mildPeriod

/-! ### Reports (R34 to R37) -/

/-- A REPORT's fields (R178). -/
structure Reading where
  value : Int
  seq : Byte
  faulty : Bool
  deriving DecidableEq, Repr

/-- The reading that a REPORT carries: value, sequence, fault flag (R178). -/
def readingOf (p : List Byte) : Reading where
  value := int16At p 1
  seq := p.getD 3 0
  faulty := (p.getD 4 0).getLsbD 0

/-- Taken as a fault report: the fault flag set, or a value that is not plausible (R35). -/
def Reading.isFault (r : Reading) : Bool := r.faulty || decide (r.value < -400) || decide (900 < r.value)

/-- In step: no last sequence, or the sequence after it, modulo 256 (R36). -/
def PointEntry.inStep (e : PointEntry) (seq : Byte) : Bool :=
  match e.lastSeq with
  | none => true
  | some l => seq == l + 1

/-- The entry after a fault report (R35). -/
def PointEntry.takeFault (e : PointEntry) (r : Reading) : PointEntry :=
  { e with quality := .fault, streak := 0, reported := true, lastSeq := some r.seq }

/-- The entry after a good report (R36, R37). -/
def PointEntry.takeGood (e : PointEntry) (r : Reading) : PointEntry :=
  { e with
    held := some r.value
    quality := .fresh
    miss := 0
    reported := true
    streak := if e.inStep r.seq then min 3 (e.streak + 1) else 1
    gaps := if e.inStep r.seq then e.gaps else min 255 (e.gaps + 1)
    lastSeq := some r.seq }

/-! ### Period expiry (R42) -/

/-- The quality of an entry that missed the period, by its new miss count (R42). -/
def missedQuality (q : Quality) (miss : Nat) : Quality :=
  match q with
  | .fresh | .stale => if miss = 3 then .lost else .stale
  | .none => if miss = 3 then .lost else .none
  | .lost => .lost
  | .fault => .fault

/-- An entry after the period expiry: its miss account brought up to date and both period flags cleared (R42). -/
def PointEntry.endPeriod (e : PointEntry) : PointEntry :=
  if e.reported then { e with reported := false, polled := false }
  else
    { e with
      miss := min 3 (e.miss + 1)
      quality := missedQuality e.quality (min 3 (e.miss + 1))
      reported := false
      polled := false }

end Sys2Proof.Machine
end

