-- ==== Sys2Proof/Machine/Demands.lean ====
section
/-! DEFINITION. The Demand Table and the action queue (chapter 5). -/

namespace Sys2Proof.Machine

/-- The required state that a demand count gives (R98). -/
def DemandEntry.required (e : DemandEntry) : Commanded := if e.demand = 0 then .released else .asserted

/-- The polarity an entry would go with (R103). -/
def DemandEntry.polarity (e : DemandEntry) : Polarity := if e.demand = 0 then .release else .assert

/-- Compare an entry with its demand: it joins the action queue, stays in it or leaves it (R102, R105). An entry in flight or
faulted is left alone. A refresh-due entry whose demand has fallen to 0 stays, as a release, with its flag cleared. -/
def DemandEntry.compare (stamp : Nat) (e : DemandEntry) : DemandEntry :=
  if e.inFlight.isSome || e.faulted then e
  else if e.required ≠ e.commanded then
    { e with queued := some (e.queued.getD stamp), refreshDue := e.refreshDue && e.demand != 0 }
  else if e.refreshDue then e
  else { e with queued := none }

/-- A new entry, joined to the queue as a release (R99). -/
def DemandEntry.new (stamp : Nat) (key : DemandKey) : DemandEntry where
  key := key
  mapRefs := 1
  demand := 0
  commanded := .unknown
  queued := some stamp
  refreshDue := false
  inFlight := none
  attempts := 0
  holdOff := none
  refreshTimer := none
  faulted := false
  retryTimer := none

/-- The conditions of removal, less the map references (R101). -/
def DemandEntry.atRestUnasserted (e : DemandEntry) : Bool :=
  e.demand == 0 && e.commanded != .asserted && e.queued.isNone && e.inFlight.isNone

/-- The conditions of removal (R101). -/
def DemandEntry.removable (e : DemandEntry) : Bool := e.mapRefs == 0 && e.atRestUnasserted

/-- The entry that holds a key. -/
def demandOf (ds : List DemandEntry) (k : DemandKey) : Option DemandEntry := ds.find? fun e => e.key == k

/-- Change the entry that holds a key. -/
def updateDemand (k : DemandKey) (f : DemandEntry → DemandEntry) (ds : List DemandEntry) : List DemandEntry :=
  ds.map fun e => if e.key = k then f e else e

/-- The removal test for the entry that holds a key (R101). -/
def sweepDemand (k : DemandKey) (ds : List DemandEntry) : List DemandEntry :=
  ds.filter fun e => !(e.key == k && e.removable)

/-- Add one map reference, creating the entry where none holds the key (R15, R97, R99). -/
def addMapRef (stamp : Nat) (ds : List DemandEntry) (k : DemandKey) : List DemandEntry :=
  if (demandOf ds k).isSome then updateDemand k (fun e => { e with mapRefs := e.mapRefs + 1 }) ds
  else ds ++ [.new stamp k]

/-- Give up one map reference, with the removal test (R21, R97, R101). -/
def dropMapRef (ds : List DemandEntry) (k : DemandKey) : List DemandEntry :=
  sweepDemand k (updateDemand k (fun e => { e with mapRefs := e.mapRefs - 1 }) ds)

/-- Add a map reference on each pair. -/
def addMapRefs (stamp : Nat) (ks : List DemandKey) (ds : List DemandEntry) : List DemandEntry :=
  ks.foldl (addMapRef stamp) ds

/-- Give up a map reference on each pair. -/
def dropMapRefs (ks : List DemandKey) (ds : List DemandEntry) : List DemandEntry := ks.foldl dropMapRef ds

/-- The pairs that no entry holds (R14, R100). -/
def newPairs (ks : List DemandKey) (ds : List DemandEntry) : List DemandKey := ks.filter fun k => (demandOf ds k).isNone

/-- An entry's demand count after one added or removed contribution, with the comparison of R102. -/
def DemandEntry.contribute (stamp : Nat) (removed added : List DemandKey) (e : DemandEntry) : DemandEntry :=
  if e.key ∈ added then ({ e with demand := e.demand + 1 } : DemandEntry).compare stamp
  else if e.key ∈ removed then ({ e with demand := e.demand - 1 } : DemandEntry).compare stamp
  else e

/-- Hand contributions to the table (R91, R98); an entry that leaves the queue is tested for removal (R101). -/
def contributeAll (stamp : Nat) (removed added : List DemandKey) (ds : List DemandEntry) : List DemandEntry :=
  (ds.map (DemandEntry.contribute stamp removed added)).filter fun e =>
    !((decide (e.key ∈ added) || decide (e.key ∈ removed)) && e.removable)

/-- Change a record, handing the change of its demanded pairs to the Demand Table in the same event (R91): pairs demanded
before and after are not touched. -/
def State.changeCoil (s : State) (i : Slot) (c : Coil) : State :=
  let before := s.demandedPairs s.coils[i]
  let after := s.demandedPairs c
  let removed := before.filter fun k => k ∉ after
  let added := after.filter fun k => k ∉ before
  { s.setCoil i c with demands := contributeAll s.joinStamp removed added s.demands }

/-! ### The action queue (R103, R104) -/

/-- Kind priority (R95). -/
def kindPriority : ActionKind → Nat
  | .fs => 1
  | .oac => 2
  | .vfo => 3
  | .pms => 4
  | .fbf => 5

/-- Asserts before releases (R103). -/
def polarityRank : Polarity → Nat
  | .assert => 0
  | .release => 1

/-- Queue order: polarity, kind priority, join order, and target station among those that joined in one event (R103). -/
def DemandEntry.before (a b : DemandEntry) : Bool :=
  let pa := polarityRank a.polarity
  let pb := polarityRank b.polarity
  let ka := kindPriority a.key.kind
  let kb := kindPriority b.key.kind
  let ja := a.queued.getD 0
  let jb := b.queued.getD 0
  decide (pa < pb) || (pa == pb && (decide (ka < kb) || (ka == kb && (decide (ja < jb)
    || (ja == jb && decide (a.key.station < b.key.station))))))

/-- Eligible for dispatch: queued, and its hold-off expiry is none or has passed (R104). -/
def DemandEntry.eligible (now : Nat) (e : DemandEntry) : Bool :=
  e.queued.isSome && (match e.holdOff with
    | none => true
    | some t => decide (t ≤ now))

/-- The first eligible entry of the action queue (R104). -/
def firstEligible (now : Nat) (ds : List DemandEntry) : Option DemandEntry :=
  ds.foldl
    (fun best e =>
      if e.eligible now then
        match best with
        | none => some e
        | some b => if e.before b then some e else best
      else best)
    none

/-- The length of the action queue (R103, R186). -/
def queueLength (ds : List DemandEntry) : Nat := ds.countP fun e => e.queued.isSome

/-! ### Outcomes of a dispatch (R109 to R111) -/

/-- The commanded state that an accepted polarity gives (R109). -/
def Polarity.commands : Polarity → Commanded
  | .assert => .asserted
  | .release => .released

/-- The hold-off after an accepted command (R109). -/
def acceptHoldOff : Polarity → Nat
  | .assert => Config.assertHoldOff
  | .release => Config.releaseHoldOff

/-- The entry after ACCEPT (R109). -/
def DemandEntry.accepted (now stamp : Nat) (p : Polarity) (e : DemandEntry) : DemandEntry :=
  ({ e with
      inFlight := none
      commanded := p.commands
      attempts := 0
      holdOff := some (now + acceptHoldOff p)
      refreshTimer := match p with
        | .assert => some (now + Config.refreshTime)
        | .release => none } : DemandEntry).compare stamp

/-- The entry at its fourth consecutive failure (R111). -/
def DemandEntry.fault (now : Nat) (e : DemandEntry) : DemandEntry :=
  { e with
    faulted := true
    commanded := .unknown
    queued := none
    refreshDue := false
    refreshTimer := none
    retryTimer := some (now + Config.faultRetryTime) }

/-- The entry after REFUSE or no answer (R110, R111). The failed frame was a refresh assert when it asserted what was already
ASSERTED (R115). -/
def DemandEntry.failed (now stamp : Nat) (p : Polarity) (e : DemandEntry) : DemandEntry :=
  let e1 := { e with inFlight := none, attempts := e.attempts + 1, holdOff := some (now + Config.assertHoldOff) }
  if Config.maxAttempts ≤ e1.attempts then e1.fault now
  else if e1.required ≠ e1.commanded then { e1 with queued := some stamp }
  else if p = .assert ∧ e1.commanded = .asserted then { e1 with queued := some stamp, refreshDue := true }
  else { e1 with attempts := 0 }

end Sys2Proof.Machine
end

