-- ==== Sys2Proof/Machine/Stages.lean ====
section
/-! DEFINITION. Settling (1.4.1), the Dose Evaluator's evaluation (3.2) and the Stage Machine (chapter 4), as operations on
one record that the commands share. -/

namespace Sys2Proof.Machine

/-! ### Stage changes and trips -/

/-- The restart hold H of a record, in milliseconds (R5, R84). A record in RECOVERY has a profile. -/
def Coil.holdTime (c : Coil) : Nat := ((c.profile.map (·.hold)).getD 0) * 1000

/-- The clean timer on entering a stage: it starts on entry into CLEAR and is stopped in every other stage (R79). -/
def cleanTimerIn (st : Stage) (now : Nat) : Option Nat := if st = .clear then some (now + Config.cleanTime) else none

/-- Enter CLEAR, WATCH or GUARD with a cause (R73, R89, R93): any phase and hold timer are left behind. -/
def State.enterStage (s : State) (i : Slot) (st : Stage) (cause : Cause) : State :=
  (s.changeCoil i
    { s.coils[i] with stage := st, cause := cause, holdTimer := none, cleanTimer := cleanTimerIn st s.now }).setNotice i

/-- The latch that goes with a trip count (R74). -/
def tripLatch : Nat → Latch
  | 0 => .trip 0
  | 1 => .trip 1
  | 2 => .trip 2
  | _ => .lockout

/-- The record after a trip (R74, steps 1 to 4). -/
def Coil.trip (c : Coil) (cause : Cause) : Coil :=
  { c with
    stage := if 2 ≤ c.tripCount then .lockout else .trip
    tripCount := min 3 (c.tripCount + 1)
    latch := tripLatch (c.tripCount + 1)
    cause := cause
    holdTimer := none
    cleanTimer := none }

/-- A trip, as one step (R74): record, demands, fault summary, fan-stop output, store and notice. -/
def State.trip (s : State) (i : Slot) (cause : Cause) : State :=
  ((((s.changeCoil i (s.coils[i].trip cause)).addFault s.coils[i].unit .trip).recomputeFso s.coils[i].unit).markDirty
    (.coil i)).setNotice i

/-- The move from FAN_RESTART to PROVE (R84): the hold timer starts at H, the demanded kinds do not change. -/
def State.enterProve (s : State) (i : Slot) : State :=
  (s.setCoil i
    { s.coils[i] with
      stage := .recovery .prove
      holdTimer := some (s.now + s.coils[i].holdTime) }).setNotice i

/-! ### STEP_DOWN (R86 to R88) -/

/-- The fixed order of the drops (R86). -/
def dropOrder : List ActionKind := [.oac, .fbf, .pms, .vfo]

/-- The record has a target pair of a kind. -/
def State.hasPair (s : State) (c : Coil) (k : ActionKind) : Bool := (s.targetPairs c).any fun key => key.kind == k

/-- The next kind to drop: the first not yet dropped for which the record has a target pair (R86). -/
def State.nextDrop (s : State) (c : Coil) (d : Dropped) : Option ActionKind :=
  dropOrder.find? fun k => !d.has k && s.hasPair c k

/-- The demand key of the kind dropped last. -/
def State.lastDropped (s : State) (c : Coil) (d : Dropped) : Option DemandKey :=
  d.lastKind.bind fun k => (s.targetPairs c).find? fun key => key.kind == k

/-- The record waits: the entry of the kind dropped last is in the action queue or in flight (R87). -/
def State.waitsOnDrop (s : State) (c : Coil) (d : Dropped) : Bool :=
  ((s.lastDropped c d).bind (demandOf s.demands)).any fun e => e.queued.isSome || e.inFlight.isSome

/-- Drop a kind: add it to the progress and give up its contribution (R86). -/
def State.dropKind (s : State) (i : Slot) (d : Dropped) (k : ActionKind) : State :=
  s.changeCoil i { s.coils[i] with stage := .recovery (.stepDown (d.add k)) }

/-- The completion of STEP_DOWN (R88). -/
def State.finishStepDown (s : State) (i : Slot) : State :=
  ((s.changeCoil i
    { s.coils[i] with
      stage := .clear
      cause := .cleared
      latch := .none
      cleanTimer := some (s.now + Config.cleanTime) }).markDirty (.coil i)).setNotice i

/-- The drops of one event (R87): while the record does not wait, the next kind is dropped; the drop that leaves no demanded
kind completes STEP_DOWN. At most four kinds can be dropped. -/
def State.dropLoop : Nat → Slot → State → State
  | 0, _, s => s
  | n + 1, i, s =>
    match s.coils[i].stage with
    | .recovery (.stepDown d) =>
      if s.waitsOnDrop s.coils[i] d then s
      else
        match s.nextDrop s.coils[i] d with
        | none => s
        | some k =>
          let s := s.dropKind i d k
          if (s.demandedPairs s.coils[i]).isEmpty then s.finishStepDown i else s.dropLoop n i
    | _ => s

/-- The test of R87 for a record in STEP_DOWN. -/
def State.testDrops (s : State) (i : Slot) : State := s.dropLoop 4 i

/-- Entry into STEP_DOWN (R86): empty progress, the notice flag, and the first drop at once. -/
def State.enterStepDown (s : State) (i : Slot) : State :=
  ((s.setCoil i
    { s.coils[i] with stage := .recovery (.stepDown .empty), holdTimer := none }).setNotice i).testDrops i

/-! ### Settling (R17, R18) -/

/-- The settling condition: every required binding names a point FRESH with a streak of 3 (R17). -/
def State.settled (s : State) (c : Coil) : Bool :=
  c.everyRequired fun b => (entryOf s.points b.key).any fun e => e.quality == .fresh && e.streak == 3

/-- The stage that a latch gives on settling completion (R18). -/
def Latch.stage : Latch → Stage
  | .none => .clear
  | .trip _ => .trip
  | .lockout => .lockout

/-- The trip count that a latch gives on settling completion (R18). -/
def Latch.count : Latch → Nat
  | .none => 0
  | .trip n => n.val
  | .lockout => 3

/-- The record as it enters ARMED (R18, R64). -/
def Coil.enterArmed (c : Coil) (now : Nat) : Coil :=
  { c with
    lifecycle := .armed
    stage := c.latch.stage
    tripCount := c.latch.count
    cause := .none
    settleTimer := none
    settleOverdue := false
    evalTimer := some (now + Config.evaluationTime)
    cleanTimer := cleanTimerIn c.latch.stage now
    last := none }

/-- Settling completion (R18). -/
def State.enterArmed (s : State) (i : Slot) : State :=
  let c := s.coils[i]
  let s := s.changeCoil i (c.enterArmed s.now)
  let s := if c.latch.stage = .clear then s else s.addFault c.unit .trip
  (s.recomputeFso c.unit).setNotice i

/-- The settling tests that a report for a key causes (R17, R38). -/
def State.settlingTests (s : State) (k : PointKey) : State :=
  forSlots
    (fun i s =>
      if s.coils[i].lifecycle = .settling ∧ s.coils[i].binds k ∧ s.settled s.coils[i] then s.enterArmed i else s)
    s

/-! ### Evaluation (3.2) -/

/-- The clamp of the margin (R60). -/
def clampMargin (m : Int) : Int := max (-500) (min 500 m)

/-- The weight k (R61). -/
def weight (fan : FanProof) (regime : Regime) : Nat :=
  match fan, regime with
  | .stopped, .cold => 2
  | .stopped, .mild => 1
  | .running, .cold | .unknown, .cold => 3
  | .running, .mild | .unknown, .mild => 2

/-- The air margin: the effective leaving-air value less A_L, absent while LAT is unavailable (R60). -/
def State.airMargin (s : State) (c : Coil) (p : Profile) : Option Int :=
  (c.lat.bind s.effective).map fun v => v - p.limits.airLimit

/-- The fluid margin, absent while FT is unbound or unavailable (R60). -/
def State.fluidMargin (s : State) (c : Coil) (p : Profile) : Option Int :=
  (c.ft.bind s.effective).map fun v => v - p.limits.fluidLimit

/-- The margin: the lesser of the two, clamped; absent with the air margin (R60). -/
def marginOf (air fluid : Option Int) : Option Int :=
  air.map fun a => clampMargin (match fluid with
    | some f => min a f
    | none => a)

/-- The result of an evaluation (R59, R60, R64). -/
def State.evaluate (s : State) (c : Coil) (p : Profile) : EvalResult where
  margin := marginOf (s.airMargin c p) (s.fluidMargin c p)
  airMargin := s.airMargin c p
  available := s.requiredAvailable c
  fan := s.units[c.unit].fan

/-- The new chill dose (R62): frozen while a required binding is unavailable, raised by k times the shortfall below the watch
band, else decayed by D. -/
def doseStep (p : Profile) (k : Nat) (r : EvalResult) (dose : Nat) : Nat :=
  if r.available then
    match r.margin with
    | none => dose
    | some m =>
      if m < p.limits.watchBand then min Config.maxDose (dose + k * (p.limits.watchBand - m).toNat)
      else dose - p.limits.decay.toNat
  else dose

/-- The margin lies below W. -/
def EvalResult.below (r : EvalResult) (p : Profile) : Bool := r.margin.any fun m => decide (m < p.limits.watchBand)

/-- The margin is present and stands at or above W. -/
def EvalResult.atOrAbove (r : EvalResult) (p : Profile) : Bool := r.margin.any fun m => decide (p.limits.watchBand ≤ m)

/-- Check 1: the air margin is present and at or below 0 (R71). -/
def EvalResult.airLimit (r : EvalResult) : Bool := r.airMargin.any fun a => decide (a ≤ 0)

/-- Check 3 matches (R72): a record not in GUARD enters it. -/
def State.sensorLost (s : State) (i : Slot) : State :=
  if s.coils[i].stage = .guard then s else s.enterStage i .guard .sensorLost

/-- SENSOR_LOST is added where the evaluation finds a required binding unavailable, in any stage and whichever check then
matches (R72, R133, log 30). -/
def State.markUnavailable (s : State) (i : Slot) (r : EvalResult) : State :=
  if r.available then s else s.addFault s.coils[i].unit .sensorLost

/-- Checks 4 to 7, and the rules of the recovery phases, when none of checks 1 to 3 match (R70, R73, R84, R85, R87, R89). -/
def State.laterChecks (s : State) (i : Slot) (p : Profile) (r : EvalResult) : State :=
  let dose := s.coils[i].dose
  match s.coils[i].stage with
  | .clear =>
    if p.dose.upper ≤ dose then s.enterStage i .guard .doseGuard
    else if r.below p then s.enterStage i .watch .doseWatch
    else s
  | .watch =>
    if p.dose.upper ≤ dose then s.enterStage i .guard .doseGuard
    else if r.atOrAbove p ∧ dose = 0 then s.enterStage i .clear .cleared
    else s
  | .guard => if dose ≤ p.dose.lower ∧ r.atOrAbove p then s.enterStage i .watch .doseWatch else s
  | .recovery .fanRestart => if r.fan = .running then s.enterProve i else s
  | .recovery .prove =>
    if r.below p then s.setCoil i { s.coils[i] with holdTimer := some (s.now + s.coils[i].holdTime) } else s
  | .recovery (.stepDown _) => if r.below p then s.enterStage i .guard .doseGuard else s.testDrops i
  | .trip | .lockout => s

/-- The Stage Machine's checks at an evaluation, in their order (R70). In TRIP and LOCKOUT none is made. -/
def State.stageChecks (s : State) (i : Slot) (p : Profile) (r : EvalResult) : State :=
  if s.coils[i].stage = .trip ∨ s.coils[i].stage = .lockout then s
  else if r.airLimit then s.trip i .airLimit
  else if p.dose.tripDose ≤ s.coils[i].dose then s.trip i .doseTrip
  else if !r.available then s.sensorLost i
  else s.laterChecks i p r

/-- One evaluation of an ARMED record at the present moment (R58 to R64, R133): dose, result and next expiry, then the checks.
An ARMED record always has a profile (R59); without one only the timer runs on (log 25). -/
def State.evaluation (s : State) (i : Slot) : State :=
  let c := s.coils[i]
  let next := some (s.now + Config.evaluationTime)
  match c.profile with
  | none => s.setCoil i { c with evalTimer := next }
  | some p =>
    let r := s.evaluate c p
    let dose := doseStep p (weight r.fan s.regime) r c.dose
    ((s.setCoil i { c with dose := dose, last := some r, evalTimer := next }).markUnavailable i r).stageChecks i p r

/-! ### Events that reach several records -/

/-- A stage that a contact opening trips (R76). -/
def Stage.tripsOnContact (st : Stage) : Bool :=
  match st with
  | .clear | .watch | .guard | .recovery _ => true
  | .trip | .lockout => false

/-- A contact opening trips every ARMED record of the unit in CLEAR, WATCH, GUARD or RECOVERY (R76). -/
def State.contactTrips (s : State) (u : UnitNo) : State :=
  forSlots
    (fun i s =>
      if s.coils[i].lifecycle = .armed ∧ s.coils[i].unit = u ∧ s.coils[i].stage.tripsOnContact then s.trip i .contact
      else s)
    s

/-- A stage that an escalation trips: GUARD or RECOVERY (R77). -/
def Stage.escalates (st : Stage) : Bool :=
  match st with
  | .guard | .recovery _ => true
  | .clear | .watch | .trip | .lockout => false

/-- The escalation of a faulted OAC or VFO assert (R77, R113). -/
def State.escalate (s : State) (k : DemandKey) : State :=
  forSlots
    (fun i s =>
      if s.coils[i].stage.escalates ∧ k ∈ s.demandedPairs s.coils[i] then s.trip i .actuator else s)
    s

/-- The step-down tests that a completed dispatch of an entry causes (R87, R116). -/
def State.stepDownTests (s : State) (k : DemandKey) : State :=
  forSlots
    (fun i s =>
      match s.coils[i].stage with
      | .recovery (.stepDown d) =>
        if s.coils[i].lifecycle = .armed ∧ s.lastDropped s.coils[i] d = some k then s.testDrops i else s
      | _ => s)
    s

/-- A RUNNING taken for a unit moves its records in FAN_RESTART to PROVE (R84, R124). -/
def State.fansProved (s : State) (u : UnitNo) : State :=
  forSlots
    (fun i s =>
      if s.coils[i].lifecycle = .armed ∧ s.coils[i].unit = u ∧ s.coils[i].stage = .recovery .fanRestart then s.enterProve i
      else s)
    s

end Sys2Proof.Machine
end

