-- ==== Sys2Proof/Machine/LineOps.lean ====
section
/-! DEFINITION. The Line Interface's transmitter: the part's own frames, the arbiter, the grant, and the loss of a granted
frame (8.4, 8.5, 5.4). -/

namespace Sys2Proof.Machine

/-! ### The part's own frames -/

/-- An ACTION frame (R107, R178): URGENT for an assert, ROUTINE for a release. -/
def State.actionFrame (s : State) (d : Dispatch) : Frame where
  cls := match d.polarity with
    | .assert => .urgent
    | .release => .routine
  sender := byteOf s.address
  target := byteOf d.key.station
  code := Func.action.code
  payload := [byteOf (actionKindWire d.key.kind), byteOf d.polarity.wire]

/-- A POLL frame (R44, R178). -/
def State.pollFrame (s : State) (p : PollOffer) : Frame where
  cls := p.cls
  sender := byteOf s.address
  target := byteOf p.key.station
  code := Func.poll.code
  payload := [byteOf p.key.point]

/-- An ANSWER frame (R166, R181). -/
def State.answerFrame (s : State) (a : Answer) : Frame where
  cls := .routine
  sender := byteOf s.address
  target := byteOf a.target
  code := Func.answer.code
  payload := a.payload

/-- The zone group address of a zone (4.4 of the scope file). -/
def zoneAddress (zone : Fin 16) : Nat := 224 + zone.val

/-- The STAGE_NOTICE of a slot, built from the record as it stands (R172, R179), to the zone group of its unit. -/
def State.noticeFrame (s : State) (i : Slot) : Frame where
  cls := .routine
  sender := byteOf s.address
  target := byteOf (zoneAddress s.units[s.coils[i].unit].zone)
  code := Func.stageNotice.code
  payload :=
    let c := s.coils[i]
    [byteOf i.val] ++ wordBytes c.tag
      ++ [byteOf c.unit.val, byteOf c.lifecycle.wire, byteOf c.stage.wire, byteOf c.stage.phaseWire, byteOf c.cause.wire]
      ++ wordBytes c.dose ++ [flagsByte [c.settleOverdue]]

/-! ### The arbiter and the grant (R168) -/

/-- What the Action Dispatcher would send: the frame it holds, else its first eligible entry (R106, R108). -/
def State.nextAction (s : State) : Option Dispatch :=
  match s.dispatch with
  | some d => some d
  | none => (firstEligible s.now s.demands).map fun e => { key := e.key, polarity := e.polarity }

/-- The source that the arbiter picks: asserts, urgent polls, answers, releases, stage notices, routine polls (R168). -/
def State.arbiter (s : State) : Option Source :=
  if s.nextAction.any (fun d => d.polarity == .assert) then some .action
  else if s.poll.any (fun p => p.cls == .urgent) then some .poll
  else if !s.answers.isEmpty then some .answer
  else if s.nextAction.isSome then some .action
  else if s.notice.isSome then some .notice
  else if s.poll.isSome then some .poll
  else none

/-- Put a frame of the part on the line. -/
def State.onLine (s : State) (src : Source) (f : Frame) : State :=
  { s with line := some { source := src, frame := f, orphan := false } }

/-- The Action Dispatcher takes an entry for a frame (R107): the entry leaves the queue and is in flight. -/
def State.takeEntry (s : State) (d : Dispatch) : State :=
  { s with
    dispatch := some d
    demands := updateDemand d.key
      (fun e => { e with queued := none, inFlight := some d.polarity, refreshDue := false }) s.demands }

/-- The grant to the Action Dispatcher: a frame it holds tries again, else it takes its first eligible entry (R107, R108). -/
def State.grantAction (s : State) : State :=
  match s.nextAction with
  | none => s
  | some d => (if s.dispatch.isSome then s else s.takeEntry d).onLine .action (s.actionFrame d)

/-- The grant to the Poll Engine. -/
def State.grantPoll (s : State) : State :=
  match s.poll with
  | none => s
  | some p => s.onLine .poll (s.pollFrame p)

/-- The grant to the answer source: the head of the answer queue (R167). -/
def State.grantAnswer (s : State) : State :=
  match s.answers with
  | [] => s
  | a :: _ => s.onLine .answer (s.answerFrame a)

/-- The grant to the notice source: the notice of the current slot is built at the grant (R172), and from here a setting of
the slot's flag is not in it (R173). -/
def State.grantNotice (s : State) : State :=
  match s.notice with
  | none => s
  | some n => { s.onLine .notice (s.noticeFrame n.slot) with notice := some { n with setAgain := false } }

/-- The grant at a line idle (R168): nothing while the part's own frame is on the line or the part is not in service (R174). -/
def State.grant (s : State) : State :=
  if s.power ≠ .running ∨ s.line.isSome then s
  else
    match s.arbiter with
    | none => s
    | some .action => s.grantAction
    | some .poll => s.grantPoll
    | some .answer => s.grantAnswer
    | some .notice => s.grantNotice

/-! ### Losses and freed places (R166, R167, R170) -/

/-- The head of the answer queue leaves it; its place takes the oldest deferred answer (R166). -/
def State.freeAnswer (s : State) : State :=
  match s.deferred with
  | [] => { s with answers := s.answers.tail }
  | a :: rest => { s with answers := s.answers.tail ++ [a], deferred := rest }

/-- The frame leaves the line. -/
def State.offLine (s : State) : State := { s with line := none }

/-- An answer loses: its count rises, and at 8 it is dropped (R170). -/
def State.loseAnswer (s : State) : State :=
  match s.answers with
  | [] => s
  | a :: rest =>
    if Config.dropLimit ≤ a.losses + 1 then s.freeAnswer
    else { s with answers := { a with losses := a.losses + 1 } :: rest }

/-- A POLL loses: its count rises, and at 8 it is dropped and the Poll Engine chooses again (R48, R170). -/
def State.losePoll (s : State) : State :=
  match s.poll with
  | none => s
  | some p =>
    if Config.dropLimit ≤ p.losses + 1 then ({ s with poll := none } : State).choosePoll
    else { s with poll := some { p with losses := p.losses + 1 } }

/-- A STAGE_NOTICE loses: its count rises, and at 8 it is dropped, its flag stays set and the source chooses again (R170,
R173). -/
def State.loseNotice (s : State) : State :=
  match s.notice with
  | none => s
  | some n =>
    if Config.dropLimit ≤ n.losses + 1 then ({ s with notice := none } : State).chooseNotice
    else { s with notice := some { n with losses := n.losses + 1 } }

/-- The part's frame on the line loses arbitration or suffers a transmit error (R159, R170): it returns to its source. An
ACTION frame stays with the dispatcher and counts nothing (R108); an orphaned frame is gone (log 21). -/
def State.loseLine (s : State) : State :=
  match s.line with
  | none => s
  | some l =>
    if l.orphan then s.offLine
    else
      match l.source with
      | .action => s.offLine
      | .answer => s.offLine.loseAnswer
      | .poll => s.offLine.losePoll
      | .notice => s.offLine.loseNotice

/-- A frame of a source completes: an effect on the state with the line free; an orphaned frame is applied nowhere (R118,
R174), and without such a frame on the line the event does not occur (log 2). -/
def State.completeLine (src : Source) (effect : State → State) (s : State) : State :=
  match s.line with
  | none => s
  | some l => if l.source ≠ src then s else if l.orphan then s.offLine else effect s.offLine

end Sys2Proof.Machine
end

