-- ==== Sys2Proof/Machine/StoreOps.lean ====
section
/-! DEFINITION. The Retained Store: what a write takes and leaves, and the loads that rebuild the part from the retained
memory (chapter 10, R24, R25, R50, R118). -/

namespace Sys2Proof.Machine

/-! ### Writes (R24, R188) -/

/-- The lifecycle a coil item stores: SETTLING is written as ARMED (R24). -/
def storedLifecycle : Lifecycle → Option StoredLifecycle
  | .vacant => none
  | .draft => some .draft
  | .settling => some .armed
  | .armed => some .armed
  | .suspended => some .suspended

/-- The content of a record's coil item (R24). -/
def Coil.item (c : Coil) : CoilItem :=
  match storedLifecycle c.lifecycle with
  | none => .erased
  | some l =>
    .record
      { tag := c.tag, unit := c.unit, kind := c.kind, lat := c.lat, ft := c.ft, profile := c.profile, lifecycle := l
        latch := c.latch }

/-- The live content of an item as it stands (R188). -/
def State.contentOf (s : State) : Item → WriteContent
  | .settings => .settings ⟨s.outdoor, s.regimeOn, s.regimeOff, s.supervisors⟩
  | .unit n => .unit n ⟨s.units[n].controller, s.units[n].zone⟩
  | .coil n => .coil n s.coils[n].item

/-- A write of the item carries a commit: it is the first to begin after the commit passed (R153). -/
def State.carriesCommit (s : State) : Item → Bool
  | .coil n => s.coils[n].writeInFlight
  | .settings | .unit _ => false

/-- The retained memory after a completed write. -/
def Retained.write (r : Retained) : WriteContent → Retained
  | .settings c => { r with settings := .valid c }
  | .unit n c => { r with units := tablePut r.units n (.valid c) }
  | .coil n c => { r with coils := tablePut r.coils n (.valid c) }

/-- The retained memory with one item failing its check value (R187). -/
def Retained.spoil (r : Retained) : Item → Retained
  | .settings => { r with settings := .invalid }
  | .unit n => { r with units := tablePut r.units n .invalid }
  | .coil n => { r with coils := tablePut r.coils n .invalid }

/-- The retained memory after the write under way, if any, is broken off (R187, log 9). -/
def State.retainedAfterCut (s : State) (cut : BrokenWrite) : Retained :=
  match s.writing, cut with
  | some w, .failsCheck => s.retained.spoil w.content.item
  | some _, .asBefore => s.retained
  | none, _ => s.retained

/-- Set or clear an item's stale mark: for a coil item, the record's store stale flag (R189). -/
def State.setStale (s : State) (it : Item) (b : Bool) : State :=
  match it with
  | .settings => { s with settingsStale := b }
  | .unit n => { s with unitStale := tablePut s.unitStale n b }
  | .coil n => s.setCoil n { s.coils[n] with storeStale := b }

/-- An item's stale mark. -/
def State.isStale (s : State) : Item → Bool
  | .settings => s.settingsStale
  | .unit n => s.unitStale[n]
  | .coil n => s.coils[n].storeStale

/-- Every item, in the order settings, units, coils (R190, R192). -/
def allItems : List Item :=
  .settings :: ((List.finRange 16).map Item.unit ++ (List.finRange 48).map Item.coil)

/-- The items that the store retry timer queues (R190). -/
def State.retryItems (s : State) : List Item :=
  allItems.filter fun it => s.isStale it && !s.storeQueue.contains it && !s.isWriting it

/-- The claim entry whose commit stands COMMITTED on a slot, with whether its commit carries CLAMPED. -/
def State.committedClaim (s : State) (i : Slot) : Option (ClaimNo × Claim × Bool) :=
  (List.finRange 4).findSome? fun n =>
    match s.claims[n] with
    | some c =>
      match c.state with
      | .committed b => if c.slot = i then some (n, c, b) else none
      | .opened => none
    | none => none

/-- A COMMIT answer joins the answer queue when a place is free, else the deferred list (R166). -/
def State.pushCommitAnswer (s : State) (a : Answer) : State :=
  if s.answers.length < Config.answerCapacity then s.pushAnswer a else { s with deferred := s.deferred ++ [a] }

/-- The answer to a commit at the completion of its carrying write (R153, R181): CLAMPED stands only beside DONE. -/
def commitAnswer (holder : Nat) (success clamped : Bool) : Answer where
  target := holder
  code := Func.commit.code
  result := if success then .done else .storeFail
  clamped := success && clamped
  data := []
  losses := 0

/-- The hand-off of a carrying write's completion to the Edit Unit (R153, R189): write-in-flight clears, the claim is freed
and the commit is answered. -/
def State.commitWritten (s : State) (i : Slot) (success : Bool) : State :=
  let s := s.setCoil i { s.coils[i] with writeInFlight := false }
  match s.committedClaim i with
  | some (n, c, clamped) => (s.setClaim n none).pushCommitAnswer (commitAnswer c.holder success clamped)
  | none => s

/-! ### Loads (R25, R50, R118, R191, R192) -/

/-- Everything live is lost: what is kept is the retained memory, the pins, the model's clock and its own fields. Contact
filters start again at OPEN (R127), and outputs stand at STOP (R132). -/
def State.cleared (s : State) (p : Power) : State :=
  { State.reset with
    now := s.now
    power := p
    strap := s.strap
    pollTimer := none
    units := tableMap (fun u => UnitEntry.blank u.level) s.units
    retained := s.retained
    freeCount := s.freeCount
    pending := s.pending }

/-- Read the strap pins (R191): an address from 1 to 223 is taken, any other gives 223 with strap validity false. -/
def State.readStrap (s : State) (strap : Strap) : State :=
  { s with
    strap := strap
    address := if isStation strap.address.toNat then strap.address.toNat else Config.fallbackAddress
    strapValid := isStation strap.address.toNat
    zone := ⟨strap.zone.toNat, strap.zone.isLt⟩ }

/-- The settings, or the defaults where their item is invalid or blank (R191). -/
def State.loadSettings (s : State) : State :=
  match s.retained.settings with
  | .valid c =>
    { s with outdoor := c.outdoor, regimeOn := c.regimeOn, regimeOff := c.regimeOff, supervisors := c.supervisors }
  | .blank | .invalid =>
    { s with outdoor := none, regimeOn := Config.defaultRegimeOn, regimeOff := Config.defaultRegimeOff, supervisors := [] }

/-- The unit definitions: an invalid item loads undefined with zone 0 (R119, R191), and a blank one loads undefined (R187). The spec
states no zone for a unit whose item is blank: that it is 0 is the model's choice (log 34). -/
def State.loadUnits (s : State) : State :=
  forUnits
    (fun u s =>
      match s.retained.units[u] with
      | .valid c => s.setUnit u { s.units[u] with controller := c.controller, zone := c.zone }
      | .blank | .invalid => s.setUnit u { s.units[u] with controller := none, zone := 0 })
    s

/-- The outdoor binding's entry is placed first (R50). -/
def State.loadOutdoor (s : State) : State :=
  match s.outdoor with
  | some k => { s with points := createEntry s.points k 1 }
  | none => s

/-- One more reference on a key, or none where no entry can be placed (R50). -/
def addPointRef (points : Table (Option PointEntry) 96) (k : PointKey) : Option (Table (Option PointEntry) 96) :=
  match indexOf points k with
  | some i => some (tablePut points i (points[i].map fun e => { e with refs := e.refs + 1 }))
  | none => if (lowestUnused points).isSome then some (createEntry points k 1) else none

/-- The reference of a binding position. -/
def placeBinding (points : Table (Option PointEntry) 96) (b : Option Binding) : Option (Table (Option PointEntry) 96) :=
  match b with
  | some b => addPointRef points b.key
  | none => some points

/-- A record as its item gives it, in a lifecycle and with a latch (R25). -/
def CoilDefinition.toCoil (d : CoilDefinition) (l : Lifecycle) (latch : Latch) : Coil :=
  { Coil.vacant d.unit with
    lifecycle := l
    tag := d.tag
    kind := d.kind
    lat := d.lat
    ft := d.ft
    profile := d.profile
    latch := latch }

/-- A slot loads otherwise than as stored: the lost-slot count rises, and saturates at 255 (R191). -/
def State.loseSlot (s : State) : State := { s with lostSlots := min Config.maxLostSlots (s.lostSlots + 1) }

/-- A non-vacant record carries a tag (R3). -/
def State.tagHeld (s : State) (tag : Nat) : Bool := s.coils.toList.any fun c => c.lifecycle != .vacant && c.tag == tag

/-- A record stored ARMED enters SETTLING where its unit is defined and the demand table has room, and takes its map
references; else it falls back to SUSPENDED and its slot is counted lost (R25, R118, R192). -/
def State.loadArmed (s : State) (i : Slot) (d : CoilDefinition) : State :=
  let c := d.toCoil .settling d.latch
  let pairs := s.targetPairs c
  if s.units[d.unit].controller.isSome ∧ (newPairs pairs s.demands).length ≤ Config.demandCapacity - s.demands.length then
    { s.setCoil i c with demands := addMapRefs s.joinStamp pairs s.demands }
  else (s.setCoil i (d.toCoil .suspended .none)).loseSlot

/-- One slot is settled in full (R25, R50, R191): its item, its tag, its point references, then its map references. The slot
stands VACANT with unit 0 before. -/
def State.loadCoil (s : State) (i : Slot) : State :=
  match s.retained.coils[i] with
  | .blank => s
  | .valid .erased => s
  | .invalid => s.loseSlot
  | .valid (.record d) =>
    if s.tagHeld d.tag then s.loseSlot
    else
      match (placeBinding s.points d.lat).bind fun t => placeBinding t d.ft with
      | none => s.loseSlot
      | some t =>
        let s := { s with points := t }
        match d.lifecycle with
        | .draft => s.setCoil i (d.toCoil .draft .none)
        | .suspended => s.setCoil i (d.toCoil .suspended .none)
        | .armed => s.loadArmed i d

/-- The load, from cleared live state (R191, steps 2 to 5). -/
def State.load (s : State) : State :=
  (forSlots (fun i s => s.loadCoil i) s.loadSettings.loadUnits.loadOutdoor).endEvent

/-- An item whose loaded form differs from its stored form (R192). -/
def State.loadedOtherwise (s : State) : Item → Bool
  | .settings => s.retained.settings == .invalid
  | .unit n => s.retained.units[n] == .invalid
  | .coil n =>
    match s.retained.coils[n] with
    | .invalid => true
    | .valid (.record d) =>
      s.coils[n].lifecycle == .vacant || (d.lifecycle == .armed && s.coils[n].lifecycle == .suspended)
    | .blank | .valid .erased => false

/-- Every SETTLING record starts its settle timer (R25, R193). -/
def State.startSettling (s : State) : State :=
  { s with
    coils := tableMap
      (fun c => if c.lifecycle = .settling then { c with settleTimer := some (s.now + Config.settleTime) } else c) s.coils }

/-- The completion of a load (R193): service begins, the bits of PART_STATUS are set (R186), timers start, items that R192
names are marked, and every fan-stop output is recomputed. -/
def State.completeLoad (s : State) : State :=
  let marks := allItems.filter s.loadedOtherwise
  let t : State :=
    { s.startSettling with
      power := .running
      lastLoadRestart := s.power == .restartLoad
      settingsDefaulted := match s.retained.settings with
        | .valid _ => false
        | .blank | .invalid => true
      pollTimer := some (s.now + Config.coldPeriod)
      pollPeriod := Config.coldPeriod
      line := none }
  forUnits (fun u s => s.recomputeFso u) (marks.foldl State.markDirty t)

end Sys2Proof.Machine
end

