-- ==== Sys2Proof/Machine/Reports.lean ====
section
/-! DEFINITION. The frames that are no requests: REPORT, UNIT_STATUS, frames of unknown function and frames that are
discarded (R33 to R38, R123, R124, R165). -/

namespace Sys2Proof.Machine

/-- The outcome type of every meaning. -/
abbrev Step := Host.Outcome State Fault Refusal

/-- A unit that has a non-vacant record with a binding naming a key (R37). -/
def State.unitBinds (s : State) (k : PointKey) (u : UnitNo) : Bool := s.coils.toList.any fun c => c.unit == u && c.binds k

/-- A fault report taken by an entry (R35), then handed to the settling tests and the Regime Monitor (R38, R56). -/
def State.takeFaultReport (s : State) (i : Fin 96) (e : PointEntry) (r : Reading) : State :=
  let s := ({ s with points := tablePut s.points i (some (e.takeFault r)) } : State).settlingTests e.key
  if s.outdoor = some e.key then s.fallBack else s

/-- A good report taken by an entry (R36, R37), then handed to the settling tests and the Regime Monitor (R38, R54). -/
def State.takeGoodReport (s : State) (i : Fin 96) (e : PointEntry) (r : Reading) : State :=
  let s := { s with points := tablePut s.points i (some (e.takeGood r)) }
  let s := if e.inStep r.seq then s else s.addFaultWhere .sequenceGap (s.unitBinds e.key)
  let s := s.settlingTests e.key
  if s.outdoor = some e.key then s.outdoorReport r.value else s

/-- A REPORT at the entry it names: a duplicate is ignored entirely (R34). -/
def State.takeReading (s : State) (i : Fin 96) (e : PointEntry) (r : Reading) : State :=
  if e.lastSeq = some r.seq then s
  else if r.isFault then (s.takeFaultReport i e r).endEvent
  else (s.takeGoodReport i e r).endEvent

/-- The key that a REPORT names: its sender and its point number (R33). -/
def RxFrame.reportKey (f : RxFrame) : PointKey := { station := f.sender, point := byteAt f.payload 0 }

/-- A REPORT taken by the handler, addressed or by broadcast (R33, R165): one of the wrong length, or whose key no entry
holds, is ignored. -/
def State.takeReport (s : State) (f : RxFrame) : State :=
  if f.payload.length ≠ Func.report.length then s
  else
    match indexOf s.points f.reportKey with
    | none => s
    | some i =>
      match s.points[i] with
      | none => s
      | some e => s.takeReading i e (readingOf f.payload)

/-- REPORT (R33). -/
def execReport (s : State) : Step :=
  .next (takeFrame (fun f => f.code == Func.report.code) (fun f s => s.takeReport f) s)

/-- A UNIT_STATUS taken for a unit (R124). -/
def State.takeStatus (s : State) (u : UnitNo) (fan : FanProof) : State :=
  let s := s.setUnit u { s.units[u] with fan := fan, statusTimer := some (s.now + Config.statusTime) }
  (if fan = .running then s.fansProved u else s).endEvent

/-- A UNIT_STATUS taken by the handler (R123, R165): ignored unless it comes from the controller station of the unit it
names and carries RUNNING or STOPPED. -/
def State.takeUnitStatus (s : State) (f : RxFrame) : State :=
  if f.payload.length ≠ Func.unitStatus.length then s
  else
    match unitOf (byteAt f.payload 0), reportedFanOf (byteAt f.payload 1) with
    | some u, some fan => if s.units[u].controller = some f.sender then s.takeStatus u fan else s
    | _, _ => s

/-- UNIT_STATUS (R123). -/
def execUnitStatus (s : State) : Step :=
  .next (takeFrame (fun f => f.code == Func.unitStatus.code) (fun f s => s.takeUnitStatus f) s)

/-- UNKNOWN_FUNCTION (R165): answered when addressed to the part, discarded when it came by broadcast. -/
def execUnknownFunction (s : State) : Step :=
  .next (takeFrame (fun f => (Func.ofCode f.code).isNone)
    (fun f s => if f.addressed then s.pushAnswer (f.answer (.refuse .unknownFunction)) else s) s)

/-- A frame that the handler discards: one of a function that only the part sends, or a broadcast request (R165). -/
def RxFrame.isDiscarded (f : RxFrame) : Bool :=
  match Func.ofCode f.code with
  | none => false
  | some fn => fn.sentByPart || (fn.isRequest && !f.addressed)

/-- DISCARDED_FUNCTION_FRAME (R165). -/
def execDiscardedFunctionFrame (s : State) : Step := .next (takeFrame RxFrame.isDiscarded (fun _ s => s) s)

end Sys2Proof.Machine
end

