-- ==== Sys2Proof/Machine/Lookups.lean ====
section
/-! DEFINITION. The lookups and READ_FAULTS (chapter 9, R32, R117, R134, R135). -/

namespace Sys2Proof.Machine

/-! ### QUERY_COIL (R3, R182) -/

/-- The claim on a record, with its entry. -/
def State.claimOn (s : State) (i : Slot) : Option (ClaimNo × Claim) :=
  (List.finRange 4).findSome? fun n => s.claims[n].bind fun c => if c.slot = i then some (n, c) else none

/-- A COMMITTED claim. -/
def Claim.isCommitted (c : Claim) : Bool :=
  match c.state with
  | .opened => false
  | .committed _ => true

/-- The stage timer of the STATE view: the restart hold timer in PROVE, the clean timer in CLEAR (R94, R182). -/
def Coil.stageTimer (c : Coil) : Option Nat :=
  match c.stage with
  | .recovery .prove => c.holdTimer
  | .clear => c.cleanTimer
  | .watch | .guard | .trip | .lockout | .recovery .fanRestart | .recovery (.stepDown _) => none

/-- The flags byte of the STATE view (R182). -/
def State.coilFlags (s : State) (i : Slot) : Byte :=
  let c := s.coils[i]
  let cl := s.claimOn i
  flagsByte
    [c.settleOverdue, c.storeStale, c.writeInFlight, c.last.any (·.available), cl.isSome,
     cl.any fun p => p.2.isCommitted]

/-- The STATE view (R182). -/
def State.coilStateView (s : State) (i : Slot) : List Byte :=
  let c := s.coils[i]
  let cl := s.claimOn i
  [byteOf i.val] ++ wordBytes c.tag
    ++ [byteOf c.unit.val, byteOf c.lifecycle.wire, byteOf c.stage.wire, byteOf c.stage.phaseWire, c.stage.progress.wire]
    ++ wordBytes c.dose
    ++ [byteOf c.tripCount, byteOf c.latch.wire, byteOf c.cause.wire, s.coilFlags i]
    ++ optInt16 (c.last.bind (·.margin)) ++ optInt16 (c.last.bind (·.airMargin))
    ++ optWord (c.stageTimer.map (secondsLeft s.now))
    ++ [optByte (cl.map fun p => p.2.holder),
        optByte (cl.bind fun p => if p.2.isCommitted then none else p.2.timer.map (secondsLeft s.now))]

/-- The DEFINITION view (R182). The point and offset bytes of an empty position are free values (log 15). -/
def State.coilDefinitionView (s : State) (i : Slot) : List Byte :=
  let c := s.coils[i]
  let target (f : ActionMap → Option Nat) : Byte := byteOf ((c.profile.bind fun p => f p.map).getD 0)
  [byteOf i.val] ++ wordBytes c.tag
    ++ [byteOf c.unit.val, optByte (c.kind.map CoilKind.wire), byteOf c.lifecycle.wire]
    ++ bindingBytes c.lat s.freeCount ++ bindingBytes c.ft (s.freeCount + 2)
    ++ [target (·.vfo), target (·.pms), target (·.fbf)]
    ++ optWord (c.profile.map (·.hold))
    ++ [byteOf c.profile.isSome.toNat]

/-- The LIMITS view (R182): W takes one byte, since its values fit one (R181, log 17). -/
def State.coilLimitsView (s : State) (i : Slot) : List Byte :=
  let c := s.coils[i]
  [byteOf i.val] ++ wordBytes c.tag
    ++ optInt16 (c.profile.map (·.limits.airLimit)) ++ optInt16 (c.profile.map (·.limits.fluidLimit))
    ++ [optByte (c.profile.map (·.limits.watchBand.toNat))]
    ++ optWord (c.profile.map (·.limits.decay.toNat))
    ++ optWord (c.profile.map (·.dose.lower)) ++ optWord (c.profile.map (·.dose.upper))
    ++ optWord (c.profile.map (·.dose.tripDose))

/-- The three views (R182). -/
inductive CoilView where
  | state | definition | limits
  deriving DecidableEq, Repr

/-- The view byte: views 0 to 2 name the record by slot, 3 to 5 by tag (R182). -/
def viewOf (n : Nat) : Option (Bool × CoilView) :=
  match n with
  | 0 => some (false, .state)
  | 1 => some (false, .definition)
  | 2 => some (false, .limits)
  | 3 => some (true, .state)
  | 4 => some (true, .definition)
  | 5 => some (true, .limits)
  | _ => none

/-- The slot of the non-vacant record that carries a tag; tag 0 is no tag (R3). -/
def State.slotOfTag (s : State) (tag : Nat) : Option Slot :=
  if tag = 0 then none
  else (List.finRange 48).find? fun i => s.coils[i].lifecycle != .vacant && s.coils[i].tag == tag

/-- The answer of a view. Only the DEFINITION view takes free values, four at a time (log 15). -/
def State.answerView (s : State) (v : CoilView) (i : Slot) : Handled :=
  match v with
  | .state => (s, some (.done (s.coilStateView i)))
  | .definition => ({ s with freeCount := s.freeCount + 4 }, some (.done (s.coilDefinitionView i)))
  | .limits => (s, some (.done (s.coilLimitsView i)))

/-- QUERY_COIL at its owner (R3, R182). -/
def queryCoilOwner (f : RxFrame) (s : State) : Handled :=
  let n := wordAt f.payload 1
  match viewOf (byteAt f.payload 0) with
  | none => refuse s .outOfRange
  | some (false, v) => withRecord s n fun i => s.answerView v i
  | some (true, v) =>
    match s.slotOfTag n with
    | none => refuse s .noRecord
    | some i => s.answerView v i

/-- QUERY_COIL (R182). -/
def execQueryCoil (s : State) : Step := .next (takeRequest .queryCoil queryCoilOwner s)

/-! ### QUERY_POINT (R32, R183) -/

/-- The data of a point entry (R183). R183 states no value for bits 4 to 7 of the flags byte: the model sends 0, its own choice
(log 32). -/
def pointView (i : Fin 96) (e : PointEntry) : List Byte :=
  [byteOf e.key.station, byteOf e.key.point, byteOf i.val, byteOf e.refs] ++ optInt16 e.held
    ++ [e.lastSeq.getD 0, flagsByte [e.held.isSome, e.lastSeq.isSome, e.reported, e.polled],
        byteOf e.quality.wire, byteOf e.miss, byteOf e.streak, byteOf e.gaps]

/-- QUERY_POINT at its owner (R32). -/
def queryPointOwner (f : RxFrame) (s : State) : Handled :=
  let k : PointKey := { station := byteAt f.payload 0, point := byteAt f.payload 1 }
  if !k.inRange then refuse s .outOfRange
  else
    match indexOf s.points k with
    | none => refuse s .noRecord
    | some i =>
      match s.points[i] with
      | none => refuse s .noRecord
      | some e => (s, some (.done (pointView i e)))

/-- QUERY_POINT (R32). -/
def execQueryPoint (s : State) : Step := .next (takeRequest .queryPoint queryPointOwner s)

/-! ### QUERY_UNIT and READ_FAULTS (R134, R135, R184) -/

/-- The number of the unit's ARMED records in TRIP or LOCKOUT (R135). -/
def State.trippedCount (s : State) (u : UnitNo) : Nat := s.coils.toList.countP fun c => c.unit == u && c.tripped

/-- The number of the unit's SETTLING records with a latch other than NONE (R135). -/
def State.latchedSettlingCount (s : State) (u : UnitNo) : Nat :=
  s.coils.toList.countP fun c => c.unit == u && c.settlesLatched

/-- The filter is PENDING. -/
def ContactFilter.isPending : ContactFilter → Bool
  | .steady => false
  | .pending _ => true

/-- The data of a unit (R184). R184 states no value for bits 5 to 7 of the flags byte: the model sends 0, its own choice
(log 32). -/
def State.unitView (s : State) (u : UnitNo) : List Byte :=
  let e := s.units[u]
  [byteOf u.val,
   flagsByte [e.controller.isSome, e.contact == .opened, e.filter.isPending, e.fso == .stop, s.power == .startLoad],
   byteOf (e.controller.getD 0), byteOf e.zone.val, byteOf e.fan.wire,
   optByte (e.statusTimer.map (secondsLeft s.now)), byteOf (s.trippedCount u), byteOf (s.latchedSettlingCount u),
   e.faults.wire]

/-- QUERY_UNIT at its owner (R135). -/
def queryUnitOwner (f : RxFrame) (s : State) : Handled :=
  match unitOf (byteAt f.payload 0) with
  | none => refuse s .outOfRange
  | some u => (s, some (.done (s.unitView u)))

/-- QUERY_UNIT (R135). -/
def execQueryUnit (s : State) : Step := .next (takeRequest .queryUnit queryUnitOwner s)

/-- READ_FAULTS at its owner (R134): the summary is emptied as the answer is formed. -/
def readFaultsOwner (f : RxFrame) (s : State) : Handled :=
  match unitOf (byteAt f.payload 0) with
  | none => refuse s .outOfRange
  | some u =>
    (s.setUnit u { s.units[u] with faults := .empty }, some (.done [byteOf u.val, s.units[u].faults.wire]))

/-- READ_FAULTS (R134). -/
def execReadFaults (s : State) : Step := .next (takeRequest .readFaults readFaultsOwner s)

/-! ### QUERY_DEMAND (R117, R185) -/

/-- The time left on a hold-off, absent where it is none or has passed (R185). -/
def holdOffLeft (now : Nat) (t : Option Nat) : Option Nat :=
  t.bind fun t => if t ≤ now then none else some (tenthsLeft now t)

/-- The data of a demand entry (R185). Bit 4 of the flags is free while the entry is not in flight (log 16). -/
def State.demandView (s : State) (e : DemandEntry) : List Byte :=
  [byteOf e.key.station, byteOf (actionKindWire e.key.kind), byteOf e.mapRefs, byteOf e.demand, byteOf e.commanded.wire,
   flagsByte
     [e.queued.isSome, e.polarity == .assert, e.refreshDue, e.inFlight.isSome,
      match e.inFlight with
      | some p => p == .assert
      | none => Config.polarityBitAtRest s.freeCount,
      e.faulted],
   byteOf e.attempts, optByte (holdOffLeft s.now e.holdOff), optByte (e.refreshTimer.map (secondsLeft s.now)),
   optByte (e.retryTimer.map (secondsLeft s.now))]

/-- QUERY_DEMAND at its owner (R117). -/
def queryDemandOwner (f : RxFrame) (s : State) : Handled :=
  let a := byteAt f.payload 0
  match actionKindOf (byteAt f.payload 1) with
  | none => refuse s .outOfRange
  | some kind =>
    if !isStation a then refuse s .outOfRange
    else
      match demandOf s.demands { station := a, kind := kind } with
      | none => refuse s .noRecord
      | some e => ({ s with freeCount := s.freeCount + 1 }, some (.done (s.demandView e)))

/-- QUERY_DEMAND (R117). -/
def execQueryDemand (s : State) : Step := .next (takeRequest .queryDemand queryDemandOwner s)

/-! ### PART_STATUS (R186) -/

/-- The number of records in a lifecycle (R1). -/
def State.lifecycleCount (s : State) (l : Lifecycle) : Nat := s.coils.toList.countP fun c => c.lifecycle == l

/-- The stale-store count (R7, R186). -/
def State.staleCount (s : State) : Nat := s.coils.toList.countP fun c => c.storeStale

/-- The number of claim entries that hold a claim (R157). -/
def State.claimCount (s : State) : Nat := s.claims.toList.countP Option.isSome

/-- The data of PART_STATUS (R186). R186 states no value for bits 5 to 7 of the flags byte: the model sends 0, its own choice
(log 32). -/
def State.statusView (s : State) : List Byte :=
  [byteOf s.address, byteOf s.zone.val,
   flagsByte [s.strapValid, s.regime == .mild, s.average.isSome, s.lastLoadRestart, s.settingsDefaulted]]
    ++ optInt16 s.average
    ++ [byteOf (s.lifecycleCount .vacant), byteOf (s.lifecycleCount .draft), byteOf (s.lifecycleCount .settling),
        byteOf (s.lifecycleCount .armed), byteOf (s.lifecycleCount .suspended), byteOf s.claimCount,
        byteOf (pointsInUse s.points), byteOf s.demands.length, byteOf (queueLength s.demands), byteOf s.staleCount,
        byteOf s.lostSlots]

/-- PART_STATUS at its owner (R186): the lost-slot count is emptied as the answer is formed. -/
def partStatusOwner (_f : RxFrame) (s : State) : Handled := ({ s with lostSlots := 0 }, some (.done s.statusView))

/-- PART_STATUS (R186). -/
def execPartStatus (s : State) : Step := .next (takeRequest .partStatus partStatusOwner s)

end Sys2Proof.Machine
end

