-- ==== Sys2Proof/Machine/Lifecycles.lean ====
section
/-! DEFINITION. The requests that move a record through its lifecycle and out of a trip: CREATE, ARM, SUSPEND, RETIRE
(chapter 1), RESTART and RELEASE_LOCKOUT (4.5). -/

namespace Sys2Proof.Machine

/-- What every successful lifecycle request does besides: the notice flag and the dirty mark (R9), at the event's end. -/
def State.lifecycleChanged (s : State) (i : Slot) : State := ((s.setNotice i).markDirty (.coil i)).endEvent

/-! ### CREATE -/

/-- The lowest VACANT slot (R12). -/
def State.lowestVacant (s : State) : Option Slot := (List.finRange 48).find? fun i => s.coils[i].lifecycle == .vacant

/-- A new DRAFT record (R12). -/
def Coil.draft (tag : Nat) (u : UnitNo) (kind : CoilKind) : Coil :=
  { Coil.vacant u with lifecycle := .draft, tag := tag, kind := some kind }

/-- CREATE at its owner (R11, R12). -/
def createOwner (f : RxFrame) (s : State) : Handled :=
  let tag := wordAt f.payload 0
  if !s.isSupervisor f.sender then refuse s .notPermitted
  else
    match unitOf (byteAt f.payload 2), coilKindOf (byteAt f.payload 3) with
    | some u, some kind =>
      if tag = 0 then refuse s .outOfRange
      else if s.tagHeld tag then refuse s .tagInUse
      else
        match s.lowestVacant with
        | none => refuse s .tableFull
        | some i => ((s.setCoil i (.draft tag u kind)).lifecycleChanged i, some (.done [byteOf i.val]))
    | _, _ => refuse s .outOfRange

/-- CREATE (R11). -/
def execCreate (s : State) : Step := .next (takeRequest .create createOwner s)

/-! ### ARM -/

/-- A record is complete (R13): a profile, LAT, FT where required, and a defined unit. -/
def State.isComplete (s : State) (c : Coil) : Bool :=
  c.profile.isSome && c.everyRequired (fun _ => true) && s.units[c.unit].controller.isSome

/-- The record's new pairs find room in the demand table (R14). -/
def State.pairsFit (s : State) (c : Coil) : Bool :=
  decide ((newPairs (s.targetPairs c) s.demands).length ≤ Config.demandCapacity - s.demands.length)

/-- The record as ARM leaves it (R15). -/
def Coil.startsSettling (c : Coil) (now : Nat) : Coil :=
  { c with lifecycle := .settling, settleTimer := some (now + Config.settleTime), settleOverdue := false }

/-- The changes of an ARM that passes its checks (R15). -/
def State.arm (s : State) (i : Slot) : State :=
  let pairs := s.targetPairs s.coils[i]
  let s := { s with demands := addMapRefs s.joinStamp pairs s.demands }
  (s.setCoil i (s.coils[i].startsSettling s.now)).lifecycleChanged i

/-- ARM at its owner (R13). -/
def armOwner (f : RxFrame) (s : State) : Handled :=
  withRecord s (byteAt f.payload 0) fun i =>
    if !s.mayEdit f.sender i then refuse s .notPermitted
    else if s.coils[i].lifecycle ≠ .draft ∧ s.coils[i].lifecycle ≠ .suspended then refuse s .wrongState
    else if !s.isComplete s.coils[i] then refuse s .incomplete
    else if !s.pairsFit s.coils[i] then refuse s .demandTableFull
    else (s.arm i, some (.done []))

/-- ARM (R13). -/
def execArm (s : State) : Step := .next (takeRequest .arm armOwner s)

/-! ### SUSPEND -/

/-- The states that SUSPEND is taken in: ARMED in CLEAR or WATCH, or SETTLING with latch NONE (R20). -/
def Coil.maySuspend (c : Coil) : Bool :=
  (c.lifecycle == .armed && (c.stage == .clear || c.stage == .watch)) || (c.lifecycle == .settling && c.latch == .none)

/-- The record as SUSPEND leaves it (R21). -/
def Coil.suspended (c : Coil) : Coil :=
  { c with
    lifecycle := .suspended
    stage := .clear
    dose := 0
    tripCount := 0
    latch := .none
    cause := .none
    settleOverdue := false
    evalTimer := none
    settleTimer := none
    cleanTimer := none
    holdTimer := none
    last := none }

/-- The changes of a SUSPEND that passes its checks (R21). A record in CLEAR, WATCH or SETTLING demands nothing, so no demand
count changes. -/
def State.suspend (s : State) (i : Slot) : State :=
  let s := { s with demands := dropMapRefs (s.targetPairs s.coils[i]) s.demands }
  (s.setCoil i s.coils[i].suspended).lifecycleChanged i

/-- SUSPEND at its owner (R20). -/
def suspendOwner (f : RxFrame) (s : State) : Handled :=
  withRecord s (byteAt f.payload 0) fun i =>
    if !s.mayEdit f.sender i then refuse s .notPermitted
    else if !s.coils[i].maySuspend then refuse s .wrongState
    else (s.suspend i, some (.done []))

/-- SUSPEND (R20). -/
def execSuspend (s : State) : Step := .next (takeRequest .suspend suspendOwner s)

/-! ### RETIRE -/

/-- The keys of a record's bindings. -/
def Coil.keys (c : Coil) : List PointKey := (c.lat.map (·.key)).toList ++ (c.ft.map (·.key)).toList

/-- Cancel any claim on a record (R23, R156). -/
def State.cancelClaim (s : State) (i : Slot) : State :=
  { s with claims := tableMap (fun o => o.filter fun c => c.slot != i) s.claims }

/-- The changes of a RETIRE that passes its checks (R23). -/
def State.retire (s : State) (i : Slot) : State :=
  let s := (s.cancelClaim i).changeRefs { gives := s.coils[i].keys, takes := [] }
  (s.setCoil i (.vacant s.coils[i].unit)).lifecycleChanged i

/-- RETIRE at its owner (R22). -/
def retireOwner (f : RxFrame) (s : State) : Handled :=
  if !s.isSupervisor f.sender then refuse s .notPermitted
  else
    withRecord s (byteAt f.payload 0) fun i =>
      if s.coils[i].lifecycle ≠ .draft ∧ s.coils[i].lifecycle ≠ .suspended then refuse s .wrongState
      else if s.coils[i].writeInFlight then refuse s .writing
      else (s.retire i, some (.done []))

/-- RETIRE (R22). -/
def execRetire (s : State) : Step := .next (takeRequest .retire retireOwner s)

/-! ### RESTART and RELEASE_LOCKOUT -/

/-- The three conditions of RESTART (R80): contact CLOSED, every required binding available, and a last air margin above 0. -/
def State.mayRestart (s : State) (c : Coil) : Bool :=
  s.units[c.unit].contact == .closed && s.requiredAvailable c
    && (c.last.bind (·.airMargin)).any fun a => decide (0 < a)

/-- The changes of a RESTART that passes its checks (R81). -/
def State.restart (s : State) (i : Slot) : State :=
  (((s.changeCoil i { s.coils[i] with stage := .recovery .fanRestart, cause := .restart }).recomputeFso
    s.coils[i].unit).setNotice i).endEvent

/-- RESTART at its owner (R80). -/
def restartOwner (f : RxFrame) (s : State) : Handled :=
  withRecord s (byteAt f.payload 0) fun i =>
    if !s.mayEdit f.sender i then refuse s .notPermitted
    else if s.coils[i].lifecycle ≠ .armed ∨ s.coils[i].stage ≠ .trip then refuse s .wrongState
    else if !s.mayRestart s.coils[i] then refuse s .refusedCondition
    else (s.restart i, some (.done []))

/-- RESTART (R80). -/
def execRestart (s : State) : Step := .next (takeRequest .restart restartOwner s)

/-- The changes of a RELEASE_LOCKOUT that passes its checks (R82). TRIP and LOCKOUT demand the same kinds, so no demand count
changes. -/
def State.releaseLockout (s : State) (i : Slot) : State :=
  (((s.changeCoil i
    { s.coils[i] with stage := .trip, tripCount := 0, latch := .trip 0, cause := .lockoutReleased }).markDirty
    (.coil i)).setNotice i).endEvent

/-- RELEASE_LOCKOUT at its owner (R82). -/
def releaseLockoutOwner (f : RxFrame) (s : State) : Handled :=
  if !s.isSupervisor f.sender then refuse s .notPermitted
  else
    withRecord s (byteAt f.payload 0) fun i =>
      if s.coils[i].lifecycle ≠ .armed ∨ s.coils[i].stage ≠ .lockout then refuse s .wrongState
      else (s.releaseLockout i, some (.done []))

/-- RELEASE_LOCKOUT (R82). -/
def execReleaseLockout (s : State) : Step := .next (takeRequest .releaseLockout releaseLockoutOwner s)

end Sys2Proof.Machine
end

