-- ==== Sys2Proof/Machine/Edits.lean ====
section
/-! DEFINITION. The claimed edits: CLAIM, the STAGE functions, COMMIT and ABANDON (chapter 7). -/

namespace Sys2Proof.Machine

/-! ### Claims (R140 to R143) -/

/-- The claim that a station holds, with its entry (R140, R143). -/
def State.claimOf (s : State) (a : Nat) : Option (ClaimNo × Claim) :=
  (List.finRange 4).findSome? fun n => s.claims[n].bind fun c => if c.holder = a then some (n, c) else none

/-- The lowest-numbered FREE claim entry (R141). -/
def State.lowestFreeClaim (s : State) : Option ClaimNo := (List.finRange 4).find? fun n => s.claims[n].isNone

/-- A new claim (R141). -/
def Claim.new (holder : Nat) (i : Slot) (now : Nat) : Claim where
  holder := holder
  slot := i
  staging := .empty
  timer := some (now + Config.claimTime)
  state := .opened

/-- CLAIM at its owner (R141). -/
def claimOwner (f : RxFrame) (s : State) : Handled :=
  withRecord s (byteAt f.payload 0) fun i =>
    if !s.mayEdit f.sender i then refuse s .notPermitted
    else if (s.claimOn i).any (fun p => p.2.holder != f.sender) then refuse s .claimedElsewhere
    else if (s.claimOf f.sender).isSome then refuse s .wrongState
    else
      match s.lowestFreeClaim with
      | none => refuse s .noStaging
      | some n => (s.setClaim n (some (.new f.sender i s.now)), some (.done [byteOf i.val]))

/-- CLAIM (R141). -/
def execClaim (s : State) : Step := .next (takeRequest .claim claimOwner s)

/-- The checks that STAGE functions, COMMIT and ABANDON share, in their order (R143). -/
def withClaim (f : RxFrame) (s : State) (k : ClaimNo → Claim → Handled) : Handled :=
  match s.claimOf f.sender with
  | none => refuse s .notClaimed
  | some (n, c) =>
    if !s.mayEdit f.sender c.slot then refuse s .notPermitted
    else if c.isCommitted then refuse s .writing
    else k n c

/-! ### The staging area (R144, R145) -/

/-- A STAGE function taken into the staging area: the claim timer restarts, and the answer is DONE (R145). -/
def State.stage (s : State) (n : ClaimNo) (c : Claim) (st : Staging) : Handled :=
  (s.setClaim n (some { c with staging := st, timer := some (s.now + Config.claimTime) }), some (.done []))

/-- STAGE_LIMITS at its owner (R145, R180). -/
def stageLimitsOwner (f : RxFrame) (s : State) : Handled :=
  withClaim f s fun n c => s.stage n c { c.staging with limits := some (limitsFields f.payload) }

/-- STAGE_LIMITS (R145). -/
def execStageLimits (s : State) : Step := .next (takeRequest .stageLimits stageLimitsOwner s)

/-- STAGE_DOSE at its owner (R145, R180). -/
def stageDoseOwner (f : RxFrame) (s : State) : Handled :=
  withClaim f s fun n c => s.stage n c { c.staging with dose := some (doseFields f.payload) }

/-- STAGE_DOSE (R145). -/
def execStageDose (s : State) : Step := .next (takeRequest .stageDose stageDoseOwner s)

/-- STAGE_TIMING at its owner (R145, R180). -/
def stageTimingOwner (f : RxFrame) (s : State) : Handled :=
  withClaim f s fun n c => s.stage n c { c.staging with timing := some (wordAt f.payload 0) }

/-- STAGE_TIMING (R145). -/
def execStageTiming (s : State) : Step := .next (takeRequest .stageTiming stageTimingOwner s)

/-- STAGE_MAP at its owner (R145, R180). -/
def stageMapOwner (f : RxFrame) (s : State) : Handled :=
  withClaim f s fun n c => s.stage n c { c.staging with map := some (mapFields f.payload) }

/-- STAGE_MAP (R145). -/
def execStageMap (s : State) : Step := .next (takeRequest .stageMap stageMapOwner s)

/-- STAGE_BIND at its owner (R145, R180): role 0 is LAT and role 1 is FT; any other gives OUT_OF_RANGE. -/
def stageBindOwner (f : RxFrame) (s : State) : Handled :=
  withClaim f s fun n c =>
    match byteAt f.payload 0 with
    | 0 => s.stage n c { c.staging with lat := some (bindFields f.payload) }
    | 1 => s.stage n c { c.staging with ft := some (bindFields f.payload) }
    | _ => refuse s .outOfRange

/-- STAGE_BIND (R145). -/
def execStageBind (s : State) : Step := .next (takeRequest .stageBind stageBindOwner s)

/-! ### The candidate and its clamps (R147) -/

/-- Raise a value to the lower bound or lower it to the upper one. -/
def clampTo (lo hi x : Int) : Int := max lo (min hi x)

/-- Limits with W and D clamped (R147). -/
def Limits.clamped (l : Limits) : Limits :=
  { l with watchBand := clampTo 5 200 l.watchBand, decay := clampTo 1 1000 l.decay }

/-- H clamped, in seconds (R147). -/
def clampedHold (h : Nat) : Nat := max 30 (min 1800 h)

/-- A staged binding with its offset clamped (R147). -/
def StagedBinding.clamped : StagedBinding → StagedBinding
  | .unbind => .unbind
  | .bind b => .bind { b with offset := clampTo (-50) 50 b.offset }

/-- The staged values after the clamps (R147). -/
def Staging.clamped (st : Staging) : Staging :=
  { st with
    limits := st.limits.map Limits.clamped
    timing := st.timing.map clampedHold
    lat := st.lat.map StagedBinding.clamped
    ft := st.ft.map StagedBinding.clamped }

/-- A candidate definition, in the groups that a staging lays over a record's definition (R147). -/
structure Candidate where
  limits : Option Limits
  dose : Option DoseMarks
  hold : Option Nat
  map : Option ActionMap
  lat : Option Binding
  ft : Option Binding
  deriving DecidableEq, Repr

/-- A binding position under a staged group: set, emptied or left (R147). -/
def mergeBinding (staged : Option StagedBinding) (old : Option Binding) : Option Binding :=
  match staged with
  | none => old
  | some .unbind => none
  | some (.bind b) => some b

/-- The candidate: each staged group laid over the matching part of the record's definition (R147). -/
def Staging.over (st : Staging) (c : Coil) : Candidate where
  limits := st.limits <|> c.profile.map (·.limits)
  dose := st.dose <|> c.profile.map (·.dose)
  hold := st.timing <|> c.profile.map (·.hold)
  map := st.map <|> c.profile.map (·.map)
  lat := mergeBinding st.lat c.lat
  ft := mergeBinding st.ft c.ft

/-- The candidate's profile: present when all four groups are (R149, R152). -/
def Candidate.profile (cd : Candidate) : Option Profile :=
  match cd.limits, cd.dose, cd.hold, cd.map with
  | some l, some d, some h, some m => some { limits := l, dose := d, hold := h, map := m }
  | _, _, _, _ => none

/-- A record with a candidate as its definition (R152). -/
def Candidate.into (cd : Candidate) (c : Coil) : Coil := { c with lat := cd.lat, ft := cd.ft, profile := cd.profile }

/-! ### The checks of a commit (R148 to R151) -/

/-- A_L and F_L in range (R148). -/
def Limits.inRange (l : Limits) : Bool :=
  decide (-100 ≤ l.airLimit) && decide (l.airLimit ≤ 150) && decide (-100 ≤ l.fluidLimit) && decide (l.fluidLimit ≤ 300)

/-- None of L, U and T is 0 (R148). -/
def DoseMarks.inRange (d : DoseMarks) : Bool := d.lower != 0 && d.upper != 0 && d.tripDose != 0

/-- Each map target is a station or none (R148). -/
def ActionMap.inRange (m : ActionMap) : Bool := m.vfo.all isStation && m.pms.all isStation && m.fbf.all isStation

/-- The range check (R148). -/
def Candidate.inRange (cd : Candidate) : Bool :=
  cd.limits.all Limits.inRange && cd.dose.all DoseMarks.inRange && cd.map.all ActionMap.inRange
    && cd.lat.all (fun b => b.key.inRange) && cd.ft.all (fun b => b.key.inRange)

/-- L < U < T ≤ 60000 (R148). -/
def DoseMarks.consistent (d : DoseMarks) : Bool :=
  decide (d.lower < d.upper) && decide (d.upper < d.tripDose) && decide (d.tripDose ≤ Config.maxDose)

/-- The number of profile groups staged (R144). -/
def Staging.profileGroups (st : Staging) : Nat :=
  st.limits.isSome.toNat + st.dose.isSome.toNat + st.timing.isSome.toNat + st.map.isSome.toNat

/-- A binding group is staged (R144). -/
def Staging.hasBinding (st : Staging) : Bool := st.lat.isSome || st.ft.isSome

/-- Some profile groups but not all four are staged for a record without a profile (R149). -/
def Staging.incompleteFor (st : Staging) (c : Coil) : Bool :=
  c.profile.isNone && st.profileGroups != 0 && st.profileGroups != 4

/-- The state gate (R150). -/
def Staging.passesGate (st : Staging) (c : Coil) : Bool :=
  match c.lifecycle with
  | .draft | .suspended => true
  | .armed => !st.hasBinding && (c.stage == .clear || st.profileGroups == 0)
  | .settling | .vacant => !st.hasBinding && st.profileGroups == 0

/-- A record that holds map references: SETTLING or ARMED (R97). -/
def Coil.holdsReferences (c : Coil) : Bool := c.lifecycle == .settling || c.lifecycle == .armed

/-- The pairs a record loses by a change of definition. -/
def State.lostPairs (s : State) (old new : Coil) : List DemandKey :=
  (s.targetPairs old).filter fun k => k ∉ s.targetPairs new

/-- The pairs a record gains by a change of definition. -/
def State.gainedPairs (s : State) (old new : Coil) : List DemandKey := s.lostPairs new old

/-- An entry that losing one reference removes at once (R100). -/
def removedAtOnce (ds : List DemandEntry) (k : DemandKey) : Bool :=
  (demandOf ds k).any fun e => decide (e.mapRefs ≤ 1) && e.atRestUnasserted

/-- The demand table's capacity check of a map change (R100). -/
def State.mapFits (s : State) (old new : Coil) : Bool :=
  decide ((newPairs (s.gainedPairs old new) s.demands).length
    ≤ Config.demandCapacity - s.demands.length + (s.lostPairs old new).countP (removedAtOnce s.demands))

/-- The reference change of a commit's binding changes (R30, R152). -/
def bindingChange (old new : Coil) : RefChange := { gives := old.keys, takes := new.keys }

/-! ### COMMIT and ABANDON -/

/-- The map change of an ARMED record at the demand table: removals before additions (R97, R152). -/
def State.changeMapRefs (s : State) (old new : Coil) : State :=
  if new.lifecycle = .armed then
    { s with demands := addMapRefs s.joinStamp (s.gainedPairs old new) (dropMapRefs (s.lostPairs old new) s.demands) }
  else s

/-- The changes of a COMMIT that passes every check (R152). A record in CLEAR contributes to no demand count. -/
def State.commit (s : State) (n : ClaimNo) (c : Claim) (new : Coil) (clamped : Bool) : State :=
  let old := s.coils[c.slot]
  let s := (s.changeRefs (bindingChange old new)).changeMapRefs old new
  let s := s.setCoil c.slot { new with writeInFlight := true }
  ((s.setClaim n (some { c with timer := none, state := .committed clamped })).markDirty (.coil c.slot)).endEvent

/-- The checks of a COMMIT, in their order, and its effect (R147 to R152). One that passes is answered at the completion of
its write (R153, R166). -/
def State.tryCommit (s : State) (n : ClaimNo) (c : Claim) : Handled :=
  let old := s.coils[c.slot]
  let st := c.staging.clamped
  let cd := st.over old
  let new := cd.into old
  if !cd.inRange then refuse s .outOfRange
  else if !cd.dose.all DoseMarks.consistent then refuse s .inconsistent
  else if st.incompleteFor old then refuse s .incomplete
  else if !st.passesGate old then refuse s .stageBusy
  else if !(bindingChange old new).fits s.points then refuse s .pointTableFull
  else if old.holdsReferences && st.map.isSome && !s.mapFits old new then refuse s .demandTableFull
  else (s.commit n c new (st != c.staging), none)

/-- COMMIT at its owner (R147). -/
def commitOwner (f : RxFrame) (s : State) : Handled := withClaim f s fun n c => s.tryCommit n c

/-- COMMIT (R147). -/
def execCommit (s : State) : Step := .next (takeRequest .commit commitOwner s)

/-- ABANDON at its owner (R155). -/
def abandonOwner (f : RxFrame) (s : State) : Handled :=
  withClaim f s fun n _ => (s.setClaim n none, some (.done []))

/-- ABANDON (R155). -/
def execAbandon (s : State) : Step := .next (takeRequest .abandon abandonOwner s)

end Sys2Proof.Machine
end

