-- ==== Sys2Proof/Machine/Settings.lean ====
section
/-! DEFINITION. The requests that set up the part: UNIT_SET (6.1.1), PART_SET (3.1.2), SUPERVISOR_SET (7.1.1) and
PART_RESTART (10.4). -/

namespace Sys2Proof.Machine

/-! ### UNIT_SET (R121, R122) -/

/-- A coil record of the unit is SETTLING or ARMED (R121). -/
def State.unitInUse (s : State) (u : UnitNo) : Bool := s.coils.toList.any fun c => c.unit == u && c.holdsReferences

/-- A unit as UNIT_SET leaves it (R122): a changed controller station clears the fan proof. -/
def UnitEntry.define (e : UnitEntry) (controller : Option Nat) (zone : Fin 16) : UnitEntry :=
  if e.controller = controller then { e with zone := zone }
  else { e with controller := controller, zone := zone, fan := .unknown, statusTimer := none }

/-- The changes of a UNIT_SET that passes its checks (R122). -/
def State.defineUnit (s : State) (u : UnitNo) (controller : Option Nat) (zone : Fin 16) : State :=
  (s.setUnit u (s.units[u].define controller zone)).markDirty (.unit u)

/-- UNIT_SET at its owner (R121, R180). -/
def unitSetOwner (f : RxFrame) (s : State) : Handled :=
  let controller := stationOrNone (byteAt f.payload 1)
  if !s.isSupervisor f.sender then refuse s .notPermitted
  else
    match unitOf (byteAt f.payload 0), zoneOf (byteAt f.payload 2) with
    | some u, some zone =>
      if !controller.all isStation then refuse s .outOfRange
      else if s.unitInUse u then refuse s .wrongState
      else (s.defineUnit u controller zone, some (.done []))
    | _, _ => refuse s .outOfRange

/-- UNIT_SET (R121). -/
def execUnitSet (s : State) : Step := .next (takeRequest .unitSet unitSetOwner s)

/-! ### PART_SET (R52, R53) -/

/-- A threshold lies from -300 to +300 (R52). -/
def thresholdInRange (x : Int) : Bool := decide (-300 ≤ x) && decide (x ≤ 300)

/-- The reference change of a new outdoor binding (R53). -/
def State.outdoorChange (s : State) (k : Option PointKey) : RefChange := { gives := s.outdoor.toList, takes := k.toList }

/-- A new outdoor binding (R53): the references change together, and the average and the regime start afresh. -/
def State.rebindOutdoor (s : State) (k : Option PointKey) : State :=
  if s.outdoor = k then s
  else { s.changeRefs (s.outdoorChange k) with outdoor := k, average := none, regime := .cold }

/-- The changes of a PART_SET that passes its checks (R53). -/
def State.setPart (s : State) (k : Option PointKey) (on off : Int) : State :=
  (({ s with regimeOn := on, regimeOff := off } : State).rebindOutdoor k).markDirty .settings

/-- PART_SET at its owner (R52, R180). -/
def partSetOwner (f : RxFrame) (s : State) : Handled :=
  let k := outdoorField f.payload
  let on := int16At f.payload 2
  let off := int16At f.payload 4
  if !s.isSupervisor f.sender then refuse s .notPermitted
  else if !(thresholdInRange on && thresholdInRange off && k.all PointKey.inRange) then refuse s .outOfRange
  else if off ≤ on then refuse s .inconsistent
  else if !(s.outdoorChange k).fits s.points then refuse s .pointTableFull
  else (s.setPart k on off, some (.done []))

/-- PART_SET (R52). -/
def execPartSet (s : State) : Step := .next (takeRequest .partSet partSetOwner s)

/-! ### SUPERVISOR_SET (R138) -/

/-- The station bytes within the count of a SUPERVISOR_SET (R180). -/
def supervisorFields (p : List Byte) : List Nat := (List.range (byteAt p 0)).map fun i => byteAt p (i + 1)

/-- The answer to a SUPERVISOR_SET: the count and four station bytes, unused places 0 (R181). -/
def supervisorView (l : List Nat) : List Byte := byteOf l.length :: (List.range 4).map fun i => byteOf (l.getD i 0)

/-- SUPERVISOR_SET at its owner (R138): the list is replaced whole, each address held once in the order given (log 18). -/
def supervisorSetOwner (f : RxFrame) (s : State) : Handled :=
  let l := distinct (supervisorFields f.payload)
  if !s.isSupervisor f.sender then refuse s .notPermitted
  else if Config.supervisorCapacity < byteAt f.payload 0 || !l.all isStation then refuse s .outOfRange
  else (({ s with supervisors := l } : State).markDirty .settings, some (.done (supervisorView l)))

/-- SUPERVISOR_SET (R138). -/
def execSupervisorSet (s : State) : Step := .next (takeRequest .supervisorSet supervisorSetOwner s)

/-! ### PART_RESTART (R194) -/

/-- PART_RESTART at its owner (R194, R166): a supervisor's becomes pending, any other changes nothing, and neither is
answered. -/
def partRestartOwner (f : RxFrame) (s : State) : Handled :=
  if s.isSupervisor f.sender then ({ s with restartPending := true }, none) else (s, none)

/-- PART_RESTART (R194). -/
def execPartRestart (s : State) : Step := .next (takeRequest .partRestart partRestartOwner s)

end Sys2Proof.Machine
end

