-- ==== Sys2Proof/Machine/LineEvents.lean ====
section
/-! DEFINITION. The events of the plant line: a frame received, a grant, a loss, and the completion of a frame of the part
(8.2, 8.4, 8.5, 5.4, 5.5, R47). -/

namespace Sys2Proof.Machine

/-! ### Reception (R158, R161, R162, R174) -/

/-- The targets the part takes: its own address, all stations, its zone group (R161). -/
def State.takesTarget (s : State) (target : Nat) : Bool := target == s.address || target == 255 || target == zoneAddress s.zone

/-- A frame as the receive queue keeps it (R163). -/
def State.received (s : State) (f : Frame) : RxFrame where
  sender := f.sender.toNat
  target := f.target.toNat
  addressed := f.target.toNat == s.address
  code := f.code
  payload := f.payload

/-- What the part drives in the slot of a good frame that its filter takes (R162, R174). -/
def State.slotFor (s : State) (addressed : Bool) : Ack :=
  if !addressed then .nothing
  else if s.power = .running ∧ s.rx.length < Config.rxCapacity then .accept
  else .refuse

/-- A good frame that the filter takes (R162): it joins the queue where the part is in service and the queue has room. -/
def State.acceptFrame (s : State) (f : Frame) : State :=
  let r := s.received f
  { s with
    ack := s.slotFor r.addressed
    rx := if s.power = .running ∧ s.rx.length < Config.rxCapacity then s.rx ++ [r] else s.rx }

/-- The part hears the line: it has supply, it is not held in reset, and the frame is not one of its own (R158, R174, log 19). -/
def State.hears (s : State) : Bool :=
  match s.power with
  | .off | .held => false
  | .startLoad | .running | .restartLoad => s.line.isNone

/-- A frame received from the line (R158, R161, R162): a bad frame, or one that the filter does not take, is discarded and
nothing is driven in its slot. -/
def State.receive (s : State) (levels : List LineLevel) : State :=
  if !s.hears then s
  else
    match readFrame levels with
    | none => { s with ack := .nothing }
    | some f =>
      if isStation f.sender.toNat && s.takesTarget f.target.toNat then s.acceptFrame f else { s with ack := .nothing }

/-- FRAME_RECEPTION (R162). -/
def execFrameReception (levels : List LineLevel) (s : State) : Step := .next (s.receive levels)

/-! ### Grant and loss (R168, R170) -/

/-- LINE_GRANT (R168). -/
def execLineGrant (s : State) : Step := .next s.grant

/-- LOST_ARBITRATION (R170). -/
def execLostArbitration (s : State) : Step := .next s.loseLine

/-- TRANSMIT_ERROR (R159): handled as a lost arbitration (R170). -/
def execTransmitError (s : State) : Step := .next s.loseLine

/-! ### The completion of an ACTION frame (R108 to R113, R116) -/

/-- The outcome of an ACTION frame: the slot as read, but nothing where the target is the part's own address (R108, R160). -/
def State.actionOutcome (s : State) (d : Dispatch) (ack : AckBits) : Ack :=
  if d.key.station = s.address then .nothing else readAck ack

/-- The units that receive ACTUATOR_FAIL at a fault (R112). -/
def State.actuatorUnits (s : State) (k : DemandKey) (u : UnitNo) : Bool :=
  s.coils.toList.any (fun c => c.unit == u && c.holdsReferences && (s.targetPairs c).contains k)
    || ((k.kind == .fs || k.kind == .oac) && s.units[u].controller == some k.station)

/-- A faulted assert of OAC or VFO is escalated (R111, R113). -/
def Dispatch.escalates (d : Dispatch) : Bool := d.polarity == .assert && (d.key.kind == .oac || d.key.kind == .vfo)

/-- What a fault hands to the Unit Table and the Stage Machine (R111 to R113). -/
def State.handFault (s : State) (d : Dispatch) : State :=
  let s := s.addFaultWhere .actuatorFail (s.actuatorUnits d.key)
  if d.escalates then s.escalate d.key else s

/-- An outcome applied to the entry of a dispatch, with its removal test and, at a fault, the hand-offs (R109 to R112). -/
def State.applyOutcome (s : State) (d : Dispatch) (e : DemandEntry) (outcome : Ack) : State :=
  if outcome = .accept then
    { s with
      demands := sweepDemand d.key (updateDemand d.key (DemandEntry.accepted s.now s.joinStamp d.polarity) s.demands) }
  else
    let t : State :=
      { s with
        demands := sweepDemand d.key (updateDemand d.key (DemandEntry.failed s.now s.joinStamp d.polarity) s.demands) }
    if Config.maxAttempts ≤ e.attempts + 1 then t.handFault d else t

/-- The completion of a dispatch (R108, R116): the dispatcher holds no frame, the outcome is applied, and the step-down tests
follow. -/
def State.completeAction (s : State) (ack : AckBits) : State :=
  match s.dispatch with
  | none => s
  | some d =>
    let s : State := { s with dispatch := none }
    match demandOf s.demands d.key with
    | none => s
    | some e => ((s.applyOutcome d e (s.actionOutcome d ack)).stepDownTests d.key).endEvent

/-- ACTION_COMPLETION (R116). -/
def execActionCompletion (ack : AckBits) (s : State) : Step := .next (s.completeLine .action fun s => s.completeAction ack)

/-! ### The completions of the other sources (R47, R160, R167, R173) -/

/-- Set the polled-this-period flag of the entry a poll names, if it still exists (R47). -/
def State.markPolled (s : State) (i : Option (Fin 96)) : State :=
  match i with
  | some i => { s with points := tablePut s.points i (s.points[i].map fun e => { e with polled := true }) }
  | none => s

/-- The completion of a POLL (R47); the slot does not matter to the engine. -/
def State.completePoll (s : State) : State :=
  match s.poll with
  | none => s
  | some p => (({ s with backlog := s.backlog - 1, poll := none } : State).markPolled p.entry).choosePoll

/-- POLL_COMPLETION (R47). -/
def execPollCompletion (_ack : AckBits) (s : State) : Step := .next (s.completeLine .poll State.completePoll)

/-- ANSWER_COMPLETION (R167): whatever the slot held, the answer leaves the queue. -/
def execAnswerCompletion (_ack : AckBits) (s : State) : Step := .next (s.completeLine .answer State.freeAnswer)

/-- The completion of a STAGE_NOTICE (R173): its flag is cleared unless it was set again since the build, and the source
chooses again. -/
def State.completeNotice (s : State) : State :=
  match s.notice with
  | none => s
  | some n =>
    ({ s with
      notice := none
      noticeFlags := if n.setAgain then s.noticeFlags else tablePut s.noticeFlags n.slot false } : State).chooseNotice

/-- STAGE_NOTICE_COMPLETION (R173); the slot is read as nothing (R160). -/
def execStageNoticeCompletion (_ack : AckBits) (s : State) : Step := .next (s.completeLine .notice State.completeNotice)

end Sys2Proof.Machine
end

