-- ==== Sys2Proof/Machine/TimerEvents.lean ====
section
/-! DEFINITION. The expiries of the part's timers, but for the contact filters: evaluation, restart hold, clean and settle
timers of the records, the poll period, claims, fan proofs, demand entries and the store retry. A timer that is stopped
does not expire (log 2); an expiry moves the clock to the moment the timer was set for (log 3). -/

namespace Sys2Proof.Machine

/-- An expiry of a timer: nothing where the timer is stopped, else the effect at the moment of the expiry. -/
def State.expire (s : State) (timer : Option Nat) (effect : State → State) : State :=
  match timer with
  | none => s
  | some t => effect (s.atExpiry t)

/-! ### The timers of a record -/

/-- EVALUATION_EXPIRY (R59). -/
def execEvaluationExpiry (i : Slot) (s : State) : Step :=
  .next (s.expire s.coils[i].evalTimer fun s => (s.evaluation i).endEvent)

/-- What the hold timer's expiry asks of the last evaluation and the dose (R85). -/
def Coil.holdPasses (c : Coil) : Bool :=
  c.profile.any fun p => c.last.any (fun r => r.atOrAbove p) && decide (c.dose ≤ p.dose.lower)

/-- The hold timer's expiry (R85): STEP_DOWN is entered, or the hold restarts at H. The timer runs in PROVE only. -/
def State.holdExpired (s : State) (i : Slot) : State :=
  if s.coils[i].holdPasses then s.enterStepDown i
  else s.setCoil i { s.coils[i] with holdTimer := some (s.now + s.coils[i].holdTime) }

/-- RESTART_HOLD_EXPIRY (R85). -/
def execRestartHoldExpiry (i : Slot) (s : State) : Step :=
  .next (s.expire s.coils[i].holdTimer fun s => (s.holdExpired i).endEvent)

/-- The clean timer's expiry (R79). -/
def State.cleanExpired (s : State) (i : Slot) : State :=
  let c := s.coils[i]
  let s := s.setCoil i { c with tripCount := 0, latch := .none, cleanTimer := none }
  if c.latch = .none then s else s.markDirty (.coil i)

/-- CLEAN_TIMER_EXPIRY (R79). -/
def execCleanTimerExpiry (i : Slot) (s : State) : Step := .next (s.expire s.coils[i].cleanTimer fun s => s.cleanExpired i)

/-- The settle timer's expiry (R19). -/
def State.settleExpired (s : State) (i : Slot) : State :=
  (((s.setCoil i { s.coils[i] with settleOverdue := true, settleTimer := none }).setNotice i).addFault s.coils[i].unit
    .sensorLost).endEvent

/-- SETTLE_TIMER_EXPIRY (R19). -/
def execSettleTimerExpiry (i : Slot) (s : State) : Step :=
  .next (s.expire s.coils[i].settleTimer fun s => s.settleExpired i)

/-! ### The poll period (R42 to R46) -/

/-- An offer that is not on the line is withdrawn (R46). -/
def State.withdrawPoll (s : State) : State := if s.pollOnLine then s else { s with poll := none }

/-- The expiry takes the outdoor entry to LOST (R42, R56). -/
def State.outdoorGoesLost (s : State) : Bool :=
  s.outdoor.any fun k =>
    (entryOf s.points k).any fun e => e.quality != .lost && e.endPeriod.quality == .lost

/-- Every entry's miss account is brought up to date (R42), and the Regime Monitor takes a new LOST of the outdoor entry
(R38, R56). -/
def State.endMissPeriod (s : State) : State :=
  let t : State := { s with points := tableMap (fun o => o.map PointEntry.endPeriod) s.points }
  if s.outdoorGoesLost then t.fallBack else t

/-- The next period starts, with the length that the regime now gives (R41, R57). -/
def State.startPeriod (s : State) : State :=
  { s with pollPeriod := periodOf s.regime, pollTimer := some (s.now + periodOf s.regime) }

/-- The poll period's expiry (R42 to R46). -/
def State.periodExpired (s : State) : State :=
  let s := s.withdrawPoll.endMissPeriod
  ({ s with backlog := min Config.maxBacklog (s.backlog + 1) } : State).choosePoll.startPeriod

/-- POLL_PERIOD_EXPIRY (R42). -/
def execPollPeriodExpiry (s : State) : Step := .next (s.expire s.pollTimer State.periodExpired)

/-! ### Claims and fan proofs -/

/-- The timer of a claim entry; a COMMITTED claim's is stopped (R142). -/
def State.claimTimer (s : State) (n : ClaimNo) : Option Nat := s.claims[n].bind fun c => c.timer

/-- CLAIM_TIMER_EXPIRY (R142): the staging area is discarded and the entry becomes FREE. -/
def execClaimTimerExpiry (n : ClaimNo) (s : State) : Step := .next (s.expire (s.claimTimer n) fun s => s.setClaim n none)

/-- STATUS_TIMER_EXPIRY (R124): the fan proof becomes UNKNOWN and the timer stays stopped. -/
def execStatusTimerExpiry (u : UnitNo) (s : State) : Step :=
  .next (s.expire s.units[u].statusTimer fun s => s.setUnit u { s.units[u] with fan := .unknown, statusTimer := none })

/-! ### The timers of a demand entry -/

/-- A timer of the entry that holds a key; none where no entry does. -/
def State.demandTimer (s : State) (k : DemandKey) (timer : DemandEntry → Option Nat) : Option Nat :=
  (demandOf s.demands k).bind timer

/-- HOLD_OFF_EXPIRY (R104): its passing makes a queued entry eligible and changes no field. -/
def execHoldOffExpiry (k : DemandKey) (s : State) : Step := .next (s.expire (s.demandTimer k (·.holdOff)) id)

/-- An asserted entry at rest with demand is due for a refresh (R115). -/
def DemandEntry.refreshes (e : DemandEntry) : Bool :=
  decide (1 ≤ e.demand) && e.commanded == .asserted && e.queued.isNone && e.inFlight.isNone && !e.faulted

/-- An entry after its refresh timer's expiry (R115). -/
def DemandEntry.refreshExpired (stamp : Nat) (e : DemandEntry) : DemandEntry :=
  if e.refreshes then { e with refreshTimer := none, refreshDue := true, queued := some stamp }
  else { e with refreshTimer := none }

/-- REFRESH_TIMER_EXPIRY (R115). -/
def execRefreshTimerExpiry (k : DemandKey) (s : State) : Step :=
  .next (s.expire (s.demandTimer k (·.refreshTimer)) fun s =>
    ({ s with demands := updateDemand k (DemandEntry.refreshExpired s.joinStamp) s.demands } : State).endEvent)

/-- An entry after its fault retry timer's expiry (R114). -/
def DemandEntry.retryExpired (stamp : Nat) (e : DemandEntry) : DemandEntry :=
  { e with faulted := false, attempts := 0, retryTimer := none, queued := some stamp }

/-- FAULT_RETRY_TIMER_EXPIRY (R114). -/
def execFaultRetryTimerExpiry (k : DemandKey) (s : State) : Step :=
  .next (s.expire (s.demandTimer k (·.retryTimer)) fun s =>
    ({ s with demands := updateDemand k (DemandEntry.retryExpired s.joinStamp) s.demands } : State).endEvent)

/-! ### The store retry -/

/-- STORE_RETRY_TIMER_EXPIRY (R190): the stale items join the queue's tail in order, and the timer stops. -/
def execStoreRetryTimerExpiry (s : State) : Step :=
  .next (s.expire s.storeRetry fun s => { s with storeQueue := s.storeQueue ++ s.retryItems, storeRetry := none })

end Sys2Proof.Machine
end

