-- ==== Sys2Proof/Machine/Contacts.lean ====
section
/-! DEFINITION. The low-limit contact inputs and their filters (6.3). -/

namespace Sys2Proof.Machine

/-- The filtered contact that a level stands for (R126). -/
def contactOf : ContactLevel → Contact
  | .closedLevel => .closed
  | .openLevel => .opened

/-- The filter after a change of level (R126): STEADY where the level agrees with the filtered contact, else PENDING with its
timer at 200 ms. -/
def filterFor (contact : Contact) (level : ContactLevel) (now : Nat) : ContactFilter :=
  if contactOf level = contact then .steady else .pending (now + Config.filterTime)

/-- The filters run: the part has supply and is not held in reset (R127, log 12). -/
def State.filtersRun (s : State) : Bool :=
  match s.power with
  | .off | .held => false
  | .startLoad | .running | .restartLoad => true

/-- A change of the level at a unit's input (R126). -/
def State.changeLevel (s : State) (u : UnitNo) (level : ContactLevel) : State :=
  if s.units[u].level = level then s
  else if s.filtersRun then
    s.setUnit u { s.units[u] with level := level, filter := filterFor s.units[u].contact level s.now }
  else s.setUnit u { s.units[u] with level := level }

/-- LL_LEVEL_CHANGE (R126). -/
def execLlLevelChange (u : UnitNo) (level : ContactLevel) (s : State) : Step := .next (s.changeLevel u level)

/-- The filter timer that runs while a filter is PENDING (R126). -/
def ContactFilter.timer : ContactFilter → Option Nat
  | .steady => none
  | .pending t => some t

/-- The contact opens (R128): fault summary, fan-stop output and, where the part is in service, the trips. -/
def State.contactOpens (s : State) (u : UnitNo) : State :=
  let s := (s.addFault u .contactOpen).recomputeFso u
  (if s.power = .running then s.contactTrips u else s).endEvent

/-- The filter's expiry: STEADY, and the filtered contact takes the level (R126, R128, R129). -/
def State.filterExpired (s : State) (u : UnitNo) : State :=
  let contact := contactOf s.units[u].level
  let s := s.setUnit u { s.units[u] with contact := contact, filter := .steady }
  match contact with
  | .opened => s.contactOpens u
  | .closed => s.recomputeFso u

/-- CONTACT_FILTER_EXPIRY (R126). -/
def execContactFilterExpiry (u : UnitNo) (s : State) : Step :=
  .next (s.expire s.units[u].filter.timer fun s => s.filterExpired u)

end Sys2Proof.Machine
end

