-- ==== Sys2Proof/Machine/PowerEvents.lean ====
section
/-! DEFINITION. The store's writes and the part's loads: STORE_WRITE_BEGIN and STORE_WRITE_COMPLETION (10.2), the reset pin,
power-up, PART_RESTART and loss of power (10.3, 10.4, R132, R187). -/

namespace Sys2Proof.Machine

/-! ### Writes (R188, R189) -/

/-- The store may begin a write (R188, R193, R194). -/
def State.storeReady (s : State) : Bool := s.power == .running && s.writing.isNone && !s.restartPending

/-- The head item leaves the queue and its write begins, with the live content as it stands (R188). -/
def State.beginWrite (s : State) : State :=
  match s.storeQueue with
  | [] => s
  | it :: rest =>
    if s.storeReady then
      { s with
        storeQueue := rest
        writing := some { content := s.contentOf it, carries := s.carriesCommit it, requeue := false } }
    else s

/-- STORE_WRITE_BEGIN (R188). -/
def execStoreWriteBegin (s : State) : Step := .next s.beginWrite

/-- What success or failure does at a completion (R189): a failed write leaves its item as it was (log 10). -/
def State.writeResult (s : State) (w : Write) (success : Bool) : State :=
  if success then ({ s with retained := s.retained.write w.content } : State).setStale w.content.item false
  else
    { s.setStale w.content.item true with storeRetry := some (s.storeRetry.getD (s.now + Config.storeRetryTime)) }

/-- An item marked for re-queue joins the tail (R189). -/
def State.requeueAfter (s : State) (w : Write) : State :=
  if w.requeue then { s with storeQueue := s.storeQueue ++ [w.content.item] } else s

/-- A write that carries a commit hands its completion to the Edit Unit (R153, R189). -/
def State.handOff (s : State) (w : Write) (success : Bool) : State :=
  if w.carries then
    match w.content.item with
    | .coil i => s.commitWritten i success
    | .settings | .unit _ => s
  else s

/-- The completion of the write under way (R189). -/
def State.completeWrite (s : State) (success : Bool) : State :=
  match s.writing with
  | none => s
  | some w => ((({ s with writing := none } : State).writeResult w success).requeueAfter w).handOff w success

/-- STORE_WRITE_COMPLETION (R189). -/
def execStoreWriteCompletion (success : Bool) (s : State) : Step := .next (s.completeWrite success)

/-! ### Reset, loads and loss of power -/

/-- All live state is lost and a write under way is broken off (R187). -/
def State.breakOff (s : State) (p : Power) (cut : BrokenWrite) : State :=
  { s.cleared p with retained := s.retainedAfterCut cut }

/-- RESET_PIN_HOLD (R132): every output stands at STOP while the pin is held. Without supply the pin does nothing. -/
def State.holdReset (s : State) (cut : BrokenWrite) : State := if s.power = .off then s else s.breakOff .held cut

/-- RESET_PIN_HOLD (R132). -/
def execResetPinHold (cut : BrokenWrite) (s : State) : Step := .next (s.holdReset cut)

/-- POWER_LOSS (R187). -/
def execPowerLoss (cut : BrokenWrite) (s : State) : Step := .next (s.breakOff .off cut)

/-- A filter as it starts: its contact OPEN, PENDING where the input stands at the closed level (R127). -/
def UnitEntry.startFilter (now : Nat) (e : UnitEntry) : UnitEntry := { e with filter := filterFor e.contact e.level now }

/-- Every filter starts (R127). -/
def State.startFilters (s : State) : State := { s with units := tableMap (UnitEntry.startFilter s.now) s.units }

/-- Power-up or reset-pin release: the load from cleared state (R191). In a part that was in service it is a pulse on the
reset pin, which breaks off a write under way (log 11). -/
def State.startUp (s : State) (strap : Strap) (cut : BrokenWrite) : State :=
  (((s.breakOff .startLoad cut).startFilters).readStrap strap).load

/-- START_UP_LOAD (R191). -/
def execStartUpLoad (strap : Strap) (cut : BrokenWrite) (s : State) : Step := .next (s.startUp strap cut)

/-- A unit as a PART_RESTART load finds it: its definition, fan proof and faults are rebuilt; its input, filter, contact and
output run on (R119, R127, R130). -/
def UnitEntry.keepHardwired (e : UnitEntry) : UnitEntry :=
  { UnitEntry.blank e.level with contact := e.contact, filter := e.filter, fso := e.fso }

/-- All live state is discarded at a PART_RESTART load, but for what R194 keeps: hardwired lines, the lost-slot count, the
status bits of the last load, and a frame on the line, which runs out and is applied nowhere (log 21). -/
def State.clearedForRestart (s : State) : State :=
  { s.cleared .restartLoad with
    units := tableMap UnitEntry.keepHardwired s.units
    lostSlots := s.lostSlots
    lastLoadRestart := s.lastLoadRestart
    settingsDefaulted := s.settingsDefaulted
    ack := s.ack
    line := s.line.map fun l => { l with orphan := true } }

/-- The load of a PART_RESTART begins where one is pending and no write is under way (R194). -/
def State.beginRestart (s : State) (strap : Strap) : State :=
  if s.power = .running ∧ s.restartPending ∧ s.writing.isNone then (s.clearedForRestart.readStrap strap).load else s

/-- PART_RESTART_LOAD_BEGIN (R194). -/
def execPartRestartLoadBegin (strap : Strap) (s : State) : Step := .next (s.beginRestart strap)

/-- A load is in progress. -/
def State.loading (s : State) : Bool :=
  match s.power with
  | .startLoad | .restartLoad => true
  | .off | .held | .running => false

/-- LOAD_COMPLETION (R193). -/
def execLoadCompletion (s : State) : Step := .next (if s.loading then s.completeLoad else s)

end Sys2Proof.Machine
end

