-- ==== Sys2Proof/Machine/Dispatch.lean ====
section
/-! DEFINITION. The meaning of every command: one arm for each constructor, in the order of spec/opcode_table.json. -/

namespace Sys2Proof.Machine

/-- The effect of a command on everything but the queue. -/
def exec (i : Instr) (s : State) : Host.Outcome State Fault Refusal :=
  match i with
  | .report => Sys2Proof.Machine.execReport s
  | .unitStatus => Sys2Proof.Machine.execUnitStatus s
  | .queryCoil => Sys2Proof.Machine.execQueryCoil s
  | .queryPoint => Sys2Proof.Machine.execQueryPoint s
  | .queryUnit => Sys2Proof.Machine.execQueryUnit s
  | .queryDemand => Sys2Proof.Machine.execQueryDemand s
  | .partStatus => Sys2Proof.Machine.execPartStatus s
  | .readFaults => Sys2Proof.Machine.execReadFaults s
  | .create => Sys2Proof.Machine.execCreate s
  | .arm => Sys2Proof.Machine.execArm s
  | .suspend => Sys2Proof.Machine.execSuspend s
  | .retire => Sys2Proof.Machine.execRetire s
  | .restart => Sys2Proof.Machine.execRestart s
  | .releaseLockout => Sys2Proof.Machine.execReleaseLockout s
  | .claim => Sys2Proof.Machine.execClaim s
  | .stageLimits => Sys2Proof.Machine.execStageLimits s
  | .stageDose => Sys2Proof.Machine.execStageDose s
  | .stageTiming => Sys2Proof.Machine.execStageTiming s
  | .stageMap => Sys2Proof.Machine.execStageMap s
  | .stageBind => Sys2Proof.Machine.execStageBind s
  | .commit => Sys2Proof.Machine.execCommit s
  | .abandon => Sys2Proof.Machine.execAbandon s
  | .unitSet => Sys2Proof.Machine.execUnitSet s
  | .partSet => Sys2Proof.Machine.execPartSet s
  | .supervisorSet => Sys2Proof.Machine.execSupervisorSet s
  | .partRestart => Sys2Proof.Machine.execPartRestart s
  | .unknownFunction => Sys2Proof.Machine.execUnknownFunction s
  | .discardedFunctionFrame => Sys2Proof.Machine.execDiscardedFunctionFrame s
  | .frameReception levels => Sys2Proof.Machine.execFrameReception levels s
  | .lineGrant => Sys2Proof.Machine.execLineGrant s
  | .lostArbitration => Sys2Proof.Machine.execLostArbitration s
  | .transmitError => Sys2Proof.Machine.execTransmitError s
  | .actionCompletion ack => Sys2Proof.Machine.execActionCompletion ack s
  | .pollCompletion ack => Sys2Proof.Machine.execPollCompletion ack s
  | .answerCompletion ack => Sys2Proof.Machine.execAnswerCompletion ack s
  | .stageNoticeCompletion ack => Sys2Proof.Machine.execStageNoticeCompletion ack s
  | .evaluationExpiry slot => Sys2Proof.Machine.execEvaluationExpiry slot s
  | .restartHoldExpiry slot => Sys2Proof.Machine.execRestartHoldExpiry slot s
  | .cleanTimerExpiry slot => Sys2Proof.Machine.execCleanTimerExpiry slot s
  | .settleTimerExpiry slot => Sys2Proof.Machine.execSettleTimerExpiry slot s
  | .pollPeriodExpiry => Sys2Proof.Machine.execPollPeriodExpiry s
  | .claimTimerExpiry entry => Sys2Proof.Machine.execClaimTimerExpiry entry s
  | .statusTimerExpiry unit => Sys2Proof.Machine.execStatusTimerExpiry unit s
  | .llLevelChange unit level => Sys2Proof.Machine.execLlLevelChange unit level s
  | .contactFilterExpiry unit => Sys2Proof.Machine.execContactFilterExpiry unit s
  | .holdOffExpiry key => Sys2Proof.Machine.execHoldOffExpiry key s
  | .refreshTimerExpiry key => Sys2Proof.Machine.execRefreshTimerExpiry key s
  | .faultRetryTimerExpiry key => Sys2Proof.Machine.execFaultRetryTimerExpiry key s
  | .storeWriteBegin => Sys2Proof.Machine.execStoreWriteBegin s
  | .storeWriteCompletion success => Sys2Proof.Machine.execStoreWriteCompletion success s
  | .storeRetryTimerExpiry => Sys2Proof.Machine.execStoreRetryTimerExpiry s
  | .resetPinHold cut => Sys2Proof.Machine.execResetPinHold cut s
  | .startUpLoad strap cut => Sys2Proof.Machine.execStartUpLoad strap cut s
  | .partRestartLoadBegin strap => Sys2Proof.Machine.execPartRestartLoadBegin strap s
  | .loadCompletion => Sys2Proof.Machine.execLoadCompletion s
  | .powerLoss cut => Sys2Proof.Machine.execPowerLoss cut s

end Sys2Proof.Machine
end

