-- ==== Sys2Proof/Machine/OwnEvents.lean ====
section
/-! DEFINITION. The events that the part makes by itself while no command waits (log 4): a timer that is due, a load that
begins or completes, a store write that begins, and a frame that the request handler takes. Frames on the line, level
changes, grants, write completions and the supply come from outside. -/

namespace Sys2Proof.Machine

/-- A timer with the command of its expiry. -/
abbrev TimerEvent := Option Nat × Instr

/-- The timers of a record. -/
def State.coilTimers (s : State) (i : Slot) : List TimerEvent :=
  let c := s.coils[i]
  [(c.evalTimer, .evaluationExpiry i), (c.holdTimer, .restartHoldExpiry i), (c.cleanTimer, .cleanTimerExpiry i),
   (c.settleTimer, .settleTimerExpiry i)]

/-- The timers of a unit. -/
def State.unitTimers (s : State) (u : UnitNo) : List TimerEvent :=
  [(s.units[u].statusTimer, .statusTimerExpiry u), (s.units[u].filter.timer, .contactFilterExpiry u)]

/-- The timers of a demand entry. A hold-off is left out: its passing changes no field (R104). -/
def DemandEntry.timers (e : DemandEntry) : List TimerEvent :=
  [(e.refreshTimer, .refreshTimerExpiry e.key), (e.retryTimer, .faultRetryTimerExpiry e.key)]

/-- Every timer of the part. -/
def State.timers (s : State) : List TimerEvent :=
  (List.finRange 48).flatMap s.coilTimers ++ (List.finRange 16).flatMap s.unitTimers
    ++ s.demands.flatMap DemandEntry.timers ++ (List.finRange 4).map (fun n => (s.claimTimer n, .claimTimerExpiry n))
    ++ [(s.pollTimer, .pollPeriodExpiry), (s.storeRetry, .storeRetryTimerExpiry)]

/-- The earlier of the best timer so far and another that has run out. -/
def earlierDue (now : Nat) (best : Option (Nat × Instr)) (e : TimerEvent) : Option (Nat × Instr) :=
  match e.1 with
  | none => best
  | some t =>
    if now < t then best
    else
      match best with
      | none => some (t, e.2)
      | some b => if t < b.1 then some (t, e.2) else best

/-- The expiry that has been due the longest. -/
def State.dueTimer (s : State) : Option Instr := (s.timers.foldl (earlierDue s.now) none).map (·.2)

/-- The command of a function, when the request handler takes a frame of it. -/
def Func.command (fn : Func) : Instr :=
  match fn with
  | .report => .report
  | .unitStatus => .unitStatus
  | .poll | .action | .stageNotice | .answer => .discardedFunctionFrame
  | .queryCoil => .queryCoil
  | .queryPoint => .queryPoint
  | .queryUnit => .queryUnit
  | .queryDemand => .queryDemand
  | .partStatus => .partStatus
  | .readFaults => .readFaults
  | .create => .create
  | .arm => .arm
  | .suspend => .suspend
  | .retire => .retire
  | .restart => .restart
  | .releaseLockout => .releaseLockout
  | .claim => .claim
  | .stageLimits => .stageLimits
  | .stageDose => .stageDose
  | .stageTiming => .stageTiming
  | .stageMap => .stageMap
  | .stageBind => .stageBind
  | .commit => .commit
  | .abandon => .abandon
  | .unitSet => .unitSet
  | .partSet => .partSet
  | .supervisorSet => .supervisorSet
  | .partRestart => .partRestart

/-- The command by which the request handler takes a frame (R165). -/
def RxFrame.command (f : RxFrame) : Instr :=
  match Func.ofCode f.code with
  | none => .unknownFunction
  | some fn => fn.command

/-- The taking of the frame at the head of the receive queue, when the handler may take one (R164). -/
def State.handlerEvent (s : State) : Option Instr := if s.handlerReady then s.rx.head?.map RxFrame.command else none

/-- The load or the write that begins or ends by itself (R188, R193, R194); the strap pins are read as they stand. -/
def State.storeEvent (s : State) : Option Instr :=
  if s.loading then some .loadCompletion
  else if s.power = .running ∧ s.restartPending ∧ s.writing.isNone then some (.partRestartLoadBegin s.strap)
  else if s.storeReady && !s.storeQueue.isEmpty then some .storeWriteBegin
  else none

/-- The next event that the part makes by itself: due timers first, then the store, then the request handler (log 4). -/
def State.ownEvent (s : State) : Option Instr := s.dueTimer <|> s.storeEvent <|> s.handlerEvent

end Sys2Proof.Machine
end

