-- ==== Sys2Proof/Machine/Step.lean ====
section
/-! DEFINITION. The step: the command at the front of the queue, and with no command waiting an event of the part's own or
the passing of a millisecond (log 4); and the placing of a command that a word spells. -/

namespace Sys2Proof.Machine

/-- A millisecond passes. -/
def State.tick (s : State) : State := { s with now := s.now + 1 }

/-- What the part does with no command waiting (log 4). -/
def State.idle (s : State) : Host.Outcome State Fault Refusal :=
  match s.ownEvent with
  | some c => exec c s
  | none => .next s.tick

/-- One step: the command at the front of the queue is executed on the rest of it. -/
def step (s : State) : Host.Outcome State Fault Refusal :=
  match s.pending with
  | c :: rest => exec c { s with pending := rest }
  | [] => s.idle

/-- The state with the command that a word spells at the front of its queue; no word spells one (log 26). -/
def State.withFetchWord (s : State) (nbits w : Nat) : State :=
  match decodeTableWord nbits w with
  | some c => { s with pending := c :: s.pending }
  | none => s

end Sys2Proof.Machine
end

