-- ==== Sys2Proof/Safety.lean ====
section
/-! DEFINITION. The notions that the statements speak in: the conditions that hold a fan at STOP (R130), the shape of a record in
each lifecycle (R6, R69), the drops of STEP_DOWN (R86 to R88), the bounds of queues and counts, the order of the thresholds (R51),
the distinct tags and claims (R3, R140), the miss accounts (R42), the ranges of definitions (R4, R148), the store write queue (R188),
the demand and point tables with their capacity checks, what a load leaves in a slot (R25, R50, R191), and the condition under
which the request handler takes a request (R164, R165). -/

namespace Sys2Proof.Machine

/-! ### Fan-stop outputs -/

/-- A condition of R130, other than a start-up load, holds for a unit: its contact is OPEN, one of its coils is ARMED in TRIP
or LOCKOUT, or one is SETTLING with a trip latch other than NONE. -/
abbrev State.MustStop (s : State) (u : UnitNo) : Prop :=
  s.units[u].contact = .opened
  ∨ ∃ i : Slot, s.coils[i].unit = u
      ∧ ((s.coils[i].lifecycle = .armed ∧ (s.coils[i].stage = .trip ∨ s.coils[i].stage = .lockout))
        ∨ (s.coils[i].lifecycle = .settling ∧ s.coils[i].latch ≠ .none))

/-- The outputs stand as R130 and R132 say: in service, STOP exactly where a condition holds; without supply, in reset and in
a start-up load, STOP; in a PART_RESTART load, STOP at least where the contact is OPEN. -/
def State.FansStand (s : State) : Prop :=
  ∀ u : UnitNo,
    match s.power with
    | .running => s.units[u].fso = .stop ↔ s.MustStop u
    | .restartLoad => s.units[u].contact = .opened → s.units[u].fso = .stop
    | .off | .held | .startLoad => s.units[u].fso = .stop

/-! ### Records -/

/-- A record outside ARMED: stage CLEAR, dose 0, no evaluation result, its stage timers stopped (R6, R64, R69). -/
abbrev Coil.AtRest (c : Coil) : Prop :=
  c.stage = .clear ∧ c.dose = 0 ∧ c.evalTimer = none ∧ c.cleanTimer = none ∧ c.holdTimer = none ∧ c.last = none

/-- The shape that every record has (R6, R15, R58, R62, R69, R74, R79): the dose and trip count in their ranges; at rest
outside ARMED, evaluated inside; the settle timer only in SETTLING, the clean timer only in CLEAR, the hold timer only in
PROVE; a latch only in SETTLING or ARMED; trip count 3 in LOCKOUT. -/
abbrev Coil.Shaped (c : Coil) : Prop :=
  c.dose ≤ 60000 ∧ c.tripCount ≤ 3
  ∧ (c.lifecycle ≠ .armed → c.AtRest)
  ∧ (c.lifecycle = .armed → c.evalTimer.isSome)
  ∧ (c.settleTimer.isSome → c.lifecycle = .settling)
  ∧ (c.cleanTimer.isSome → c.stage = .clear)
  ∧ (c.holdTimer.isSome → c.stage = .recovery .prove)
  ∧ (c.latch ≠ .none → c.lifecycle = .settling ∨ c.lifecycle = .armed)
  ∧ (c.stage = .lockout → c.tripCount = 3)

/-- Every record has its shape. -/
abbrev State.RecordsShaped (s : State) : Prop := ∀ i : Slot, s.coils[i].Shaped

/-- The invariant behind the hardwired protection: every record has its shape, and every output stands as R130 says. -/
def State.FanSafe (s : State) : Prop := s.RecordsShaped ∧ s.FansStand

/-! ### Queues, counts and settings -/

/-- The bounds of R43, R163, R167 and R191. -/
abbrev State.Bounded (s : State) : Prop :=
  s.rx.length ≤ 8 ∧ s.answers.length ≤ 8 ∧ s.backlog ≤ 3 ∧ s.lostSlots ≤ 255

/-- regime_on lies below regime_off in the settings, in their item, and in a write of it (R51, R52). -/
def State.ThresholdsOrdered (s : State) : Prop :=
  s.regimeOn < s.regimeOff
  ∧ (∀ c, s.retained.settings = .valid c → c.regimeOn < c.regimeOff)
  ∧ (∀ w c, s.writing = some w → w.content = .settings c → c.regimeOn < c.regimeOff)

/-! ### Tags, claims, miss accounts, definitions and the store write queue -/

/-- No two non-vacant records carry the same tag (R3). -/
def State.TagsDistinct (s : State) : Prop :=
  ∀ i j : Slot, s.coils[i].lifecycle ≠ .vacant → s.coils[j].lifecycle ≠ .vacant → s.coils[i].tag = s.coils[j].tag → i = j

/-- No record has more than one claim, and no station holds more than one (R140). -/
def State.ClaimsDistinct (s : State) : Prop :=
  ∀ (m n : ClaimNo) (c d : Claim),
    s.claims[m] = some c → s.claims[n] = some d → c.slot = d.slot ∨ c.holder = d.holder → m = n

/-- The streak and the miss count of a point lie between 0 and 3 (2.1.1), and a point whose miss count is 3 is LOST or FAULT (R42). -/
abbrev PointEntry.InAccount (e : PointEntry) : Prop :=
  e.streak ≤ 3 ∧ e.miss ≤ 3 ∧ (e.miss = 3 → e.quality = .lost ∨ e.quality = .fault)

/-- Every point entry's accounts stand as R42 says. -/
def State.PointsInAccount (s : State) : Prop := ∀ (i : Fin 96) (e : PointEntry), s.points[i] = some e → e.InAccount

/-- A station address lies from 1 to 223. -/
abbrev StationInRange (a : Nat) : Prop := 1 ≤ a ∧ a ≤ 223

/-- Every field of a profile lies in its range, and L < U < T ≤ 60000 (R5, R148). -/
abbrev Profile.InRange (p : Profile) : Prop :=
  -100 ≤ p.limits.airLimit ∧ p.limits.airLimit ≤ 150 ∧ -100 ≤ p.limits.fluidLimit ∧ p.limits.fluidLimit ≤ 300
  ∧ 5 ≤ p.limits.watchBand ∧ p.limits.watchBand ≤ 200 ∧ 1 ≤ p.limits.decay ∧ p.limits.decay ≤ 1000
  ∧ 1 ≤ p.dose.lower ∧ p.dose.lower < p.dose.upper ∧ p.dose.upper < p.dose.tripDose ∧ p.dose.tripDose ≤ 60000
  ∧ 30 ≤ p.hold ∧ p.hold ≤ 1800
  ∧ (∀ a ∈ p.map.vfo, StationInRange a) ∧ (∀ a ∈ p.map.pms, StationInRange a) ∧ (∀ a ∈ p.map.fbf, StationInRange a)

/-- A binding's station, point number and offset lie in their ranges (R4). -/
abbrev Binding.InRange (b : Binding) : Prop :=
  StationInRange b.key.station ∧ b.key.point ≤ 63 ∧ -50 ≤ b.offset ∧ b.offset ≤ 50

/-- The bindings and the profile of a record, where it has them, lie in their ranges. -/
abbrev DefinitionInRange (lat ft : Option Binding) (profile : Option Profile) : Prop :=
  (∀ b ∈ lat, b.InRange) ∧ (∀ b ∈ ft, b.InRange) ∧ ∀ p ∈ profile, p.InRange

/-- Every record's bindings and profile lie in their ranges, and so do those in the coil items and in a write of one (R4, R148). -/
def State.DefinitionsInRange (s : State) : Prop :=
  (∀ i : Slot, DefinitionInRange s.coils[i].lat s.coils[i].ft s.coils[i].profile)
  ∧ (∀ (i : Slot) (d : CoilDefinition), s.retained.coils[i] = .valid (.record d) → DefinitionInRange d.lat d.ft d.profile)
  ∧ ∀ (w : Write) (i : Slot) (d : CoilDefinition),
      s.writing = some w → w.content = .coil i (.record d) → DefinitionInRange d.lat d.ft d.profile

/-- An item is in the store write queue at most once, and the item being written is not in it (R188). -/
def State.StoreQueuedOnce (s : State) : Prop :=
  s.storeQueue.Nodup ∧ ∀ w, s.writing = some w → w.content.item ∉ s.storeQueue

/-! ### Notice flags and the notice offered -/

/-- A slot's notice flag has been set: it stands, and a current notice of the slot is marked, so that its completion leaves the flag
set (R171, R173). -/
abbrev State.NoticeSet (s t : State) (i : Slot) : Prop :=
  t.noticeFlags[i] = true ∧ ∀ n, s.notice = some n → n.slot = i → t.notice = some { n with setAgain := true }

/-- A slot's notice flag is as it was, and so is a current notice of the slot. -/
abbrev State.NoticeKept (s t : State) (i : Slot) : Prop :=
  t.noticeFlags[i] = s.noticeFlags[i] ∧ ∀ n, s.notice = some n → n.slot = i → t.notice = some n

/-- While any notice flag is set the notice source holds an offer, and it holds one of a slot whose flag is set only (R171). -/
def State.NoticeOffered (s : State) : Prop :=
  (∀ i : Slot, s.noticeFlags[i] = true → s.notice.isSome) ∧ ∀ n, s.notice = some n → s.noticeFlags[n.slot] = true

/-! ### Demand entries -/

/-- The state that an entry's demand count requires differs from its commanded state (R98, R102). -/
abbrev DemandEntry.Differs (e : DemandEntry) : Prop :=
  (if e.demand = 0 then Commanded.released else .asserted) ≠ e.commanded

/-- An entry is never both queued and in flight, and one that is faulted is neither, with its commanded state UNKNOWN; it has a
fault retry timer only while it is faulted; it is refresh-due in neither case; and an entry neither in flight nor faulted is in
the action queue exactly where its required state differs from its commanded state or it is refresh-due (R102, R105, R107, R111,
R115). -/
abbrev DemandEntry.WellFormed (e : DemandEntry) : Prop :=
  ¬ (e.queued.isSome ∧ e.inFlight.isSome)
  ∧ (e.faulted → e.queued = none ∧ e.inFlight = none ∧ e.commanded = .unknown ∧ e.refreshDue = false)
  ∧ (e.retryTimer.isSome → e.faulted)
  ∧ (e.inFlight.isSome → e.refreshDue = false)
  ∧ (e.inFlight = none → e.faulted = false → (e.queued.isSome ↔ e.Differs ∨ e.refreshDue = true))

/-- The conditions of removal: no map reference, no demand, not ASSERTED, neither queued nor in flight (R101). -/
abbrev DemandEntry.Unneeded (e : DemandEntry) : Prop :=
  e.mapRefs = 0 ∧ e.demand = 0 ∧ e.commanded ≠ .asserted ∧ e.queued = none ∧ e.inFlight = none

/-- An entry whose demand count becomes `n` (R98, R102, R105). In flight or faulted, its count alone changes. Where the count requires
another state than its commanded one it is in the queue, in the place it has or else as one that joins now, and keeps its refresh-due
mark only with demand. Else it leaves the queue, unless it is refresh-due. -/
def DemandEntry.withDemand (e : DemandEntry) (n stamp : Nat) : DemandEntry :=
  if e.inFlight.isSome ∨ e.faulted = true then { e with demand := n }
  else if (if n = 0 then Commanded.released else .asserted) ≠ e.commanded then
    { e with demand := n, queued := some (e.queued.getD stamp), refreshDue := e.refreshDue && n != 0 }
  else if e.refreshDue = true then { e with demand := n }
  else { e with demand := n, queued := none }

/-- No two entries hold the same key (R96), and every entry is well formed. -/
abbrev State.DemandsWellFormed (s : State) : Prop :=
  (s.demands.map (·.key)).Nodup ∧ ∀ e ∈ s.demands, e.WellFormed

/-- The frame that the Action Dispatcher holds is that of the one entry in flight (5.4, R107). -/
def State.DispatchHeld (s : State) : Prop :=
  (∀ e ∈ s.demands, e.inFlight.isSome → s.dispatch.map (·.key) = some e.key)
  ∧ ∀ d, s.dispatch = some d → ∃ e ∈ s.demands, e.key = d.key ∧ e.inFlight = some d.polarity

/-- The demand table's own invariant: at most 64 entries, distinct and well formed, one in flight at most, and none that meets the
conditions of removal (R96, R101, R102). -/
def State.DemandTableSafe (s : State) : Prop :=
  s.demands.length ≤ 64 ∧ s.DemandsWellFormed ∧ s.DispatchHeld ∧ ∀ e ∈ s.demands, ¬ e.Unneeded

/-- An entry as it is created: UNKNOWN, in the action queue, with no demand, failure, hold-off, timer or fault, and neither
refresh-due nor in flight (R99). -/
abbrev DemandEntry.Fresh (e : DemandEntry) : Prop :=
  e.demand = 0 ∧ e.commanded = .unknown ∧ e.queued.isSome ∧ e.refreshDue = false ∧ e.inFlight = none ∧ e.attempts = 0
    ∧ e.holdOff = none ∧ e.refreshTimer = none ∧ e.faulted = false ∧ e.retryTimer = none

/-- The SETTLING and ARMED records whose target pairs include a key (R97). -/
def State.referrers (s : State) (k : DemandKey) : List Slot :=
  (List.finRange 48).filter fun i =>
    (s.coils[i].lifecycle == .settling || s.coils[i].lifecycle == .armed) && (s.targetPairs s.coils[i]).contains k

/-- The ARMED records whose stage and phase demand a key (R98). -/
def State.demanders (s : State) (k : DemandKey) : List Slot :=
  (List.finRange 48).filter fun i => (s.demandedPairs s.coils[i]).contains k

/-- Every entry counts its records (R97, R98), and every pair of a SETTLING or ARMED record has an entry (R8). -/
def State.DemandsCounted (s : State) : Prop :=
  (∀ e ∈ s.demands, e.mapRefs = (s.referrers e.key).length ∧ e.demand = (s.demanders e.key).length)
  ∧ ∀ (i : Slot) (k : DemandKey), i ∈ s.referrers k → ∃ e ∈ s.demands, e.key = k

/-- The invariant behind the protective actions: shaped records, a sound table, and counts that are true. -/
def State.DemandSafe (s : State) : Prop := s.RecordsShaped ∧ s.DemandTableSafe ∧ s.DemandsCounted

/-- The demand table has room for a map change (R100): the gained pairs that no entry holds are no more than the unused entries
and the entries that the change removes at once, which lose their last reference and meet the other conditions of R101. -/
abbrev State.RoomForPairs (s : State) (lost gained : List DemandKey) : Prop :=
  (gained.filter fun k => s.demands.all fun e => e.key != k).length
    ≤ 64 - s.demands.length
      + (lost.filter fun k => (s.demands.find? fun e => e.key == k).any fun e =>
          e.mapRefs ≤ 1 && e.demand == 0 && e.commanded != .asserted && e.queued.isNone && e.inFlight.isNone).length

/-! ### What the stage operations leave alone -/

/-- A state with records, demand entries, units, notice flags, the notice offer, the store write queue, the write under way and
the join order put aside. Two states that agree here agree on every other field. -/
def State.apart (s : State) : State :=
  { s with
    coils := State.reset.coils, demands := [], units := State.reset.units, noticeFlags := State.reset.noticeFlags
    notice := none, storeQueue := [], writing := none, joinStamp := 0 }

/-! ### STEP_DOWN (R86 to R88) -/

/-- The entry of a pair is in the action queue or in flight (R87). -/
abbrev State.Waits (s : State) (k : DemandKey) : Prop :=
  ∃ e, demandOf s.demands k = some e ∧ (e.queued.isSome ∨ e.inFlight.isSome)

/-- The target pairs of a record whose kinds have not been dropped, in the order of the drops: OAC, FBF, PMS, VFO (R86). -/
def State.dropsLeft (s : State) (c : Coil) (d : Dropped) : List DemandKey :=
  [ActionKind.oac, .fbf, .pms, .vfo].flatMap fun kind =>
    (s.targetPairs c).filter fun k => k.kind == kind && !d.has kind

/-- The progress after some drops (R86). -/
def Dropped.addAll (d : Dropped) (ks : List DemandKey) : Dropped := ks.foldl (fun d k => d.add k.kind) d

/-- The place of a kind in the order of the drops: OAC, FBF, PMS, VFO (R86). FS is never dropped. -/
def dropPlace : ActionKind → Nat
  | .oac => 0
  | .fbf => 1
  | .pms => 2
  | .vfo => 3
  | .fs => 4

/-- A target pair of a record is that of the kind dropped last: its kind is dropped, and no kind later in the order is (R86). -/
abbrev State.DroppedLast (s : State) (c : Coil) (d : Dropped) (k : DemandKey) : Prop :=
  k ∈ s.targetPairs c ∧ d.has k.kind = true
    ∧ ∀ kind ∈ [ActionKind.oac, .fbf, .pms, .vfo], d.has kind = true → dropPlace kind ≤ dropPlace k.kind

/-- The test of R87 takes the state `s`, whose record in a slot is ARMED in STEP_DOWN with progress `d`, to `t`: the kinds left are
dropped in their order, one after another, up to the first moment at which the entry of the kind dropped last waits, and no
further. Each drop takes one off the demand count of its pair (R91, R98). The drop that leaves no kind completes STEP_DOWN: stage CLEAR,
cause CLEARED, latch NONE, the clean timer at 3600 s, the notice flag and the dirty item (R88). Nothing else changes but the
notice source's choice, where it has no current notice, and the join order. -/
def State.TestsDrops (s t : State) (i : Slot) (d : Dropped) : Prop :=
  let c := s.coils[i]
  let left := s.dropsLeft c d
  let waits (n : Nat) : Prop := ∃ k, s.DroppedLast c (d.addAll (left.take n)) k ∧ t.Waits k
  ∃ n ≤ left.length, (∀ m, m < n → ¬ waits m) ∧ (n < left.length → waits n)
    ∧
    let done : Prop := 0 < n ∧ n = left.length
    (done → t.coils[i] =
        { c with stage := .clear, cause := .cleared, latch := .none, cleanTimer := some (s.now + 3600000) }
      ∧ t.storeQueue = (s.markDirty (.coil i)).storeQueue ∧ t.writing = (s.markDirty (.coil i)).writing)
    ∧ (¬ done → t.coils[i] = { c with stage := .recovery (.stepDown (d.addAll (left.take n))) }
      ∧ t.storeQueue = s.storeQueue ∧ t.writing = s.writing)
    ∧ (done → s.NoticeSet t i) ∧ (∀ j, ¬ (j = i ∧ done) → s.NoticeKept t j)
    ∧ (∀ k e, k ∈ left.take n → demandOf s.demands k = some e → 1 ≤ e.mapRefs →
        demandOf t.demands k = some (e.withDemand (e.demand - 1) s.joinStamp))
    ∧ (∀ k, k ∉ left.take n → demandOf t.demands k = demandOf s.demands k)
    ∧ (∀ j, j ≠ i → t.coils[j] = s.coils[j]) ∧ t.units = s.units ∧ t.apart = s.apart

/-! ### Point entries -/

/-- An entry as it is created: no held value, no last sequence, quality NONE, miss count, streak and gap counter 0, both period flags
clear (R28). -/
abbrev PointEntry.Fresh (e : PointEntry) : Prop :=
  e.held = none ∧ e.lastSeq = none ∧ e.quality = .none ∧ e.miss = 0 ∧ e.streak = 0 ∧ e.gaps = 0
    ∧ e.reported = false ∧ e.polled = false

/-- The new count of a key: the old count, less the references given up, plus those taken (R30). -/
def State.newCount (s : State) (gives takes : List PointKey) (k : PointKey) : Nat :=
  refsOf s.points k + takes.count k - gives.count k

/-- The Point Table has room for a reference change (R31): the keys whose old count is 0 and whose new count is above 0 are no more
than the unused entries and those the change removes, whose new count is 0. -/
abbrev State.RoomForPoints (s : State) (gives takes : List PointKey) : Prop :=
  (takes.dedup.filter fun k => refsOf s.points k == 0 && decide (0 < s.newCount gives takes k)).length
    ≤ ((List.finRange 96).filter fun i => s.points[i].all fun e => s.newCount gives takes e.key == 0).length

/-- The bindings of non-vacant records that name a key, plus one if the outdoor binding names it (R29). -/
def State.bindingCount (s : State) (k : PointKey) : Nat :=
  ((List.finRange 48).map fun i => if s.coils[i].lifecycle = .vacant then 0 else s.coils[i].keys.count k).sum
    + if s.outdoor = some k then 1 else 0

/-- Every point entry counts its references and has one at least, no two hold the same key, and every key that is named has an
entry (R27, R29). -/
def State.PointsCounted (s : State) : Prop :=
  (∀ (i : Fin 96) (e : PointEntry), s.points[i] = some e → e.refs = s.bindingCount e.key ∧ 1 ≤ e.refs)
  ∧ (∀ (i j : Fin 96) (d e : PointEntry), s.points[i] = some d → s.points[j] = some e → d.key = e.key → i = j)
  ∧ ∀ k, 0 < s.bindingCount k → ∃ (i : Fin 96) (e : PointEntry), s.points[i] = some e ∧ e.key = k

/-! ### Loads (R25, R50, R191, R192) -/

/-- The keys that a load has placed before it comes to a slot: that of the outdoor binding, and those of the records below (R50). -/
def State.keysBelow (t : State) (i : Slot) : List PointKey :=
  t.outdoor.toList ++ ((List.finRange 48).filter fun j => j < i).flatMap fun j =>
    if t.coils[j].lifecycle = .vacant then [] else t.coils[j].keys

/-- The pairs that a load has placed before it comes to a slot: those of the records below that are SETTLING (R25, R118). -/
def State.pairsBelow (t : State) (i : Slot) : List DemandKey :=
  ((List.finRange 48).filter fun j => j < i).flatMap fun j =>
    if t.coils[j].lifecycle = .settling then t.targetPairs t.coils[j] else []

/-- What a load leaves in a slot of the state `t` that it leads to, and whether the slot is counted as lost. A blank or erased item
leaves the slot VACANT. An item that fails its check, a tag that a lower slot holds, and keys for which no point entry is left lose
it. Else the record is placed: DRAFT and SUSPENDED as they are, ARMED as SETTLING with its latch, or, where its unit is undefined or
the demand table has no room for its pairs, as SUSPENDED with its slot counted lost (R25, R50, R191, R192). -/
def State.loadsAs (t : State) (i : Slot) : Coil × Bool :=
  match t.retained.coils[i] with
  | .blank | .valid .erased => (.vacant 0, false)
  | .invalid => (.vacant 0, true)
  | .valid (.record d) =>
    let placed (l : Lifecycle) (latch : Latch) : Coil :=
      { Coil.vacant d.unit with
        lifecycle := l, tag := d.tag, kind := d.kind, lat := d.lat, ft := d.ft, profile := d.profile, latch := latch }
    let tagHeld := (List.finRange 48).any fun j => j < i && t.coils[j].lifecycle != .vacant && t.coils[j].tag == d.tag
    let keys := t.keysBelow i ++ (placed .settling d.latch).keys
    let pairs := t.pairsBelow i ++ t.targetPairs (placed .settling d.latch)
    if tagHeld || 96 < keys.dedup.length then (.vacant 0, true)
    else
      match d.lifecycle with
      | .draft => (placed .draft .none, false)
      | .suspended => (placed .suspended .none, false)
      | .armed =>
        if t.units[d.unit].controller.isSome && pairs.dedup.length ≤ 64 then (placed .settling d.latch, false)
        else (placed .suspended .none, true)

/-- The number of slots that a load counts as lost (R191). -/
def State.slotsLost (t : State) : Nat := ((List.finRange 48).filter fun i => (t.loadsAs i).2).length

/-! ### Permissions -/

/-- A station is a supervisor: it is on the list, or the list is empty (R136). -/
abbrev State.Supervisor (s : State) (a : Nat) : Prop := s.supervisors = [] ∨ a ∈ s.supervisors

/-- A station is a supervisor or the unit controller of a record (R136). -/
abbrev State.Permitted (s : State) (a : Nat) (i : Slot) : Prop :=
  s.Supervisor a ∨ s.units[s.coils[i].unit].controller = some a

/-! ### The checks of a commit (R148 to R150) -/

/-- Every limit, dose mark, map target and binding key of a candidate lies in its range (R148). -/
abbrev Candidate.WithinRanges (cd : Candidate) : Prop :=
  (∀ l ∈ cd.limits, -100 ≤ l.airLimit ∧ l.airLimit ≤ 150 ∧ -100 ≤ l.fluidLimit ∧ l.fluidLimit ≤ 300)
  ∧ (∀ d ∈ cd.dose, d.lower ≠ 0 ∧ d.upper ≠ 0 ∧ d.tripDose ≠ 0)
  ∧ (∀ m ∈ cd.map, (∀ a ∈ m.vfo, StationInRange a) ∧ (∀ a ∈ m.pms, StationInRange a) ∧ (∀ a ∈ m.fbf, StationInRange a))
  ∧ (∀ b ∈ cd.lat, StationInRange b.key.station ∧ b.key.point ≤ 63)
  ∧ (∀ b ∈ cd.ft, StationInRange b.key.station ∧ b.key.point ≤ 63)

/-- L < U < T ≤ 60000 (R148). -/
abbrev Candidate.DosesOrdered (cd : Candidate) : Prop :=
  ∀ d ∈ cd.dose, d.lower < d.upper ∧ d.upper < d.tripDose ∧ d.tripDose ≤ 60000

/-- Some profile group is staged (R144). -/
abbrev Staging.SomeProfile (st : Staging) : Prop := st.limits.isSome ∨ st.dose.isSome ∨ st.timing.isSome ∨ st.map.isSome

/-- The record has a profile, or the staging holds none or all four of the profile groups (R149). -/
abbrev Staging.CompleteFor (st : Staging) (c : Coil) : Prop :=
  c.profile.isSome ∨ ¬ st.SomeProfile ∨ (st.limits.isSome ∧ st.dose.isSome ∧ st.timing.isSome ∧ st.map.isSome)

/-- The state gate lets the staging pass: in DRAFT and SUSPENDED everything; else no binding group, and profile groups in ARMED and
CLEAR only (R150). -/
abbrev Staging.GateOpen (st : Staging) (c : Coil) : Prop :=
  c.lifecycle = .draft ∨ c.lifecycle = .suspended
  ∨ (¬ (st.lat.isSome ∨ st.ft.isSome) ∧ (¬ st.SomeProfile ∨ c.lifecycle = .armed ∧ c.stage = .clear))

/-! ### The request handler -/

/-- The four conditions under which the handler takes the frame `f` at the head of the receive queue (R164). -/
abbrev State.TakesFrame (s : State) (f : RxFrame) (rest : List RxFrame) : Prop :=
  s.rx = f :: rest ∧ s.power = .running ∧ s.restartPending = false ∧ s.deferred = [] ∧ s.answers.length < 8

/-- The handler takes a request of a function, addressed to the part and of the function's own length (R164, R165). -/
abbrev State.TakesRequest (s : State) (fn : Func) (f : RxFrame) (rest : List RxFrame) : Prop :=
  s.TakesFrame f rest ∧ f.code = fn.code ∧ f.addressed = true ∧ f.payload.length = fn.length

/-- What a request leaves that is answered at once (R166): the frame has left the receive queue, and the answer has joined the
answer queue at its tail. -/
def State.replied (s : State) (f : RxFrame) (rest : List RxFrame) (result : Result) (data : List Byte) : State :=
  { s with
    rx := rest
    answers := s.answers
      ++ [{ target := f.sender, code := f.code, result := result, clamped := false, data := data, losses := 0 }] }

end Sys2Proof.Machine
end

