-- ==== Sys2Proof/Certificates/Slice0/Obligations.lean ====
section
/-! DEFINITION. The statements about the part, chapter by chapter. Where a statement needs conditions they are conditions on the
state and the operands alone, and the conclusion says that the command answers a next state and what that state holds. -/

open Sys2Proof Sys2Proof.Machine
open scoped Classical

/-! ### The machine -/

/-- A step with a command at the front of the queue executes that command on the queue's rest. -/
def Obligations.FrontCommandIsExecuted : Prop :=
  ∀ (c : Instr) (rest : List Instr) (s : State),
    step { s with pending := c :: rest } = exec c { s with pending := rest }

/-- With no command waiting, the part acts by itself. A running timer that is due expires, of several one that has been due the
longest. Else a load in progress completes, the load of a pending PART_RESTART begins once no write is under way, or a write of the
head item begins. Else the request handler takes the frame at the head of the receive queue, where it may. Else a millisecond
passes (R164, R165, R188, R193, R194; that the part acts on an empty queue, and this order of its events, are the model's choice,
log 4). -/
def Obligations.EmptyQueueLetsThePartAct : Prop :=
  ∀ s : State, s.pending = [] →
    let runs (t : Nat) (c : Instr) : Prop :=
      (∃ i : Slot, s.coils[i].evalTimer = some t ∧ c = .evaluationExpiry i
        ∨ s.coils[i].holdTimer = some t ∧ c = .restartHoldExpiry i
        ∨ s.coils[i].cleanTimer = some t ∧ c = .cleanTimerExpiry i
        ∨ s.coils[i].settleTimer = some t ∧ c = .settleTimerExpiry i)
      ∨ (∃ u : UnitNo, s.units[u].statusTimer = some t ∧ c = .statusTimerExpiry u
        ∨ s.units[u].filter = .pending t ∧ c = .contactFilterExpiry u)
      ∨ (∃ e ∈ s.demands, e.refreshTimer = some t ∧ c = .refreshTimerExpiry e.key
        ∨ e.retryTimer = some t ∧ c = .faultRetryTimerExpiry e.key)
      ∨ (∃ (n : ClaimNo) (d : Claim), s.claims[n] = some d ∧ d.timer = some t ∧ c = .claimTimerExpiry n)
      ∨ s.pollTimer = some t ∧ c = .pollPeriodExpiry
      ∨ s.storeRetry = some t ∧ c = .storeRetryTimerExpiry
    let due : Prop := ∃ t c, runs t c ∧ t ≤ s.now
    let loading : Prop := s.power = .startLoad ∨ s.power = .restartLoad
    let restarts : Prop := s.power = .running ∧ s.writing = none ∧ s.restartPending = true
    let writes : Prop := s.power = .running ∧ s.writing = none ∧ s.restartPending = false ∧ s.storeQueue ≠ []
    (due → ∃ t c, runs t c ∧ t ≤ s.now ∧ (∀ t' c', runs t' c' → t ≤ t') ∧ step s = exec c s)
    ∧ (¬ due → loading → step s = exec .loadCompletion s)
    ∧ (¬ due → restarts → step s = exec (.partRestartLoadBegin s.strap) s)
    ∧ (¬ due → writes → step s = exec .storeWriteBegin s)
    ∧ (¬ due → ¬ loading → ¬ restarts → ¬ writes →
      (∀ f rest, s.TakesFrame f rest →
        (∀ fn : Func, f.code = fn.code → step s = exec fn.command s)
        ∧ (f.code.toNat ∈ [0, 7, 14, 15, 22, 23] ∨ 36 ≤ f.code.toNat → step s = exec .unknownFunction s))
      ∧ ((∀ f rest, ¬ s.TakesFrame f rest) → step s = .next { s with now := s.now + 1 }))

/-- Every command answers a next state, and none touches the queue of waiting commands (the queue is the model's choice, log 1; that
a command whose event cannot occur answers a next state is the model's choice, log 2). -/
def Obligations.CommandsAnswerAndLeaveTheQueue : Prop :=
  ∀ (c : Instr) (s : State), ∃ t, exec c s = .next t ∧ t.pending = s.pending

/-! ### The request handler (8.3) -/

/-- The handler takes nothing without a frame, out of service, with a PART_RESTART pending, while a deferred answer waits, or
with 8 answers queued (R164; that an event which cannot occur leaves the state as it is, is the model's choice, log 2). -/
def Obligations.HandlerWaits : Prop :=
  ∀ (fn : Func) (s : State),
    (s.rx = [] ∨ s.power ≠ .running ∨ s.restartPending = true ∨ s.deferred ≠ [] ∨ 8 ≤ s.answers.length) →
    exec fn.command s = .next s ∧ exec .unknownFunction s = .next s

/-- A request that came by broadcast is discarded without an answer; one addressed to the part whose length is not its
function's is answered BAD_LENGTH and changes nothing else (R165; that both the request's own row and
DISCARDED_FUNCTION_FRAME take a broadcast request is the model's choice, log 31). -/
def Obligations.RequestsAreScreened : Prop :=
  ∀ (fn : Func) (s : State) (f : RxFrame) (rest : List RxFrame),
    fn.isRequest = true → s.TakesFrame f rest → f.code = fn.code →
    (f.addressed = false →
      exec fn.command s = .next { s with rx := rest } ∧ exec .discardedFunctionFrame s = .next { s with rx := rest })
    ∧ (f.addressed = true → f.payload.length ≠ fn.length →
      exec fn.command s = .next (s.replied f rest .badLength []))

/-- ACTION, POLL, STAGE_NOTICE and ANSWER frames are discarded, however they came; a frame of a code outside R177's table is
answered UNKNOWN_FUNCTION when addressed to the part, and discarded otherwise (R165, R177). -/
def Obligations.FramesOfNoRequestAreDiscardedOrAnswered : Prop :=
  ∀ (s : State) (f : RxFrame) (rest : List RxFrame), s.TakesFrame f rest →
    (3 ≤ f.code.toNat ∧ f.code.toNat ≤ 6 → exec .discardedFunctionFrame s = .next { s with rx := rest })
    ∧ (f.code.toNat ∈ [0, 7, 14, 15, 22, 23] ∨ 36 ≤ f.code.toNat →
        exec .unknownFunction s
          = .next (if f.addressed then s.replied f rest .unknownFunction [] else { s with rx := rest }))

/-! ### Sensor reports and the regime (chapters 2 and 3) -/

/-- A REPORT of the wrong length, or whose key no entry holds, is ignored, and so is a UNIT_STATUS of the wrong length or one
that fails a condition of R123 (R33, R123, R165). -/
def Obligations.ReportsForNoOwnerAreIgnored : Prop :=
  ∀ (s : State) (f : RxFrame) (rest : List RxFrame), s.TakesFrame f rest →
    (f.code = 1 →
      (f.payload.length ≠ 5
        ∨ ∀ (i : Fin 96) (e : PointEntry), s.points[i] = some e → e.key ≠ ⟨f.sender, byteAt f.payload 0⟩) →
      exec .report s = .next { s with rx := rest })
    ∧ (f.code = 2 →
      (f.payload.length ≠ 2 ∨ 15 < byteAt f.payload 0 ∨ (byteAt f.payload 1 ≠ 1 ∧ byteAt f.payload 1 ≠ 2)
        ∨ ∀ u : UnitNo, u.val = byteAt f.payload 0 → s.units[u].controller ≠ some f.sender) →
      exec .unitStatus s = .next { s with rx := rest })

/-- A REPORT whose sequence number equals the entry's last sequence is ignored entirely, whatever its value and fault flag
(R34). -/
def Obligations.DuplicateReportIsIgnored : Prop :=
  ∀ (s : State) (f : RxFrame) (rest : List RxFrame) (i : Fin 96) (e : PointEntry),
    s.TakesFrame f rest → f.code = 1 → f.payload.length = 5 →
    indexOf s.points ⟨f.sender, byteAt f.payload 0⟩ = some i → s.points[i] = some e →
    e.lastSeq = some (f.payload.getD 3 0) →
    exec .report s = .next { s with rx := rest }

/-- A fault report: quality FAULT, streak 0, reported, last sequence taken; held value, miss count and gap counter kept; the
outdoor entry's falls the regime back to COLD (R35, R56). Every other entry, and every field the settling tests do not
reach, stays. -/
def Obligations.FaultReportMakesTheEntryFault : Prop :=
  ∀ (s : State) (f : RxFrame) (rest : List RxFrame) (i : Fin 96) (e : PointEntry),
    s.TakesFrame f rest → f.code = 1 → f.payload.length = 5 →
    indexOf s.points ⟨f.sender, byteAt f.payload 0⟩ = some i → s.points[i] = some e →
    e.lastSeq ≠ some (f.payload.getD 3 0) →
    ((f.payload.getD 4 0).getLsbD 0 = true ∨ int16At f.payload 1 < -400 ∨ 900 < int16At f.payload 1) →
    ∃ t, exec .report s = .next t
      ∧ t.points[i] = some
          { e with quality := .fault, streak := 0, reported := true, lastSeq := some (f.payload.getD 3 0) }
      ∧ (∀ j, j ≠ i → t.points[j] = s.points[j])
      ∧ t.apart = ({ s with
          rx := rest, points := t.points
          regime := if s.outdoor = some e.key then .cold else s.regime } : State).apart
      ∧ t.storeQueue = s.storeQueue ∧ t.writing = s.writing

/-- A good report: held value, FRESH, miss count 0, reported, streak and gap counter by the sequence, last sequence taken; a
gap adds SEQUENCE_GAP to the units with a record that binds the point; an accepted outdoor report moves the average by an
eighth of the difference, truncated toward zero, and then decides the regime (R36, R37, R54, R55). -/
def Obligations.GoodReportUpdatesTheEntry : Prop :=
  ∀ (s : State) (f : RxFrame) (rest : List RxFrame) (i : Fin 96) (e : PointEntry),
    s.TakesFrame f rest → f.code = 1 → f.payload.length = 5 →
    indexOf s.points ⟨f.sender, byteAt f.payload 0⟩ = some i → s.points[i] = some e →
    let seq := f.payload.getD 3 0
    let v := int16At f.payload 1
    e.lastSeq ≠ some seq → (f.payload.getD 4 0).getLsbD 0 = false → -400 ≤ v → v ≤ 900 →
    let gap := e.lastSeq.any fun l => l + 1 != seq
    let average := match s.average with
      | none => v
      | some a => a + (v - a).tdiv 8
    ∃ t, exec .report s = .next t
      ∧ t.points[i] = some
          { e with
            held := some v, quality := .fresh, miss := 0, reported := true, lastSeq := some seq
            streak := if gap then 1 else min 3 (e.streak + 1)
            gaps := if gap then min 255 (e.gaps + 1) else e.gaps }
      ∧ (∀ j, j ≠ i → t.points[j] = s.points[j])
      ∧ (∀ u : UnitNo, t.units[u].faults.sequenceGap = true ↔
          s.units[u].faults.sequenceGap = true
            ∨ (gap = true ∧ ∃ j : Slot, s.coils[j].unit = u ∧ s.coils[j].lifecycle ≠ .vacant
                ∧ (s.coils[j].lat.any (fun b => b.key == e.key) ∨ s.coils[j].ft.any (fun b => b.key == e.key))))
      ∧ t.apart = ({ s with
          rx := rest, points := t.points
          average := if s.outdoor = some e.key then some average else s.average
          regime :=
            if s.outdoor = some e.key then
              match s.regime with
              | .cold => if s.regimeOff ≤ average then .mild else .cold
              | .mild => if average ≤ s.regimeOn then .cold else .mild
            else s.regime } : State).apart
      ∧ t.storeQueue = s.storeQueue ∧ t.writing = s.writing

/-- Every report that an entry takes makes the settling test for the SETTLING records that bind the point: a record whose required
bindings are then all FRESH with a streak of 3 enters ARMED in the stage its latch gives, and one that enters TRIP or LOCKOUT adds
TRIP to its unit's fault summary; every other record stays as it was (R17, R18, R38). -/
def Obligations.ReportCompletesSettling : Prop :=
  ∀ (s : State) (f : RxFrame) (rest : List RxFrame) (i : Fin 96) (e : PointEntry),
    s.TakesFrame f rest → f.code = 1 → f.payload.length = 5 →
    indexOf s.points ⟨f.sender, byteAt f.payload 0⟩ = some i → s.points[i] = some e →
    e.lastSeq ≠ some (f.payload.getD 3 0) →
    ∃ t, exec .report s = .next t
      ∧
      let proved (b : Binding) : Prop :=
        ∃ d, entryOf t.points b.key = some d ∧ d.quality = .fresh ∧ d.streak = 3
      let completes (c : Coil) : Prop :=
        c.lifecycle = .settling
          ∧ ((∃ b, c.lat = some b ∧ b.key = e.key) ∨ (∃ b, c.ft = some b ∧ b.key = e.key))
          ∧ (∃ b, c.lat = some b ∧ proved b)
          ∧ (c.kind = some .hotWater ∨ c.kind = some .steam → ∃ b, c.ft = some b ∧ proved b)
      (∀ u : UnitNo, t.units[u].faults.trip = true ↔
        s.units[u].faults.trip = true
          ∨ ∃ j : Slot, s.coils[j].unit = u ∧ completes s.coils[j] ∧ s.coils[j].latch ≠ .none)
      ∧ ∀ j : Slot,
          let c := s.coils[j]
          (¬ completes c → t.coils[j] = c ∧ s.NoticeKept t j)
          ∧ (completes c →
              s.NoticeSet t j
              ∧ t.coils[j] =
                { c with
                  lifecycle := .armed
                  stage := match c.latch with
                    | .none => .clear
                    | .trip _ => .trip
                    | .lockout => .lockout
                  tripCount := match c.latch with
                    | .none => 0
                    | .trip n => n.val
                    | .lockout => 3
                  cause := .none
                  settleTimer := none
                  settleOverdue := false
                  evalTimer := some (s.now + 2000)
                  cleanTimer := if c.latch = .none then some (s.now + 3600000) else none
                  last := none })

/-! ### Fan proofs (6.2) -/

/-- A UNIT_STATUS that is taken sets the fan proof and restarts the status timer at 30 s, and a RUNNING moves each ARMED record
of the unit in FAN_RESTART to PROVE with its hold timer at H and sets its notice flag, and no other's (R84, R123, R124). -/
def Obligations.UnitStatusSetsTheFanProof : Prop :=
  ∀ (s : State) (f : RxFrame) (rest : List RxFrame) (u : UnitNo) (fan : FanProof),
    s.TakesFrame f rest → f.code = 2 → f.payload.length = 2 → byteAt f.payload 0 = u.val →
    (byteAt f.payload 1 = 1 ∧ fan = .running ∨ byteAt f.payload 1 = 2 ∧ fan = .stopped) →
    s.units[u].controller = some f.sender →
    ∃ t, exec .unitStatus s = .next t
      ∧ t.units[u] = { s.units[u] with fan := fan, statusTimer := some (s.now + 30000) }
      ∧ (∀ v, v ≠ u → t.units[v] = s.units[v])
      ∧ (∀ j : Slot,
          let c := s.coils[j]
          let proves : Prop := fan = .running ∧ c.lifecycle = .armed ∧ c.unit = u ∧ c.stage = .recovery .fanRestart
          (t.coils[j] =
            if proves then
              { c with
                stage := .recovery .prove
                holdTimer := some (s.now + ((c.profile.map (·.hold)).getD 0) * 1000) }
            else c)
          ∧ if proves then s.NoticeSet t j else s.NoticeKept t j)
      ∧ t.apart = ({ s with rx := rest } : State).apart
      ∧ t.demands = s.demands ∧ t.storeQueue = s.storeQueue ∧ t.writing = s.writing

/-! ### Lookups (chapter 9) -/

/-- A QUERY_COIL for a non-vacant record, named by slot or by tag, is answered with the view its first byte selects, and
changes nothing (R3, R182). The point and offset bytes of an empty binding position are free values (log 15), of which a
DEFINITION view takes four; the widths of the LIMITS view are read from R181 (log 17); bits 4 to 7 of the step-down progress are
sent as 0 by the model's choice (log 33). -/
def Obligations.QueryCoilReportsTheRecord : Prop :=
  ∀ (s : State) (f : RxFrame) (rest : List RxFrame) (i : Slot) (view : Nat),
    s.TakesRequest .queryCoil f rest → s.coils[i].lifecycle ≠ .vacant →
    (byteAt f.payload 0 = view ∧ wordAt f.payload 1 = i.val
      ∨ byteAt f.payload 0 = view + 3 ∧ wordAt f.payload 1 = s.coils[i].tag ∧ 0 < s.coils[i].tag
        ∧ ∀ j : Slot, s.coils[j].lifecycle ≠ .vacant → s.coils[j].tag = s.coils[i].tag → j = i) →
    let c := s.coils[i]
    let held := s.claimOn i
    (view = 0 → exec .queryCoil s = .next (s.replied f rest .done
        ([byteOf i.val] ++ wordBytes c.tag
          ++ [byteOf c.unit.val, byteOf c.lifecycle.wire, byteOf c.stage.wire, byteOf c.stage.phaseWire,
              c.stage.progress.wire]
          ++ wordBytes c.dose
          ++ [byteOf c.tripCount, byteOf c.latch.wire, byteOf c.cause.wire,
              flagsByte [c.settleOverdue, c.storeStale, c.writeInFlight, c.last.any (·.available), held.isSome,
                held.any fun p => p.2.isCommitted]]
          ++ optInt16 (c.last.bind (·.margin)) ++ optInt16 (c.last.bind (·.airMargin))
          ++ optWord ((if c.stage = .recovery .prove then c.holdTimer
              else if c.stage = .clear then c.cleanTimer else none).map (secondsLeft s.now))
          ++ [optByte (held.map fun p => p.2.holder),
              optByte (held.bind fun p => if p.2.isCommitted then none else p.2.timer.map (secondsLeft s.now))])))
    ∧ (view = 1 → exec .queryCoil s = .next
        { s.replied f rest .done
            ([byteOf i.val] ++ wordBytes c.tag
              ++ [byteOf c.unit.val, optByte (c.kind.map CoilKind.wire), byteOf c.lifecycle.wire]
              ++ bindingBytes c.lat s.freeCount ++ bindingBytes c.ft (s.freeCount + 2)
              ++ [byteOf ((c.profile.bind (·.map.vfo)).getD 0), byteOf ((c.profile.bind (·.map.pms)).getD 0),
                  byteOf ((c.profile.bind (·.map.fbf)).getD 0)]
              ++ optWord (c.profile.map (·.hold)) ++ [byteOf c.profile.isSome.toNat]) with
          freeCount := s.freeCount + 4 })
    ∧ (view = 2 → exec .queryCoil s = .next (s.replied f rest .done
        ([byteOf i.val] ++ wordBytes c.tag
          ++ optInt16 (c.profile.map (·.limits.airLimit)) ++ optInt16 (c.profile.map (·.limits.fluidLimit))
          ++ [optByte (c.profile.map (·.limits.watchBand.toNat))]
          ++ optWord (c.profile.map (·.limits.decay.toNat)) ++ optWord (c.profile.map (·.dose.lower))
          ++ optWord (c.profile.map (·.dose.upper)) ++ optWord (c.profile.map (·.dose.tripDose)))))

/-- A QUERY_POINT for a key that an entry holds is answered with its fields, and changes nothing (R32, R183; that bits 4 to 7 of
the flags are sent as 0 is the model's choice, log 32). -/
def Obligations.QueryPointReportsTheEntry : Prop :=
  ∀ (s : State) (f : RxFrame) (rest : List RxFrame) (i : Fin 96) (e : PointEntry),
    s.TakesRequest .queryPoint f rest → 1 ≤ byteAt f.payload 0 → byteAt f.payload 0 ≤ 223 → byteAt f.payload 1 ≤ 63 →
    indexOf s.points ⟨byteAt f.payload 0, byteAt f.payload 1⟩ = some i → s.points[i] = some e →
    exec .queryPoint s = .next (s.replied f rest .done
      ([byteOf e.key.station, byteOf e.key.point, byteOf i.val, byteOf e.refs] ++ optInt16 e.held
        ++ [e.lastSeq.getD 0, flagsByte [e.held.isSome, e.lastSeq.isSome, e.reported, e.polled],
            byteOf e.quality.wire, byteOf e.miss, byteOf e.streak, byteOf e.gaps]))

/-- A QUERY_UNIT is answered with the unit and the numbers of records that hold its output, and changes nothing (R135,
R184; that bits 5 to 7 of the flags and of the fault summary are sent as 0 is the model's choice, log 32 and 33). -/
def Obligations.QueryUnitReportsTheUnit : Prop :=
  ∀ (s : State) (f : RxFrame) (rest : List RxFrame) (u : UnitNo),
    s.TakesRequest .queryUnit f rest → byteAt f.payload 0 = u.val →
    let e := s.units[u]
    let count (p : Coil → Bool) : Nat := ((List.finRange 48).filter fun i => s.coils[i].unit == u && p s.coils[i]).length
    exec .queryUnit s = .next (s.replied f rest .done
      [byteOf u.val,
       flagsByte [e.controller.isSome, e.contact == .opened, e.filter != .steady, e.fso == .stop, false],
       byteOf (e.controller.getD 0), byteOf e.zone.val, byteOf e.fan.wire,
       optByte (e.statusTimer.map (secondsLeft s.now)),
       byteOf (count fun c => c.lifecycle == .armed && (c.stage == .trip || c.stage == .lockout)),
       byteOf (count fun c => c.lifecycle == .settling && c.latch != .none),
       e.faults.wire])

/-- A QUERY_DEMAND for a key that an entry holds is answered with its fields, and changes no field of the part (R117, R185).
The polarity-sent bit of an entry that is not in flight is a free value (log 16). That the bit of the polarity it would go with is sent
from the demand count for an entry that is not queued too, where R185 does not call it meaningful, is the model's choice (log 16). -/
def Obligations.QueryDemandReportsTheEntry : Prop :=
  ∀ (s : State) (f : RxFrame) (rest : List RxFrame) (kind : ActionKind) (e : DemandEntry),
    s.TakesRequest .queryDemand f rest → 1 ≤ byteAt f.payload 0 → byteAt f.payload 0 ≤ 223 →
    byteAt f.payload 1 = actionKindWire kind → demandOf s.demands ⟨byteAt f.payload 0, kind⟩ = some e →
    ∃ sent : Bool, (∀ p, e.inFlight = some p → (sent = true ↔ p = .assert))
      ∧ exec .queryDemand s = .next
        { s.replied f rest .done
            [byteOf e.key.station, byteOf (actionKindWire e.key.kind), byteOf e.mapRefs, byteOf e.demand,
             byteOf e.commanded.wire,
             flagsByte [e.queued.isSome, decide (1 ≤ e.demand), e.refreshDue, e.inFlight.isSome, sent, e.faulted],
             byteOf e.attempts,
             optByte (e.holdOff.bind fun t => if t ≤ s.now then none else some (tenthsLeft s.now t)),
             optByte (e.refreshTimer.map (secondsLeft s.now)), optByte (e.retryTimer.map (secondsLeft s.now))] with
          freeCount := s.freeCount + 1 }

/-- A PART_STATUS is answered with the part's counts, and empties the lost-slot count (R186; that bits 5 to 7 of the flags are sent
as 0 is the model's choice, log 32). -/
def Obligations.PartStatusReportsAndEmptiesTheLostSlots : Prop :=
  ∀ (s : State) (f : RxFrame) (rest : List RxFrame),
    s.TakesRequest .partStatus f rest →
    let count (l : Lifecycle) : Nat := ((List.finRange 48).filter fun i => s.coils[i].lifecycle == l).length
    exec .partStatus s = .next
      { s.replied f rest .done
          ([byteOf s.address, byteOf s.zone.val,
            flagsByte [s.strapValid, s.regime == .mild, s.average.isSome, s.lastLoadRestart, s.settingsDefaulted]]
            ++ optInt16 s.average
            ++ [byteOf (count .vacant), byteOf (count .draft), byteOf (count .settling), byteOf (count .armed),
                byteOf (count .suspended),
                byteOf ((List.finRange 4).filter fun n => s.claims[n].isSome).length,
                byteOf ((List.finRange 96).filter fun n => s.points[n].isSome).length,
                byteOf s.demands.length, byteOf (s.demands.filter fun e => e.queued.isSome).length,
                byteOf ((List.finRange 48).filter fun i => s.coils[i].storeStale).length, byteOf s.lostSlots]) with
        lostSlots := 0 }

/-- READ_FAULTS is answered with the unit's fault summary as it stands, and empties it (R134; that bits 5 to 7 of the summary are sent
as 0 is the model's choice, log 33). -/
def Obligations.ReadFaultsEmptiesTheSummary : Prop :=
  ∀ (s : State) (f : RxFrame) (rest : List RxFrame),
    s.TakesRequest .readFaults f rest →
    (∀ u : UnitNo, byteAt f.payload 0 = u.val →
      exec .readFaults s = .next
        ((s.setUnit u { s.units[u] with faults := ⟨false, false, false, false, false⟩ }).replied f rest .done
          [byteOf u.val, s.units[u].faults.wire]))
    ∧ (15 < byteAt f.payload 0 → exec .readFaults s = .next (s.replied f rest .outOfRange []))

/-- The lookups refuse a view, slot, unit, station, point or kind out of range, and a record or key that is not there (R3, R32,
R117, R135, R182). -/
def Obligations.LookupsRefuseWhatIsNotThere : Prop :=
  ∀ (s : State) (f : RxFrame) (rest : List RxFrame),
    (s.TakesRequest .queryCoil f rest →
      (5 < byteAt f.payload 0 ∨ byteAt f.payload 0 ≤ 2 ∧ 47 < wordAt f.payload 1 →
        exec .queryCoil s = .next (s.replied f rest .outOfRange []))
      ∧ ((∃ i : Slot, byteAt f.payload 0 ≤ 2 ∧ wordAt f.payload 1 = i.val ∧ s.coils[i].lifecycle = .vacant)
          ∨ (3 ≤ byteAt f.payload 0 ∧ byteAt f.payload 0 ≤ 5
              ∧ (wordAt f.payload 1 = 0
                ∨ ∀ i : Slot, s.coils[i].lifecycle ≠ .vacant → s.coils[i].tag ≠ wordAt f.payload 1)) →
        exec .queryCoil s = .next (s.replied f rest .noRecord [])))
    ∧ (s.TakesRequest .queryPoint f rest →
      let inRange := 1 ≤ byteAt f.payload 0 ∧ byteAt f.payload 0 ≤ 223 ∧ byteAt f.payload 1 ≤ 63
      (¬ inRange → exec .queryPoint s = .next (s.replied f rest .outOfRange []))
      ∧ (inRange ∧ (∀ (i : Fin 96) (e : PointEntry), s.points[i] = some e →
            e.key ≠ ⟨byteAt f.payload 0, byteAt f.payload 1⟩) →
          exec .queryPoint s = .next (s.replied f rest .noRecord [])))
    ∧ (s.TakesRequest .queryUnit f rest → 15 < byteAt f.payload 0 →
      exec .queryUnit s = .next (s.replied f rest .outOfRange []))
    ∧ (s.TakesRequest .queryDemand f rest →
      let inRange := 1 ≤ byteAt f.payload 0 ∧ byteAt f.payload 0 ≤ 223 ∧ byteAt f.payload 1 ≤ 4
      (¬ inRange → exec .queryDemand s = .next (s.replied f rest .outOfRange []))
      ∧ (∀ kind, inRange → byteAt f.payload 1 = actionKindWire kind →
          (∀ e ∈ s.demands, e.key ≠ ⟨byteAt f.payload 0, kind⟩) →
          exec .queryDemand s = .next (s.replied f rest .noRecord [])))

/-! ### Lifecycles (chapter 1) and the way out of a trip (4.5) -/

/-- CREATE makes a DRAFT record in the lowest VACANT slot, sets its notice flag and marks its coil item dirty, and is answered
with the slot; its refusals come in the order of R11 (R9, R11, R12). -/
def Obligations.CreateMakesADraft : Prop :=
  ∀ (s : State) (f : RxFrame) (rest : List RxFrame), s.TakesRequest .create f rest →
    let tag := wordAt f.payload 0
    let refused (r : Result) : Prop := exec .create s = .next (s.replied f rest r [])
    let inRange : Prop := 0 < tag ∧ byteAt f.payload 2 ≤ 15 ∧ byteAt f.payload 3 ≤ 2
    let held : Prop := ∃ j : Slot, s.coils[j].lifecycle ≠ .vacant ∧ s.coils[j].tag = tag
    (¬ s.Supervisor f.sender → refused .notPermitted)
    ∧ (s.Supervisor f.sender → ¬ inRange → refused .outOfRange)
    ∧ (s.Supervisor f.sender → inRange → held → refused .tagInUse)
    ∧ (s.Supervisor f.sender → inRange → ¬ held → (∀ j : Slot, s.coils[j].lifecycle ≠ .vacant) → refused .tableFull)
    ∧ ∀ (i : Slot) (u : UnitNo) (kind : CoilKind),
      s.Supervisor f.sender → 0 < tag → byteAt f.payload 2 = u.val → byteAt f.payload 3 = kind.wire → ¬ held →
      s.coils[i].lifecycle = .vacant → (∀ j, j < i → s.coils[j].lifecycle ≠ .vacant) →
      exec .create s = .next
        ((((({ s with rx := rest } : State).setCoil i
            { lifecycle := .draft, tag := tag, unit := u, kind := some kind, lat := none, ft := none, profile := none
              stage := .clear, dose := 0, tripCount := 0, latch := .none, cause := .none, settleOverdue := false
              storeStale := false, writeInFlight := false, evalTimer := none, settleTimer := none, cleanTimer := none
              holdTimer := none, last := none }).setNotice i).markDirty (.coil i)).endEvent.pushAnswer
          (f.answer (.done [byteOf i.val])))

/-- ARM of a complete DRAFT or SUSPENDED record, whose new pairs find room, takes its map references and starts SETTLING with
the settle timer at 300 s (R13 to R15). -/
def Obligations.ArmStartsSettling : Prop :=
  ∀ (s : State) (f : RxFrame) (rest : List RxFrame) (i : Slot),
    s.TakesRequest .arm f rest → byteAt f.payload 0 = i.val → s.Permitted f.sender i →
    let c := s.coils[i]
    (c.lifecycle = .draft ∨ c.lifecycle = .suspended) →
    c.profile.isSome → c.lat.isSome → (c.kind = some .hotWater ∨ c.kind = some .steam → c.ft.isSome) →
    s.units[c.unit].controller.isSome →
    ((s.targetPairs c).filter fun k => (s.demands.find? fun e => e.key == k).isNone).length + s.demands.length ≤ 64 →
    exec .arm s = .next
      ((((({ s with rx := rest, demands := addMapRefs s.joinStamp (s.targetPairs c) s.demands } : State).setCoil i
          { c with lifecycle := .settling, settleTimer := some (s.now + 300000), settleOverdue := false }).setNotice
        i).markDirty (.coil i)).endEvent.pushAnswer (f.answer (.done [])))

/-- SUSPEND of a record ARMED in CLEAR or WATCH, or SETTLING without a latch, gives up its map references and puts every live
field to its initial value (R20, R21). -/
def Obligations.SuspendTakesOutOfProtection : Prop :=
  ∀ (s : State) (f : RxFrame) (rest : List RxFrame) (i : Slot),
    s.TakesRequest .suspend f rest → byteAt f.payload 0 = i.val → s.Permitted f.sender i →
    let c := s.coils[i]
    (c.lifecycle = .armed ∧ (c.stage = .clear ∨ c.stage = .watch) ∨ c.lifecycle = .settling ∧ c.latch = .none) →
    exec .suspend s = .next
      ((((({ s with rx := rest, demands := dropMapRefs (s.targetPairs c) s.demands } : State).setCoil i
          { c with
            lifecycle := .suspended, stage := .clear, dose := 0, tripCount := 0, latch := .none, cause := .none
            settleOverdue := false, evalTimer := none, settleTimer := none, cleanTimer := none, holdTimer := none
            last := none }).setNotice i).markDirty (.coil i)).endEvent.pushAnswer (f.answer (.done [])))

/-- RETIRE of a DRAFT or SUSPENDED record with no commit write outstanding cancels every claim on it, gives up its point
references and leaves the slot VACANT with its unit (R22, R23). -/
def Obligations.RetireEmptiesTheSlot : Prop :=
  ∀ (s : State) (f : RxFrame) (rest : List RxFrame) (i : Slot),
    s.TakesRequest .retire f rest → byteAt f.payload 0 = i.val → s.Supervisor f.sender →
    let c := s.coils[i]
    (c.lifecycle = .draft ∨ c.lifecycle = .suspended) → c.writeInFlight = false →
    ∃ claims : Table (Option Claim) 4,
      (∀ n : ClaimNo, claims[n] = if (s.claims[n].any fun d => d.slot == i) then none else s.claims[n])
      ∧ exec .retire s = .next
        (((((({ s with rx := rest, claims := claims } : State).changeRefs
            { gives := (c.lat.map (·.key)).toList ++ (c.ft.map (·.key)).toList, takes := [] }).setCoil i
            { lifecycle := .vacant, tag := 0, unit := c.unit, kind := none, lat := none, ft := none, profile := none
              stage := .clear, dose := 0, tripCount := 0, latch := .none, cause := .none, settleOverdue := false
              storeStale := false, writeInFlight := false, evalTimer := none, settleTimer := none, cleanTimer := none
              holdTimer := none, last := none }).setNotice i).markDirty (.coil i)).endEvent.pushAnswer
          (f.answer (.done [])))

/-- RESTART of a record ARMED in TRIP enters FAN_RESTART with the fan-stop output recomputed when the contact is CLOSED, the
required bindings are available and the last air margin is above 0; else it is refused with REFUSED_CONDITION (R80, R81). -/
def Obligations.RestartEntersFanRestart : Prop :=
  ∀ (s : State) (f : RxFrame) (rest : List RxFrame) (i : Slot),
    s.TakesRequest .restart f rest → byteAt f.payload 0 = i.val → s.Permitted f.sender i →
    let c := s.coils[i]
    let available (b : Binding) : Prop :=
      ∃ e, entryOf s.points b.key = some e ∧ (e.quality = .fresh ∨ e.quality = .stale)
    let conditions : Prop :=
      s.units[c.unit].contact = .closed
        ∧ (∃ b, c.lat = some b ∧ available b)
        ∧ (c.kind = some .hotWater ∨ c.kind = some .steam → ∃ b, c.ft = some b ∧ available b)
        ∧ ∃ r a, c.last = some r ∧ r.airMargin = some a ∧ 0 < a
    c.lifecycle = .armed → c.stage = .trip →
    (conditions → exec .restart s = .next
      ((((({ s with rx := rest } : State).changeCoil i
          { c with stage := .recovery .fanRestart, cause := .restart }).recomputeFso c.unit).setNotice
        i).endEvent.pushAnswer (f.answer (.done []))))
    ∧ (¬ conditions → exec .restart s = .next (s.replied f rest .refusedCondition []))

/-- RELEASE_LOCKOUT moves a record in LOCKOUT to TRIP with trip count 0, latch TRIP(0) and cause LOCKOUT_RELEASED, and marks its
coil item dirty (R82). -/
def Obligations.LockoutReleaseReturnsToTrip : Prop :=
  ∀ (s : State) (f : RxFrame) (rest : List RxFrame) (i : Slot),
    s.TakesRequest .releaseLockout f rest → byteAt f.payload 0 = i.val → s.Supervisor f.sender →
    s.coils[i].lifecycle = .armed → s.coils[i].stage = .lockout →
    exec .releaseLockout s = .next
      ((((({ s with rx := rest } : State).changeCoil i
          { s.coils[i] with stage := .trip, tripCount := 0, latch := .trip 0, cause := .lockoutReleased }).markDirty
        (.coil i)).setNotice i).endEvent.pushAnswer (f.answer (.done [])))

/-- The refusals of the requests that name a slot, in their order: ARM, SUSPEND, RESTART and CLAIM check the slot before the
permission, RETIRE and RELEASE_LOCKOUT after it; then comes the state, and for ARM the completeness and the room in the demand
table, for RETIRE an outstanding commit write (R10, R13, R14, R20, R22, R80, R82, R137, R141). -/
def Obligations.SlotRequestsAreRefusedInOrder : Prop :=
  ∀ (fn : Func) (s : State) (f : RxFrame) (rest : List RxFrame), s.TakesRequest fn f rest →
    let n := byteAt f.payload 0
    let refused (r : Result) : Prop := exec fn.command s = .next (s.replied f rest r [])
    (fn ∈ [Func.arm, .suspend, .restart, .claim] →
      (47 < n → refused .outOfRange)
      ∧ ∀ i : Slot, n = i.val →
        let c := s.coils[i]
        (c.lifecycle = .vacant → refused .noRecord)
        ∧ (c.lifecycle ≠ .vacant ∧ ¬ s.Permitted f.sender i → refused .notPermitted)
        ∧ (c.lifecycle ≠ .vacant ∧ s.Permitted f.sender i →
            (fn = .arm ∧ (c.lifecycle = .settling ∨ c.lifecycle = .armed)
              ∨ fn = .suspend ∧ ¬ (c.lifecycle = .armed ∧ (c.stage = .clear ∨ c.stage = .watch)
                  ∨ c.lifecycle = .settling ∧ c.latch = .none)
              ∨ fn = .restart ∧ ¬ (c.lifecycle = .armed ∧ c.stage = .trip)) →
            refused .wrongState)
        ∧ (s.Permitted f.sender i → fn = .arm → c.lifecycle = .draft ∨ c.lifecycle = .suspended →
            let complete : Prop :=
              c.profile.isSome ∧ c.lat.isSome ∧ (c.kind = some .hotWater ∨ c.kind = some .steam → c.ft.isSome)
                ∧ s.units[c.unit].controller.isSome
            (¬ complete → refused .incomplete)
            ∧ (complete →
                64 < ((s.targetPairs c).filter fun k => (s.demands.find? fun e => e.key == k).isNone).length
                  + s.demands.length →
                s.demands.length ≤ 64 → refused .demandTableFull)))
    ∧ (fn ∈ [Func.retire, .releaseLockout] →
      (¬ s.Supervisor f.sender → refused .notPermitted)
      ∧ (s.Supervisor f.sender →
        (47 < n → refused .outOfRange)
        ∧ ∀ i : Slot, n = i.val →
          let c := s.coils[i]
          (c.lifecycle = .vacant → refused .noRecord)
          ∧ (c.lifecycle ≠ .vacant →
              (fn = .retire ∧ (c.lifecycle = .settling ∨ c.lifecycle = .armed)
                ∨ fn = .releaseLockout ∧ ¬ (c.lifecycle = .armed ∧ c.stage = .lockout)) →
              refused .wrongState)
          ∧ (fn = .retire → c.lifecycle = .draft ∨ c.lifecycle = .suspended → c.writeInFlight = true →
              refused .writing)))

/-! ### Claims, staging and commit (chapter 7) -/

/-- CLAIM takes the lowest FREE entry for a permitted sender that holds no claim, on a record that no other station holds, with
an empty staging area and the claim timer at 60 s; else it is refused, in the order of R141 (R140 to R142). -/
def Obligations.ClaimTakesTheLowestFreeEntry : Prop :=
  ∀ (s : State) (f : RxFrame) (rest : List RxFrame) (i : Slot),
    s.TakesRequest .claim f rest → byteAt f.payload 0 = i.val → s.coils[i].lifecycle ≠ .vacant →
    s.Permitted f.sender i →
    let elsewhere : Prop := ∃ n c, s.claimOn i = some (n, c) ∧ c.holder ≠ f.sender
    let holds : Prop := ∃ (n : ClaimNo) (c : Claim), s.claims[n] = some c ∧ c.holder = f.sender
    (elsewhere → exec .claim s = .next (s.replied f rest .claimedElsewhere []))
    ∧ (¬ elsewhere ∧ holds → exec .claim s = .next (s.replied f rest .wrongState []))
    ∧ (¬ elsewhere ∧ ¬ holds ∧ (∀ n : ClaimNo, s.claims[n] ≠ none) →
        exec .claim s = .next (s.replied f rest .noStaging []))
    ∧ ∀ n : ClaimNo, ¬ elsewhere ∧ ¬ holds ∧ s.claims[n] = none ∧ (∀ m, m < n → s.claims[m] ≠ none) →
        exec .claim s = .next
          ((s.setClaim n (some
            { holder := f.sender, slot := i, staging := ⟨none, none, none, none, none, none⟩
              timer := some (s.now + 60000), state := .opened })).replied f rest .done [byteOf i.val])

/-- Each STAGE function from the permitted holder of an OPEN claim lays its group into the staging area, leaves the other groups,
restarts the claim timer at 60 s and is answered DONE; a STAGE_BIND of another role than 0 and 1 is refused (R144, R145,
R180). -/
def Obligations.StageFunctionsLayTheirGroups : Prop :=
  ∀ (fn : Func) (s : State) (f : RxFrame) (rest : List RxFrame) (n : ClaimNo) (c : Claim),
    s.TakesRequest fn f rest → s.claimOf f.sender = some (n, c) → s.Permitted f.sender c.slot → c.state = .opened →
    let p := f.payload
    let laid (st : Staging) : Prop := exec fn.command s = .next
      ((s.setClaim n (some { c with staging := st, timer := some (s.now + 60000) })).replied f rest .done [])
    let binding : StagedBinding :=
      if byteAt p 1 = 0 then .unbind else .bind ⟨⟨byteAt p 1, byteAt p 2⟩, int8At p 3⟩
    (fn = .stageLimits →
      laid { c.staging with limits := some ⟨int16At p 0, int16At p 2, int16At p 4, int16At p 6⟩ })
    ∧ (fn = .stageDose → laid { c.staging with dose := some ⟨wordAt p 0, wordAt p 2, wordAt p 4⟩ })
    ∧ (fn = .stageTiming → laid { c.staging with timing := some (wordAt p 0) })
    ∧ (fn = .stageMap → laid { c.staging with
        map := some ⟨stationOrNone (byteAt p 0), stationOrNone (byteAt p 1), stationOrNone (byteAt p 2)⟩ })
    ∧ (fn = .stageBind →
        (byteAt p 0 = 0 → laid { c.staging with lat := some binding })
        ∧ (byteAt p 0 = 1 → laid { c.staging with ft := some binding })
        ∧ (2 ≤ byteAt p 0 → exec .stageBind s = .next (s.replied f rest .outOfRange [])))

/-- The STAGE functions, COMMIT and ABANDON are refused with NOT_CLAIMED, NOT_PERMITTED and WRITING, checked in this order, and a
refusal changes no state (R143). -/
def Obligations.ClaimedEditsAreRefusedInOrder : Prop :=
  ∀ (fn : Func) (s : State) (f : RxFrame) (rest : List RxFrame), s.TakesRequest fn f rest →
    fn ∈ [Func.stageLimits, .stageDose, .stageTiming, .stageMap, .stageBind, .commit, .abandon] →
    let refused (r : Result) : Prop := exec fn.command s = .next (s.replied f rest r [])
    ((∀ (n : ClaimNo) (c : Claim), s.claims[n] = some c → c.holder ≠ f.sender) → refused .notClaimed)
    ∧ ∀ n c, s.claimOf f.sender = some (n, c) →
      (¬ s.Permitted f.sender c.slot → refused .notPermitted)
      ∧ (s.Permitted f.sender c.slot → c.state ≠ .opened → refused .writing)

/-- A COMMIT that passes its checks gives the record the candidate and its write-in-flight flag, hands the binding changes to the
Point Table and, for an ARMED record, the map changes to the demand table, removals first; the claim becomes COMMITTED with
its timer stopped, the coil item is marked dirty, and no answer is given yet (R31, R49, R100, R148 to R152, R166). Of two keys that
the commit newly places, the one of LAT takes the lower unused index and the one of FT the next, since the reference change names LAT
first: this order is the model's choice (log 14). -/
def Obligations.CommitTakesTheCandidate : Prop :=
  ∀ (s : State) (f : RxFrame) (rest : List RxFrame) (n : ClaimNo) (c : Claim),
    s.TakesRequest .commit f rest → s.claimOf f.sender = some (n, c) → s.Permitted f.sender c.slot → c.state = .opened →
    let old := s.coils[c.slot]
    let st := c.staging.clamped
    let cd := st.over old
    let new := { old with lat := cd.lat, ft := cd.ft, profile := cd.profile }
    let lost := (s.targetPairs old).filter fun k => k ∉ s.targetPairs new
    let gained := (s.targetPairs new).filter fun k => k ∉ s.targetPairs old
    let moved := s.changeRefs ⟨old.keys, new.keys⟩
    cd.WithinRanges → cd.DosesOrdered → st.CompleteFor old → st.GateOpen old → s.RoomForPoints old.keys new.keys →
    ((old.lifecycle = .settling ∨ old.lifecycle = .armed) → st.map.isSome = true → s.RoomForPairs lost gained) →
    ∃ t, exec .commit s = .next t
      ∧ t.coils = tablePut s.coils c.slot { new with writeInFlight := true }
      ∧ t.points = moved.points ∧ t.poll = moved.poll ∧ t.backlog = moved.backlog
      ∧ t.demands = (if old.lifecycle = .armed then addMapRefs s.joinStamp gained (dropMapRefs lost s.demands)
          else s.demands)
      ∧ t.claims = tablePut s.claims n
          (some { c with timer := none, state := .committed (decide (c.staging.clamped ≠ c.staging)) })
      ∧ t.storeQueue = (s.markDirty (.coil c.slot)).storeQueue ∧ t.writing = (s.markDirty (.coil c.slot)).writing
      ∧ t.noticeFlags = s.noticeFlags ∧ t.units = s.units
      ∧ t.apart = ({ s with
          rx := rest, points := t.points, claims := t.claims, poll := t.poll, backlog := t.backlog } : State).apart

/-- The clamps of a commit: W to 5 to 200, D to 1 to 1000, H to 30 to 1800 s, binding offsets to -50 to +50; every other staged
value stays, and each staged group lies over the record's (R147). -/
def Obligations.CommitClampsTheStagedValues : Prop :=
  ∀ (st : Staging) (c : Coil),
    let clamp (lo hi x : Int) : Int := if x < lo then lo else if hi < x then hi else x
    let merged (staged : Option StagedBinding) (held : Option Binding) : Option Binding :=
      match staged with
      | none => held
      | some .unbind => none
      | some (.bind b) => some { b with offset := clamp (-50) 50 b.offset }
    st.clamped.over c =
      { limits := match st.limits with
          | some l => some { l with watchBand := clamp 5 200 l.watchBand, decay := clamp 1 1000 l.decay }
          | none => c.profile.map (·.limits)
        dose := match st.dose with
          | some d => some d
          | none => c.profile.map (·.dose)
        hold := match st.timing with
          | some h => some (if h < 30 then 30 else if 1800 < h then 1800 else h)
          | none => c.profile.map (·.hold)
        map := match st.map with
          | some m => some m
          | none => c.profile.map (·.map)
        lat := merged st.lat c.lat
        ft := merged st.ft c.ft }

/-- The refusals of a COMMIT in their order: OUT_OF_RANGE, INCONSISTENT, INCOMPLETE, STAGE_BUSY, POINT_TABLE_FULL,
DEMAND_TABLE_FULL; each leaves the state as it was (R31, R100, R148 to R151). -/
def Obligations.CommitIsRefusedInOrder : Prop :=
  ∀ (s : State) (f : RxFrame) (rest : List RxFrame) (n : ClaimNo) (c : Claim),
    s.TakesRequest .commit f rest → s.claimOf f.sender = some (n, c) → s.Permitted f.sender c.slot → c.state = .opened →
    let old := s.coils[c.slot]
    let st := c.staging.clamped
    let cd := st.over old
    let new := { old with lat := cd.lat, ft := cd.ft, profile := cd.profile }
    let refused (r : Result) : Prop := exec .commit s = .next (s.replied f rest r [])
    let lost := (s.targetPairs old).filter fun k => k ∉ s.targetPairs new
    let gained := (s.targetPairs new).filter fun k => k ∉ s.targetPairs old
    let inRange : Prop := cd.WithinRanges
    let consistent : Prop := cd.DosesOrdered
    let complete : Prop := st.CompleteFor old
    let gate : Prop := st.GateOpen old
    let pointsFit : Prop := s.RoomForPoints old.keys new.keys
    let pairsFit : Prop :=
      (old.lifecycle = .settling ∨ old.lifecycle = .armed) → st.map.isSome → s.RoomForPairs lost gained
    (¬ inRange → refused .outOfRange)
    ∧ (inRange → ¬ consistent → refused .inconsistent)
    ∧ (inRange → consistent → ¬ complete → refused .incomplete)
    ∧ (inRange → consistent → complete → ¬ gate → refused .stageBusy)
    ∧ (inRange → consistent → complete → gate → ¬ pointsFit → refused .pointTableFull)
    ∧ (inRange → consistent → complete → gate → pointsFit → ¬ pairsFit → refused .demandTableFull)

/-- ABANDON from the permitted holder of an OPEN claim frees the claim entry and is answered DONE; everything else stays
(R155). -/
def Obligations.AbandonFreesTheClaim : Prop :=
  ∀ (s : State) (f : RxFrame) (rest : List RxFrame) (n : ClaimNo) (c : Claim),
    s.TakesRequest .abandon f rest → s.claimOf f.sender = some (n, c) → s.Permitted f.sender c.slot → c.state = .opened →
    exec .abandon s = .next ((s.setClaim n none).replied f rest .done [])

/-! ### Settings (6.1.1, 3.1.2, 7.1.1, 10.4) -/

/-- UNIT_SET gives an unused unit its controller station and zone, clears the fan proof where the station changes, and marks the
unit item dirty; its refusals come in the order of R121 (R121, R122). -/
def Obligations.UnitSetDefinesTheUnit : Prop :=
  ∀ (s : State) (f : RxFrame) (rest : List RxFrame), s.TakesRequest .unitSet f rest →
    let station := if byteAt f.payload 1 = 0 then none else some (byteAt f.payload 1)
    let inRange : Prop := byteAt f.payload 0 ≤ 15 ∧ byteAt f.payload 1 ≤ 223 ∧ byteAt f.payload 2 ≤ 15
    let used (u : UnitNo) : Prop :=
      ∃ i : Slot, s.coils[i].unit = u ∧ (s.coils[i].lifecycle = .settling ∨ s.coils[i].lifecycle = .armed)
    (¬ s.Supervisor f.sender → exec .unitSet s = .next (s.replied f rest .notPermitted []))
    ∧ (s.Supervisor f.sender → ¬ inRange → exec .unitSet s = .next (s.replied f rest .outOfRange []))
    ∧ ∀ (u : UnitNo) (zone : Fin 16), byteAt f.payload 0 = u.val → byteAt f.payload 2 = zone.val →
      byteAt f.payload 1 ≤ 223 → s.Supervisor f.sender →
      (used u → exec .unitSet s = .next (s.replied f rest .wrongState []))
      ∧ (¬ used u → exec .unitSet s = .next
          (((s.setUnit u
            (if s.units[u].controller = station then { s.units[u] with zone := zone }
            else { s.units[u] with
              controller := station, zone := zone, fan := .unknown, statusTimer := none })).markDirty
            (.unit u)).replied f rest .done []))

/-- PART_SET replaces the thresholds and the outdoor binding, a new binding taking its reference and starting the average and the
regime afresh, and marks the settings item dirty; its refusals come in the order of R52 (R31, R52, R53). -/
def Obligations.PartSetReplacesTheSettings : Prop :=
  ∀ (s : State) (f : RxFrame) (rest : List RxFrame), s.TakesRequest .partSet f rest →
    let key : Option PointKey :=
      if byteAt f.payload 0 = 0 then none else some ⟨byteAt f.payload 0, byteAt f.payload 1⟩
    let on := int16At f.payload 2
    let off := int16At f.payload 4
    let inRange : Prop :=
      -300 ≤ on ∧ on ≤ 300 ∧ -300 ≤ off ∧ off ≤ 300
        ∧ (byteAt f.payload 0 ≠ 0 → byteAt f.payload 0 ≤ 223 ∧ byteAt f.payload 1 ≤ 63)
    let change : RefChange := ⟨s.outdoor.toList, key.toList⟩
    let fits : Prop := s.RoomForPoints s.outdoor.toList key.toList
    (¬ s.Supervisor f.sender → exec .partSet s = .next (s.replied f rest .notPermitted []))
    ∧ (s.Supervisor f.sender → ¬ inRange → exec .partSet s = .next (s.replied f rest .outOfRange []))
    ∧ (s.Supervisor f.sender → inRange → off ≤ on → exec .partSet s = .next (s.replied f rest .inconsistent []))
    ∧ (s.Supervisor f.sender → inRange → on < off → ¬ fits →
        exec .partSet s = .next (s.replied f rest .pointTableFull []))
    ∧ (s.Supervisor f.sender → inRange → on < off → fits →
        (s.outdoor = key → exec .partSet s = .next
          ((({ s with regimeOn := on, regimeOff := off } : State).markDirty .settings).replied f rest .done []))
        ∧ (s.outdoor ≠ key → exec .partSet s = .next
          ((({ s.changeRefs change with
              outdoor := key, average := none, regime := .cold, regimeOn := on, regimeOff := off } : State).markDirty
            .settings).replied f rest .done [])))

/-- SUPERVISOR_SET replaces the list whole, each address held once, marks the settings item dirty, and is answered with the list as
now held; its refusals come in the order of R138 (R138, R180, R181). The order of the list is the model's choice (log 18). -/
def Obligations.SupervisorSetReplacesTheList : Prop :=
  ∀ (s : State) (f : RxFrame) (rest : List RxFrame), s.TakesRequest .supervisorSet f rest →
    let sent := (List.range (byteAt f.payload 0)).map fun i => byteAt f.payload (i + 1)
    let inRange : Prop := byteAt f.payload 0 ≤ 4 ∧ ∀ a ∈ sent, 1 ≤ a ∧ a ≤ 223
    (¬ s.Supervisor f.sender → exec .supervisorSet s = .next (s.replied f rest .notPermitted []))
    ∧ (s.Supervisor f.sender → ¬ inRange → exec .supervisorSet s = .next (s.replied f rest .outOfRange []))
    ∧ (s.Supervisor f.sender → inRange →
        ∃ l : List Nat, l.Nodup ∧ l.length ≤ 4 ∧ (∀ a, a ∈ l ↔ a ∈ sent)
          ∧ exec .supervisorSet s = .next
            ((({ s with supervisors := l } : State).markDirty .settings).replied f rest .done
              [byteOf l.length, byteOf (l.getD 0 0), byteOf (l.getD 1 0), byteOf (l.getD 2 0), byteOf (l.getD 3 0)]))

/-- A supervisor's PART_RESTART becomes pending; another's changes nothing; neither is answered (R166, R194). -/
def Obligations.PartRestartBecomesPending : Prop :=
  ∀ (s : State) (f : RxFrame) (rest : List RxFrame), s.TakesRequest .partRestart f rest →
    (s.Supervisor f.sender → exec .partRestart s = .next { s with rx := rest, restartPending := true })
    ∧ (¬ s.Supervisor f.sender → exec .partRestart s = .next { s with rx := rest })

/-! ### The plant line (chapter 8) -/

/-- A received frame: nothing changes without supply, in reset or while the part's own frame is on the line; a bad frame, one of a
sender outside 1 to 223 or one for another target is discarded and nothing is driven; a good one joins the queue where the part
is in service and the queue holds fewer than 8, and is refused or lost otherwise; only one addressed to the part is answered in
its slot (R158, R161, R162, R174; what a reception is, that nothing is heard without supply and in reset, and that the part does not
receive its own frames are the model's choices, log 8, 12 and 19). -/
def Obligations.FrameReceptionFiltersAndQueues : Prop :=
  ∀ (s : State) (levels : List LineLevel),
    let deaf : Prop := s.power = .off ∨ s.power = .held ∨ s.line ≠ none
    let hears (t : State) : Prop := exec (.frameReception levels) s = .next t
    (deaf → hears s)
    ∧ (¬ deaf → readFrame levels = none → hears { s with ack := .nothing })
    ∧ ∀ g, ¬ deaf → readFrame levels = some g →
      let taken : Prop :=
        1 ≤ g.sender.toNat ∧ g.sender.toNat ≤ 223
          ∧ (g.target.toNat = s.address ∨ g.target.toNat = 255 ∨ g.target.toNat = 224 + s.zone.val)
      let addressed : Bool := g.target.toNat == s.address
      (¬ taken → hears { s with ack := .nothing })
      ∧ (taken → s.power = .running → s.rx.length < 8 → hears
          { s with
            ack := if addressed then .accept else .nothing
            rx := s.rx ++ [{ sender := g.sender.toNat, target := g.target.toNat, addressed := addressed, code := g.code
                             payload := g.payload }] })
      ∧ (taken → s.power ≠ .running ∨ 8 ≤ s.rx.length → hears
          { s with ack := if addressed then .refuse else .nothing })

/-- Every frame whose payload is 24 bytes at most is read back, field by field, from the levels it is sent as: class, sender,
target, function, length, payload, CRC and separators. And nothing else is read: levels give a frame only where they begin with all
the levels it is sent as, so that a wrong CRC, a length above 24, a frame cut short and a separator read as recessive give none
(R158, R175; that levels behind the CRC are no part of the frame is the model's choice, log 8). -/
def Obligations.SentFrameIsReadBack : Prop :=
  ∀ (g : Frame) (levels : List LineLevel), readFrame levels = some g ↔ g.payload.length ≤ 24 ∧ g.levels <+: levels

/-- The first eligible entry of the action queue: queued with its hold-off passed, and no other eligible entry comes before it by
polarity, kind priority, join order and target station (R103, R104). -/
def Obligations.FirstEligibleEntryComesFirst : Prop :=
  ∀ (now : Nat) (ds : List DemandEntry),
    let eligible (e : DemandEntry) : Prop := e.queued.isSome ∧ ∀ t, e.holdOff = some t → t ≤ now
    let rank (k : ActionKind) : Nat := match k with
      | .fs => 1
      | .oac => 2
      | .vfo => 3
      | .pms => 4
      | .fbf => 5
    let before (a b : DemandEntry) : Prop :=
      (a.demand ≠ 0 ∧ b.demand = 0)
      ∨ ((a.demand = 0 ↔ b.demand = 0) ∧ (rank a.key.kind < rank b.key.kind
        ∨ (rank a.key.kind = rank b.key.kind ∧ (a.queued.getD 0 < b.queued.getD 0
          ∨ (a.queued.getD 0 = b.queued.getD 0 ∧ a.key.station < b.key.station)))))
    (firstEligible now ds = none ↔ ∀ e ∈ ds, ¬ eligible e)
    ∧ ∀ e, firstEligible now ds = some e → e ∈ ds ∧ eligible e ∧ ∀ d ∈ ds, eligible d → ¬ before d e

/-- A line grant goes to the first of asserts, urgent polls, answers, releases, stage notices and routine polls that holds an
offer, and puts its frame on the line; the dispatcher takes its entry and the notice is built at the grant; with no offer, with
a frame of the part on the line or out of service nothing happens (R107, R108, R168, R172, R174, R181; that such a grant leaves the
state as it is, is the model's choice, log 2). -/
def Obligations.LineGrantGoesToTheFirstSource : Prop :=
  ∀ s : State,
    let offer := match s.dispatch with
      | some d => some d
      | none => (firstEligible s.now s.demands).map fun e =>
          ({ key := e.key, polarity := if e.demand = 0 then .release else .assert } : Dispatch)
    let assert : Prop := ∃ d, offer = some d ∧ d.polarity = .assert
    let urgent : Prop := ∃ p, s.poll = some p ∧ p.cls = .urgent
    let frame (cls : FrameClass) (target : Nat) (code : FuncCode) (payload : List Byte) : Frame :=
      ⟨cls, byteOf s.address, byteOf target, code, payload⟩
    let grants (t : State) : Prop := exec .lineGrant s = .next t
    (s.power ≠ .running ∨ s.line ≠ none → grants s)
    ∧ (s.power = .running → s.line = none →
      (∀ d, offer = some d → (d.polarity = .assert ∨ ¬ urgent ∧ s.answers = []) → grants
        { s with
          dispatch := some d
          demands := if s.dispatch.isSome then s.demands else s.demands.map fun e =>
            if e.key = d.key then { e with queued := none, inFlight := some d.polarity, refreshDue := false } else e
          line := some ⟨.action, frame (if d.polarity = .assert then .urgent else .routine) d.key.station 4
            [byteOf (actionKindWire d.key.kind), byteOf d.polarity.wire], false⟩ })
      ∧ (∀ p, s.poll = some p → ¬ assert →
          (p.cls = .urgent ∨ s.answers = [] ∧ offer = none ∧ s.notice = none) → grants
        { s with line := some ⟨.poll, frame p.cls p.key.station 3 [byteOf p.key.point], false⟩ })
      ∧ (∀ a rest, s.answers = a :: rest → ¬ assert → ¬ urgent → grants
        { s with line := some ⟨.answer, frame .routine a.target 6
            (byteOf a.code.toNat :: byteOf (a.result.wire + if a.clamped then 128 else 0)
              :: if a.result = .done then a.data else []), false⟩ })
      ∧ (∀ n, s.notice = some n → offer = none → ¬ urgent → s.answers = [] →
        let c := s.coils[n.slot]
        grants
          { s with
            notice := some { n with setAgain := false }
            line := some ⟨.notice, frame .routine (224 + s.units[c.unit].zone.val) 5
              ([byteOf n.slot.val] ++ wordBytes c.tag
                ++ [byteOf c.unit.val, byteOf c.lifecycle.wire, byteOf c.stage.wire, byteOf c.stage.phaseWire,
                    byteOf c.cause.wire]
                ++ wordBytes c.dose ++ [flagsByte [c.settleOverdue]]), false⟩ })
      ∧ (offer = none → s.poll = none → s.answers = [] → s.notice = none → grants s))

/-- A frame of the part that loses arbitration or suffers a transmit error returns to its source: an ACTION frame counts nothing;
an answer, a poll and a notice count a loss, and at the eighth are dropped: the answer's place goes to the oldest deferred
answer, the Poll Engine and the notice source choose again, the backlog and the notice flag staying. A poll whose entry is gone
waits again like any other. An orphaned frame only leaves the line (R108, R166, R170, R173, R174; a loss with no frame on the line,
the poll without its entry, and orphans are the model's choices, log 2, 20 and 21). -/
def Obligations.LossReturnsTheFrameOrDropsIt : Prop :=
  ∀ (s : State) (fr : Frame),
    let loses (t : State) : Prop := exec .lostArbitration s = .next t ∧ exec .transmitError s = .next t
    let free : State := { s with line := none }
    (s.line = none → loses s)
    ∧ (∀ src, s.line = some ⟨src, fr, true⟩ → loses free)
    ∧ (s.line = some ⟨.action, fr, false⟩ → loses free)
    ∧ (∀ a rest, s.line = some ⟨.answer, fr, false⟩ → s.answers = a :: rest →
        (a.losses < 7 → loses { free with answers := { a with losses := a.losses + 1 } :: rest })
        ∧ (7 ≤ a.losses → s.deferred = [] → loses { free with answers := rest })
        ∧ (∀ d ds, 7 ≤ a.losses → s.deferred = d :: ds → loses { free with answers := rest ++ [d], deferred := ds }))
    ∧ (∀ p, s.line = some ⟨.poll, fr, false⟩ → s.poll = some p →
        (p.losses < 7 → loses { free with poll := some { p with losses := p.losses + 1 } })
        ∧ (7 ≤ p.losses → loses ({ free with poll := none } : State).choosePoll))
    ∧ (∀ n, s.line = some ⟨.notice, fr, false⟩ → s.notice = some n →
        (n.losses < 7 → loses { free with notice := some { n with losses := n.losses + 1 } })
        ∧ (7 ≤ n.losses → loses ({ free with notice := none } : State).chooseNotice))

/-- The completions of the part's other frames, whatever their slot held: a POLL takes one off the backlog, flags its entry as
polled and lets the engine choose again; an answer frees its place for the oldest deferred answer; a notice clears its flag
unless it was set again since the build, and the source chooses again. An orphaned frame only leaves the line (R47, R160, R166,
R167, R173, R174; a completion of a frame that is not on the line, and orphans, are the model's choices, log 2 and 21). -/
def Obligations.CompletedFramesLeaveTheirSources : Prop :=
  ∀ (s : State) (fr : Frame) (ack : AckBits),
    let free : State := { s with line := none }
    let completes (src : Source) (t : State) : Prop :=
      (src = .poll → exec (.pollCompletion ack) s = .next t) ∧ (src = .answer → exec (.answerCompletion ack) s = .next t)
        ∧ (src = .notice → exec (.stageNoticeCompletion ack) s = .next t)
    (∀ src, s.line = some ⟨src, fr, true⟩ → completes src free)
    ∧ (∀ src, (∀ l, s.line = some l → l.source ≠ src) → completes src s)
    ∧ (∀ p points, s.line = some ⟨.poll, fr, false⟩ → s.poll = some p →
        (∀ j : Fin 96, points[j] =
          if p.entry = some j then s.points[j].map fun e => { e with polled := true } else s.points[j]) →
        exec (.pollCompletion ack) s = .next
          ({ free with poll := none, backlog := s.backlog - 1, points := points } : State).choosePoll)
    ∧ (∀ a rest, s.line = some ⟨.answer, fr, false⟩ → s.answers = a :: rest →
        (s.deferred = [] → exec (.answerCompletion ack) s = .next { free with answers := rest })
        ∧ (∀ d ds, s.deferred = d :: ds →
            exec (.answerCompletion ack) s = .next { free with answers := rest ++ [d], deferred := ds }))
    ∧ (∀ n, s.line = some ⟨.notice, fr, false⟩ → s.notice = some n →
        exec (.stageNoticeCompletion ack) s = .next
          ({ free with
              notice := none
              noticeFlags := tablePut s.noticeFlags n.slot (n.setAgain && s.noticeFlags[n.slot]) } : State).chooseNotice)

/-- What the shared operations do that the statements name. The candidate with the highest miss count and lowest index is offered,
URGENT at backlog 3, or the backlog becomes 0 (R44, R45); the lowest flagged slot becomes current with no losses (R171); a notice
flag that is set marks a current notice of its slot, and no other (R173); a marked item joins the store write queue once, or is
marked for re-queue while it is written (R188). At the end of an event the notice source chooses (that it does so at the event's end
is deduced, since R171 does not say when, log 24); a fan-stop output recomputed in service stands as R130 says. A record has the
target pairs of R5 and demands those of R90. A map reference added creates an entry or is counted in the one that holds the key,
kept with all its state; one given up is taken off, and the entry goes where it then meets R101 (R97, R99). A change of a record
counts each pair newly demanded, or no longer, in its entry, and changes its place in the queue and its refresh-due mark alone (R91,
R98, R102, R105; that entries which join in one event share a join order is the model's choice, log 27). A reference change gives
every entry its new count, removes those whose count is then 0, and creates an entry for each key newly counted, at the lowest
unused place and in the order in which the change names them (R28, R30; this order is the model's choice, log 14); an offer whose
entry it removes is withdrawn and the engine chooses again, or, on the line, goes on without its entry (R49). -/
def Obligations.SourcesChooseAndItemsAreMarked : Prop :=
  ∀ s : State,
    let candidate (i : Fin 96) (e : PointEntry) : Prop := s.points[i] = some e ∧ 1 ≤ e.miss ∧ e.polled = false
    (s.backlog = 0 ∨ s.poll ≠ none → s.choosePoll = s)
    ∧ (s.backlog ≠ 0 → s.poll = none → (∀ i e, ¬ candidate i e) → s.choosePoll = { s with backlog := 0 })
    ∧ (∀ i e, s.backlog ≠ 0 → s.poll = none → candidate i e →
        (∀ j d, candidate j d → d.miss < e.miss ∨ d.miss = e.miss ∧ i ≤ j) →
        s.choosePoll = { s with
          poll := some
            { key := e.key, entry := some i, cls := if s.backlog = 3 then .urgent else .routine, losses := 0 } })
    ∧ (s.notice ≠ none → s.chooseNotice = s)
    ∧ (s.notice = none → (∀ i : Slot, s.noticeFlags[i] = false) → s.chooseNotice = s)
    ∧ (∀ i : Slot, s.notice = none → s.noticeFlags[i] = true → (∀ j, j < i → s.noticeFlags[j] = false) →
        s.chooseNotice = { s with notice := some ⟨i, 0, false⟩ })
    ∧ (∀ w, s.writing = some w → s.markDirty w.content.item = { s with writing := some { w with requeue := true } })
    ∧ (∀ it, (∀ w, s.writing = some w → w.content.item ≠ it) →
        s.markDirty it = if it ∈ s.storeQueue then s else { s with storeQueue := s.storeQueue ++ [it] })
    ∧ (∀ i : Slot,
        let t := s.setNotice i
        s.NoticeSet t i ∧ (∀ j, j ≠ i → s.NoticeKept t j) ∧ (s.notice = none → t.notice = none)
          ∧ t = { s with noticeFlags := t.noticeFlags, notice := t.notice })
    ∧ s.endEvent = { s.chooseNotice with joinStamp := s.joinStamp + 1 }
    ∧ (∀ u : UnitNo, s.power = .running →
        ∃ fso, (fso = .stop ↔ s.MustStop u) ∧ s.recomputeFso u = s.setUnit u { s.units[u] with fso := fso })
    ∧ (∀ c : Coil, (s.targetPairs c).Nodup ∧ ∀ k : DemandKey,
        (k ∈ s.targetPairs c ↔
          (s.units[c.unit].controller = some k.station ∧ (k.kind = .fs ∨ k.kind = .oac))
          ∨ ∃ p, c.profile = some p
              ∧ (k.kind = .vfo ∧ p.map.vfo = some k.station
                ∨ k.kind = .pms ∧ c.kind ≠ some .steam ∧ p.map.pms = some k.station
                ∨ k.kind = .fbf ∧ p.map.fbf = some k.station))
        ∧ (k ∈ s.demandedPairs c ↔
          c.lifecycle = .armed ∧ k ∈ s.targetPairs c ∧
            match c.stage with
            | .clear | .watch => False
            | .trip | .lockout => True
            | .guard | .recovery .fanRestart | .recovery .prove => k.kind ≠ .fs
            | .recovery (.stepDown d) => k.kind ≠ .fs ∧ d.has k.kind = false))
    ∧ ((s.demands.map (·.key)).Nodup →
        (∀ (ks : List DemandKey) (k : DemandKey), ks.Nodup →
          let added := addMapRefs s.joinStamp ks s.demands
          let dropped := dropMapRefs ks s.demands
          (k ∉ ks → demandOf added k = demandOf s.demands k ∧ demandOf dropped k = demandOf s.demands k)
          ∧ (k ∈ ks → demandOf s.demands k = none →
            demandOf dropped k = none
            ∧ ∃ e : DemandEntry, demandOf added k = some e ∧ e.key = k ∧ e.mapRefs = 1 ∧ e.Fresh
                ∧ e.queued = some s.joinStamp)
          ∧ ∀ e, k ∈ ks → demandOf s.demands k = some e →
            let left : DemandEntry := { e with mapRefs := e.mapRefs - 1 }
            demandOf added k = some { e with mapRefs := e.mapRefs + 1 }
            ∧ demandOf dropped k = if left.Unneeded then none else some left)
        ∧ ∀ (i : Slot) (c : Coil),
          let t := s.changeCoil i c
          let before (k : DemandKey) : Prop := k ∈ s.demandedPairs s.coils[i]
          let after (k : DemandKey) : Prop := k ∈ s.demandedPairs c
          t = { s.setCoil i c with demands := t.demands }
          ∧ ∀ k : DemandKey,
            ((before k ↔ after k) → demandOf t.demands k = demandOf s.demands k)
            ∧ (demandOf s.demands k = none → demandOf t.demands k = none)
            ∧ ∀ e, demandOf s.demands k = some e →
              let left := e.withDemand (e.demand - 1) s.joinStamp
              (¬ before k → after k → demandOf t.demands k = some (e.withDemand (e.demand + 1) s.joinStamp))
              ∧ (before k → ¬ after k → demandOf t.demands k = if left.Unneeded then none else some left))
    ∧ ∀ gives takes : List PointKey, s.PointsCounted → s.RoomForPoints gives takes →
      let t := s.changeRefs ⟨gives, takes⟩
      let count (e : PointEntry) : Nat := e.refs + takes.count e.key - gives.count e.key
      let isNew (i : Fin 96) (e : PointEntry) : Prop :=
        t.points[i] = some e ∧ ∀ (j : Fin 96) (d : PointEntry), s.points[j] = some d → d.key ≠ e.key
      let gone : Prop :=
        ∃ p i e, s.poll = some p ∧ p.entry = some i ∧ s.points[i] = some e ∧ count e = 0
      let onLine : Prop := ∃ l, s.line = some l ∧ l.source = .poll ∧ l.orphan = false
      (∀ (i : Fin 96) (e : PointEntry), s.points[i] = some e →
        (count e ≠ 0 → t.points[i] = some { e with refs := count e })
        ∧ (count e = 0 → ∀ (j : Fin 96) (d : PointEntry), t.points[j] = some d → d.key ≠ e.key))
      ∧ (∀ i e, isNew i e →
        e = { key := e.key, refs := takes.count e.key - gives.count e.key, held := none, lastSeq := none, quality := .none
              miss := 0, reported := false, polled := false, streak := 0, gaps := 0 }
        ∧ 1 ≤ e.refs ∧ ∀ j, j < i → (t.points[j]).isSome)
      ∧ (∀ i j d e, isNew i d → isNew j e → i < j → takes.idxOf d.key < takes.idxOf e.key)
      ∧ (∀ k ∈ takes, gives.count k < takes.count k → ∃ (i : Fin 96) (e : PointEntry), t.points[i] = some e ∧ e.key = k)
      ∧ (∀ i e, t.points[i] = some e → isNew i e ∨ ∃ d, s.points[i] = some d ∧ d.key = e.key)
      ∧ (¬ gone → t = { s with points := t.points })
      ∧ (gone → onLine → t = { s with points := t.points, poll := s.poll.map fun p => { p with entry := none } })
      ∧ (gone → ¬ onLine → t = ({ s with points := t.points, poll := none } : State).choosePoll)

/-! ### Outcomes of a dispatch (5.5) -/

/-- An ACTION frame that completes: with ACCEPT the commanded state takes the polarity sent, the attempts clear, the hold-off and
the refresh timer are set, and the entry joins the queue where it differs from its demand; otherwise the attempts rise and the
entry joins again or, at the fourth failure, faults. A frame to the part's own address counts as unanswered. An entry that then
meets the conditions of removal is gone, and the dispatcher holds no frame. The records in STEP_DOWN whose kind dropped last is the
entry's then make their test, one after another. An orphaned frame only leaves the line (R87, R101, R108 to R111, R115, R116, R118,
R174; a completion without an ACTION frame on the line, the order of the records, and orphans are the model's choices, log 2, 13
and 21). What the fault of an entry does to units and to other records is stated next. -/
def Obligations.ActionCompletionAppliesTheOutcome : Prop :=
  ∀ (s : State) (fr : Frame) (ack : AckBits),
    (s.line = some ⟨.action, fr, true⟩ → exec (.actionCompletion ack) s = .next { s with line := none })
    ∧ ((∀ l, s.line = some l → l.source ≠ .action) → exec (.actionCompletion ack) s = .next s)
    ∧ ∀ (d : Dispatch) (e : DemandEntry),
      s.line = some ⟨.action, fr, false⟩ → s.dispatch = some d → demandOf s.demands d.key = some e →
      (s.demands.map (·.key)).Nodup → e.inFlight = some d.polarity → e.queued = none → e.faulted = false →
      e.refreshDue = false →
      let accepted : Prop := ack = ⟨.dominant, .recessive⟩ ∧ d.key.station ≠ s.address
      let faults : Prop := ¬ accepted ∧ 3 ≤ e.attempts
      let required : Commanded := if e.demand = 0 then .released else .asserted
      let contributes (i : Slot) : Prop :=
        s.coils[i].lifecycle = .armed ∧ (s.coils[i].stage = .guard ∨ ∃ ph, s.coils[i].stage = .recovery ph)
          ∧ d.key ∈ s.demandedPairs s.coils[i]
      ∃ (t : State) (v : Nat → State), exec (.actionCompletion ack) s = .next t ∧ t.dispatch = none ∧ t.line = none
        ∧
        let becomes (x : DemandEntry) : Prop := demandOf t.demands d.key = if x.Unneeded then none else some x
        (accepted →
          let commanded : Commanded := if d.polarity = .assert then .asserted else .released
          becomes
            { e with
              inFlight := none, commanded := commanded, attempts := 0
              holdOff := some (s.now + if d.polarity = .assert then 1000 else 200)
              refreshTimer := if d.polarity = .assert then some (s.now + 60000) else none
              queued := if required ≠ commanded then some s.joinStamp else none })
        ∧ (¬ accepted → e.attempts < 3 →
          let joins : Bool := required ≠ e.commanded
          let refresh : Bool := d.polarity = .assert ∧ e.commanded = .asserted ∧ required = .asserted
          becomes
            { e with
              inFlight := none
              attempts := if joins || refresh then e.attempts + 1 else 0
              holdOff := some (s.now + 1000)
              queued := if joins || refresh then some s.joinStamp else none
              refreshDue := refresh })
        ∧ (faults →
          becomes
            { e with
              inFlight := none, attempts := e.attempts + 1, holdOff := some (s.now + 1000), faulted := true
              commanded := .unknown, queued := none, refreshDue := false, refreshTimer := none
              retryTimer := some (s.now + 30000) })
        ∧ demandOf (v 0).demands d.key = demandOf t.demands d.key
        ∧ (v 0).apart = ({ s with dispatch := none, line := none } : State).apart
        ∧ (∀ i, i ≤ 48 → (v i).joinStamp = s.joinStamp)
        ∧ (¬ faults →
          (v 0).coils = s.coils ∧ (v 0).units = s.units ∧ (v 0).noticeFlags = s.noticeFlags ∧ (v 0).notice = s.notice
            ∧ (v 0).storeQueue = s.storeQueue ∧ (v 0).writing = s.writing
            ∧ ∀ k, k ≠ d.key → demandOf (v 0).demands k = demandOf s.demands k)
        ∧ (∀ i : Slot, ¬ contributes i → (v 0).coils[i] = s.coils[i])
        ∧ (∀ i : Slot,
          let c := (v i.val).coils[i]
          let tested (p : Dropped) : Prop :=
            c.lifecycle = .armed ∧ c.stage = .recovery (.stepDown p) ∧ (v i.val).DroppedLast c p d.key
          (∀ p, tested p → (v i.val).TestsDrops (v (i.val + 1)) i p) ∧ ((∀ p, ¬ tested p) → v (i.val + 1) = v i.val))
        ∧ (∀ n, (v 48).notice = some n → t.notice = some n)
        ∧ t.coils = (v 48).coils ∧ t.demands = (v 48).demands ∧ t.units = (v 48).units
        ∧ t.noticeFlags = (v 48).noticeFlags ∧ t.storeQueue = (v 48).storeQueue ∧ t.writing = (v 48).writing
        ∧ t.apart = (v 48).apart

/-- An ACTION frame that completes as the fourth failure in a row is handed on: ACTUATOR_FAIL reaches every unit with a SETTLING or
ARMED record that refers to the entry, and for FS and OAC every unit of the target station; and the fault of an OAC or VFO assert
trips, with cause ACTUATOR, the records in GUARD or RECOVERY that contribute to the entry, and those alone. Every other record stays,
but for those in STEP_DOWN that waited for the entry, whose test is stated above (R74, R77, R111 to R113). -/
def Obligations.FaultIsReportedAndEscalated : Prop :=
  ∀ (s : State) (fr : Frame) (ack : AckBits) (d : Dispatch) (e : DemandEntry),
    s.line = some ⟨.action, fr, false⟩ → s.dispatch = some d → demandOf s.demands d.key = some e → e.attempts = 3 →
    (ack ≠ ⟨.dominant, .recessive⟩ ∨ d.key.station = s.address) →
    let k := d.key
    let contributes (i : Slot) : Prop :=
      s.coils[i].lifecycle = .armed ∧ (s.coils[i].stage = .guard ∨ ∃ ph, s.coils[i].stage = .recovery ph)
        ∧ k ∈ s.demandedPairs s.coils[i]
    let escalated : Prop := d.polarity = .assert ∧ (k.kind = .oac ∨ k.kind = .vfo)
    ∃ t, exec (.actionCompletion ack) s = .next t
      ∧ (∀ u : UnitNo, t.units[u].faults.actuatorFail = true ↔
        s.units[u].faults.actuatorFail = true
        ∨ (∃ i : Slot, s.coils[i].unit = u
            ∧ (s.coils[i].lifecycle = .settling ∨ s.coils[i].lifecycle = .armed) ∧ k ∈ s.targetPairs s.coils[i])
        ∨ ((k.kind = .fs ∨ k.kind = .oac) ∧ s.units[u].controller = some k.station))
      ∧ ∀ i : Slot,
        let c := s.coils[i]
        (escalated ∧ contributes i →
          t.coils[i] =
            { c with
              stage := if 2 ≤ c.tripCount then .lockout else .trip
              tripCount := min 3 (c.tripCount + 1)
              latch := if c.tripCount = 0 then .trip 1 else if c.tripCount = 1 then .trip 2 else .lockout
              cause := .actuator, holdTimer := none, cleanTimer := none }
          ∧ s.NoticeSet t i
          ∧ (.coil i ∈ t.storeQueue ∨ ∃ w, t.writing = some w ∧ w.content.item = .coil i ∧ w.requeue = true)
          ∧ t.units[c.unit].faults.trip = true ∧ (s.power = .running → t.units[c.unit].fso = .stop))
        ∧ (¬ (escalated ∧ contributes i) → (∀ p, c.stage = .recovery (.stepDown p) → ¬ s.DroppedLast c p k) →
          t.coils[i] = c ∧ s.NoticeKept t i)

/-! ### Evaluations (3.2, 4.2) -/

/-- An evaluation steps the chill dose and keeps its result: each margin is the effective value less its limit, absent where the
point is not available; the margin is the lesser of the two, clamped to -500 to 500, and absent with the air margin; the dose is
frozen while a required binding is unavailable, rises by the weight times the shortfall below W, saturating at 60000, and else
decays by D; the next evaluation is due in 2 s. The record's definition and every other record stay (R39, R58 to R64; that the clock
then stands at the expiry or later is the model's choice, log 3). -/
def Obligations.EvaluationStepsTheDose : Prop :=
  ∀ (s : State) (i : Slot) (p : Profile) (due : Nat),
    let c := s.coils[i]
    let now := max s.now due
    c.evalTimer = some due → c.profile = some p →
    let value (b : Binding) : Option Int :=
      match entryOf s.points b.key with
      | none => none
      | some e => if e.quality = .fresh ∨ e.quality = .stale then e.held.map fun v => v + b.offset else none
    let available (b : Binding) : Prop :=
      ∃ e, entryOf s.points b.key = some e ∧ (e.quality = .fresh ∨ e.quality = .stale)
    let required : Prop :=
      (∃ b, c.lat = some b ∧ available b)
        ∧ (c.kind = some .hotWater ∨ c.kind = some .steam → ∃ b, c.ft = some b ∧ available b)
    let air := (c.lat.bind value).map fun v => v - p.limits.airLimit
    let fluid := (c.ft.bind value).map fun v => v - p.limits.fluidLimit
    let clamp (m : Int) : Int := if m < -500 then -500 else if 500 < m then 500 else m
    let margin : Option Int :=
      match air, fluid with
      | none, _ => none
      | some a, none => some (clamp a)
      | some a, some f => some (clamp (if f < a then f else a))
    let fan := s.units[c.unit].fan
    let weight := (if s.regime = .cold then 3 else 2) - if fan = .stopped then 1 else 0
    ∃ t r, exec (.evaluationExpiry i) s = .next t
      ∧ t.coils[i].last = some r ∧ t.coils[i].evalTimer = some (now + 2000)
      ∧ r.margin = margin ∧ r.airMargin = air ∧ r.fan = fan ∧ (r.available = true ↔ required)
      ∧ (¬ required → t.coils[i].dose = c.dose)
      ∧ (∀ m, required → margin = some m → m < p.limits.watchBand →
          t.coils[i].dose = min 60000 (c.dose + weight * (p.limits.watchBand - m).toNat))
      ∧ (∀ m, required → margin = some m → p.limits.watchBand ≤ m → t.coils[i].dose = c.dose - p.limits.decay.toNat)
      ∧ { t.coils[i] with
          stage := c.stage, dose := c.dose, tripCount := c.tripCount, latch := c.latch, cause := c.cause
          evalTimer := c.evalTimer, cleanTimer := c.cleanTimer, holdTimer := c.holdTimer, last := c.last } = c
      ∧ (∀ j, j ≠ i → t.coils[j] = s.coils[j])
      ∧ t.apart = ({ s with now := now } : State).apart

/-- The first check that matches at an evaluation of an ARMED record moves its stage: an air margin at or below 0 or a dose at or
above T trips it; an unavailable required binding takes it to GUARD; else the checks of its stage or recovery phase apply, and in
STEP_DOWN at or above the watch band the test for further drops. In TRIP and LOCKOUT no check is made. SENSOR_LOST is added wherever
a required binding is unavailable (R70 to R75, R79, R84 to R89, R133; that it is added also beside a trip is deduced, log 30; that
timers count from the expiry or later is the model's choice, log 3). -/
def Obligations.EvaluationMovesTheStage : Prop :=
  ∀ (s : State) (i : Slot) (p : Profile) (due : Nat),
    let c := s.coils[i]
    let now := max s.now due
    c.evalTimer = some due → c.profile = some p → c.lifecycle = .armed →
    ∃ t r, exec (.evaluationExpiry i) s = .next t ∧ t.coils[i].last = some r
      ∧
      let d := t.coils[i]
      let below : Prop := ∃ m, r.margin = some m ∧ m < p.limits.watchBand
      let above : Prop := ∃ m, r.margin = some m ∧ p.limits.watchBand ≤ m
      let airLimit : Prop := ∃ a, r.airMargin = some a ∧ a ≤ 0
      let doseTrip : Prop := p.dose.tripDose ≤ d.dose
      let stands : Prop := d = { c with dose := d.dose, last := d.last, evalTimer := d.evalTimer } ∧ s.NoticeKept t i
      let enters (st : Stage) (cause : Cause) : Prop :=
        s.NoticeSet t i
          ∧ d = { c with
              dose := d.dose, last := d.last, evalTimer := d.evalTimer, stage := st, cause := cause, holdTimer := none
              cleanTimer := if st = .clear then some (now + 3600000) else none }
      let dirty : Prop :=
        .coil i ∈ t.storeQueue ∨ ∃ w, t.writing = some w ∧ w.content.item = .coil i ∧ w.requeue = true
      let trips (cause : Cause) : Prop :=
        d = { c with
            dose := d.dose, last := d.last, evalTimer := d.evalTimer
            stage := if 2 ≤ c.tripCount then .lockout else .trip
            tripCount := min 3 (c.tripCount + 1)
            latch := if c.tripCount = 0 then .trip 1 else if c.tripCount = 1 then .trip 2 else .lockout
            cause := cause, holdTimer := none, cleanTimer := none }
          ∧ s.NoticeSet t i ∧ dirty ∧ t.units[c.unit].faults.trip = true
          ∧ (s.power = .running → t.units[c.unit].fso = .stop)
      let checked : Prop := c.stage ≠ .trip ∧ c.stage ≠ .lockout
      let passed : Prop := checked ∧ ¬ airLimit ∧ ¬ doseTrip ∧ r.available = true
      (∀ j, j ≠ i → s.NoticeKept t j)
      ∧ (¬ checked → stands)
      ∧ (checked → airLimit → trips .airLimit)
      ∧ (checked → ¬ airLimit → doseTrip → trips .doseTrip)
      ∧ (checked → ¬ airLimit → ¬ doseTrip → r.available = false →
          if c.stage = .guard then stands else enters .guard .sensorLost)
      ∧ (r.available = false → t.units[c.unit].faults.sensorLost = true)
      ∧ (passed → c.stage = .clear ∨ c.stage = .watch → p.dose.upper ≤ d.dose → enters .guard .doseGuard)
      ∧ (passed → c.stage = .clear → d.dose < p.dose.upper → if below then enters .watch .doseWatch else stands)
      ∧ (passed → c.stage = .watch → d.dose < p.dose.upper →
          if above ∧ d.dose = 0 then enters .clear .cleared else stands)
      ∧ (passed → c.stage = .guard → if d.dose ≤ p.dose.lower ∧ above then enters .watch .doseWatch else stands)
      ∧ (passed → c.stage = .recovery .fanRestart →
          if r.fan = .running then
            s.NoticeSet t i
              ∧ d = { c with
                  dose := d.dose, last := d.last, evalTimer := d.evalTimer, stage := .recovery .prove
                  holdTimer := some (now + p.hold * 1000) }
          else stands)
      ∧ (passed → c.stage = .recovery .prove →
          if below then
            d = { c with
              dose := d.dose, last := d.last, evalTimer := d.evalTimer, holdTimer := some (now + p.hold * 1000) }
            ∧ s.NoticeKept t i
          else stands)
      ∧ (∀ k, passed → c.stage = .recovery (.stepDown k) → below → enters .guard .doseGuard)
      ∧ (∀ k, passed → c.stage = .recovery (.stepDown k) → ¬ below →
          (({ s with now := now } : State).setCoil i
            { c with dose := d.dose, last := d.last, evalTimer := d.evalTimer }).TestsDrops t i k)

/-! ### Timers -/

/-- The other timers of a record. The restart hold: with the last margin at or above W and the dose at or below L the record enters
STEP_DOWN with nothing dropped, sets its notice flag and makes the test for drops at once: OAC goes first, and each further kind
only while the entry of the one before does not wait; else the hold restarts at H. The clean timer: the trip count becomes 0 and the
latch NONE, the item dirty where it was not. The settle timer: the overdue flag, the notice flag and SENSOR_LOST (R19, R79, R85 to
R88; that a stopped timer does not expire, and that the clock then stands at the expiry or later, are the model's choices, log 2
and 3). -/
def Obligations.RecordTimersExpire : Prop :=
  ∀ (s : State) (i : Slot) (due : Nat),
    let c := s.coils[i]
    let u : State := { s with now := max s.now due }
    (c.evalTimer = none → exec (.evaluationExpiry i) s = .next s)
    ∧ (c.holdTimer = none → exec (.restartHoldExpiry i) s = .next s)
    ∧ (c.cleanTimer = none → exec (.cleanTimerExpiry i) s = .next s)
    ∧ (c.settleTimer = none → exec (.settleTimerExpiry i) s = .next s)
    ∧ (∀ p, c.holdTimer = some due → c.profile = some p →
        let passes : Prop := (∃ r m, c.last = some r ∧ r.margin = some m ∧ p.limits.watchBand ≤ m) ∧ c.dose ≤ p.dose.lower
        ∃ t, exec (.restartHoldExpiry i) s = .next t ∧ (∀ j, j ≠ i → t.coils[j] = s.coils[j]) ∧ t.apart = u.apart
          ∧ (∀ j, j ≠ i → s.NoticeKept t j)
          ∧ (¬ passes →
              t.coils[i] = { c with holdTimer := some (u.now + p.hold * 1000) } ∧ t.demands = s.demands ∧ s.NoticeKept t i)
          ∧ (passes → c.lifecycle = .armed →
              ((u.setCoil i { c with stage := .recovery (.stepDown ⟨false, false, false, false⟩), holdTimer := none }).setNotice
                i).TestsDrops t i ⟨false, false, false, false⟩))
    ∧ (c.cleanTimer = some due →
        let t := u.setCoil i { c with tripCount := 0, latch := .none, cleanTimer := none }
        exec (.cleanTimerExpiry i) s = .next (if c.latch = .none then t else t.markDirty (.coil i)))
    ∧ (c.settleTimer = some due →
        ∃ t, exec (.settleTimerExpiry i) s = .next t
          ∧ t.coils[i] = { c with settleOverdue := true, settleTimer := none } ∧ (∀ j, j ≠ i → t.coils[j] = s.coils[j])
          ∧ s.NoticeSet t i ∧ (∀ j, j ≠ i → s.NoticeKept t j)
          ∧ t.units[c.unit] =
            { s.units[c.unit] with faults := { s.units[c.unit].faults with sensorLost := true } }
          ∧ (∀ v, v ≠ c.unit → t.units[v] = s.units[v])
          ∧ t.apart = u.apart ∧ t.demands = s.demands ∧ t.storeQueue = s.storeQueue ∧ t.writing = s.writing)

/-- The poll period's expiry: an offer that is not on the line is withdrawn; every entry that missed the period counts the miss,
and goes STALE, or LOST at the third; both period flags clear; a new LOST of the outdoor entry takes the regime to COLD; the
backlog rises to 3 at most, the engine chooses, and the next period has the length of the regime (R41 to R46, R56, R57; that a stopped
timer does not expire, and that the clock then stands at the expiry or later, are the model's choices, log 2 and 3). -/
def Obligations.PollPeriodEnds : Prop :=
  ∀ (s : State) (due : Nat),
    (s.pollTimer = none → exec .pollPeriodExpiry s = .next s)
    ∧ (s.pollTimer = some due →
      let after (e : PointEntry) : PointEntry :=
        if e.reported = true then { e with reported := false, polled := false }
        else
          { e with
            miss := min 3 (e.miss + 1)
            quality :=
              if e.quality = .fault then .fault
              else if 2 ≤ e.miss then .lost
              else if e.quality = .fresh ∨ e.quality = .stale then .stale
              else e.quality
            reported := false, polled := false }
      let outdoorLost : Prop :=
        ∃ k e, s.outdoor = some k ∧ entryOf s.points k = some e ∧ e.quality ≠ .lost ∧ (after e).quality = .lost
      let regime : Regime := if outdoorLost then .cold else s.regime
      let length : Nat := if regime = .cold then 10000 else 60000
      ∀ points : Table (Option PointEntry) 96, (∀ i : Fin 96, points[i] = s.points[i].map after) →
        exec .pollPeriodExpiry s = .next
          { ({ s with
                now := max s.now due, points := points, regime := regime, backlog := min 3 (s.backlog + 1)
                poll := if ∃ l, s.line = some l ∧ l.source = .poll ∧ l.orphan = false then s.poll else none }
              : State).choosePoll with
            pollPeriod := length, pollTimer := some (max s.now due + length) })

/-- The timers of claims, units, demand entries and the store: a claim's frees its entry; a status timer makes the fan proof UNKNOWN;
a hold-off's passing changes no field; a refresh timer queues an asserted entry at rest with demand as a refresh; a fault retry
clears the fault and queues the entry; the store retry queues the stale items that are neither queued nor being written (R104,
R114, R115, R124, R142, R190). Expiries move the clock to the moment the timer was set for, and a stopped timer does not expire,
nor one of a key that no demand entry holds (the model's choices, log 2 and 3). -/
def Obligations.OtherTimersExpire : Prop :=
  ∀ (s : State) (due : Nat),
    let u : State := { s with now := max s.now due }
    (∀ n : ClaimNo,
        ((∀ c, s.claims[n] = some c → c.timer = none) → exec (.claimTimerExpiry n) s = .next s)
        ∧ ∀ c, s.claims[n] = some c → c.timer = some due → exec (.claimTimerExpiry n) s = .next (u.setClaim n none))
    ∧ (∀ v : UnitNo,
        (s.units[v].statusTimer = none → exec (.statusTimerExpiry v) s = .next s)
        ∧ (s.units[v].statusTimer = some due → exec (.statusTimerExpiry v) s =
            .next (u.setUnit v { s.units[v] with fan := .unknown, statusTimer := none })))
    ∧ (∀ k : DemandKey, demandOf s.demands k = none →
        exec (.holdOffExpiry k) s = .next s ∧ exec (.refreshTimerExpiry k) s = .next s
          ∧ exec (.faultRetryTimerExpiry k) s = .next s)
    ∧ (∀ (k : DemandKey) (e : DemandEntry), demandOf s.demands k = some e →
        (e.holdOff = none → exec (.holdOffExpiry k) s = .next s)
        ∧ (e.refreshTimer = none → exec (.refreshTimerExpiry k) s = .next s)
        ∧ (e.retryTimer = none → exec (.faultRetryTimerExpiry k) s = .next s)
        ∧ (e.holdOff = some due → exec (.holdOffExpiry k) s = .next u)
        ∧ (e.refreshTimer = some due → ∃ t, exec (.refreshTimerExpiry k) s = .next t
            ∧ demandOf t.demands k = some
              (if 1 ≤ e.demand ∧ e.commanded = .asserted ∧ e.queued = none ∧ e.inFlight = none ∧ e.faulted = false then
                { e with refreshTimer := none, refreshDue := true, queued := some s.joinStamp }
              else { e with refreshTimer := none })
            ∧ (∀ j, j ≠ k → demandOf t.demands j = demandOf s.demands j)
            ∧ t.apart = u.apart ∧ t.coils = s.coils ∧ t.units = s.units ∧ t.storeQueue = s.storeQueue
            ∧ t.writing = s.writing)
        ∧ (e.retryTimer = some due → ∃ t, exec (.faultRetryTimerExpiry k) s = .next t
            ∧ demandOf t.demands k = some
              { e with faulted := false, attempts := 0, retryTimer := none, queued := some s.joinStamp }
            ∧ (∀ j, j ≠ k → demandOf t.demands j = demandOf s.demands j)
            ∧ t.apart = u.apart ∧ t.coils = s.coils ∧ t.units = s.units ∧ t.storeQueue = s.storeQueue
            ∧ t.writing = s.writing))
    ∧ (s.storeRetry = none → exec .storeRetryTimerExpiry s = .next s)
    ∧ (s.storeRetry = some due →
        let stale (it : Item) : Prop := match it with
          | .settings => s.settingsStale = true
          | .unit n => s.unitStale[n] = true
          | .coil n => s.coils[n].storeStale = true
        ∃ items : List Item,
          items.Sublist (.settings :: ((List.finRange 16).map Item.unit ++ (List.finRange 48).map Item.coil))
          ∧ (∀ it, it ∈ items ↔ stale it ∧ it ∉ s.storeQueue ∧ ∀ w, s.writing = some w → w.content.item ≠ it)
          ∧ exec .storeRetryTimerExpiry s = .next { u with storeQueue := s.storeQueue ++ items, storeRetry := none })

/-! ### The low-limit contacts (6.3) -/

/-- A change of level starts or stops the filter; the filter's expiry takes the level as the contact. An opening adds CONTACT_OPEN,
drives the output to STOP and, in service, trips with cause CONTACT every ARMED record of the unit in CLEAR, WATCH, GUARD or
RECOVERY, and those alone: each sets its notice flag, makes its item dirty and adds TRIP to the unit's fault summary; a closing
recomputes the output and changes nothing else (R74, R76, R126, R128 to R130; that a filter at rest does not expire, that the clock
then stands at the expiry or later, that without supply and in reset the filters do not run, and that a closing in a PART_RESTART
load keeps the output are the model's choices, log 2, 3, 12 and 22). -/
def Obligations.ContactsFollowTheirInputs : Prop :=
  ∀ (s : State) (u : UnitNo) (level : ContactLevel),
    let e := s.units[u]
    let agrees : Prop := e.contact = .closed ↔ level = .closedLevel
    (e.level = level → exec (.llLevelChange u level) s = .next s)
    ∧ (e.level ≠ level → s.power = .off ∨ s.power = .held →
        exec (.llLevelChange u level) s = .next (s.setUnit u { e with level := level }))
    ∧ (e.level ≠ level → s.power ≠ .off → s.power ≠ .held →
        exec (.llLevelChange u level) s = .next (s.setUnit u
          { e with level := level, filter := if agrees then .steady else .pending (s.now + 200) }))
    ∧ (e.filter = .steady → exec (.contactFilterExpiry u) s = .next s)
    ∧ ∀ due, e.filter = .pending due →
      ∃ t, exec (.contactFilterExpiry u) s = .next t
        ∧ t.apart = ({ s with now := max s.now due } : State).apart ∧ (∀ v, v ≠ u → t.units[v] = s.units[v])
        ∧ (e.level = .closedLevel →
            let holds : Prop := ∃ j : Slot, s.coils[j].unit = u
              ∧ (s.coils[j].lifecycle = .armed ∧ (s.coils[j].stage = .trip ∨ s.coils[j].stage = .lockout)
                ∨ s.coils[j].lifecycle = .settling ∧ s.coils[j].latch ≠ .none)
            (∃ fso, t.units[u] = { e with contact := .closed, filter := .steady, fso := fso }
              ∧ (s.power = .running → (fso = .stop ↔ holds)) ∧ (s.power = .restartLoad → fso = e.fso)
              ∧ (s.power ≠ .running → s.power ≠ .restartLoad → fso = .stop))
            ∧ t.coils = s.coils ∧ t.demands = s.demands ∧ t.storeQueue = s.storeQueue ∧ t.writing = s.writing
            ∧ t.noticeFlags = s.noticeFlags)
        ∧ (e.level = .openLevel →
            let trips (c : Coil) : Prop :=
              s.power = .running ∧ c.lifecycle = .armed ∧ c.unit = u ∧ c.stage ≠ .trip ∧ c.stage ≠ .lockout
            (∃ trip, (trip = true ↔ e.faults.trip = true ∨ ∃ j : Slot, trips s.coils[j])
              ∧ t.units[u] = { e with
                  contact := .opened, filter := .steady, fso := .stop
                  faults := { e.faults with contactOpen := true, trip := trip } })
            ∧ ((∀ j : Slot, ¬ trips s.coils[j]) →
                t.demands = s.demands ∧ t.storeQueue = s.storeQueue ∧ t.writing = s.writing)
            ∧ ∀ j : Slot,
              let c := s.coils[j]
              (¬ trips c → t.coils[j] = c ∧ s.NoticeKept t j)
              ∧ (trips c →
                t.coils[j] =
                  { c with
                    stage := if 2 ≤ c.tripCount then .lockout else .trip
                    tripCount := min 3 (c.tripCount + 1)
                    latch := if c.tripCount = 0 then .trip 1 else if c.tripCount = 1 then .trip 2 else .lockout
                    cause := .contact, holdTimer := none, cleanTimer := none }
                ∧ s.NoticeSet t j
                ∧ (.coil j ∈ t.storeQueue ∨ ∃ w, t.writing = some w ∧ w.content.item = .coil j ∧ w.requeue = true)))

/-! ### The retained store (chapter 10) -/

/-- A write begins, in service with no write under way and no PART_RESTART pending, with the head item and its live content; a
record SETTLING is written as ARMED, a VACANT slot as erased. At its completion the item is valid with that content on success,
and stays as it was on failure with the retry timer running; the stale mark follows; a re-queued item joins the tail; a commit
carried is answered, and its claim is freed (R24, R153, R166, R188, R189; that a failed write leaves the item as it was is
deduced, log 10; that a write which may not begin, or a completion with no write under way, leaves the state as it is, is the
model's choice, log 2). -/
def Obligations.StoreWritesBeginAndEnd : Prop :=
  ∀ s : State,
    let begins (it : Item) (rest : List Item) (w : Write) : Prop :=
      s.storeQueue = it :: rest → s.power = .running → s.writing = none → s.restartPending = false →
      exec .storeWriteBegin s = .next { s with storeQueue := rest, writing := some w }
    (s.storeQueue = [] ∨ s.power ≠ .running ∨ s.writing ≠ none ∨ s.restartPending = true →
        exec .storeWriteBegin s = .next s)
    ∧ (∀ rest, begins .settings rest ⟨.settings ⟨s.outdoor, s.regimeOn, s.regimeOff, s.supervisors⟩, false, false⟩)
    ∧ (∀ n rest, begins (.unit n) rest ⟨.unit n ⟨s.units[n].controller, s.units[n].zone⟩, false, false⟩)
    ∧ (∀ n rest,
        let c := s.coils[n]
        let record (l : StoredLifecycle) : CoilItem := .record ⟨c.tag, c.unit, c.kind, c.lat, c.ft, c.profile, l, c.latch⟩
        (c.lifecycle = .vacant → begins (.coil n) rest ⟨.coil n .erased, c.writeInFlight, false⟩)
        ∧ (c.lifecycle = .draft → begins (.coil n) rest ⟨.coil n (record .draft), c.writeInFlight, false⟩)
        ∧ (c.lifecycle = .suspended → begins (.coil n) rest ⟨.coil n (record .suspended), c.writeInFlight, false⟩)
        ∧ (c.lifecycle = .settling ∨ c.lifecycle = .armed →
            begins (.coil n) rest ⟨.coil n (record .armed), c.writeInFlight, false⟩))
    ∧ ∀ success : Bool,
      (s.writing = none → exec (.storeWriteCompletion success) s = .next s)
      ∧ ∀ w, s.writing = some w →
        ∃ t, exec (.storeWriteCompletion success) s = .next t ∧ t.writing = none
          ∧ t.storeQueue = (s.storeQueue ++ if w.requeue then [w.content.item] else [])
          ∧ t.storeRetry = (if success then s.storeRetry else some (s.storeRetry.getD (s.now + 60000)))
          ∧ (success = false → t.retained = s.retained)
          ∧ (∀ c, success = true → w.content = .settings c → t.retained = { s.retained with settings := .valid c })
          ∧ (∀ n c, success = true → w.content = .unit n c →
              t.retained = { s.retained with units := tablePut s.retained.units n (.valid c) })
          ∧ (∀ n c, success = true → w.content = .coil n c →
              t.retained = { s.retained with coils := tablePut s.retained.coils n (.valid c) })
          ∧ (t.settingsStale = if w.content.item = .settings then !success else s.settingsStale)
          ∧ (∀ n : UnitNo, t.unitStale[n] = if w.content.item = .unit n then !success else s.unitStale[n])
          ∧ (∀ n : Slot, t.coils[n] =
              if w.content.item = .coil n then
                { s.coils[n] with
                  storeStale := !success, writeInFlight := s.coils[n].writeInFlight && !w.carries }
              else s.coils[n])
          ∧ (w.carries = false → t.claims = s.claims ∧ t.answers = s.answers ∧ t.deferred = s.deferred)
          ∧ (∀ (n : Slot) (x : CoilItem) (m : ClaimNo) (c : Claim) (clamped : Bool),
              w.carries = true → w.content = .coil n x →
              s.claims[m] = some c → c.slot = n → c.state = .committed clamped →
              (∀ (m' : ClaimNo) (c' : Claim), s.claims[m'] = some c' → c'.slot = n → m' = m) →
              let answer : Answer :=
                { target := c.holder, code := 30, result := if success then .done else .storeFail
                  clamped := success && clamped, data := [], losses := 0 }
              t.claims = tablePut s.claims m none
              ∧ (s.answers.length < 8 → t.answers = s.answers ++ [answer] ∧ t.deferred = s.deferred)
              ∧ (8 ≤ s.answers.length → t.answers = s.answers ∧ t.deferred = s.deferred ++ [answer]))

/-- What a loss of power, the reset pin and the beginning of a load leave: no queue, record, entry, claim, offer, frame or mark (but
a PART_RESTART keeps a frame on the line, to be applied nowhere), and the retained memory, in which a write broken off has left its
item as it was or failing its check. Outputs stand at STOP, or as they stood through a PART_RESTART. A load reads the strap pins,
the settings item and the unit items, and settles each slot in turn: an item whose tag no lower slot holds and whose points find
room is placed, DRAFT and SUSPENDED as they are, ARMED as SETTLING with its latch where its unit is defined and its pairs find room,
and as SUSPENDED otherwise; every other item leaves the slot VACANT; every point entry and every demand entry is new; and the
lost-slot count rises by one for each slot that loads otherwise than as stored (R25, R28, R50, R99, R118, R127, R132, R174,
R187, R191, R192, R194; that such a command does nothing where it cannot occur, that a start-up in a running part breaks off a
write, that live state is blank without supply and in reset, that a frame found on the line stands as an orphan, that a unit item
without a station keeps its zone, and that a unit whose item is blank has zone 0 are the model's choices, log 2, 11, 12, 21, 23 and
34). -/
def Obligations.LossOfPowerAndLoads : Prop :=
  ∀ (s : State) (cut : BrokenWrite) (strap : Strap),
    let brokenOff (r : Retained) : Prop :=
      (s.writing = none ∨ cut = .asBefore → r = s.retained)
      ∧ ∀ w, s.writing = some w → cut = .failsCheck →
        (w.content.item = .settings → r = { s.retained with settings := .invalid })
        ∧ (∀ n, w.content.item = .unit n → r = { s.retained with units := tablePut s.retained.units n .invalid })
        ∧ (∀ n, w.content.item = .coil n → r = { s.retained with coils := tablePut s.retained.coils n .invalid })
    let swept (t : State) : Prop :=
      t.now = s.now ∧ t.pending = s.pending ∧ t.rx = [] ∧ t.answers = [] ∧ t.deferred = [] ∧ t.notice = none
        ∧ (∀ i : Slot, t.noticeFlags[i] = false) ∧ t.dispatch = none ∧ t.poll = none ∧ t.backlog = 0 ∧ t.pollTimer = none
        ∧ t.average = none ∧ t.regime = .cold ∧ (∀ n : ClaimNo, t.claims[n] = none) ∧ t.storeQueue = [] ∧ t.writing = none
        ∧ t.storeRetry = none ∧ t.settingsStale = false ∧ (∀ n : UnitNo, t.unitStale[n] = false)
        ∧ t.restartPending = false
    let emptied (t : State) : Prop :=
      swept t ∧ t.line = none ∧ (∀ i : Slot, t.coils[i] = Coil.vacant 0) ∧ (∀ i : Fin 96, t.points[i] = none)
        ∧ t.demands = []
        ∧ ∀ u : UnitNo, t.units[u] =
          { controller := none, zone := 0, fan := .unknown, statusTimer := none, level := s.units[u].level
            contact := .opened, filter := .steady, fso := .stop, faults := ⟨false, false, false, false, false⟩ }
    let loaded (t : State) : Prop :=
      t.strap = strap ∧ t.zone.val = strap.zone.toNat
        ∧ (1 ≤ strap.address.toNat ∧ strap.address.toNat ≤ 223 →
            t.address = strap.address.toNat ∧ t.strapValid = true)
        ∧ (¬ (1 ≤ strap.address.toNat ∧ strap.address.toNat ≤ 223) → t.address = 223 ∧ t.strapValid = false)
        ∧ (∀ c, t.retained.settings = .valid c →
            t.outdoor = c.outdoor ∧ t.regimeOn = c.regimeOn ∧ t.regimeOff = c.regimeOff ∧ t.supervisors = c.supervisors)
        ∧ ((∀ c, t.retained.settings ≠ .valid c) →
            t.outdoor = none ∧ t.regimeOn = 20 ∧ t.regimeOff = 50 ∧ t.supervisors = [])
        ∧ (∀ u : UnitNo, t.units[u].fan = .unknown ∧ t.units[u].statusTimer = none
            ∧ t.units[u].faults = ⟨false, false, false, false, false⟩
            ∧ (∀ c, t.retained.units[u] = .valid c → t.units[u].controller = c.controller ∧ t.units[u].zone = c.zone)
            ∧ ((∀ c, t.retained.units[u] ≠ .valid c) → t.units[u].controller = none ∧ t.units[u].zone = 0))
        ∧ (∀ k, t.outdoor = some k → ∃ e, t.points[(0 : Fin 96)] = some e ∧ e.key = k)
        ∧ (∀ (i : Fin 96) (e : PointEntry), t.points[i] = some e → e.Fresh) ∧ (∀ e ∈ t.demands, e.Fresh)
        ∧ ∀ i : Slot, t.coils[i] = (t.loadsAs i).1
    (∃ t, exec (.powerLoss cut) s = .next t ∧ t.power = .off ∧ emptied t ∧ brokenOff t.retained)
    ∧ (s.power = .off → exec (.resetPinHold cut) s = .next s)
    ∧ (s.power ≠ .off → ∃ t, exec (.resetPinHold cut) s = .next t ∧ t.power = .held ∧ emptied t ∧ brokenOff t.retained)
    ∧ (∃ t, exec (.startUpLoad strap cut) s = .next t ∧ t.power = .startLoad ∧ swept t ∧ t.line = none ∧ loaded t
        ∧ brokenOff t.retained ∧ t.lostSlots = t.slotsLost
        ∧ ∀ u : UnitNo, t.units[u].fso = .stop ∧ t.units[u].contact = .opened ∧ t.units[u].level = s.units[u].level
            ∧ t.units[u].filter = if s.units[u].level = .closedLevel then .pending (s.now + 200) else .steady)
    ∧ (¬ (s.power = .running ∧ s.restartPending = true ∧ s.writing = none) →
        exec (.partRestartLoadBegin strap) s = .next s)
    ∧ (s.power = .running → s.restartPending = true → s.writing = none →
        ∃ t, exec (.partRestartLoadBegin strap) s = .next t ∧ t.power = .restartLoad ∧ swept t ∧ loaded t
          ∧ t.line = (s.line.map fun l => { l with orphan := true }) ∧ t.retained = s.retained
          ∧ (s.lostSlots ≤ 255 → t.lostSlots = min 255 (s.lostSlots + t.slotsLost))
          ∧ ∀ u : UnitNo, t.units[u].fso = s.units[u].fso ∧ t.units[u].contact = s.units[u].contact
              ∧ t.units[u].level = s.units[u].level ∧ t.units[u].filter = s.units[u].filter)

/-- The completion of a load: service begins with the poll period at 10 s and no frame on the line; the two load bits of PART_STATUS
are set; each SETTLING record starts its settle timer at 300 s; the items that loaded otherwise than as stored are queued, in the
order settings, units, coils; and every fan-stop output stands as R130 says (R130, R174, R186, R192, R193; that nothing happens
where no load is in progress is the model's choice, log 2). -/
def Obligations.LoadCompletionBeginsService : Prop :=
  ∀ s : State,
    (s.power ≠ .startLoad → s.power ≠ .restartLoad → exec .loadCompletion s = .next s)
    ∧ (s.power = .startLoad ∨ s.power = .restartLoad →
        ∃ t, exec .loadCompletion s = .next t ∧ t.power = .running ∧ t.line = none
          ∧ t.pollTimer = some (s.now + 10000) ∧ t.pollPeriod = 10000
          ∧ (t.lastLoadRestart = true ↔ s.power = .restartLoad)
          ∧ (t.settingsDefaulted = true ↔ ∀ c, s.retained.settings ≠ .valid c)
          ∧ (∀ i : Slot, t.coils[i] =
              if s.coils[i].lifecycle = .settling then { s.coils[i] with settleTimer := some (s.now + 300000) }
              else s.coils[i])
          ∧ (∀ u : UnitNo, ∃ fso, t.units[u] = { s.units[u] with fso := fso } ∧ (fso = .stop ↔ s.MustStop u))
          ∧ (s.storeQueue = [] → s.writing = none →
              t.storeQueue.Sublist (.settings :: ((List.finRange 16).map Item.unit ++ (List.finRange 48).map Item.coil))
              ∧ (.settings ∈ t.storeQueue ↔ s.retained.settings = .invalid)
              ∧ (∀ u : UnitNo, .unit u ∈ t.storeQueue ↔ s.retained.units[u] = .invalid)
              ∧ ∀ i : Slot, .coil i ∈ t.storeQueue ↔
                  s.retained.coils[i] = .invalid
                  ∨ ∃ d, s.retained.coils[i] = .valid (.record d)
                    ∧ (s.coils[i].lifecycle = .vacant
                      ∨ d.lifecycle = .armed ∧ s.coils[i].lifecycle = .suspended)))

/-! ### Invariants -/

/-- Every step keeps the hardwired protection: each record has its shape, and each fan-stop output stands as the conditions of R130
say, and at STOP in reset and in a start-up load (R6, R15, R58, R62, R69, R74, R79, R130, R132, R191; that it stands at STOP without
supply too is the model's choice, log 12). -/
def Obligations.StepKeepsFansSafe : Prop :=
  ∀ s t : State, s.FanSafe → step s = .next t → t.FanSafe

/-- Every step keeps the demand table sound and true: at most 64 entries, distinct and well formed, at most one in flight and held by
the dispatcher; each map reference count and demand count that of the records; every pair of a SETTLING or ARMED record in the
table; an entry neither in flight nor faulted in the action queue exactly where its required state differs from its commanded state
or it is refresh-due; and no entry that meets the conditions of removal. An entry that a step creates is UNKNOWN and in the queue,
with nothing else to it (R8, R96 to R99, R101, R102, R105, R111). -/
def Obligations.StepKeepsDemandsSafe : Prop :=
  ∀ s t : State, s.DemandSafe → step s = .next t →
    t.DemandSafe ∧ ∀ e ∈ t.demands, (∀ d ∈ s.demands, d.key ≠ e.key) → e.Fresh

/-- Every point entry's reference count equals the number of bindings of non-vacant records that name its key, plus one if the
outdoor binding names it, and every step keeps this (R29), with the keys of the entries distinct and every named key held. -/
def Obligations.StepKeepsPointsCounted : Prop :=
  ∀ s t : State, s.PointsCounted → step s = .next t → t.PointsCounted

/-- Every step keeps each of these promises: the queues and counts in their bounds; regime_on below regime_off; no two non-vacant
records with one tag; one claim at most on a record and of a station; every streak and miss count at 3 at most, and a miss count at
3 only in LOST or FAULT; every binding and every field of a profile in its range, with L < U < T ≤ 60000; every item in the store
write queue at most once; and a notice offered while any notice flag is set, for a slot whose flag is set (R3, R4, R42, R43, R51,
R140, R148, R163, R167, R171, R188, R191). The ranges and the thresholds are kept in the retained items and in a write under way
too, from which a load takes them. -/
def Obligations.StepKeepsBounds : Prop :=
  ∀ s t : State, step s = .next t →
    (s.Bounded → t.Bounded)
    ∧ (s.ThresholdsOrdered → t.ThresholdsOrdered)
    ∧ (s.TagsDistinct → t.TagsDistinct)
    ∧ (s.ClaimsDistinct → t.ClaimsDistinct)
    ∧ (s.PointsInAccount → t.PointsInAccount)
    ∧ (s.DefinitionsInRange → t.DefinitionsInRange)
    ∧ (s.StoreQueuedOnce → t.StoreQueuedOnce)
    ∧ (s.NoticeOffered → t.NoticeOffered)

/-- The state after reset has all these invariants, and it is what a start-up load of a retained memory that has never been written
leads to, with address strap 0 and zone strap 0 (R191, R193; which moment reset is, the pins at reset, the reset values that no rule
gives, and the zone of a unit whose item is blank are the model's choices, log 5, 6, 7 and 34; the join order is the model's own
count of events). -/
def Obligations.ResetIsSafeAndFollowsALoad : Prop :=
  State.reset.FanSafe ∧ State.reset.DemandSafe ∧ State.reset.PointsCounted ∧ State.reset.Bounded
    ∧ State.reset.ThresholdsOrdered ∧ State.reset.TagsDistinct ∧ State.reset.ClaimsDistinct ∧ State.reset.PointsInAccount
    ∧ State.reset.DefinitionsInRange ∧ State.reset.StoreQueuedOnce ∧ State.reset.NoticeOffered
    ∧ ∃ t u, exec (.startUpLoad ⟨0, 0⟩ .asBefore) State.reset = .next t ∧ exec .loadCompletion t = .next u
      ∧ { u with joinStamp := 0 } = State.reset
end

