-- ==== Sys2Proof/Laws/State.lean ====
section
/-! SUPPORT. What each record update of the state leaves in each field: one lemma for every field under every update. -/

namespace Sys2Proof.Machine

variable (s : State)

/-! ### setCoil -/

@[simp] theorem setCoil_now (i : Slot) (c : Coil) : (s.setCoil i c).now = s.now := rfl
@[simp] theorem setCoil_power (i : Slot) (c : Coil) : (s.setCoil i c).power = s.power := rfl
@[simp] theorem setCoil_strap (i : Slot) (c : Coil) : (s.setCoil i c).strap = s.strap := rfl
@[simp] theorem setCoil_address (i : Slot) (c : Coil) : (s.setCoil i c).address = s.address := rfl
@[simp] theorem setCoil_zone (i : Slot) (c : Coil) : (s.setCoil i c).zone = s.zone := rfl
@[simp] theorem setCoil_strapValid (i : Slot) (c : Coil) : (s.setCoil i c).strapValid = s.strapValid := rfl
@[simp] theorem setCoil_rx (i : Slot) (c : Coil) : (s.setCoil i c).rx = s.rx := rfl
@[simp] theorem setCoil_answers (i : Slot) (c : Coil) : (s.setCoil i c).answers = s.answers := rfl
@[simp] theorem setCoil_deferred (i : Slot) (c : Coil) : (s.setCoil i c).deferred = s.deferred := rfl
@[simp] theorem setCoil_noticeFlags (i : Slot) (c : Coil) : (s.setCoil i c).noticeFlags = s.noticeFlags := rfl
@[simp] theorem setCoil_notice (i : Slot) (c : Coil) : (s.setCoil i c).notice = s.notice := rfl
@[simp] theorem setCoil_line (i : Slot) (c : Coil) : (s.setCoil i c).line = s.line := rfl
@[simp] theorem setCoil_ack (i : Slot) (c : Coil) : (s.setCoil i c).ack = s.ack := rfl
@[simp] theorem setCoil_points (i : Slot) (c : Coil) : (s.setCoil i c).points = s.points := rfl
@[simp] theorem setCoil_backlog (i : Slot) (c : Coil) : (s.setCoil i c).backlog = s.backlog := rfl
@[simp] theorem setCoil_pollTimer (i : Slot) (c : Coil) : (s.setCoil i c).pollTimer = s.pollTimer := rfl
@[simp] theorem setCoil_pollPeriod (i : Slot) (c : Coil) : (s.setCoil i c).pollPeriod = s.pollPeriod := rfl
@[simp] theorem setCoil_poll (i : Slot) (c : Coil) : (s.setCoil i c).poll = s.poll := rfl
@[simp] theorem setCoil_outdoor (i : Slot) (c : Coil) : (s.setCoil i c).outdoor = s.outdoor := rfl
@[simp] theorem setCoil_regimeOn (i : Slot) (c : Coil) : (s.setCoil i c).regimeOn = s.regimeOn := rfl
@[simp] theorem setCoil_regimeOff (i : Slot) (c : Coil) : (s.setCoil i c).regimeOff = s.regimeOff := rfl
@[simp] theorem setCoil_average (i : Slot) (c : Coil) : (s.setCoil i c).average = s.average := rfl
@[simp] theorem setCoil_regime (i : Slot) (c : Coil) : (s.setCoil i c).regime = s.regime := rfl
@[simp] theorem setCoil_coils (i : Slot) (c : Coil) : (s.setCoil i c).coils = tablePut s.coils i c := rfl
@[simp] theorem setCoil_demands (i : Slot) (c : Coil) : (s.setCoil i c).demands = s.demands := rfl
@[simp] theorem setCoil_joinStamp (i : Slot) (c : Coil) : (s.setCoil i c).joinStamp = s.joinStamp := rfl
@[simp] theorem setCoil_dispatch (i : Slot) (c : Coil) : (s.setCoil i c).dispatch = s.dispatch := rfl
@[simp] theorem setCoil_units (i : Slot) (c : Coil) : (s.setCoil i c).units = s.units := rfl
@[simp] theorem setCoil_claims (i : Slot) (c : Coil) : (s.setCoil i c).claims = s.claims := rfl
@[simp] theorem setCoil_supervisors (i : Slot) (c : Coil) : (s.setCoil i c).supervisors = s.supervisors := rfl
@[simp] theorem setCoil_retained (i : Slot) (c : Coil) : (s.setCoil i c).retained = s.retained := rfl
@[simp] theorem setCoil_storeQueue (i : Slot) (c : Coil) : (s.setCoil i c).storeQueue = s.storeQueue := rfl
@[simp] theorem setCoil_writing (i : Slot) (c : Coil) : (s.setCoil i c).writing = s.writing := rfl
@[simp] theorem setCoil_storeRetry (i : Slot) (c : Coil) : (s.setCoil i c).storeRetry = s.storeRetry := rfl
@[simp] theorem setCoil_settingsStale (i : Slot) (c : Coil) : (s.setCoil i c).settingsStale = s.settingsStale := rfl
@[simp] theorem setCoil_unitStale (i : Slot) (c : Coil) : (s.setCoil i c).unitStale = s.unitStale := rfl
@[simp] theorem setCoil_restartPending (i : Slot) (c : Coil) : (s.setCoil i c).restartPending = s.restartPending := rfl
@[simp] theorem setCoil_lostSlots (i : Slot) (c : Coil) : (s.setCoil i c).lostSlots = s.lostSlots := rfl
@[simp] theorem setCoil_lastLoadRestart (i : Slot) (c : Coil) : (s.setCoil i c).lastLoadRestart = s.lastLoadRestart := rfl
@[simp] theorem setCoil_settingsDefaulted (i : Slot) (c : Coil) : (s.setCoil i c).settingsDefaulted = s.settingsDefaulted := rfl
@[simp] theorem setCoil_freeCount (i : Slot) (c : Coil) : (s.setCoil i c).freeCount = s.freeCount := rfl
@[simp] theorem setCoil_pending (i : Slot) (c : Coil) : (s.setCoil i c).pending = s.pending := rfl

/-! ### setUnit -/

@[simp] theorem setUnit_now (u : UnitNo) (e : UnitEntry) : (s.setUnit u e).now = s.now := rfl
@[simp] theorem setUnit_power (u : UnitNo) (e : UnitEntry) : (s.setUnit u e).power = s.power := rfl
@[simp] theorem setUnit_strap (u : UnitNo) (e : UnitEntry) : (s.setUnit u e).strap = s.strap := rfl
@[simp] theorem setUnit_address (u : UnitNo) (e : UnitEntry) : (s.setUnit u e).address = s.address := rfl
@[simp] theorem setUnit_zone (u : UnitNo) (e : UnitEntry) : (s.setUnit u e).zone = s.zone := rfl
@[simp] theorem setUnit_strapValid (u : UnitNo) (e : UnitEntry) : (s.setUnit u e).strapValid = s.strapValid := rfl
@[simp] theorem setUnit_rx (u : UnitNo) (e : UnitEntry) : (s.setUnit u e).rx = s.rx := rfl
@[simp] theorem setUnit_answers (u : UnitNo) (e : UnitEntry) : (s.setUnit u e).answers = s.answers := rfl
@[simp] theorem setUnit_deferred (u : UnitNo) (e : UnitEntry) : (s.setUnit u e).deferred = s.deferred := rfl
@[simp] theorem setUnit_noticeFlags (u : UnitNo) (e : UnitEntry) : (s.setUnit u e).noticeFlags = s.noticeFlags := rfl
@[simp] theorem setUnit_notice (u : UnitNo) (e : UnitEntry) : (s.setUnit u e).notice = s.notice := rfl
@[simp] theorem setUnit_line (u : UnitNo) (e : UnitEntry) : (s.setUnit u e).line = s.line := rfl
@[simp] theorem setUnit_ack (u : UnitNo) (e : UnitEntry) : (s.setUnit u e).ack = s.ack := rfl
@[simp] theorem setUnit_points (u : UnitNo) (e : UnitEntry) : (s.setUnit u e).points = s.points := rfl
@[simp] theorem setUnit_backlog (u : UnitNo) (e : UnitEntry) : (s.setUnit u e).backlog = s.backlog := rfl
@[simp] theorem setUnit_pollTimer (u : UnitNo) (e : UnitEntry) : (s.setUnit u e).pollTimer = s.pollTimer := rfl
@[simp] theorem setUnit_pollPeriod (u : UnitNo) (e : UnitEntry) : (s.setUnit u e).pollPeriod = s.pollPeriod := rfl
@[simp] theorem setUnit_poll (u : UnitNo) (e : UnitEntry) : (s.setUnit u e).poll = s.poll := rfl
@[simp] theorem setUnit_outdoor (u : UnitNo) (e : UnitEntry) : (s.setUnit u e).outdoor = s.outdoor := rfl
@[simp] theorem setUnit_regimeOn (u : UnitNo) (e : UnitEntry) : (s.setUnit u e).regimeOn = s.regimeOn := rfl
@[simp] theorem setUnit_regimeOff (u : UnitNo) (e : UnitEntry) : (s.setUnit u e).regimeOff = s.regimeOff := rfl
@[simp] theorem setUnit_average (u : UnitNo) (e : UnitEntry) : (s.setUnit u e).average = s.average := rfl
@[simp] theorem setUnit_regime (u : UnitNo) (e : UnitEntry) : (s.setUnit u e).regime = s.regime := rfl
@[simp] theorem setUnit_coils (u : UnitNo) (e : UnitEntry) : (s.setUnit u e).coils = s.coils := rfl
@[simp] theorem setUnit_demands (u : UnitNo) (e : UnitEntry) : (s.setUnit u e).demands = s.demands := rfl
@[simp] theorem setUnit_joinStamp (u : UnitNo) (e : UnitEntry) : (s.setUnit u e).joinStamp = s.joinStamp := rfl
@[simp] theorem setUnit_dispatch (u : UnitNo) (e : UnitEntry) : (s.setUnit u e).dispatch = s.dispatch := rfl
@[simp] theorem setUnit_units (u : UnitNo) (e : UnitEntry) : (s.setUnit u e).units = tablePut s.units u e := rfl
@[simp] theorem setUnit_claims (u : UnitNo) (e : UnitEntry) : (s.setUnit u e).claims = s.claims := rfl
@[simp] theorem setUnit_supervisors (u : UnitNo) (e : UnitEntry) : (s.setUnit u e).supervisors = s.supervisors := rfl
@[simp] theorem setUnit_retained (u : UnitNo) (e : UnitEntry) : (s.setUnit u e).retained = s.retained := rfl
@[simp] theorem setUnit_storeQueue (u : UnitNo) (e : UnitEntry) : (s.setUnit u e).storeQueue = s.storeQueue := rfl
@[simp] theorem setUnit_writing (u : UnitNo) (e : UnitEntry) : (s.setUnit u e).writing = s.writing := rfl
@[simp] theorem setUnit_storeRetry (u : UnitNo) (e : UnitEntry) : (s.setUnit u e).storeRetry = s.storeRetry := rfl
@[simp] theorem setUnit_settingsStale (u : UnitNo) (e : UnitEntry) : (s.setUnit u e).settingsStale = s.settingsStale := rfl
@[simp] theorem setUnit_unitStale (u : UnitNo) (e : UnitEntry) : (s.setUnit u e).unitStale = s.unitStale := rfl
@[simp] theorem setUnit_restartPending (u : UnitNo) (e : UnitEntry) : (s.setUnit u e).restartPending = s.restartPending := rfl
@[simp] theorem setUnit_lostSlots (u : UnitNo) (e : UnitEntry) : (s.setUnit u e).lostSlots = s.lostSlots := rfl
@[simp] theorem setUnit_lastLoadRestart (u : UnitNo) (e : UnitEntry) : (s.setUnit u e).lastLoadRestart = s.lastLoadRestart := rfl
@[simp] theorem setUnit_settingsDefaulted (u : UnitNo) (e : UnitEntry) : (s.setUnit u e).settingsDefaulted = s.settingsDefaulted := rfl
@[simp] theorem setUnit_freeCount (u : UnitNo) (e : UnitEntry) : (s.setUnit u e).freeCount = s.freeCount := rfl
@[simp] theorem setUnit_pending (u : UnitNo) (e : UnitEntry) : (s.setUnit u e).pending = s.pending := rfl

/-! ### setClaim -/

@[simp] theorem setClaim_now (n : ClaimNo) (c : Option Claim) : (s.setClaim n c).now = s.now := rfl
@[simp] theorem setClaim_power (n : ClaimNo) (c : Option Claim) : (s.setClaim n c).power = s.power := rfl
@[simp] theorem setClaim_strap (n : ClaimNo) (c : Option Claim) : (s.setClaim n c).strap = s.strap := rfl
@[simp] theorem setClaim_address (n : ClaimNo) (c : Option Claim) : (s.setClaim n c).address = s.address := rfl
@[simp] theorem setClaim_zone (n : ClaimNo) (c : Option Claim) : (s.setClaim n c).zone = s.zone := rfl
@[simp] theorem setClaim_strapValid (n : ClaimNo) (c : Option Claim) : (s.setClaim n c).strapValid = s.strapValid := rfl
@[simp] theorem setClaim_rx (n : ClaimNo) (c : Option Claim) : (s.setClaim n c).rx = s.rx := rfl
@[simp] theorem setClaim_answers (n : ClaimNo) (c : Option Claim) : (s.setClaim n c).answers = s.answers := rfl
@[simp] theorem setClaim_deferred (n : ClaimNo) (c : Option Claim) : (s.setClaim n c).deferred = s.deferred := rfl
@[simp] theorem setClaim_noticeFlags (n : ClaimNo) (c : Option Claim) : (s.setClaim n c).noticeFlags = s.noticeFlags := rfl
@[simp] theorem setClaim_notice (n : ClaimNo) (c : Option Claim) : (s.setClaim n c).notice = s.notice := rfl
@[simp] theorem setClaim_line (n : ClaimNo) (c : Option Claim) : (s.setClaim n c).line = s.line := rfl
@[simp] theorem setClaim_ack (n : ClaimNo) (c : Option Claim) : (s.setClaim n c).ack = s.ack := rfl
@[simp] theorem setClaim_points (n : ClaimNo) (c : Option Claim) : (s.setClaim n c).points = s.points := rfl
@[simp] theorem setClaim_backlog (n : ClaimNo) (c : Option Claim) : (s.setClaim n c).backlog = s.backlog := rfl
@[simp] theorem setClaim_pollTimer (n : ClaimNo) (c : Option Claim) : (s.setClaim n c).pollTimer = s.pollTimer := rfl
@[simp] theorem setClaim_pollPeriod (n : ClaimNo) (c : Option Claim) : (s.setClaim n c).pollPeriod = s.pollPeriod := rfl
@[simp] theorem setClaim_poll (n : ClaimNo) (c : Option Claim) : (s.setClaim n c).poll = s.poll := rfl
@[simp] theorem setClaim_outdoor (n : ClaimNo) (c : Option Claim) : (s.setClaim n c).outdoor = s.outdoor := rfl
@[simp] theorem setClaim_regimeOn (n : ClaimNo) (c : Option Claim) : (s.setClaim n c).regimeOn = s.regimeOn := rfl
@[simp] theorem setClaim_regimeOff (n : ClaimNo) (c : Option Claim) : (s.setClaim n c).regimeOff = s.regimeOff := rfl
@[simp] theorem setClaim_average (n : ClaimNo) (c : Option Claim) : (s.setClaim n c).average = s.average := rfl
@[simp] theorem setClaim_regime (n : ClaimNo) (c : Option Claim) : (s.setClaim n c).regime = s.regime := rfl
@[simp] theorem setClaim_coils (n : ClaimNo) (c : Option Claim) : (s.setClaim n c).coils = s.coils := rfl
@[simp] theorem setClaim_demands (n : ClaimNo) (c : Option Claim) : (s.setClaim n c).demands = s.demands := rfl
@[simp] theorem setClaim_joinStamp (n : ClaimNo) (c : Option Claim) : (s.setClaim n c).joinStamp = s.joinStamp := rfl
@[simp] theorem setClaim_dispatch (n : ClaimNo) (c : Option Claim) : (s.setClaim n c).dispatch = s.dispatch := rfl
@[simp] theorem setClaim_units (n : ClaimNo) (c : Option Claim) : (s.setClaim n c).units = s.units := rfl
@[simp] theorem setClaim_claims (n : ClaimNo) (c : Option Claim) : (s.setClaim n c).claims = tablePut s.claims n c := rfl
@[simp] theorem setClaim_supervisors (n : ClaimNo) (c : Option Claim) : (s.setClaim n c).supervisors = s.supervisors := rfl
@[simp] theorem setClaim_retained (n : ClaimNo) (c : Option Claim) : (s.setClaim n c).retained = s.retained := rfl
@[simp] theorem setClaim_storeQueue (n : ClaimNo) (c : Option Claim) : (s.setClaim n c).storeQueue = s.storeQueue := rfl
@[simp] theorem setClaim_writing (n : ClaimNo) (c : Option Claim) : (s.setClaim n c).writing = s.writing := rfl
@[simp] theorem setClaim_storeRetry (n : ClaimNo) (c : Option Claim) : (s.setClaim n c).storeRetry = s.storeRetry := rfl
@[simp] theorem setClaim_settingsStale (n : ClaimNo) (c : Option Claim) : (s.setClaim n c).settingsStale = s.settingsStale := rfl
@[simp] theorem setClaim_unitStale (n : ClaimNo) (c : Option Claim) : (s.setClaim n c).unitStale = s.unitStale := rfl
@[simp] theorem setClaim_restartPending (n : ClaimNo) (c : Option Claim) : (s.setClaim n c).restartPending = s.restartPending := rfl
@[simp] theorem setClaim_lostSlots (n : ClaimNo) (c : Option Claim) : (s.setClaim n c).lostSlots = s.lostSlots := rfl
@[simp] theorem setClaim_lastLoadRestart (n : ClaimNo) (c : Option Claim) : (s.setClaim n c).lastLoadRestart = s.lastLoadRestart := rfl
@[simp] theorem setClaim_settingsDefaulted (n : ClaimNo) (c : Option Claim) : (s.setClaim n c).settingsDefaulted = s.settingsDefaulted := rfl
@[simp] theorem setClaim_freeCount (n : ClaimNo) (c : Option Claim) : (s.setClaim n c).freeCount = s.freeCount := rfl
@[simp] theorem setClaim_pending (n : ClaimNo) (c : Option Claim) : (s.setClaim n c).pending = s.pending := rfl

/-! ### atExpiry -/

@[simp] theorem atExpiry_now (t : Nat) : (s.atExpiry t).now = max s.now t := rfl
@[simp] theorem atExpiry_power (t : Nat) : (s.atExpiry t).power = s.power := rfl
@[simp] theorem atExpiry_strap (t : Nat) : (s.atExpiry t).strap = s.strap := rfl
@[simp] theorem atExpiry_address (t : Nat) : (s.atExpiry t).address = s.address := rfl
@[simp] theorem atExpiry_zone (t : Nat) : (s.atExpiry t).zone = s.zone := rfl
@[simp] theorem atExpiry_strapValid (t : Nat) : (s.atExpiry t).strapValid = s.strapValid := rfl
@[simp] theorem atExpiry_rx (t : Nat) : (s.atExpiry t).rx = s.rx := rfl
@[simp] theorem atExpiry_answers (t : Nat) : (s.atExpiry t).answers = s.answers := rfl
@[simp] theorem atExpiry_deferred (t : Nat) : (s.atExpiry t).deferred = s.deferred := rfl
@[simp] theorem atExpiry_noticeFlags (t : Nat) : (s.atExpiry t).noticeFlags = s.noticeFlags := rfl
@[simp] theorem atExpiry_notice (t : Nat) : (s.atExpiry t).notice = s.notice := rfl
@[simp] theorem atExpiry_line (t : Nat) : (s.atExpiry t).line = s.line := rfl
@[simp] theorem atExpiry_ack (t : Nat) : (s.atExpiry t).ack = s.ack := rfl
@[simp] theorem atExpiry_points (t : Nat) : (s.atExpiry t).points = s.points := rfl
@[simp] theorem atExpiry_backlog (t : Nat) : (s.atExpiry t).backlog = s.backlog := rfl
@[simp] theorem atExpiry_pollTimer (t : Nat) : (s.atExpiry t).pollTimer = s.pollTimer := rfl
@[simp] theorem atExpiry_pollPeriod (t : Nat) : (s.atExpiry t).pollPeriod = s.pollPeriod := rfl
@[simp] theorem atExpiry_poll (t : Nat) : (s.atExpiry t).poll = s.poll := rfl
@[simp] theorem atExpiry_outdoor (t : Nat) : (s.atExpiry t).outdoor = s.outdoor := rfl
@[simp] theorem atExpiry_regimeOn (t : Nat) : (s.atExpiry t).regimeOn = s.regimeOn := rfl
@[simp] theorem atExpiry_regimeOff (t : Nat) : (s.atExpiry t).regimeOff = s.regimeOff := rfl
@[simp] theorem atExpiry_average (t : Nat) : (s.atExpiry t).average = s.average := rfl
@[simp] theorem atExpiry_regime (t : Nat) : (s.atExpiry t).regime = s.regime := rfl
@[simp] theorem atExpiry_coils (t : Nat) : (s.atExpiry t).coils = s.coils := rfl
@[simp] theorem atExpiry_demands (t : Nat) : (s.atExpiry t).demands = s.demands := rfl
@[simp] theorem atExpiry_joinStamp (t : Nat) : (s.atExpiry t).joinStamp = s.joinStamp := rfl
@[simp] theorem atExpiry_dispatch (t : Nat) : (s.atExpiry t).dispatch = s.dispatch := rfl
@[simp] theorem atExpiry_units (t : Nat) : (s.atExpiry t).units = s.units := rfl
@[simp] theorem atExpiry_claims (t : Nat) : (s.atExpiry t).claims = s.claims := rfl
@[simp] theorem atExpiry_supervisors (t : Nat) : (s.atExpiry t).supervisors = s.supervisors := rfl
@[simp] theorem atExpiry_retained (t : Nat) : (s.atExpiry t).retained = s.retained := rfl
@[simp] theorem atExpiry_storeQueue (t : Nat) : (s.atExpiry t).storeQueue = s.storeQueue := rfl
@[simp] theorem atExpiry_writing (t : Nat) : (s.atExpiry t).writing = s.writing := rfl
@[simp] theorem atExpiry_storeRetry (t : Nat) : (s.atExpiry t).storeRetry = s.storeRetry := rfl
@[simp] theorem atExpiry_settingsStale (t : Nat) : (s.atExpiry t).settingsStale = s.settingsStale := rfl
@[simp] theorem atExpiry_unitStale (t : Nat) : (s.atExpiry t).unitStale = s.unitStale := rfl
@[simp] theorem atExpiry_restartPending (t : Nat) : (s.atExpiry t).restartPending = s.restartPending := rfl
@[simp] theorem atExpiry_lostSlots (t : Nat) : (s.atExpiry t).lostSlots = s.lostSlots := rfl
@[simp] theorem atExpiry_lastLoadRestart (t : Nat) : (s.atExpiry t).lastLoadRestart = s.lastLoadRestart := rfl
@[simp] theorem atExpiry_settingsDefaulted (t : Nat) : (s.atExpiry t).settingsDefaulted = s.settingsDefaulted := rfl
@[simp] theorem atExpiry_freeCount (t : Nat) : (s.atExpiry t).freeCount = s.freeCount := rfl
@[simp] theorem atExpiry_pending (t : Nat) : (s.atExpiry t).pending = s.pending := rfl

/-! ### pushAnswer -/

@[simp] theorem pushAnswer_now (a : Answer) : (s.pushAnswer a).now = s.now := rfl
@[simp] theorem pushAnswer_power (a : Answer) : (s.pushAnswer a).power = s.power := rfl
@[simp] theorem pushAnswer_strap (a : Answer) : (s.pushAnswer a).strap = s.strap := rfl
@[simp] theorem pushAnswer_address (a : Answer) : (s.pushAnswer a).address = s.address := rfl
@[simp] theorem pushAnswer_zone (a : Answer) : (s.pushAnswer a).zone = s.zone := rfl
@[simp] theorem pushAnswer_strapValid (a : Answer) : (s.pushAnswer a).strapValid = s.strapValid := rfl
@[simp] theorem pushAnswer_rx (a : Answer) : (s.pushAnswer a).rx = s.rx := rfl
@[simp] theorem pushAnswer_answers (a : Answer) : (s.pushAnswer a).answers = s.answers ++ [a] := rfl
@[simp] theorem pushAnswer_deferred (a : Answer) : (s.pushAnswer a).deferred = s.deferred := rfl
@[simp] theorem pushAnswer_noticeFlags (a : Answer) : (s.pushAnswer a).noticeFlags = s.noticeFlags := rfl
@[simp] theorem pushAnswer_notice (a : Answer) : (s.pushAnswer a).notice = s.notice := rfl
@[simp] theorem pushAnswer_line (a : Answer) : (s.pushAnswer a).line = s.line := rfl
@[simp] theorem pushAnswer_ack (a : Answer) : (s.pushAnswer a).ack = s.ack := rfl
@[simp] theorem pushAnswer_points (a : Answer) : (s.pushAnswer a).points = s.points := rfl
@[simp] theorem pushAnswer_backlog (a : Answer) : (s.pushAnswer a).backlog = s.backlog := rfl
@[simp] theorem pushAnswer_pollTimer (a : Answer) : (s.pushAnswer a).pollTimer = s.pollTimer := rfl
@[simp] theorem pushAnswer_pollPeriod (a : Answer) : (s.pushAnswer a).pollPeriod = s.pollPeriod := rfl
@[simp] theorem pushAnswer_poll (a : Answer) : (s.pushAnswer a).poll = s.poll := rfl
@[simp] theorem pushAnswer_outdoor (a : Answer) : (s.pushAnswer a).outdoor = s.outdoor := rfl
@[simp] theorem pushAnswer_regimeOn (a : Answer) : (s.pushAnswer a).regimeOn = s.regimeOn := rfl
@[simp] theorem pushAnswer_regimeOff (a : Answer) : (s.pushAnswer a).regimeOff = s.regimeOff := rfl
@[simp] theorem pushAnswer_average (a : Answer) : (s.pushAnswer a).average = s.average := rfl
@[simp] theorem pushAnswer_regime (a : Answer) : (s.pushAnswer a).regime = s.regime := rfl
@[simp] theorem pushAnswer_coils (a : Answer) : (s.pushAnswer a).coils = s.coils := rfl
@[simp] theorem pushAnswer_demands (a : Answer) : (s.pushAnswer a).demands = s.demands := rfl
@[simp] theorem pushAnswer_joinStamp (a : Answer) : (s.pushAnswer a).joinStamp = s.joinStamp := rfl
@[simp] theorem pushAnswer_dispatch (a : Answer) : (s.pushAnswer a).dispatch = s.dispatch := rfl
@[simp] theorem pushAnswer_units (a : Answer) : (s.pushAnswer a).units = s.units := rfl
@[simp] theorem pushAnswer_claims (a : Answer) : (s.pushAnswer a).claims = s.claims := rfl
@[simp] theorem pushAnswer_supervisors (a : Answer) : (s.pushAnswer a).supervisors = s.supervisors := rfl
@[simp] theorem pushAnswer_retained (a : Answer) : (s.pushAnswer a).retained = s.retained := rfl
@[simp] theorem pushAnswer_storeQueue (a : Answer) : (s.pushAnswer a).storeQueue = s.storeQueue := rfl
@[simp] theorem pushAnswer_writing (a : Answer) : (s.pushAnswer a).writing = s.writing := rfl
@[simp] theorem pushAnswer_storeRetry (a : Answer) : (s.pushAnswer a).storeRetry = s.storeRetry := rfl
@[simp] theorem pushAnswer_settingsStale (a : Answer) : (s.pushAnswer a).settingsStale = s.settingsStale := rfl
@[simp] theorem pushAnswer_unitStale (a : Answer) : (s.pushAnswer a).unitStale = s.unitStale := rfl
@[simp] theorem pushAnswer_restartPending (a : Answer) : (s.pushAnswer a).restartPending = s.restartPending := rfl
@[simp] theorem pushAnswer_lostSlots (a : Answer) : (s.pushAnswer a).lostSlots = s.lostSlots := rfl
@[simp] theorem pushAnswer_lastLoadRestart (a : Answer) : (s.pushAnswer a).lastLoadRestart = s.lastLoadRestart := rfl
@[simp] theorem pushAnswer_settingsDefaulted (a : Answer) : (s.pushAnswer a).settingsDefaulted = s.settingsDefaulted := rfl
@[simp] theorem pushAnswer_freeCount (a : Answer) : (s.pushAnswer a).freeCount = s.freeCount := rfl
@[simp] theorem pushAnswer_pending (a : Answer) : (s.pushAnswer a).pending = s.pending := rfl

/-! ### offLine -/

@[simp] theorem offLine_now : (s.offLine).now = s.now := rfl
@[simp] theorem offLine_power : (s.offLine).power = s.power := rfl
@[simp] theorem offLine_strap : (s.offLine).strap = s.strap := rfl
@[simp] theorem offLine_address : (s.offLine).address = s.address := rfl
@[simp] theorem offLine_zone : (s.offLine).zone = s.zone := rfl
@[simp] theorem offLine_strapValid : (s.offLine).strapValid = s.strapValid := rfl
@[simp] theorem offLine_rx : (s.offLine).rx = s.rx := rfl
@[simp] theorem offLine_answers : (s.offLine).answers = s.answers := rfl
@[simp] theorem offLine_deferred : (s.offLine).deferred = s.deferred := rfl
@[simp] theorem offLine_noticeFlags : (s.offLine).noticeFlags = s.noticeFlags := rfl
@[simp] theorem offLine_notice : (s.offLine).notice = s.notice := rfl
@[simp] theorem offLine_line : (s.offLine).line = none := rfl
@[simp] theorem offLine_ack : (s.offLine).ack = s.ack := rfl
@[simp] theorem offLine_points : (s.offLine).points = s.points := rfl
@[simp] theorem offLine_backlog : (s.offLine).backlog = s.backlog := rfl
@[simp] theorem offLine_pollTimer : (s.offLine).pollTimer = s.pollTimer := rfl
@[simp] theorem offLine_pollPeriod : (s.offLine).pollPeriod = s.pollPeriod := rfl
@[simp] theorem offLine_poll : (s.offLine).poll = s.poll := rfl
@[simp] theorem offLine_outdoor : (s.offLine).outdoor = s.outdoor := rfl
@[simp] theorem offLine_regimeOn : (s.offLine).regimeOn = s.regimeOn := rfl
@[simp] theorem offLine_regimeOff : (s.offLine).regimeOff = s.regimeOff := rfl
@[simp] theorem offLine_average : (s.offLine).average = s.average := rfl
@[simp] theorem offLine_regime : (s.offLine).regime = s.regime := rfl
@[simp] theorem offLine_coils : (s.offLine).coils = s.coils := rfl
@[simp] theorem offLine_demands : (s.offLine).demands = s.demands := rfl
@[simp] theorem offLine_joinStamp : (s.offLine).joinStamp = s.joinStamp := rfl
@[simp] theorem offLine_dispatch : (s.offLine).dispatch = s.dispatch := rfl
@[simp] theorem offLine_units : (s.offLine).units = s.units := rfl
@[simp] theorem offLine_claims : (s.offLine).claims = s.claims := rfl
@[simp] theorem offLine_supervisors : (s.offLine).supervisors = s.supervisors := rfl
@[simp] theorem offLine_retained : (s.offLine).retained = s.retained := rfl
@[simp] theorem offLine_storeQueue : (s.offLine).storeQueue = s.storeQueue := rfl
@[simp] theorem offLine_writing : (s.offLine).writing = s.writing := rfl
@[simp] theorem offLine_storeRetry : (s.offLine).storeRetry = s.storeRetry := rfl
@[simp] theorem offLine_settingsStale : (s.offLine).settingsStale = s.settingsStale := rfl
@[simp] theorem offLine_unitStale : (s.offLine).unitStale = s.unitStale := rfl
@[simp] theorem offLine_restartPending : (s.offLine).restartPending = s.restartPending := rfl
@[simp] theorem offLine_lostSlots : (s.offLine).lostSlots = s.lostSlots := rfl
@[simp] theorem offLine_lastLoadRestart : (s.offLine).lastLoadRestart = s.lastLoadRestart := rfl
@[simp] theorem offLine_settingsDefaulted : (s.offLine).settingsDefaulted = s.settingsDefaulted := rfl
@[simp] theorem offLine_freeCount : (s.offLine).freeCount = s.freeCount := rfl
@[simp] theorem offLine_pending : (s.offLine).pending = s.pending := rfl

end Sys2Proof.Machine
end

