-- ==== Sys2Proof/Laws/Tables.lean ====
section
/-! SUPPORT. Reading a table after a write, and what the loops over slots and units keep. -/

namespace Sys2Proof.Machine

variable {α β : Type} {n : Nat}

theorem tablePut_get (t : Table α n) (i j : Fin n) (x : α) : (tablePut t i x)[j] = if j = i then x else t[j] := by
  simp only [tablePut, Fin.getElem_fin, Vector.getElem_set, Fin.ext_iff, eq_comm]

@[simp] theorem tablePut_get_same (t : Table α n) (i : Fin n) (x : α) : (tablePut t i x)[i] = x := by
  rw [tablePut_get, if_pos rfl]

theorem tablePut_get_other (t : Table α n) {i j : Fin n} (x : α) (h : j ≠ i) : (tablePut t i x)[j] = t[j] := by
  rw [tablePut_get, if_neg h]

theorem tableMap_get (f : α → β) (t : Table α n) (i : Fin n) : (tableMap f t)[i] = f t[i] := by
  simp [tableMap, Vector.toList]

/-- Two tables that agree at every place are equal. -/
theorem table_ext {t u : Table α n} (h : ∀ i : Fin n, t[i] = u[i]) : t = u :=
  Vector.ext fun i hi => h ⟨i, hi⟩

theorem distinct_mem [DecidableEq α] (x : α) (l : List α) : x ∈ distinct l ↔ x ∈ l := by
  induction l with
  | nil => simp [distinct]
  | cons y ys ih => by_cases h : x = y <;> simp [distinct, h, ih]

theorem distinct_nodup [DecidableEq α] (l : List α) : (distinct l).Nodup := by
  induction l with
  | nil => simp [distinct]
  | cons y ys ih => simpa [distinct] using ih.filter _

theorem foldl_keeps_prop {σ ι : Type} {P : σ → Prop} {f : ι → σ → σ} (h : ∀ i s, P s → P (f i s)) (l : List ι) (s : σ)
    (hs : P s) : P (l.foldl (fun s i => f i s) s) := by
  induction l generalizing s with
  | nil => exact hs
  | cons i l ih => exact ih _ (h i s hs)

/-- A property that every pass keeps is kept by the loop over the slots. -/
theorem forSlots_keeps_prop {P : State → Prop} {f : Slot → State → State} (h : ∀ i s, P s → P (f i s)) (s : State)
    (hs : P s) : P (forSlots f s) := foldl_keeps_prop h _ s hs

/-- A property that every pass keeps is kept by the loop over the units. -/
theorem forUnits_keeps_prop {P : State → Prop} {f : UnitNo → State → State} (h : ∀ u s, P s → P (f u s)) (s : State)
    (hs : P s) : P (forUnits f s) := foldl_keeps_prop h _ s hs

/-- A field that every pass keeps is kept by the loop over the slots. -/
theorem forSlots_keeps {γ : Type} {g : State → γ} {f : Slot → State → State} (h : ∀ i s, g (f i s) = g s) (s : State) :
    g (forSlots f s) = g s :=
  forSlots_keeps_prop (P := fun t => g t = g s) (fun i t ht => (h i t).trans ht) s rfl

/-- A field that every pass keeps is kept by the loop over the units. -/
theorem forUnits_keeps {γ : Type} {g : State → γ} {f : UnitNo → State → State} (h : ∀ u s, g (f u s) = g s) (s : State) :
    g (forUnits f s) = g s :=
  forUnits_keeps_prop (P := fun t => g t = g s) (fun u t ht => (h u t).trans ht) s rfl

end Sys2Proof.Machine
end

