-- ==== Sys2Proof/Laws/Effects.lean ====
section
/-! SUPPORT. What the shared operations can change, said once: stages, trips, settling and faults reach records, demand entries,
units, notice flags and the store write queue, and nothing else. -/

namespace Sys2Proof.Machine

variable (s : State)

@[simp] theorem setCoil_apart (i : Slot) (c : Coil) : (s.setCoil i c).apart = s.apart := rfl
@[simp] theorem setUnit_apart (u : UnitNo) (e : UnitEntry) : (s.setUnit u e).apart = s.apart := rfl
@[simp] theorem setNotice_apart (i : Slot) : (s.setNotice i).apart = s.apart := rfl
@[simp] theorem changeCoil_apart (i : Slot) (c : Coil) : (s.changeCoil i c).apart = s.apart := rfl
@[simp] theorem addFault_apart (u : UnitNo) (k : FaultKind) : (s.addFault u k).apart = s.apart := rfl
@[simp] theorem recomputeFso_apart (u : UnitNo) : (s.recomputeFso u).apart = s.apart := rfl

@[simp] theorem chooseNotice_apart : s.chooseNotice.apart = s.apart := by
  unfold State.chooseNotice; split <;> rfl

@[simp] theorem endEvent_apart : s.endEvent.apart = s.apart := by
  have h := chooseNotice_apart s
  simpa only [State.apart, State.endEvent] using h

@[simp] theorem markDirty_apart (it : Item) : (s.markDirty it).apart = s.apart := by
  unfold State.markDirty; split_ifs <;> rfl

@[simp] theorem addFaultWhere_apart (k : FaultKind) (p : UnitNo → Bool) : (s.addFaultWhere k p).apart = s.apart :=
  forUnits_keeps (fun u s => by split_ifs <;> simp) s

@[simp] theorem trip_apart (i : Slot) (cause : Cause) : (s.trip i cause).apart = s.apart := by simp [State.trip]

@[simp] theorem enterStage_apart (i : Slot) (st : Stage) (cause : Cause) : (s.enterStage i st cause).apart = s.apart := by
  simp [State.enterStage]

@[simp] theorem enterProve_apart (i : Slot) : (s.enterProve i).apart = s.apart := by simp [State.enterProve]

@[simp] theorem dropKind_apart (i : Slot) (d : Dropped) (k : ActionKind) : (s.dropKind i d k).apart = s.apart := by
  simp [State.dropKind]

@[simp] theorem finishStepDown_apart (i : Slot) : (s.finishStepDown i).apart = s.apart := by simp [State.finishStepDown]

@[simp] theorem dropLoop_apart (n : Nat) (i : Slot) : (s.dropLoop n i).apart = s.apart := by
  induction n generalizing s with
  | zero => rfl
  | succ n ih =>
    unfold State.dropLoop
    split
    · split_ifs
      · rfl
      · split
        · rfl
        · dsimp only; split_ifs <;> simp [ih]
    · rfl

@[simp] theorem testDrops_apart (i : Slot) : (s.testDrops i).apart = s.apart := dropLoop_apart s 4 i

@[simp] theorem enterStepDown_apart (i : Slot) : (s.enterStepDown i).apart = s.apart := by simp [State.enterStepDown]

@[simp] theorem enterArmed_apart (i : Slot) : (s.enterArmed i).apart = s.apart := by
  unfold State.enterArmed; dsimp only; split_ifs <;> simp

@[simp] theorem settlingTests_apart (k : PointKey) : (s.settlingTests k).apart = s.apart :=
  forSlots_keeps (fun i s => by split_ifs <;> simp) s

@[simp] theorem sensorLost_apart (i : Slot) : (s.sensorLost i).apart = s.apart := by
  unfold State.sensorLost; split_ifs <;> simp

@[simp] theorem markUnavailable_apart (i : Slot) (r : EvalResult) : (s.markUnavailable i r).apart = s.apart := by
  unfold State.markUnavailable; split_ifs <;> simp

@[simp] theorem laterChecks_apart (i : Slot) (p : Profile) (r : EvalResult) : (s.laterChecks i p r).apart = s.apart := by
  unfold State.laterChecks; dsimp only; split <;> (try split_ifs) <;> simp

@[simp] theorem stageChecks_apart (i : Slot) (p : Profile) (r : EvalResult) : (s.stageChecks i p r).apart = s.apart := by
  unfold State.stageChecks; split_ifs <;> simp

@[simp] theorem evaluation_apart (i : Slot) : (s.evaluation i).apart = s.apart := by
  unfold State.evaluation; dsimp only; split <;> simp

@[simp] theorem contactTrips_apart (u : UnitNo) : (s.contactTrips u).apart = s.apart :=
  forSlots_keeps (fun i s => by split_ifs <;> simp) s

@[simp] theorem escalate_apart (k : DemandKey) : (s.escalate k).apart = s.apart :=
  forSlots_keeps (fun i s => by split_ifs <;> simp) s

@[simp] theorem stepDownTests_apart (k : DemandKey) : (s.stepDownTests k).apart = s.apart :=
  forSlots_keeps (fun i s => by split <;> (try split_ifs) <;> simp) s

@[simp] theorem fansProved_apart (u : UnitNo) : (s.fansProved u).apart = s.apart :=
  forSlots_keeps (fun i s => by split_ifs <;> simp) s

/-- Two states that agree apart from the stage operations' fields agree on a field that `apart` leaves alone. -/
theorem field_of_apart {γ : Type} {s t : State} (g : State → γ) (h : t.apart = s.apart) (hg : ∀ x : State, g x.apart = g x) :
    g t = g s := by rw [← hg t, ← hg s, h]

end Sys2Proof.Machine
end

