-- ==== Sys2Proof/Laws/Records.lean ====
section
/-! SUPPORT. What the shared operations do to the coil records: each changes the record that it names, to a record that depends on
that record, the moment and the point and unit tables alone; and the loops over the slots change every record by its own pass. -/

namespace Sys2Proof.Machine

variable (s : State)

/-! ### Operations that leave the records, and those that change one -/

@[simp] theorem setNotice_coils (i : Slot) : (s.setNotice i).coils = s.coils := rfl
@[simp] theorem addFault_coils (u : UnitNo) (k : FaultKind) : (s.addFault u k).coils = s.coils := rfl
@[simp] theorem recomputeFso_coils (u : UnitNo) : (s.recomputeFso u).coils = s.coils := rfl
@[simp] theorem changeCoil_coils (i : Slot) (c : Coil) : (s.changeCoil i c).coils = tablePut s.coils i c := rfl

@[simp] theorem chooseNotice_coils : s.chooseNotice.coils = s.coils := by unfold State.chooseNotice; split <;> rfl

@[simp] theorem endEvent_coils : s.endEvent.coils = s.coils := chooseNotice_coils s

@[simp] theorem markDirty_coils (it : Item) : (s.markDirty it).coils = s.coils := by
  unfold State.markDirty; split_ifs <;> rfl

@[simp] theorem addFaultWhere_coils (k : FaultKind) (p : UnitNo → Bool) : (s.addFaultWhere k p).coils = s.coils :=
  forUnits_keeps (g := State.coils) (fun u s => by split_ifs <;> simp) s

@[simp] theorem trip_coils (i : Slot) (cause : Cause) :
    (s.trip i cause).coils = tablePut s.coils i (s.coils[i].trip cause) := by simp [State.trip]

@[simp] theorem enterStage_coils (i : Slot) (st : Stage) (cause : Cause) :
    (s.enterStage i st cause).coils = tablePut s.coils i
      { s.coils[i] with stage := st, cause := cause, holdTimer := none, cleanTimer := cleanTimerIn st s.now } := by
  simp [State.enterStage]

@[simp] theorem enterProve_coils (i : Slot) :
    (s.enterProve i).coils = tablePut s.coils i
      { s.coils[i] with stage := .recovery .prove, holdTimer := some (s.now + s.coils[i].holdTime) } := rfl

@[simp] theorem enterArmed_coils (i : Slot) :
    (s.enterArmed i).coils = tablePut s.coils i (s.coils[i].enterArmed s.now) := by
  unfold State.enterArmed; dsimp only; split_ifs <;> simp

/-! ### Fields that the operations leave alone -/

/-- Fields that `apart` leaves alone, each read off two states that agree apart. -/
theorem now_of_apart {s t : State} (h : t.apart = s.apart) : t.now = s.now := field_of_apart State.now h fun _ => rfl
theorem power_of_apart {s t : State} (h : t.apart = s.apart) : t.power = s.power := field_of_apart State.power h fun _ => rfl
theorem points_of_apart {s t : State} (h : t.apart = s.apart) : t.points = s.points := field_of_apart State.points h fun _ => rfl
theorem pending_of_apart {s t : State} (h : t.apart = s.apart) : t.pending = s.pending :=
  field_of_apart State.pending h fun _ => rfl
theorem claims_of_apart {s t : State} (h : t.apart = s.apart) : t.claims = s.claims := field_of_apart State.claims h fun _ => rfl

/-! ### Loops over the slots -/

theorem foldl_coils {P : State → Prop} {f : Slot → State → State} {g : Slot → Coil → Coil}
    (keep : ∀ i s, P s → P (f i s))
    (pass : ∀ i s, P s → ∀ j : Slot, (f i s).coils[j] = if j = i then g i s.coils[i] else s.coils[j])
    (l : List Slot) (hl : l.Nodup) (s : State) (hs : P s) (j : Slot) :
    (l.foldl (fun s i => f i s) s).coils[j] = if j ∈ l then g j s.coils[j] else s.coils[j] := by
  induction l generalizing s with
  | nil => rw [if_neg (List.not_mem_nil)]; rfl
  | cons i l ih =>
    obtain ⟨hi, hl⟩ := List.nodup_cons.1 hl
    rw [List.foldl_cons, ih hl _ (keep i s hs), pass i s hs j]
    by_cases hji : j = i
    · subst hji; simp [hi]
    · simp [hji]

/-- A loop whose pass changes the record of its own slot, under a condition on the state that every pass keeps, changes every
record by its own pass. -/
theorem forSlots_coils {P : State → Prop} {f : Slot → State → State} {g : Slot → Coil → Coil}
    (keep : ∀ i s, P s → P (f i s))
    (pass : ∀ i s, P s → ∀ j : Slot, (f i s).coils[j] = if j = i then g i s.coils[i] else s.coils[j])
    (hs : P s) (j : Slot) : (forSlots f s).coils[j] = g j s.coils[j] := by
  rw [forSlots, foldl_coils keep pass _ (List.nodup_finRange 48) s hs j, if_pos (List.mem_finRange j)]

/-- A contact opening trips the ARMED records of the unit that stand in a stage it trips, and those alone (R76). -/
theorem contactTrips_coils (u : UnitNo) (j : Slot) : (s.contactTrips u).coils[j] =
    if s.coils[j].lifecycle = .armed ∧ s.coils[j].unit = u ∧ s.coils[j].stage.tripsOnContact then s.coils[j].trip .contact
    else s.coils[j] :=
  forSlots_coils (P := fun _ => True)
    (g := fun _ c => if c.lifecycle = .armed ∧ c.unit = u ∧ c.stage.tripsOnContact then c.trip .contact else c) s
    (fun _ _ _ => trivial)
    (fun i s _ j => by
      by_cases h : s.coils[i].lifecycle = .armed ∧ s.coils[i].unit = u ∧ s.coils[i].stage.tripsOnContact
      · rw [if_pos h, if_pos h, trip_coils, tablePut_get]
      · rw [if_neg h, if_neg h]; split_ifs with hj
        · rw [hj]
        · rfl)
    trivial j

/-- A RUNNING taken for a unit moves its ARMED records in FAN_RESTART to PROVE, and those alone (R84). -/
theorem fansProved_coils (u : UnitNo) (j : Slot) : (s.fansProved u).coils[j] =
    if s.coils[j].lifecycle = .armed ∧ s.coils[j].unit = u ∧ s.coils[j].stage = .recovery .fanRestart then
      { s.coils[j] with stage := .recovery .prove, holdTimer := some (s.now + s.coils[j].holdTime) }
    else s.coils[j] :=
  forSlots_coils (P := fun t => t.now = s.now)
    (g := fun _ c => if c.lifecycle = .armed ∧ c.unit = u ∧ c.stage = .recovery .fanRestart then
        { c with stage := .recovery .prove, holdTimer := some (s.now + c.holdTime) } else c) s
    (fun i t ht => by split_ifs <;> exact ht)
    (fun i t ht j => by
      by_cases h : t.coils[i].lifecycle = .armed ∧ t.coils[i].unit = u ∧ t.coils[i].stage = .recovery .fanRestart
      · rw [if_pos h, if_pos h, enterProve_coils, tablePut_get, ht]
      · rw [if_neg h, if_neg h]; split_ifs with hj
        · rw [hj]
        · rfl)
    rfl j

/-- A report for a key completes the settling of the records that bind it and are settled, and of those alone (R17, R38). -/
theorem settlingTests_coils (k : PointKey) (j : Slot) : (s.settlingTests k).coils[j] =
    if s.coils[j].lifecycle = .settling ∧ s.coils[j].binds k ∧ s.settled s.coils[j] then s.coils[j].enterArmed s.now
    else s.coils[j] :=
  forSlots_coils (P := fun t => t.apart = s.apart)
    (g := fun _ c => if c.lifecycle = .settling ∧ c.binds k ∧ s.settled c then c.enterArmed s.now else c) s
    (fun i t ht => by split_ifs <;> simp [ht])
    (fun i t ht j => by
      have hset : t.settled t.coils[i] = s.settled t.coils[i] := by
        simp only [State.settled, points_of_apart ht]
      rw [hset]
      by_cases h : t.coils[i].lifecycle = .settling ∧ t.coils[i].binds k ∧ s.settled t.coils[i]
      · rw [if_pos h, if_pos h, enterArmed_coils, tablePut_get, now_of_apart ht]
      · rw [if_neg h, if_neg h]; split_ifs with hj
        · rw [hj]
        · rfl)
    rfl j

end Sys2Proof.Machine
end

