-- ==== Sys2Proof/Laws/Demands.lean ====
section
/-! SUPPORT. The demand table: what its operations do to the entry of a key, and that they keep the keys distinct and the
entries well formed. -/

namespace Sys2Proof.Machine

variable {ds : List DemandEntry} {k : DemandKey} {f : DemandEntry → DemandEntry}

/-- Distinct keys and well formed entries (R96, R102). -/
abbrev Sound (ds : List DemandEntry) : Prop := (ds.map (·.key)).Nodup ∧ ∀ e ∈ ds, e.WellFormed

/-! ### One entry -/

theorem compare_key (stamp : Nat) (e : DemandEntry) : (e.compare stamp).key = e.key := by
  unfold DemandEntry.compare; split_ifs <;> rfl

theorem compare_mapRefs (stamp : Nat) (e : DemandEntry) : (e.compare stamp).mapRefs = e.mapRefs := by
  unfold DemandEntry.compare; split_ifs <;> rfl

theorem compare_demand (stamp : Nat) (e : DemandEntry) : (e.compare stamp).demand = e.demand := by
  unfold DemandEntry.compare; split_ifs <;> rfl

theorem compare_inFlight (stamp : Nat) (e : DemandEntry) : (e.compare stamp).inFlight = e.inFlight := by
  unfold DemandEntry.compare; split_ifs <;> rfl

/-- A comparison leaves an entry well formed whatever its count has become: it queues none that is in flight or faulted, and puts
any other in the queue or out of it by R102 and R105. -/
theorem compare_wellFormed {e : DemandEntry} (stamp n : Nat) (h : e.WellFormed) :
    (({ e with demand := n } : DemandEntry).compare stamp).WellFormed := by
  obtain ⟨h1, h2, h3, h4, h5⟩ := h
  unfold DemandEntry.compare DemandEntry.required
  split_ifs with ha hb hc
  · refine ⟨h1, h2, h3, h4, fun hi hf => ?_⟩
    have hi : e.inFlight = none := hi
    have hf : e.faulted = false := hf
    simp [hi, hf] at ha
  all_goals
    simp only [Bool.or_eq_true, not_or, Bool.not_eq_true, Option.isSome_eq_false_iff, Option.isNone_iff_eq_none] at ha
    have hr := h5 ha.1 ha.2
    refine ⟨?_, fun hf => ?_, h3, fun hi => ?_, fun _ _ => ?_⟩
    all_goals simp_all [DemandEntry.Differs]

theorem contribute_key (stamp : Nat) (removed added : List DemandKey) (e : DemandEntry) :
    (e.contribute stamp removed added).key = e.key := by
  unfold DemandEntry.contribute; split_ifs <;> first | rfl | rw [compare_key]

theorem contribute_mapRefs (stamp : Nat) (removed added : List DemandKey) (e : DemandEntry) :
    (e.contribute stamp removed added).mapRefs = e.mapRefs := by
  unfold DemandEntry.contribute; split_ifs <;> first | rfl | rw [compare_mapRefs]

/-- A contribution changes a demand count by the keys it adds and removes (R98). -/
theorem contribute_demand (stamp : Nat) (removed added : List DemandKey) (e : DemandEntry) :
    (e.contribute stamp removed added).demand =
      if e.key ∈ added then e.demand + 1 else if e.key ∈ removed then e.demand - 1 else e.demand := by
  unfold DemandEntry.contribute; split_ifs <;> first | rfl | rw [compare_demand]

theorem contribute_wellFormed {e : DemandEntry} (stamp : Nat) (removed added : List DemandKey) (h : e.WellFormed) :
    (e.contribute stamp removed added).WellFormed := by
  unfold DemandEntry.contribute; split_ifs
  · exact compare_wellFormed stamp _ h
  · exact compare_wellFormed stamp _ h
  · exact h

theorem DemandEntry.new_fresh (stamp : Nat) (k : DemandKey) : (DemandEntry.new stamp k).Fresh :=
  ⟨rfl, rfl, rfl, rfl, rfl, rfl, rfl, rfl, rfl, rfl⟩

theorem DemandEntry.new_wellFormed (stamp : Nat) (k : DemandKey) : (DemandEntry.new stamp k).WellFormed := by
  simp [DemandEntry.new, DemandEntry.WellFormed, DemandEntry.Differs]

/-- An accepted frame leaves its entry well formed (R109). -/
theorem accepted_wellFormed {e : DemandEntry} (now stamp : Nat) (p : Polarity) (h : e.WellFormed) (hi : e.inFlight.isSome) :
    (e.accepted now stamp p).WellFormed := by
  obtain ⟨h1, h2, h3, h4, h5⟩ := h
  have hq : e.queued = none := by simpa [hi] using h1
  have hf : e.faulted = false := by
    cases hf : e.faulted with
    | false => rfl
    | true => rw [(h2 hf).2.1] at hi; simp at hi
  unfold DemandEntry.accepted DemandEntry.compare DemandEntry.required
  split_ifs <;> refine ⟨?_, fun _ => ?_, h3, fun hi => ?_, fun _ _ => ?_⟩ <;> simp_all [DemandEntry.Differs]

/-- A failed frame leaves its entry well formed (R110, R111). -/
theorem failed_wellFormed {e : DemandEntry} (now stamp : Nat) (p : Polarity) (h : e.WellFormed) (hi : e.inFlight.isSome) :
    (e.failed now stamp p).WellFormed := by
  obtain ⟨h1, h2, h3, h4, h5⟩ := h
  have hq : e.queued = none := by simpa [hi] using h1
  have hf : e.faulted = false := by
    cases hf : e.faulted with
    | false => rfl
    | true => rw [(h2 hf).2.1] at hi; simp at hi
  unfold DemandEntry.failed DemandEntry.fault DemandEntry.required
  dsimp only
  split_ifs <;> refine ⟨?_, fun _ => ?_, fun _ => ?_, fun hi => ?_, fun _ _ => ?_⟩ <;> simp_all [DemandEntry.Differs]

/-- The removal test of R101 as the model makes it. -/
theorem removable_iff {e : DemandEntry} : e.removable = true ↔ e.Unneeded := by
  simp [DemandEntry.removable, DemandEntry.atRestUnasserted, DemandEntry.Unneeded, and_assoc]

/-- A new demand count with its comparison is what R98, R102 and R105 say. -/
theorem compare_withDemand (stamp n : Nat) (e : DemandEntry) :
    ({ e with demand := n } : DemandEntry).compare stamp = e.withDemand n stamp := by
  simp only [DemandEntry.compare, DemandEntry.withDemand, DemandEntry.required, Bool.or_eq_true]

theorem withDemand_mapRefs (stamp n : Nat) (e : DemandEntry) : (e.withDemand n stamp).mapRefs = e.mapRefs := by
  unfold DemandEntry.withDemand; split_ifs <;> rfl

theorem withDemand_demand (stamp n : Nat) (e : DemandEntry) : (e.withDemand n stamp).demand = n := by
  unfold DemandEntry.withDemand; split_ifs <;> rfl

/-! ### The table -/

theorem map_keys (hf : ∀ e, (f e).key = e.key) : (ds.map f).map (·.key) = ds.map (·.key) := by
  rw [List.map_map]; exact List.map_congr_left fun e _ => hf e

theorem Sound.map (h : Sound ds) (hf : ∀ e, (f e).key = e.key) (hw : ∀ e ∈ ds, (f e).WellFormed) : Sound (ds.map f) := by
  refine ⟨by rw [map_keys hf]; exact h.1, fun e he => ?_⟩
  obtain ⟨d, hd, rfl⟩ := List.mem_map.1 he
  exact hw d hd

theorem Sound.filter (h : Sound ds) (p : DemandEntry → Bool) : Sound (ds.filter p) :=
  ⟨h.1.sublist (List.filter_sublist.map _), fun e he => h.2 e (List.mem_filter.1 he).1⟩

theorem updateDemand_keys (hf : ∀ e, (f e).key = e.key) : (updateDemand k f ds).map (·.key) = ds.map (·.key) :=
  map_keys fun e => by split_ifs <;> simp [hf]

theorem Sound.updateDemand (h : Sound ds) (hf : ∀ e, (f e).key = e.key) (hw : ∀ e ∈ ds, e.key = k → (f e).WellFormed) :
    Sound (updateDemand k f ds) :=
  h.map (fun e => by split_ifs <;> simp [hf]) fun e he => by
    split_ifs with hk
    · exact hw e he hk
    · exact h.2 e he

theorem Sound.sweepDemand (h : Sound ds) : Sound (sweepDemand k ds) := h.filter _

theorem Sound.contributeAll (h : Sound ds) (stamp : Nat) (removed added : List DemandKey) :
    Sound (contributeAll stamp removed added ds) :=
  (h.map (contribute_key stamp removed added) fun e he => contribute_wellFormed stamp removed added (h.2 e he)).filter _

theorem demandOf_isSome : (demandOf ds k).isSome ↔ k ∈ ds.map (·.key) := by
  simp [demandOf]

theorem Sound.addMapRef (h : Sound ds) (stamp : Nat) : Sound (addMapRef stamp ds k) := by
  unfold Machine.addMapRef
  split_ifs with hk
  · exact h.updateDemand (fun _ => rfl) fun e he _ => h.2 e he
  · refine ⟨?_, fun e he => ?_⟩
    · rw [List.map_append, List.nodup_append]
      refine ⟨h.1, by simp, fun a ha b hb => ?_⟩
      simp only [List.map_cons, List.map_nil, List.mem_singleton] at hb
      rintro rfl
      exact hk (demandOf_isSome.2 (by rw [hb] at ha; exact ha))
    · rcases List.mem_append.1 he with he | he
      · exact h.2 e he
      · rw [List.mem_singleton.1 he]; exact DemandEntry.new_wellFormed stamp k

theorem Sound.addMapRefs (h : Sound ds) (stamp : Nat) (ks : List DemandKey) : Sound (addMapRefs stamp ks ds) := by
  induction ks generalizing ds with
  | nil => exact h
  | cons k ks ih => exact ih (h.addMapRef stamp)

theorem Sound.dropMapRef (h : Sound ds) : Sound (dropMapRef ds k) :=
  (h.updateDemand (f := fun e => { e with mapRefs := e.mapRefs - 1 }) (fun _ => rfl) fun e he _ => h.2 e he).sweepDemand

theorem Sound.dropMapRefs (h : Sound ds) (ks : List DemandKey) : Sound (dropMapRefs ks ds) := by
  induction ks generalizing ds with
  | nil => exact h
  | cons k ks ih => exact ih h.dropMapRef

/-! ### The entry of a key -/

theorem demandOf_key {e : DemandEntry} (h : demandOf ds k = some e) : e.key = k := by
  have := List.find?_some h
  simpa using this

theorem demandOf_mem {e : DemandEntry} (h : demandOf ds k = some e) : e ∈ ds := List.mem_of_find?_eq_some h

/-- Changing the entry of a key changes what that key finds, and no other. -/
theorem demandOf_updateDemand (hf : ∀ e, (f e).key = e.key) (j : DemandKey) :
    demandOf (updateDemand k f ds) j = if j = k then (demandOf ds k).map f else demandOf ds j := by
  induction ds with
  | nil => split_ifs <;> rfl
  | cons e ds ih =>
    simp only [demandOf, updateDemand, List.map_cons, List.find?_cons] at ih ⊢
    by_cases hek : e.key = k
    · subst hek
      by_cases hj : j = e.key
      · subst hj; simp [hf]
      · simp only [if_true, hf, beq_eq_false_iff_ne.2 (Ne.symm hj), if_neg hj]
        rw [ih, if_neg hj]
    · by_cases hj : j = k
      · subst hj; simp only [if_neg hek, beq_eq_false_iff_ne.2 hek, if_true]
        rw [ih, if_pos rfl]
      · simp only [if_neg hek, if_neg hj]
        split
        · rfl
        · rw [ih, if_neg hj]

/-- What a key finds in a table of distinct keys whose entries have each been changed and then tested. -/
theorem demandOf_mapFilter (hd : (ds.map (·.key)).Nodup) (hf : ∀ e, (f e).key = e.key) (p : DemandEntry → Bool) (k : DemandKey) :
    demandOf ((ds.map f).filter p) k = ((demandOf ds k).map f).filter p := by
  induction ds with
  | nil => rfl
  | cons e ds ih =>
    obtain ⟨hn, hd⟩ := List.nodup_cons.1 hd
    have ih := ih hd
    simp only [demandOf, List.map_cons, List.filter_cons, List.find?_cons] at ih ⊢
    by_cases hk : e.key = k
    · subst hk
      have h0 : ds.find? (fun x => x.key == e.key) = none :=
        List.find?_eq_none.2 fun x hx h => hn (List.mem_map.2 ⟨x, hx, by simpa using h⟩)
      rw [h0] at ih
      by_cases hp : p (f e) = true
      · simp [hp, hf, Option.filter]
      · simpa [hp, Option.filter] using ih
    · have hb : (e.key == k) = false := beq_eq_false_iff_ne.2 hk
      rw [hb]
      split
      · simp only [List.find?_cons, hf, hb]; exact ih
      · exact ih

/-- A map reference added to a key: an entry that holds it keeps all its state, else a new one is created (R97, R99). -/
theorem demandOf_addMapRef (stamp : Nat) (k j : DemandKey) :
    demandOf (addMapRef stamp ds k) j =
      if j = k then
        some (match demandOf ds k with
          | some e => { e with mapRefs := e.mapRefs + 1 }
          | none => .new stamp k)
      else demandOf ds j := by
  unfold addMapRef
  cases hk : demandOf ds k with
  | some e =>
    rw [Option.isSome_some, if_pos rfl, demandOf_updateDemand (f := fun e => { e with mapRefs := e.mapRefs + 1 }) fun _ => rfl, hk]
    split_ifs <;> rfl
  | none =>
    rw [Option.isSome_none, if_neg Bool.false_ne_true]
    unfold demandOf at hk ⊢
    rw [List.find?_append]
    split_ifs with hj
    · rw [hj, hk]; simp [DemandEntry.new]
    · have : ((DemandEntry.new stamp k).key == j) = false := beq_eq_false_iff_ne.2 (Ne.symm hj)
      simp [this]

/-- A map reference given up: the entry loses it, and is gone where it then meets the conditions of removal (R97, R101). -/
theorem demandOf_dropMapRef (hd : (ds.map (·.key)).Nodup) (k j : DemandKey) :
    demandOf (dropMapRef ds k) j =
      if j = k then (demandOf ds k).bind fun e =>
        let left : DemandEntry := { e with mapRefs := e.mapRefs - 1 }
        if left.Unneeded then none else some left
      else demandOf ds j := by
  unfold dropMapRef sweepDemand updateDemand
  rw [demandOf_mapFilter hd fun e => by split_ifs <;> rfl]
  cases hj : demandOf ds j with
  | none =>
    split_ifs with h
    · rw [← h, hj]; rfl
    · rfl
  | some e =>
    obtain rfl := demandOf_key hj
    split_ifs with h
    · subst h
      rw [hj]
      simp only [Option.map_some, if_true, Option.bind_some, Option.filter, beq_self_eq_true, Bool.true_and]
      by_cases hu : DemandEntry.Unneeded { e with mapRefs := e.mapRefs - 1 }
      · rw [if_pos hu, removable_iff.2 hu]; rfl
      · rw [if_neg hu, Bool.eq_false_iff.2 fun h => hu (removable_iff.1 h)]; rfl
    · simp [h, Option.filter]

theorem dropMapRef_nodup (hd : (ds.map (·.key)).Nodup) (k : DemandKey) : ((dropMapRef ds k).map (·.key)).Nodup := by
  unfold dropMapRef sweepDemand
  refine List.Nodup.sublist (List.filter_sublist.map _) ?_
  rw [updateDemand_keys (f := fun e => { e with mapRefs := e.mapRefs - 1 }) fun _ => rfl]
  exact hd

/-- Map references added to distinct keys (R97, R99). -/
theorem demandOf_addMapRefs (stamp : Nat) {ks : List DemandKey} (hk : ks.Nodup) (j : DemandKey) :
    demandOf (addMapRefs stamp ks ds) j =
      if j ∈ ks then
        some (match demandOf ds j with
          | some e => { e with mapRefs := e.mapRefs + 1 }
          | none => .new stamp j)
      else demandOf ds j := by
  induction ks generalizing ds with
  | nil => simp [addMapRefs]
  | cons k ks ih =>
    obtain ⟨hn, hk⟩ := List.nodup_cons.1 hk
    show demandOf (addMapRefs stamp ks (addMapRef stamp ds k)) j = _
    rw [ih hk, demandOf_addMapRef]
    by_cases hj : j = k
    · subst hj; simp [hn]
    · simp [hj]

/-- Map references given up on distinct keys (R97, R101). -/
theorem demandOf_dropMapRefs {ks : List DemandKey} (hk : ks.Nodup) (hd : (ds.map (·.key)).Nodup) (j : DemandKey) :
    demandOf (dropMapRefs ks ds) j =
      if j ∈ ks then (demandOf ds j).bind fun e =>
        let left : DemandEntry := { e with mapRefs := e.mapRefs - 1 }
        if left.Unneeded then none else some left
      else demandOf ds j := by
  induction ks generalizing ds with
  | nil => simp [dropMapRefs]
  | cons k ks ih =>
    obtain ⟨hn, hk⟩ := List.nodup_cons.1 hk
    show demandOf (dropMapRefs ks (dropMapRef ds k)) j = _
    rw [ih hk (dropMapRef_nodup hd k), demandOf_dropMapRef hd]
    by_cases hj : j = k
    · subst hj; simp [hn]
    · simp [hj]

/-- Contributions handed to the table: the entry of a key has its count changed by one and compared, and is gone where it then meets
the conditions of removal (R98, R101, R102). -/
theorem demandOf_contributed (hd : (ds.map (·.key)).Nodup) (stamp : Nat) (removed added : List DemandKey) (j : DemandKey) :
    demandOf (contributeAll stamp removed added ds) j =
      (demandOf ds j).bind fun e =>
        if j ∈ added then some (e.withDemand (e.demand + 1) stamp)
        else if j ∈ removed then
          if (e.withDemand (e.demand - 1) stamp).Unneeded then none else some (e.withDemand (e.demand - 1) stamp)
        else some e := by
  unfold contributeAll
  rw [demandOf_mapFilter hd (contribute_key stamp removed added)]
  cases hj : demandOf ds j with
  | none => rfl
  | some e =>
    obtain rfl := demandOf_key hj
    simp only [Option.map_some, Option.bind_some, Option.filter, contribute_key]
    unfold DemandEntry.contribute
    rw [compare_withDemand, compare_withDemand]
    by_cases ha : e.key ∈ added
    · have hr : (e.withDemand (e.demand + 1) stamp).removable = false :=
        Bool.eq_false_iff.2 fun h => by simpa [withDemand_demand] using (removable_iff.1 h).2.1
      simp [ha, hr]
    · by_cases hr : e.key ∈ removed
      · by_cases hu : (e.withDemand (e.demand - 1) stamp).Unneeded
        · have := removable_iff.2 hu
          simp only [ha, hr, if_false, if_true, this, if_pos hu]; rfl
        · have := Bool.eq_false_iff.2 fun h => hu (removable_iff.1 h)
          simp only [ha, hr, if_false, if_true, this, if_neg hu]; rfl
      · simp [ha, hr]

/-- A record's change of stage, or any other, reaches the entry of each key that the record demands after it and not before, or before it
and not after (R91, R98). -/
theorem changeCoil_demandOf {s : State} (hd : (s.demands.map (·.key)).Nodup) (i : Slot) (c : Coil) (k : DemandKey) :
    demandOf (s.changeCoil i c).demands k =
      (demandOf s.demands k).bind fun e =>
        if k ∈ s.demandedPairs c ∧ k ∉ s.demandedPairs s.coils[i] then some (e.withDemand (e.demand + 1) s.joinStamp)
        else if k ∈ s.demandedPairs s.coils[i] ∧ k ∉ s.demandedPairs c then
          if (e.withDemand (e.demand - 1) s.joinStamp).Unneeded then none
          else some (e.withDemand (e.demand - 1) s.joinStamp)
        else some e := by
  refine (demandOf_contributed hd _ _ _ k).trans ?_
  simp only [List.mem_filter, decide_eq_true_eq]

/-- The removal test of a key leaves what every other key finds. -/
theorem demandOf_sweepDemand_other {j : DemandKey} (h : j ≠ k) : demandOf (sweepDemand k ds) j = demandOf ds j := by
  induction ds with
  | nil => rfl
  | cons e ds ih =>
    simp only [demandOf, sweepDemand, List.filter_cons, List.find?_cons] at ih ⊢
    by_cases hj : e.key = j
    · have hek : (e.key == k) = false := beq_eq_false_iff_ne.2 (hj ▸ h)
      rw [hek, Bool.false_and, Bool.not_false, if_pos rfl, List.find?_cons, hj]
      simp
    · have : (e.key == j) = false := beq_eq_false_iff_ne.2 hj
      split
      · simp only [List.find?_cons, this]; exact ih
      · simp only [this]; exact ih

end Sys2Proof.Machine
end

