-- ==== Sys2Proof/Laws/Checks.lean ====
section
/-! SUPPORT. The checks that the model makes, each with the condition in which the statements speak of it: the checks of a commit, the
capacity checks, and the kind dropped last in STEP_DOWN. -/

namespace Sys2Proof.Machine

/-! ### The checks of a commit -/

theorem isStation_iff {a : Nat} : isStation a = true ↔ 1 ≤ a ∧ a ≤ 223 := by simp [isStation]

theorem candidate_inRange_iff {cd : Candidate} : cd.inRange = true ↔ cd.WithinRanges := by
  cases hl : cd.limits <;> cases hd : cd.dose <;> cases hm : cd.map <;> cases ha : cd.lat <;> cases hf : cd.ft <;>
    simp [Candidate.inRange, Candidate.WithinRanges, hl, hd, hm, ha, hf, Limits.inRange, DoseMarks.inRange, ActionMap.inRange, PointKey.inRange,
      isStation_iff, Option.all_eq_true, and_assoc]

theorem dose_consistent_iff {cd : Candidate} : cd.dose.all DoseMarks.consistent = true ↔ cd.DosesOrdered := by
  cases hd : cd.dose <;> simp [hd, Candidate.DosesOrdered, DoseMarks.consistent, Config.maxDose, and_assoc]

theorem incompleteFor_iff {st : Staging} {c : Coil} : st.incompleteFor c = false ↔ st.CompleteFor c := by
  cases hp : c.profile <;> cases hl : st.limits <;> cases hd : st.dose <;> cases ht : st.timing <;> cases hm : st.map <;>
    simp [Staging.incompleteFor, Staging.CompleteFor, Staging.SomeProfile, Staging.profileGroups, hp, hl, hd, ht, hm]

theorem passesGate_iff {st : Staging} {c : Coil} : st.passesGate c = true ↔ st.GateOpen c := by
  cases h : c.lifecycle <;> cases hl : st.limits <;> cases hd : st.dose <;> cases ht : st.timing <;> cases hm : st.map <;>
    cases ha : st.lat <;> cases hf : st.ft <;>
    simp [Staging.passesGate, Staging.GateOpen, Staging.SomeProfile, Staging.hasBinding, Staging.profileGroups, h, hl, hd, ht, hm, ha, hf]

/-! ### The capacity checks -/

/-- What holds each value of a list once can be counted either way. -/
theorem distinct_perm_dedup {α : Type} [DecidableEq α] (l : List α) : (distinct l).Perm l.dedup :=
  (List.perm_ext_iff_of_nodup (distinct_nodup l) l.nodup_dedup).2 fun y => by rw [distinct_mem, List.mem_dedup]

theorem fits_iff {s : State} {ch : RefChange} : ch.fits s.points = true ↔ s.RoomForPoints ch.gives ch.takes := by
  have hc : ∀ k, ch.count s.points k = s.newCount ch.gives ch.takes k := fun _ => rfl
  have hu : ∀ t : Table (Option PointEntry) 96,
      96 - pointsInUse t = ((List.finRange 96).filter fun i => t[i].isNone).length := by
    intro t
    have ht : t.toList = (List.finRange 96).map fun i => t[i] := by
      apply List.ext_getElem <;> simp
    have hl := List.length_eq_countP_add_countP (fun i : Fin 96 => t[i].isSome) (l := List.finRange 96)
    rw [List.length_finRange] at hl
    rw [pointsInUse, ht, List.countP_map, ← List.countP_eq_length_filter]
    simp only [Function.comp_def] at hl ⊢
    have hn : ∀ i : Fin 96, (decide ¬(t[i].isSome = true)) = t[i].isNone := fun i => by cases t[i] <;> rfl
    simp only [hn] at hl
    omega
  rw [RefChange.fits, decide_eq_true_eq, hu, RefChange.placed, ((distinct_perm_dedup ch.takes).filter _).length_eq]
  simp only [State.RoomForPoints, hc]
  refine iff_of_eq (congrArg₂ _ rfl (congrArg List.length (List.filter_congr fun i _ => ?_)))
  rw [RefChange.recount, tableMap_get]
  cases s.points[i] with
  | none => rfl
  | some e => simp only [Option.bind_some, hc, Option.all_some]; split_ifs with h <;> simp [h]

theorem mapFits_iff {s : State} {old new : Coil} :
    s.mapFits old new = true ↔ s.RoomForPairs (s.lostPairs old new) (s.gainedPairs old new) := by
  have h1 : ∀ k, (demandOf s.demands k).isNone = s.demands.all fun e => e.key != k := by
    intro k
    rw [Bool.eq_iff_iff]
    simp [demandOf, List.find?_eq_none]
  have h2 : ∀ k, removedAtOnce s.demands k = (s.demands.find? fun e => e.key == k).any fun e =>
      decide (e.mapRefs ≤ 1) && e.demand == 0 && e.commanded != .asserted && e.queued.isNone && e.inFlight.isNone := by
    intro k
    simp [removedAtOnce, demandOf, DemandEntry.atRestUnasserted, Bool.and_assoc]
  simp only [State.mapFits, newPairs, decide_eq_true_eq, State.RoomForPairs, List.countP_eq_length_filter, Config.demandCapacity,
    h1, funext h2]

/-! ### STEP_DOWN -/

/-- The pairs of a definition hold each kind once (R5). -/
theorem pairsOf_kind_inj {a : Option Nat} {kind : Option CoilKind} {m : Option ActionMap} {j k : DemandKey}
    (hj : j ∈ pairsOf a kind m) (hk : k ∈ pairsOf a kind m) (h : j.kind = k.kind) : j = k := by
  revert hj hk
  rcases m with _ | ⟨v, p, b⟩
  · cases a <;> simp [pairsOf]
    rintro (rfl | rfl) (rfl | rfl) <;> simp_all
  · by_cases hs : kind = some .steam <;> cases a <;> cases v <;> cases p <;> cases b <;> simp [pairsOf, hs] <;>
      intro hj hk <;> aesop

/-- The kind dropped last, as the model finds it (R86). -/
theorem lastDropped_iff {s : State} {c : Coil} {d : Dropped} {k : DemandKey} :
    s.lastDropped c d = some k ↔ s.DroppedLast c d k := by
  have find : ∀ kind, ((s.targetPairs c).find? fun key => key.kind == kind) = some k ↔ k ∈ s.targetPairs c ∧ k.kind = kind := by
    intro kind
    constructor
    · intro h
      exact ⟨List.mem_of_find?_eq_some h, by simpa using List.find?_some h⟩
    · rintro ⟨hm, rfl⟩
      have hs : ((s.targetPairs c).find? fun key => key.kind == k.kind).isSome := List.find?_isSome.2 ⟨k, hm, by simp⟩
      obtain ⟨j, hj⟩ := Option.isSome_iff_exists.1 hs
      rw [hj, pairsOf_kind_inj (List.mem_of_find?_eq_some hj) hm (by simpa using List.find?_some hj)]
  rcases d with ⟨o, b, p, v⟩
  rcases k with ⟨a, kind⟩
  cases o <;> cases b <;> cases p <;> cases v <;> cases kind <;>
    simp [State.lastDropped, Dropped.lastKind, find, State.DroppedLast, Dropped.has, dropPlace]

end Sys2Proof.Machine
end

