-- ==== Sys2Proof/Laws/Frames.lean ====
section
/-! SUPPORT. The levels of a frame and their reading: bits against levels, fields against numbers, and the separators (R175). -/

namespace Sys2Proof.Machine

/-! ### Bits and fields -/

@[simp] theorem bitOfLevel_levelOfBit (b : Bool) : bitOfLevel (levelOfBit b) = b := by cases b <;> rfl

@[simp] theorem levelOfBit_bitOfLevel (l : LineLevel) : levelOfBit (bitOfLevel l) = l := by cases l <;> rfl

@[simp] theorem fieldBits_length {w : Nat} (x : BitVec w) : (fieldBits x).length = w := by simp [fieldBits]

theorem bitsToNat_append (xs ys : List Bool) : bitsToNat (xs ++ ys) = bitsToNat xs * 2 ^ ys.length + bitsToNat ys := by
  unfold bitsToNat
  rw [List.foldl_append]
  generalize xs.foldl (fun n b => 2 * n + b.toNat) 0 = a
  induction ys using List.reverseRecOn with
  | nil => simp
  | append_singleton ys y ih =>
    rw [List.foldl_append, List.foldl_append, ih]
    simp [pow_succ]
    ring

theorem bitsToNat_lt (bs : List Bool) : bitsToNat bs < 2 ^ bs.length := by
  induction bs using List.reverseRecOn with
  | nil => simp [bitsToNat]
  | append_singleton bs b ih =>
    have hb : bitsToNat [b] ≤ 1 := by cases b <;> simp [bitsToNat]
    rw [bitsToNat_append, List.length_append]
    simp only [List.length_singleton, pow_succ]
    omega

/-- Bits of one length that stand for one number are the same. -/
theorem bitsToNat_inj {xs ys : List Bool} (hl : xs.length = ys.length) (h : bitsToNat xs = bitsToNat ys) : xs = ys := by
  induction xs using List.reverseRecOn generalizing ys with
  | nil => exact (List.length_eq_zero_iff.1 hl.symm).symm
  | append_singleton xs x ih =>
    obtain ⟨zs, z, rfl⟩ : ∃ zs z, ys = zs ++ [z] := by
      rcases ys.eq_nil_or_concat with rfl | ⟨zs, z, rfl⟩
      · simp at hl
      · exact ⟨zs, z, by simp⟩
    have hl : xs.length = zs.length := by simpa using hl
    rw [bitsToNat_append, bitsToNat_append] at h
    have hx : bitsToNat [x] = x.toNat := by simp [bitsToNat]
    have hz : bitsToNat [z] = z.toNat := by simp [bitsToNat]
    simp only [List.length_singleton, pow_one, hx, hz] at h
    have hx1 : x.toNat ≤ 1 := Bool.toNat_le x
    have hz1 : z.toNat ≤ 1 := Bool.toNat_le z
    rw [ih hl (by omega), show x = z by revert h; cases x <;> cases z <;> simp <;> omega]

/-- The bits of a field stand for its value. -/
theorem bitsToNat_fieldBits {w : Nat} (x : BitVec w) : bitsToNat (fieldBits x) = x.toNat := by
  have key : ∀ n, n ≤ w → bitsToNat ((List.range n).map fun i => x.getMsbD i) = x.toNat / 2 ^ (w - n) := by
    intro n hn
    induction n with
    | zero => simp [bitsToNat, Nat.div_eq_of_lt x.isLt]
    | succ n ih =>
      rw [List.range_succ, List.map_append, bitsToNat_append, ih (by omega)]
      have hb : bitsToNat ([n].map fun i => x.getMsbD i) = x.toNat / 2 ^ (w - (n + 1)) % 2 := by
        have : x.getMsbD n = x.toNat.testBit (w - 1 - n) := by
          rw [BitVec.getMsbD_eq_getLsbD, BitVec.getLsbD]
          simp [show n < w by omega]
        simp only [List.map_cons, List.map_nil, bitsToNat, List.foldl_cons, List.foldl_nil, this, Nat.mul_zero, Nat.zero_add]
        rw [Nat.testBit_eq_decide_div_mod_eq, show w - 1 - n = w - (n + 1) by omega]
        rcases Nat.mod_two_eq_zero_or_one (x.toNat / 2 ^ (w - (n + 1))) with h | h <;> simp [h]
      rw [hb]
      have hp : x.toNat / 2 ^ (w - n) = x.toNat / 2 ^ (w - (n + 1)) / 2 := by
        rw [Nat.div_div_eq_div_mul, ← pow_succ, show w - (n + 1) + 1 = w - n by omega]
      rw [hp]
      simp only [List.map_cons, List.map_nil, List.length_singleton, pow_one]
      omega
  have := key w le_rfl
  simpa [fieldBits] using this

/-- A field of some bits has those bits. -/
theorem fieldBits_ofNat {w : Nat} {bs : List Bool} (h : bs.length = w) : fieldBits (BitVec.ofNat w (bitsToNat bs)) = bs := by
  refine bitsToNat_inj (by simp [h]) ?_
  rw [bitsToNat_fieldBits, BitVec.toNat_ofNat, Nat.mod_eq_of_lt (h ▸ bitsToNat_lt bs)]

/-! ### Separators -/

/-- What was inserted is removed, and the reading goes on behind it. -/
theorem removeSeparators_insertSeparators (bs : List Bool) (n : Nat) (hn : n < 8) (rest : List LineLevel) :
    removeSeparators n (insertSeparators n bs ++ rest) = bs ++ removeSeparators ((n + bs.length) % 8) rest := by
  induction bs generalizing n with
  | nil => simp [insertSeparators, Nat.mod_eq_of_lt hn]
  | cons b bs ih =>
    by_cases h : n = 7
    · subst h
      simp only [insertSeparators, if_true, List.cons_append, removeSeparators, bitOfLevel_levelOfBit]
      rw [if_neg (by decide), ih 0 (by decide)]
      rw [List.length_cons, show (7 + (bs.length + 1)) % 8 = (0 + bs.length) % 8 by omega]
    · simp only [insertSeparators, if_neg h, List.cons_append, removeSeparators, bitOfLevel_levelOfBit]
      rw [if_neg (by omega), ih (n + 1) (by omega)]
      rw [List.length_cons, show (n + (bs.length + 1)) % 8 = (n + 1 + bs.length) % 8 by omega]

/-- Bits read from some levels, whose last is no eighth one, are the levels' beginning with its separators. -/
theorem insertSeparators_prefix (bs : List Bool) (n : Nat) (hn : n < 8) (levels : List LineLevel)
    (h : bs <+: removeSeparators n levels) (he : bs = [] ∨ (n + bs.length) % 8 ≠ 0) : insertSeparators n bs <+: levels := by
  induction bs generalizing n levels with
  | nil => exact List.nil_prefix
  | cons b bs ih =>
    cases levels with
    | nil => simp [removeSeparators] at h
    | cons l ls =>
      simp only [removeSeparators, if_neg (show n ≠ 8 by omega), List.cons_prefix_cons] at h
      obtain ⟨rfl, h⟩ := h
      have he : (n + (bs.length + 1)) % 8 ≠ 0 := by simpa using he
      by_cases h7 : n = 7
      · subst h7
        have hb : bs ≠ [] := by rintro rfl; exact he rfl
        rw [insertSeparators, if_pos rfl, levelOfBit_bitOfLevel]
        cases ls with
        | nil => simp [removeSeparators, hb] at h
        | cons m ls =>
          cases m with
          | recessive => simp [removeSeparators, hb] at h
          | dominant =>
            simp only [removeSeparators, if_true] at h
            rw [List.cons_prefix_cons, List.cons_prefix_cons]
            exact ⟨rfl, rfl, ih 0 (by decide) ls h (Or.inr (by omega))⟩
      · rw [insertSeparators, if_neg h7, levelOfBit_bitOfLevel, List.cons_prefix_cons]
        exact ⟨rfl, ih (n + 1) (by omega) ls h (Or.inr (by omega))⟩

end Sys2Proof.Machine
end

