-- ==== Sys2Proof/Laws/Units.lean ====
section
/-! SUPPORT. The unit entries under the shared operations, the fan-stop outputs against R130, and the marking of items. -/

namespace Sys2Proof.Machine

variable (s : State)

/-! ### What the operations leave of the units -/

@[simp] theorem setNotice_units (i : Slot) : (s.setNotice i).units = s.units := rfl
@[simp] theorem changeCoil_units (i : Slot) (c : Coil) : (s.changeCoil i c).units = s.units := rfl
@[simp] theorem addFault_units (u : UnitNo) (k : FaultKind) :
    (s.addFault u k).units = tablePut s.units u { s.units[u] with faults := s.units[u].faults.add k } := rfl
@[simp] theorem recomputeFso_units (u : UnitNo) :
    (s.recomputeFso u).units = tablePut s.units u { s.units[u] with fso := s.fsoFor u } := rfl

@[simp] theorem chooseNotice_units : s.chooseNotice.units = s.units := by unfold State.chooseNotice; split <;> rfl

@[simp] theorem endEvent_units : s.endEvent.units = s.units := chooseNotice_units s

@[simp] theorem markDirty_units (it : Item) : (s.markDirty it).units = s.units := by
  unfold State.markDirty; split_ifs <;> rfl

/-- Adding a fault leaves every field of every unit but its fault summary. -/
theorem addFault_unit (u v : UnitNo) (k : FaultKind) :
    (s.addFault u k).units[v] =
      if v = u then { s.units[v] with faults := s.units[v].faults.add k } else s.units[v] := by
  rw [addFault_units, tablePut_get]
  split_ifs with h
  · rw [h]
  · rfl

/-- A kind that has been added stands in the summary (R133). -/
theorem faults_add_wire (f : FaultSummary) :
    (f.add .contactOpen).contactOpen = true ∧ (f.add .sensorLost).sensorLost = true
      ∧ (f.add .actuatorFail).actuatorFail = true ∧ (f.add .trip).trip = true
      ∧ (f.add .sequenceGap).sequenceGap = true := ⟨rfl, rfl, rfl, rfl, rfl⟩

/-! ### Fan-stop outputs (R130) -/

/-- A record that holds its unit's output: ARMED in TRIP or LOCKOUT, or SETTLING with a latch. -/
theorem holds_iff (c : Coil) : (c.tripped || c.settlesLatched) = true ↔
    (c.lifecycle = .armed ∧ (c.stage = .trip ∨ c.stage = .lockout)) ∨ (c.lifecycle = .settling ∧ c.latch ≠ .none) := by
  simp [Coil.tripped, Coil.settlesLatched]

theorem coilHoldsFan_iff (u : UnitNo) : s.coilHoldsFan u = true ↔
    ∃ i : Slot, s.coils[i].unit = u
      ∧ ((s.coils[i].lifecycle = .armed ∧ (s.coils[i].stage = .trip ∨ s.coils[i].stage = .lockout))
        ∨ (s.coils[i].lifecycle = .settling ∧ s.coils[i].latch ≠ .none)) := by
  have hm : ∀ c : Coil, c ∈ s.coils.toList ↔ ∃ i : Slot, s.coils[i] = c := by
    intro c
    rw [Vector.mem_toList_iff, Vector.mem_iff_getElem]
    exact ⟨fun ⟨i, h, e⟩ => ⟨⟨i, h⟩, e⟩, fun ⟨i, e⟩ => ⟨i.val, i.isLt, e⟩⟩
  rw [State.coilHoldsFan, List.any_eq_true]
  constructor
  · rintro ⟨c, hc, h⟩
    obtain ⟨i, rfl⟩ := (hm c).1 hc
    rw [Bool.and_eq_true, beq_iff_eq, holds_iff] at h
    exact ⟨i, h⟩
  · rintro ⟨i, h⟩
    refine ⟨s.coils[i], (hm _).2 ⟨i, rfl⟩, ?_⟩
    rw [Bool.and_eq_true, beq_iff_eq, holds_iff]
    exact h

/-- In service, the output that R130 gives is STOP exactly where one of its conditions holds. -/
theorem fsoFor_running (h : s.power = .running) (u : UnitNo) : s.fsoFor u = .stop ↔ s.MustStop u := by
  unfold State.fsoFor State.MustStop
  rw [h, ← coilHoldsFan_iff]
  split_ifs with hc <;> simpa using hc

/-- Whether a unit must stop depends on the contacts and the records alone. -/
theorem mustStop_congr {s t : State} (u : UnitNo) (hc : t.units[u].contact = s.units[u].contact) (h : t.coils = s.coils) :
    t.MustStop u ↔ s.MustStop u := by
  simp only [State.MustStop, hc, h]

/-- A unit none of whose records changes between holding the output and not holding it stands as before. -/
theorem mustStop_of_records {s t : State} (u : UnitNo) (hc : t.units[u].contact = s.units[u].contact)
    (h : ∀ i : Slot, (t.coils[i].unit = u ∧ (t.coils[i].tripped || t.coils[i].settlesLatched) = true)
      ↔ (s.coils[i].unit = u ∧ (s.coils[i].tripped || s.coils[i].settlesLatched) = true)) :
    t.MustStop u ↔ s.MustStop u := by
  simp only [holds_iff] at h
  simp only [State.MustStop, hc, h]

/-! ### Dirty marks (R188) -/

/-- A marked item waits in the queue, or is being written and marked for re-queue. -/
theorem markDirty_marks (it : Item) :
    it ∈ (s.markDirty it).storeQueue
      ∨ ∃ w, (s.markDirty it).writing = some w ∧ w.content.item = it ∧ w.requeue = true := by
  unfold State.markDirty
  split_ifs with hw hq
  · right
    rw [State.isWriting, Option.any_eq_true] at hw
    obtain ⟨w, he, h⟩ := hw
    exact ⟨{ w with requeue := true }, by simp [he], by simpa using h, rfl⟩
  · left; simpa using hq
  · left; simp

/-- Marking an item leaves every other in its place. -/
theorem markDirty_queue (it : Item) : (s.markDirty it).storeQueue = s.storeQueue
    ∨ (s.markDirty it).storeQueue = s.storeQueue ++ [it] := by
  unfold State.markDirty
  split_ifs <;> simp

end Sys2Proof.Machine
end

