-- ==== Sys2Proof/Laws/Requests.lean ====
section
/-! SUPPORT. The request handler: when a frame is taken, and what a request that is taken leaves. -/

namespace Sys2Proof.Machine

variable {s : State} {f : RxFrame} {rest : List RxFrame} {fn : Func} {owner : RxFrame → State → Handled}

theorem handlerReady_iff (s : State) : s.handlerReady = true ↔
    s.power = .running ∧ s.restartPending = false ∧ s.deferred = [] ∧ s.answers.length < 8 := by
  simp [State.handlerReady, Config.answerCapacity, and_assoc]

theorem takesFrame_ready (h : s.TakesFrame f rest) : s.handlerReady = true :=
  (handlerReady_iff s).2 h.2

/-- A frame of the right kind is taken, and its effect is made with the frame off the queue. -/
theorem takeFrame_takes (h : s.TakesFrame f rest) {p : RxFrame → Bool} (hp : p f = true)
    (effect : RxFrame → State → State) : takeFrame p effect s = effect f { s with rx := rest } := by
  simp [takeFrame, h.1, takesFrame_ready h, hp]

/-- The handler takes nothing while its conditions do not hold. -/
theorem takeFrame_waits (h : s.handlerReady = false) (p : RxFrame → Bool) (effect : RxFrame → State → State) :
    takeFrame p effect s = s := by
  unfold takeFrame; split <;> simp [h]

theorem takeFrame_empty (h : s.rx = []) (p : RxFrame → Bool) (effect : RxFrame → State → State) :
    takeFrame p effect s = s := by
  simp [takeFrame, h]

/-- A request of the function's own length reaches its owner, and the answer it gives joins the answer queue. -/
theorem takeRequest_takes (h : s.TakesRequest fn f rest) :
    takeRequest fn owner s =
      (match owner f { s with rx := rest } with
        | (t, some r) => t.pushAnswer (f.answer r)
        | (t, none) => t) := by
  obtain ⟨hf, hc, ha, hl⟩ := h
  rw [takeRequest, takeFrame_takes hf (by simp [hc])]
  exact (if_neg (by simp [ha])).trans (if_neg (by simp [hl]))

theorem takeRequest_answers (h : s.TakesRequest fn f rest) {t : State} {r : Reply}
    (ho : owner f { s with rx := rest } = (t, some r)) : takeRequest fn owner s = t.pushAnswer (f.answer r) := by
  rw [takeRequest_takes h, ho]

theorem takeRequest_defers (h : s.TakesRequest fn f rest) {t : State}
    (ho : owner f { s with rx := rest } = (t, none)) : takeRequest fn owner s = t := by
  rw [takeRequest_takes h, ho]

/-- The permissions of R136, as the statements say them. -/
theorem isSupervisor_iff (s : State) (a : Nat) : s.isSupervisor a = true ↔ s.Supervisor a := by
  simp [State.isSupervisor, State.Supervisor]

theorem mayEdit_iff (s : State) (a : Nat) (i : Slot) : s.mayEdit a i = true ↔ s.Permitted a i := by
  simp [State.mayEdit, State.Permitted, State.isUnitController, isSupervisor_iff, State.Supervisor]

/-- Taking a frame and marking an item do not touch each other. -/
theorem markDirty_rx (s : State) (r : List RxFrame) (it : Item) :
    ({ s with rx := r } : State).markDirty it = { s.markDirty it with rx := r } := by
  have hw : ({ s with rx := r } : State).isWriting it = s.isWriting it := rfl
  unfold State.markDirty
  rw [hw]
  by_cases h : s.isWriting it = true
  · rw [if_pos h, if_pos h]
  · rw [if_neg h, if_neg h]
    by_cases hq : s.storeQueue.contains it = true
    · rw [if_pos hq, if_pos hq]
    · rw [if_neg hq, if_neg hq]

theorem slotOf_val (i : Slot) : slotOf i.val = some i := by simp [slotOf]

theorem slotOf_eq_none {n : Nat} (h : 47 < n) : slotOf n = none := by simp [slotOf]; omega

theorem unitOf_val (u : UnitNo) : unitOf u.val = some u := by simp [unitOf]

theorem zoneOf_val (z : Fin 16) : zoneOf z.val = some z := by simp [zoneOf]

/-- A request that names a non-vacant slot is judged on its record. -/
theorem withRecord_named {i : Slot} {n : Nat} (hn : n = i.val) (h : s.coils[i].lifecycle ≠ .vacant) (k : Slot → Handled) :
    withRecord s n k = k i := by
  rw [withRecord, hn, slotOf_val]; exact if_neg h

theorem withRecord_outOfRange {n : Nat} (h : 47 < n) (k : Slot → Handled) : withRecord s n k = refuse s .outOfRange := by
  rw [withRecord, slotOf_eq_none h]

theorem withRecord_vacant {i : Slot} {n : Nat} (hn : n = i.val) (h : s.coils[i].lifecycle = .vacant) (k : Slot → Handled) :
    withRecord s n k = refuse s .noRecord := by
  rw [withRecord, hn, slotOf_val]; exact if_pos h

/-- The shared checks of STAGE functions, COMMIT and ABANDON pass for a permitted holder of an OPEN claim. -/
theorem withClaim_passes {n : ClaimNo} {c : Claim} (hc : s.claimOf f.sender = some (n, c))
    (hp : s.mayEdit f.sender c.slot = true) (ho : c.isCommitted = false) (k : ClaimNo → Claim → Handled) :
    withClaim f s k = k n c := by
  simp [withClaim, hc, hp, ho]

/-- Every command answers a next state. -/
theorem exec_next (c : Instr) (s : State) : ∃ t, exec c s = .next t := by
  cases c <;> exact ⟨_, rfl⟩

/-- Every step answers a next state. -/
theorem step_next (s : State) : ∃ t, step s = .next t := by
  unfold step
  split
  · exact exec_next _ _
  · unfold State.idle
    split
    · exact exec_next _ _
    · exact ⟨_, rfl⟩

end Sys2Proof.Machine
end

