-- ==== Sys2Proof/Laws/OwnEvents.lean ====
section
/-! SUPPORT. The event that the part makes by itself on an empty queue: what the choice of a due timer gives. -/

namespace Sys2Proof.Machine

/-- A list's choice of the timer that has been due the longest, beside the best before it. -/
theorem earlierDue_fold (now : Nat) (l : List TimerEvent) (best : Option (Nat × Instr)) (hb : ∀ b, best = some b → b.1 ≤ now) :
    let r := l.foldl (earlierDue now) best
    (r = none → best = none ∧ ∀ e ∈ l, ∀ t, e.1 = some t → now < t)
    ∧ ∀ b, r = some b → (best = some b ∨ (some b.1, b.2) ∈ l) ∧ b.1 ≤ now
      ∧ (∀ a, best = some a → b.1 ≤ a.1) ∧ ∀ e ∈ l, ∀ t, e.1 = some t → b.1 ≤ t := by
  have same {best : Option (Nat × Instr)} {a b : Nat × Instr} (h : best = some b) (ha : best = some a) : b.1 ≤ a.1 := by
    rw [h] at ha; cases ha; exact le_rfl
  induction l generalizing best with
  | nil => exact ⟨fun h => ⟨h, by simp⟩, fun b h => ⟨Or.inl h, hb b h, fun a ha => same h ha, by simp⟩⟩
  | cons x l ih =>
    obtain ⟨timer, c⟩ := x
    have step : ∃ best', earlierDue now best (timer, c) = best' ∧ (∀ b, best' = some b → b.1 ≤ now)
        ∧ (best' = none → best = none ∧ ∀ t, timer = some t → now < t)
        ∧ ∀ b, best' = some b → (best = some b ∨ (some b.1, b.2) = (timer, c)) ∧ (∀ a, best = some a → b.1 ≤ a.1)
          ∧ ∀ t, timer = some t → b.1 ≤ t := by
      refine ⟨_, rfl, ?_⟩
      unfold earlierDue
      cases timer with
      | none => exact ⟨hb, fun h => ⟨h, by simp⟩, fun b h => ⟨Or.inl h, fun a ha => same h ha, by simp⟩⟩
      | some t =>
        dsimp only
        split_ifs with hlt
        · refine ⟨hb, fun h => ⟨h, fun t' ht => by cases ht; exact hlt⟩, fun b h => ⟨Or.inl h, fun a ha => ?_, fun t' ht => ?_⟩⟩
          · exact same h ha
          · cases ht; exact le_trans (hb b h) hlt.le
        · cases best with
          | none => simp; omega
          | some a =>
            dsimp only
            split_ifs with hta
            · simp; omega
            · have := hb a rfl
              simp; omega
    obtain ⟨best', hbest, h1, h2, h3⟩ := step
    obtain ⟨g1, g2⟩ := ih best' h1
    simp only [List.foldl_cons, hbest]
    refine ⟨fun h => ?_, fun b h => ?_⟩
    · obtain ⟨hn, hl⟩ := g1 h
      obtain ⟨hn, ht⟩ := h2 hn
      refine ⟨hn, fun e he t het => ?_⟩
      rcases List.mem_cons.1 he with rfl | he
      · exact ht t het
      · exact hl e he t het
    · obtain ⟨hm, hle, ha, hl⟩ := g2 b h
      cases hb' : best' with
      | none =>
        obtain ⟨hn, ht⟩ := h2 hb'
        refine ⟨Or.inr (List.mem_cons_of_mem _ (hm.resolve_left (by simp [hb']))), hle, fun a h => by simp [hn] at h, ?_⟩
        intro e he t het
        rcases List.mem_cons.1 he with rfl | he
        · exact le_trans hle (ht t het).le
        · exact hl e he t het
      | some b' =>
        obtain ⟨k1, k2, k3⟩ := h3 b' hb'
        have hbb := ha b' hb'
        refine ⟨?_, hle, fun a h => le_trans hbb (k2 a h), fun e he t het => ?_⟩
        · rcases hm with hm | hm
          · rw [hb'] at hm; cases hm
            rcases k1 with h | h
            · exact Or.inl h
            · exact Or.inr (h ▸ List.mem_cons_self)
          · exact Or.inr (List.mem_cons_of_mem _ hm)
        · rcases List.mem_cons.1 he with rfl | he
          · exact le_trans hbb (k3 t het)
          · exact hl e he t het

/-- The timer that has been due the longest, if any is due (log 4). -/
theorem dueTimer_spec (s : State) :
    (s.dueTimer = none → ∀ e ∈ s.timers, ∀ t, e.1 = some t → s.now < t)
    ∧ ∀ c, s.dueTimer = some c → ∃ t, (some t, c) ∈ s.timers ∧ t ≤ s.now ∧ ∀ e ∈ s.timers, ∀ t', e.1 = some t' → t ≤ t' := by
  obtain ⟨h1, h2⟩ := earlierDue_fold s.now s.timers none (by simp)
  refine ⟨fun h => (h1 (Option.map_eq_none_iff.1 h)).2, fun c h => ?_⟩
  obtain ⟨b, hb, rfl⟩ := Option.map_eq_some_iff.1 h
  obtain ⟨hm, hle, _, hl⟩ := h2 b hb
  exact ⟨b.1, hm.resolve_left (by simp), hle, hl⟩

end Sys2Proof.Machine
end

