-- ==== Sys2Proof/Laws/Promises.lean ====
section
/-! SUPPORT. What the shared operations do to the promises that every step keeps: distinct tags and claims, the miss accounts, the
ranges of definitions, and the store write queue. -/

namespace Sys2Proof.Machine

/-! ### Tags and claims (R3, R140) -/

theorem tagHeld_eq_false {s : State} {tag : Nat} :
    s.tagHeld tag = false ↔ ∀ i : Slot, s.coils[i].lifecycle ≠ .vacant → s.coils[i].tag ≠ tag := by
  have h : s.coils.toList = (List.finRange 48).map fun i => s.coils[i] := by apply List.ext_getElem <;> simp
  simp [State.tagHeld, h, List.any_eq_false]

/-- A record put where its tag is free, or where the tag stays, leaves the tags distinct. -/
theorem setCoil_tagsDistinct {s : State} {i : Slot} {c : Coil} (hs : s.TagsDistinct)
    (hc : c.lifecycle ≠ .vacant → ∀ j : Slot, j ≠ i → s.coils[j].lifecycle ≠ .vacant → s.coils[j].tag ≠ c.tag) :
    (s.setCoil i c).TagsDistinct := by
  intro j k
  simp only [State.setCoil, tablePut_get]
  split_ifs with hj hk hk
  · exact fun _ _ _ => hj.trans hk.symm
  · exact fun h1 h2 h => (hc h1 k hk h2 h.symm).elim
  · exact fun h1 h2 h => (hc h2 j hj h1 h).elim
  · exact hs j k

theorem claimOn_eq_none {s : State} {i : Slot} :
    s.claimOn i = none ↔ ∀ (n : ClaimNo) (c : Claim), s.claims[n] = some c → c.slot ≠ i := by
  simp only [State.claimOn, List.findSome?_eq_none_iff, List.mem_finRange, true_imp_iff]
  refine forall_congr' fun n => ?_
  cases s.claims[n] <;> simp

theorem claimOf_eq_none {s : State} {a : Nat} :
    s.claimOf a = none ↔ ∀ (n : ClaimNo) (c : Claim), s.claims[n] = some c → c.holder ≠ a := by
  simp only [State.claimOf, List.findSome?_eq_none_iff, List.mem_finRange, true_imp_iff]
  refine forall_congr' fun n => ?_
  cases s.claims[n] <;> simp

theorem claimOf_holds {s : State} {a : Nat} {n : ClaimNo} {c : Claim} (h : s.claimOf a = some (n, c)) :
    s.claims[n] = some c ∧ c.holder = a := by
  obtain ⟨m, -, hm⟩ := List.exists_of_findSome?_eq_some h
  cases hc : s.claims[m] with
  | none => simp [hc] at hm
  | some d =>
    simp only [hc, Option.bind_some] at hm
    split_ifs at hm with hd
    simp only [Option.some.injEq, Prod.mk.injEq] at hm
    exact hm.1 ▸ hm.2 ▸ ⟨hc, hd⟩

/-- A claim put where no other claim has its record or its holder leaves the claims distinct. -/
theorem setClaim_claimsDistinct {s : State} {n : ClaimNo} {o : Option Claim} (hs : s.ClaimsDistinct)
    (ho : ∀ c ∈ o, ∀ (m : ClaimNo) (d : Claim), m ≠ n → s.claims[m] = some d → d.slot ≠ c.slot ∧ d.holder ≠ c.holder) :
    (s.setClaim n o).ClaimsDistinct := by
  intro j k c d
  simp only [State.setClaim, tablePut_get]
  split_ifs with hj hk hk
  · exact fun _ _ _ => hj.trans hk.symm
  · exact fun hc hd h => (h.elim (fun e => (ho c hc k d hk hd).1 e.symm) fun e => (ho c hc k d hk hd).2 e.symm).elim
  · exact fun hc hd h => (h.elim (ho d hd j c hj hc).1 (ho d hd j c hj hc).2).elim
  · exact hs j k c d

/-! ### Miss accounts (R35 to R37, R42) -/

theorem new_inAccount (k : PointKey) (refs : Nat) : (PointEntry.new k refs).InAccount := by
  simp [PointEntry.InAccount, PointEntry.new]

theorem takeFault_inAccount {e : PointEntry} (h : e.InAccount) (r : Reading) : (e.takeFault r).InAccount := by
  simp [PointEntry.InAccount, PointEntry.takeFault, h.2.1]

theorem takeGood_inAccount (e : PointEntry) (r : Reading) : (e.takeGood r).InAccount := by
  simp only [PointEntry.InAccount, PointEntry.takeGood]
  exact ⟨by split_ifs <;> omega, by omega, by omega⟩

theorem endPeriod_inAccount {e : PointEntry} (h : e.InAccount) : e.endPeriod.InAccount := by
  unfold PointEntry.endPeriod
  split_ifs
  · exact h
  · refine ⟨h.1, Nat.min_le_left _ _, fun h3 => ?_⟩
    simp only at h3
    cases hq : e.quality <;> simp [missedQuality, h3]

/-! ### Ranges of definitions (R4, R147, R148) -/

theorem clampTo_range {lo hi x : Int} (h : lo ≤ hi) : lo ≤ clampTo lo hi x ∧ clampTo lo hi x ≤ hi := by
  unfold clampTo; omega

/-- A binding of a candidate whose key is in range lies in its range, if the record's does. -/
theorem mergeBinding_inRange {staged : Option StagedBinding} {old : Option Binding} (ho : ∀ b ∈ old, b.InRange)
    (hk : ∀ b ∈ mergeBinding (staged.map StagedBinding.clamped) old, StationInRange b.key.station ∧ b.key.point ≤ 63) :
    ∀ b ∈ mergeBinding (staged.map StagedBinding.clamped) old, b.InRange := by
  rcases staged with _ | _ | d
  · exact ho
  · simp [mergeBinding, StagedBinding.clamped]
  · intro b hb
    obtain ⟨h1, h2⟩ := hk b hb
    obtain rfl : { d with offset := clampTo (-50) 50 d.offset } = b := by
      simpa [mergeBinding, StagedBinding.clamped] using hb
    exact ⟨h1, h2, clampTo_range (by decide)⟩

/-- The definition that a COMMIT which passes its checks gives a record lies in its ranges, if the record's definition does. -/
theorem commit_definitionInRange {st : Staging} {c : Coil} (hc : DefinitionInRange c.lat c.ft c.profile)
    (hr : (st.clamped.over c).WithinRanges) (hd : (st.clamped.over c).DosesOrdered) :
    DefinitionInRange (st.clamped.over c).lat (st.clamped.over c).ft (st.clamped.over c).profile := by
  obtain ⟨hlat, hft, hp⟩ := hc
  obtain ⟨rl, rd, rm, ra, rf⟩ := hr
  refine ⟨mergeBinding_inRange hlat ra, mergeBinding_inRange hft rf, fun p hp' => ?_⟩
  have hw : ∀ l ∈ (st.clamped.over c).limits, 5 ≤ l.watchBand ∧ l.watchBand ≤ 200 ∧ 1 ≤ l.decay ∧ l.decay ≤ 1000 := by
    intro l hl
    cases hs : st.limits with
    | some x =>
      obtain rfl : x.clamped = l := by simpa [Staging.over, Staging.clamped, hs] using hl
      exact ⟨(clampTo_range (by decide)).1, (clampTo_range (by decide)).2, clampTo_range (by decide)⟩
    | none =>
      obtain ⟨q, hq, rfl⟩ : ∃ q, c.profile = some q ∧ q.limits = l := by simpa [Staging.over, Staging.clamped, hs] using hl
      have := hp q hq
      exact ⟨by omega, by omega, by omega, by omega⟩
  have hh : ∀ h ∈ (st.clamped.over c).hold, 30 ≤ h ∧ h ≤ 1800 := by
    intro h hl
    cases hs : st.timing with
    | some x =>
      obtain rfl : clampedHold x = h := by simpa [Staging.over, Staging.clamped, hs] using hl
      unfold clampedHold; omega
    | none =>
      obtain ⟨q, hq, rfl⟩ : ∃ q, c.profile = some q ∧ q.hold = h := by simpa [Staging.over, Staging.clamped, hs] using hl
      have := hp q hq
      exact ⟨by omega, by omega⟩
  revert rl rd rm hd hw hh hp'
  unfold Candidate.profile
  generalize st.clamped.over c = cd
  rcases cd with ⟨_ | l, _ | d, _ | h, _ | m, _, _⟩ <;> simp only [Option.mem_def, reduceCtorEq, false_imp_iff, implies_true]
  intro hd rl rd rm hp' hw hh
  obtain rfl := Option.some.inj hp'
  obtain ⟨l1, l2, l3, l4⟩ := rl l rfl
  obtain ⟨d1, d2, d3⟩ := hd d rfl
  obtain ⟨w1, w2, w3, w4⟩ := hw l rfl
  obtain ⟨h1, h2⟩ := hh h rfl
  exact ⟨l1, l2, l3, l4, w1, w2, w3, w4, Nat.one_le_iff_ne_zero.2 (rd d rfl).1, d1, d2, d3, h1, h2, rm m rfl⟩

/-! ### The store write queue (R188) -/

theorem markDirty_storeQueuedOnce {s : State} (h : s.StoreQueuedOnce) (it : Item) : (s.markDirty it).StoreQueuedOnce := by
  obtain ⟨hn, hw⟩ := h
  unfold State.markDirty
  split_ifs with h1 h2
  · refine ⟨hn, fun w hx => ?_⟩
    obtain ⟨v, hv, rfl⟩ := Option.map_eq_some_iff.1 hx
    exact hw v hv
  · exact ⟨hn, hw⟩
  · have h2 : it ∉ s.storeQueue := by simpa using h2
    refine ⟨List.nodup_append.2 ⟨hn, by simp, fun x hx y hy e => h2 ?_⟩, fun w hx hm => ?_⟩
    · obtain rfl := List.mem_singleton.1 hy
      exact e ▸ hx
    · rcases List.mem_append.1 hm with hm | hm
      · exact hw w hx hm
      · simp only [State.isWriting, show s.writing = some w from hx] at h1
        exact h1 (by simpa using List.mem_singleton.1 hm)

theorem allItems_nodup : allItems.Nodup := by decide +kernel

/-- The stale items that the store retry timer queues join a queue that holds none of them. -/
theorem storeRetry_storeQueuedOnce {s : State} (h : s.StoreQueuedOnce) :
    ({ s with storeQueue := s.storeQueue ++ s.retryItems, storeRetry := none } : State).StoreQueuedOnce := by
  obtain ⟨hn, hw⟩ := h
  have hr : ∀ it ∈ s.retryItems, it ∉ s.storeQueue ∧ s.isWriting it = false := by
    intro it hit
    have := (List.mem_filter.1 hit).2
    simpa [and_assoc] using (by simpa using this : (_ ∧ it ∉ s.storeQueue) ∧ s.isWriting it = false) |>.imp And.right id
  refine ⟨List.nodup_append.2 ⟨hn, allItems_nodup.filter _, fun x hx y hy e => (hr y hy).1 (e ▸ hx)⟩, fun w hx hm => ?_⟩
  rcases List.mem_append.1 hm with hm | hm
  · exact hw w hx hm
  · have := (hr _ hm).2
    simp [State.isWriting, show s.writing = some w from hx] at this

end Sys2Proof.Machine
end

