-- ==== Sys2Proof/Laws/StepDown.lean ====
section
/-! SUPPORT. What the test for drops does to a record in STEP_DOWN: the relation TestsDrops of the statements (R86 to R88). -/

namespace Sys2Proof.Machine

variable {s : State} {c : Coil} {d : Dropped} {i : Slot}

/-! ### The pairs left to drop -/

/-- A definition has one pair of a kind at most (R5). -/
theorem pairsOf_filter (a : Option Nat) (kind : Option CoilKind) (m : Option ActionMap) (x : ActionKind) :
    (pairsOf a kind m).filter (fun k => k.kind == x) = [] ∨ ∃ b, (pairsOf a kind m).filter (fun k => k.kind == x) = [⟨b, x⟩] := by
  rcases m with _ | ⟨v, p, b⟩
  · cases a <;> cases x <;> simp [pairsOf]
  · by_cases hs : kind = some .steam <;> cases a <;> cases v <;> cases p <;> cases b <;> cases x <;> simp [pairsOf, hs]

theorem mem_dropsLeft {k : DemandKey} :
    k ∈ s.dropsLeft c d ↔ k ∈ s.targetPairs c ∧ k.kind ≠ .fs ∧ d.has k.kind = false := by
  rcases k with ⟨a, kind⟩
  cases kind <;> simp [State.dropsLeft]

theorem hasPair_eq (k : ActionKind) : s.hasPair c k = !((s.targetPairs c).filter fun key => key.kind == k).isEmpty := by
  rw [State.hasPair, Bool.eq_iff_iff]
  simp

theorem has_add (x y : ActionKind) : (d.add x).has y = (d.has y || (x == y && x != .fs)) := by
  cases x <;> cases y <;> simp [Dropped.has, Dropped.add]

theorem has_add_other {x y : ActionKind} (h : x ≠ y) : (d.add x).has y = d.has y := by simp [has_add, beq_eq_false_iff_ne.2 h]

theorem has_add_same {x : ActionKind} (h : x ≠ .fs) : (d.add x).has x = true := by simp [has_add, h]

/-- The pairs left of some kinds, in their order. -/
theorem left_next (f : ActionKind → List DemandKey) (hf : ∀ x, f x = [] ∨ ∃ b, f x = [⟨b, x⟩]) (l : List ActionKind)
    (hl : l.Nodup) (hs : ActionKind.fs ∉ l) :
    let left (d : Dropped) : List DemandKey := l.flatMap fun x => (f x).filter fun _ => !d.has x
    (left d = [] → (l.find? fun x => !d.has x && !(f x).isEmpty) = none)
    ∧ ∀ k rest, left d = k :: rest →
      (l.find? fun x => !d.has x && !(f x).isEmpty) = some k.kind ∧ left (d.add k.kind) = rest ∧ k ∉ rest ∧ k.kind ∈ l := by
  induction l with
  | nil => simp
  | cons x l ih =>
    obtain ⟨hx, hl⟩ := List.nodup_cons.1 hl
    have ih := ih hl fun h => hs (List.mem_cons_of_mem _ h)
    have hxs : x ≠ .fs := fun h => hs (h ▸ List.mem_cons_self)
    have hmem (d' : Dropped) (k : DemandKey) (hk : k ∈ l.flatMap fun x => (f x).filter fun _ => !d'.has x) : k.kind ∈ l := by
      obtain ⟨y, hy, hk⟩ := List.mem_flatMap.1 hk
      rcases hf y with h | ⟨b, h⟩
      · simp [h] at hk
      · have : k = ⟨b, y⟩ := by simpa [h] using (List.mem_filter.1 hk).1
        rw [this]; exact hy
    simp only [List.flatMap_cons, List.find?_cons] at ih ⊢
    by_cases hd : d.has x = true
    · have hd' (y : ActionKind) : (d.add y).has x = true := by simp [has_add, hd]
      simp only [hd, hd', Bool.not_true, Bool.false_and, List.filter_false, List.nil_append]
      exact ⟨ih.1, fun k rest h => ⟨(ih.2 k rest h).1, (ih.2 k rest h).2.1, (ih.2 k rest h).2.2.1,
        List.mem_cons_of_mem _ (ih.2 k rest h).2.2.2⟩⟩
    · rcases hf x with h0 | ⟨b, h0⟩
      · simp only [h0, List.filter_nil, List.nil_append, List.isEmpty_nil, Bool.not_true, Bool.and_false]
        exact ⟨ih.1, fun k rest h => ⟨(ih.2 k rest h).1, (ih.2 k rest h).2.1, (ih.2 k rest h).2.2.1,
          List.mem_cons_of_mem _ (ih.2 k rest h).2.2.2⟩⟩
      · have hd : d.has x = false := by simpa using hd
        have hsame : (l.flatMap fun y => (f y).filter fun _ => !(d.add x).has y)
            = l.flatMap fun y => (f y).filter fun _ => !d.has y :=
          List.flatMap_congr fun y hy => by
            have hxy : x ≠ y := fun h => hx (h ▸ hy)
            rw [has_add_other hxy]
        simp only [h0, hd, Bool.not_false, List.filter_true, List.singleton_append, List.isEmpty_cons, Bool.and_self]
        refine ⟨by simp, fun k rest h => ?_⟩
        obtain ⟨rfl, rfl⟩ := List.cons.inj h
        refine ⟨rfl, ?_, fun hm => hx (hmem d _ hm), List.mem_cons_self⟩
        simp only [has_add_same hxs, Bool.not_true, List.filter_false, List.nil_append]
        exact hsame

/-- The next kind to drop is that of the first pair left; dropping it leaves the others (R86). -/
theorem dropsLeft_next :
    (s.dropsLeft c d = [] → s.nextDrop c d = none)
    ∧ ∀ k rest, s.dropsLeft c d = k :: rest →
      s.nextDrop c d = some k.kind ∧ s.dropsLeft c (d.add k.kind) = rest ∧ k ∉ rest := by
  have h := left_next (d := d) (fun x => (s.targetPairs c).filter fun k => k.kind == x)
    (fun x => pairsOf_filter _ _ _ x) dropOrder (by decide) (by decide)
  have hl (d : Dropped) : s.dropsLeft c d
      = dropOrder.flatMap fun x => ((s.targetPairs c).filter fun k => k.kind == x).filter fun _ => !d.has x := by
    simp only [State.dropsLeft, dropOrder, List.filter_filter, Bool.and_comm]
  simp only [hl, State.nextDrop, hasPair_eq]
  exact ⟨h.1, fun k rest hk => ⟨(h.2 k rest hk).1, (h.2 k rest hk).2.1, (h.2 k rest hk).2.2.1⟩⟩

/-! ### One drop -/

/-- Removing contributions leaves the entries of other keys, and takes one off each of theirs that keeps a map reference (R91). -/
theorem demandOf_contributeAll (stamp : Nat) (removed : List DemandKey) (ds : List DemandEntry) (k : DemandKey) :
    (k ∉ removed → demandOf (contributeAll stamp removed [] ds) k = demandOf ds k)
    ∧ ∀ e, k ∈ removed → demandOf ds k = some e → 1 ≤ e.mapRefs →
      demandOf (contributeAll stamp removed [] ds) k = some (({ e with demand := e.demand - 1 } : DemandEntry).compare stamp) := by
  induction ds with
  | nil => simp [demandOf, contributeAll]
  | cons x ds ih =>
    have hk : (x.contribute stamp removed []).key = x.key := contribute_key stamp removed [] x
    simp only [demandOf, contributeAll, List.map_cons, List.filter_cons, List.find?_cons] at ih ⊢
    by_cases hx : x.key = k
    · subst hx
      refine ⟨fun hn => ?_, fun e hm he hr => ?_⟩
      · have h0 : x.contribute stamp removed [] = x := by simp [DemandEntry.contribute, hn]
        simp [h0, hn]
      · simp only [beq_self_eq_true, Option.some.injEq] at he
        subst he
        have h1 : x.contribute stamp removed [] = ({ x with demand := x.demand - 1 } : DemandEntry).compare stamp := by
          simp [DemandEntry.contribute, hm]
        have h2 : (x.contribute stamp removed []).removable = false := by
          have := contribute_mapRefs stamp removed [] x
          simp only [DemandEntry.removable, this, Bool.and_eq_false_iff, beq_eq_false_iff_ne]
          exact Or.inl (by omega)
        simp only [hk, hm, h2, List.not_mem_nil, decide_false, decide_true, Bool.or_true, Bool.and_false, Bool.not_false,
          if_true, List.find?_cons, beq_self_eq_true]
        rw [h1]
    · have hb : (x.key == k) = false := beq_eq_false_iff_ne.2 hx
      simp only [hb]
      split
      · simp only [List.find?_cons, hk, hb]; exact ih
      · exact ih

/-- The pairs that an ARMED record in STEP_DOWN demands are those left to drop (R90). -/
theorem mem_demandedPairs_stepDown (ha : c.lifecycle = .armed) (hc : c.stage = .recovery (.stepDown d)) {k : DemandKey} :
    k ∈ s.demandedPairs c ↔ k ∈ s.dropsLeft c d := by
  rw [mem_dropsLeft, State.demandedPairs, if_pos ha, List.mem_filter, hc]
  simp [Stage.demands]

/-- A drop changes the record's progress, takes one off the demand count of its pair, and leaves the rest (R86, R91). -/
theorem dropKind_spec (ha : s.coils[i].lifecycle = .armed) (hc : s.coils[i].stage = .recovery (.stepDown d)) {k : DemandKey}
    (hk : k ∈ s.dropsLeft s.coils[i] d) :
    s.dropKind i d k.kind = { s.setCoil i { s.coils[i] with stage := .recovery (.stepDown (d.add k.kind)) } with
        demands := (s.dropKind i d k.kind).demands }
    ∧ (∀ j, j ≠ k → demandOf (s.dropKind i d k.kind).demands j = demandOf s.demands j)
    ∧ ∀ e, demandOf s.demands k = some e → 1 ≤ e.mapRefs →
      demandOf (s.dropKind i d k.kind).demands k
        = some (({ e with demand := e.demand - 1 } : DemandEntry).compare s.joinStamp) := by
  let c' : Coil := { s.coils[i] with stage := .recovery (.stepDown (d.add k.kind)) }
  obtain ⟨hp, hf, hd⟩ := mem_dropsLeft.1 hk
  have hafter (j : DemandKey) : j ∈ s.demandedPairs c' ↔ j ∈ s.dropsLeft s.coils[i] (d.add k.kind) :=
    mem_demandedPairs_stepDown (c := c') (d := d.add k.kind) ha rfl
  have hadded : (s.demandedPairs c').filter (fun j => j ∉ s.demandedPairs s.coils[i]) = [] := by
    refine List.filter_eq_nil_iff.2 fun j hj => ?_
    obtain ⟨h1, h2, h3⟩ := mem_dropsLeft.1 ((hafter j).1 hj)
    rw [has_add, Bool.or_eq_false_iff] at h3
    simpa using (mem_demandedPairs_stepDown ha hc).2 (mem_dropsLeft.2 ⟨h1, h2, h3.1⟩)
  have hremoved (j : DemandKey) : j ∈ (s.demandedPairs s.coils[i]).filter (fun j => j ∉ s.demandedPairs c') ↔ j = k := by
    rw [List.mem_filter, decide_eq_true_eq, hafter, mem_demandedPairs_stepDown ha hc, mem_dropsLeft, mem_dropsLeft]
    constructor
    · rintro ⟨⟨h1, h2, h3⟩, h4⟩
      refine pairsOf_kind_inj h1 hp ?_
      by_contra hn
      exact h4 ⟨h1, h2, by rw [has_add_other (Ne.symm hn)]; exact h3⟩
    · rintro rfl
      exact ⟨⟨hp, hf, hd⟩, fun h => by rw [has_add_same hf] at h; exact absurd h.2.2 (by simp)⟩
  have hds : (s.dropKind i d k.kind).demands
      = contributeAll s.joinStamp ((s.demandedPairs s.coils[i]).filter fun j => j ∉ s.demandedPairs c') [] s.demands := by
    show contributeAll s.joinStamp _ ((s.demandedPairs c').filter fun j => j ∉ s.demandedPairs s.coils[i]) s.demands = _
    rw [hadded]
  refine ⟨rfl, fun j hj => ?_, fun e he hr => ?_⟩
  · rw [hds]; exact (demandOf_contributeAll _ _ _ j).1 fun h => hj ((hremoved j).1 h)
  · rw [hds]; exact (demandOf_contributeAll _ _ _ k).2 e ((hremoved k).2 rfl) he hr

/-! ### The test -/

/-- The model's wait for the kind dropped last (R87). -/
theorem waitsOnDrop_iff : s.waitsOnDrop c d = true ↔ ∃ k, s.DroppedLast c d k ∧ s.Waits k := by
  simp only [← lastDropped_iff, State.waitsOnDrop, Option.any_eq_true, Option.bind_eq_some_iff, Bool.or_eq_true, State.Waits]
  constructor
  · rintro ⟨e, ⟨k, hk, he⟩, h⟩; exact ⟨k, hk, e, he, h⟩
  · rintro ⟨k, hk, e, he, h⟩; exact ⟨e, ⟨k, hk, he⟩, h⟩

theorem markDirty_demands (it : Item) : (s.markDirty it).demands = s.demands := by
  unfold State.markDirty; split_ifs <;> rfl

/-- The completion of STEP_DOWN leaves every demand entry: the record demanded nothing any more (R88, R91). -/
theorem finishStepDown_demandOf (h : s.demandedPairs s.coils[i] = []) (j : DemandKey) :
    demandOf (s.finishStepDown i).demands j = demandOf s.demands j := by
  let c' : Coil :=
    { s.coils[i] with
      stage := .clear, cause := .cleared, latch := .none, cleanTimer := some (s.now + Config.cleanTime) }
  have h1 : s.demandedPairs c' = [] := by simp [State.demandedPairs, c', Stage.demands]
  have hd : (s.finishStepDown i).demands = contributeAll s.joinStamp [] [] s.demands := by
    show (((s.changeCoil i c').markDirty (.coil i)).setNotice i).demands = _
    show ((s.changeCoil i c').markDirty (.coil i)).demands = _
    rw [markDirty_demands]
    show contributeAll s.joinStamp ((s.demandedPairs s.coils[i]).filter fun k => k ∉ s.demandedPairs c')
      ((s.demandedPairs c').filter fun k => k ∉ s.demandedPairs s.coils[i]) s.demands = _
    rw [h, h1]; rfl
  rw [hd]
  exact (demandOf_contributeAll _ _ _ j).1 List.not_mem_nil

theorem markDirty_congr {s t : State} (hq : t.storeQueue = s.storeQueue) (hw : t.writing = s.writing) (it : Item) :
    (t.markDirty it).storeQueue = (s.markDirty it).storeQueue ∧ (t.markDirty it).writing = (s.markDirty it).writing := by
  unfold State.markDirty State.isWriting
  rw [hq, hw]
  split_ifs <;> exact ⟨by simp only [hq], by simp only [hw]⟩

/-- The record as the completion of STEP_DOWN leaves it (R88). -/
theorem finishStepDown_fields (s : State) (i : Slot) :
    (s.finishStepDown i).coils = tablePut s.coils i
      { s.coils[i] with stage := .clear, cause := .cleared, latch := .none, cleanTimer := some (s.now + 3600000) }
    ∧ (s.finishStepDown i).storeQueue = (s.markDirty (.coil i)).storeQueue
    ∧ (s.finishStepDown i).writing = (s.markDirty (.coil i)).writing
    ∧ (s.finishStepDown i).noticeFlags = tablePut s.noticeFlags i true
    ∧ (s.finishStepDown i).notice = (s.notice.map fun n => if n.slot = i then { n with setAgain := true } else n)
    ∧ (s.finishStepDown i).units = s.units := by
  let t := s.changeCoil i
    { s.coils[i] with
      stage := .clear, cause := .cleared, latch := .none, cleanTimer := some (s.now + Config.cleanTime) }
  have hm := markDirty_congr (s := s) (t := t) rfl rfl (.coil i)
  have hf : (t.markDirty (.coil i)).noticeFlags = s.noticeFlags := by
    unfold State.markDirty; split_ifs <;> rfl
  have hu : (t.markDirty (.coil i)).units = s.units := by
    unfold State.markDirty; split_ifs <;> rfl
  have hn : (t.markDirty (.coil i)).notice = s.notice := by
    unfold State.markDirty; split_ifs <;> rfl
  refine ⟨?_, hm.1, hm.2, ?_, ?_, hu⟩
  · show (t.markDirty (.coil i)).coils = _
    rw [markDirty_coils]; rfl
  · show tablePut (t.markDirty (.coil i)).noticeFlags i true = _
    rw [hf]
  · show (t.markDirty (.coil i)).notice.map _ = _
    rw [hn]

/-- A test that drops nothing, since the record waits or has nothing left to drop. -/
theorem testsDrops_stays (hc : s.coils[i].stage = .recovery (.stepDown d))
    (hw : s.dropsLeft s.coils[i] d = [] ∨ s.waitsOnDrop s.coils[i] d = true) : s.TestsDrops s i d := by
  have hsame : { s.coils[i] with stage := .recovery (.stepDown d) } = s.coils[i] := by rw [← hc]
  refine ⟨0, Nat.zero_le _, fun m hm => absurd hm (Nat.not_lt_zero m), fun h0 => ?_, fun h => absurd h.1 (lt_irrefl 0),
    fun _ => ⟨hsame.symm, rfl, rfl⟩, fun h => absurd h.1 (lt_irrefl 0), fun j _ => ⟨rfl, fun _ h _ => h⟩,
    fun k e hk => by simp at hk, fun _ _ => rfl, fun _ _ => rfl, rfl, rfl⟩
  rcases hw with hw | hw
  · rw [hw] at h0; exact absurd h0 (Nat.not_lt_zero 0)
  · exact waitsOnDrop_iff.1 hw

/-- The loop over the drops makes the test of R87, as long as it may run for every pair left. -/
theorem dropLoop_testsDrops (n : Nat) (s : State) (d : Dropped) (ha : s.coils[i].lifecycle = .armed)
    (hc : s.coils[i].stage = .recovery (.stepDown d)) (hn : (s.dropsLeft s.coils[i] d).length ≤ n) :
    s.TestsDrops (s.dropLoop n i) i d := by
  induction n generalizing s d with
  | zero => exact testsDrops_stays hc (Or.inl (List.length_eq_zero_iff.1 (Nat.le_zero.1 hn)))
  | succ n ih =>
    unfold State.dropLoop
    simp only [hc]
    split_ifs with hw
    · exact testsDrops_stays hc (Or.inr hw)
    cases hl : s.dropsLeft s.coils[i] d with
    | nil => rw [(dropsLeft_next (s := s)).1 hl]; exact testsDrops_stays hc (Or.inl hl)
    | cons k rest =>
      obtain ⟨hnext, hrest, hnot⟩ := (dropsLeft_next (s := s)).2 k rest hl
      rw [hnext]
      have hmem : k ∈ s.dropsLeft s.coils[i] d := hl ▸ List.mem_cons_self
      obtain ⟨hs1, hother, hone⟩ := dropKind_spec ha hc hmem
      show s.TestsDrops (if ((s.dropKind i d k.kind).demandedPairs (s.dropKind i d k.kind).coils[i]).isEmpty then
        (s.dropKind i d k.kind).finishStepDown i else (s.dropKind i d k.kind).dropLoop n i) i d
      have hap : (s.dropKind i d k.kind).apart = s.apart := dropKind_apart s i d k.kind
      generalize s.dropKind i d k.kind = s1 at *
      have hc1 : s1.coils[i] = { s.coils[i] with stage := .recovery (.stepDown (d.add k.kind)) } := by
        rw [hs1]; exact tablePut_get_same _ _ _
      have hj1 (j : Slot) (hj : j ≠ i) : s1.coils[j] = s.coils[j] := by
        rw [hs1]; exact tablePut_get_other _ _ hj
      have ha1 : s1.coils[i].lifecycle = .armed := by rw [hc1]; exact ha
      have hst1 : s1.coils[i].stage = .recovery (.stepDown (d.add k.kind)) := by rw [hc1]
      have hu1 : s1.units = s.units := by rw [hs1]; rfl
      have hq1 : s1.storeQueue = s.storeQueue := by rw [hs1]; rfl
      have hw1 : s1.writing = s.writing := by rw [hs1]; rfl
      have hf1 : s1.noticeFlags = s.noticeFlags := by rw [hs1]; rfl
      have hn1 : s1.now = s.now := by rw [hs1]; rfl
      have ho1 : s1.notice = s.notice := by rw [hs1]; rfl
      have hs1 : s1.joinStamp = s.joinStamp := by rw [hs1]; rfl
      have htp : s1.targetPairs s1.coils[i] = s.targetPairs s.coils[i] := by
        rw [hc1]; unfold State.targetPairs; rw [hu1]
      have hleft (d' : Dropped) : s1.dropsLeft s1.coils[i] d' = s.dropsLeft s.coils[i] d' := by
        unfold State.dropsLeft; rw [htp]
      have hlast (d' : Dropped) (k' : DemandKey) : s1.DroppedLast s1.coils[i] d' k' ↔ s.DroppedLast s.coils[i] d' k' := by
        simp only [State.DroppedLast, htp]
      -- The kind dropped last before this drop does not wait after it either.
      have hfirst {t : State} (ht : ∀ j, j ∉ s.dropsLeft s.coils[i] d → demandOf t.demands j = demandOf s.demands j) :
          ¬ ∃ k', s.DroppedLast s.coils[i] d k' ∧ t.Waits k' := by
        rintro ⟨k', h1, e, he, h2⟩
        refine hw (waitsOnDrop_iff.2 ⟨k', h1, e, ?_, h2⟩)
        rw [← ht k', he]
        intro hm
        have hn := (mem_dropsLeft.1 hm).2.2
        rw [h1.2.1] at hn
        cases hn
      have hone' {t : State} (ht : demandOf t.demands k = demandOf s1.demands k) (e : DemandEntry)
          (he : demandOf s.demands k = some e) (hr : 1 ≤ e.mapRefs) :
          demandOf t.demands k = some (e.withDemand (e.demand - 1) s.joinStamp) :=
        (ht.trans (hone e he hr)).trans (congrArg some (compare_withDemand _ _ e))
      have hempty : (s1.demandedPairs s1.coils[i]).isEmpty = true ↔ rest = [] := by
        rw [List.isEmpty_iff, List.eq_nil_iff_forall_not_mem, List.eq_nil_iff_forall_not_mem]
        refine forall_congr' fun j => not_congr ?_
        rw [mem_demandedPairs_stepDown ha1 hst1, hleft, hrest]
      split_ifs with hd
      · unfold State.TestsDrops
        have hr : rest = [] := hempty.1 hd
        subst hr
        have ht := finishStepDown_demandOf (List.isEmpty_iff.1 hd)
        obtain ⟨gc, gq, gw, gf, gn, gu⟩ := finishStepDown_fields s1 i
        have hframe (j : DemandKey) (hj : j ∉ [k]) : demandOf (s1.finishStepDown i).demands j = demandOf s.demands j := by
          rw [ht, hother j fun h => hj (h ▸ List.mem_cons_self)]
        have hm := markDirty_congr hq1 hw1 (.coil i)
        simp only [hl]
        refine ⟨1, le_rfl, fun m hm => ?_, fun h => absurd h (lt_irrefl 1), fun _ => ⟨?_, gq.trans hm.1, gw.trans hm.2⟩,
          fun h => absurd ⟨Nat.one_pos, rfl⟩ h, fun _ => ⟨?_, fun n hn hi => ?_⟩, fun j hj => ⟨?_, fun n hn hi => ?_⟩,
          fun k' e hk he hr => ?_, fun k' hk => hframe k' hk, fun j hj => ?_,
          gu.trans hu1, (finishStepDown_apart s1 i).trans hap⟩
        · obtain rfl : m = 0 := by omega
          exact hfirst fun j hj => hframe j (hl ▸ hj)
        · rw [gc, tablePut_get_same, hc1, hn1]
        · rw [gf, tablePut_get_same]
        · rw [gn, ho1, hn, Option.map_some, if_pos hi]
        · have hj : j ≠ i := fun h => hj ⟨h, Nat.one_pos, rfl⟩
          rw [gf, tablePut_get_other _ _ hj, hf1]
        · have hj : n.slot ≠ i := fun h => hj ⟨hi.symm.trans h, Nat.one_pos, rfl⟩
          rw [gn, ho1, hn, Option.map_some, if_neg hj]
        · obtain rfl : k' = k := List.mem_singleton.1 hk
          exact hone' (ht k') e he hr
        · rw [gc, tablePut_get_other _ _ hj, hj1 j hj]
      · unfold State.TestsDrops
        have hr : rest ≠ [] := fun h => hd (hempty.2 h)
        have hpos : 0 < rest.length := List.length_pos_iff.2 hr
        obtain ⟨m, hm, hwait, hstop, hdone, hgo, hset, hkept, htake, hrest', hcoil, hunit, hapart⟩ :=
          ih s1 (d.add k.kind) ha1 hst1 (by rw [hleft, hrest]; rw [hl] at hn; exact Nat.le_of_succ_le_succ hn)
        simp only [hleft, hrest, hlast, State.NoticeSet, State.NoticeKept, hf1, ho1, hs1] at hm hwait hstop hdone hgo hset hkept htake hrest'
        have hframe (j : DemandKey) (hj : j ∉ (k :: rest).take (m + 1)) :
            demandOf (s1.dropLoop n i).demands j = demandOf s.demands j := by
          rw [List.take_succ_cons, List.mem_cons, not_or] at hj
          rw [hrest' j hj.2, hother j hj.1]
        simp only [hl]
        have hm1 : (0 < m + 1 ∧ m + 1 = (k :: rest).length) ↔ (0 < m ∧ m = rest.length) := by
          rw [List.length_cons]; omega
        refine ⟨m + 1, Nat.succ_le_succ hm, fun m' hm' => ?_, fun h => ?_, fun h => ?_, fun h => ?_, fun h => hset (hm1.1 h),
          fun j hj => hkept j fun h => hj ⟨h.1, hm1.2 h.2⟩, fun k' e hk he hr => ?_, fun k' hk => hframe k' hk, fun j hj => ?_, hunit.trans hu1, hapart.trans hap⟩
        · cases m' with
          | zero => exact hfirst fun j hj => hframe j fun h => hj (hl ▸ List.mem_of_mem_take h)
          | succ m' => exact hwait m' (Nat.lt_of_succ_lt_succ hm')
        · exact hstop (Nat.lt_of_succ_lt_succ h)
        · obtain ⟨h1, h2, h3⟩ := hdone (hm1.1 h)
          have hmd := markDirty_congr hq1 hw1 (.coil i)
          exact ⟨by rw [h1, hc1, hn1], h2.trans hmd.1, h3.trans hmd.2⟩
        · obtain ⟨h1, h2, h3⟩ := hgo fun h' => h (hm1.2 h')
          exact ⟨by rw [h1, hc1]; rfl, h2.trans hq1, h3.trans hw1⟩
        · rw [List.take_succ_cons, List.mem_cons] at hk
          rcases hk with rfl | hk
          · exact hone' (hrest' k' fun h => hnot (List.mem_of_mem_take h)) e he hr
          · have hne : k' ≠ k := by rintro rfl; exact hnot (List.mem_of_mem_take hk)
            exact htake k' e hk (by rw [hother k' hne]; exact he) hr
        · rw [hcoil j hj, hj1 j hj]

/-- The model's test for drops is the test of R87. -/
theorem testDrops_testsDrops (ha : s.coils[i].lifecycle = .armed) (hc : s.coils[i].stage = .recovery (.stepDown d)) :
    s.TestsDrops (s.testDrops i) i d := by
  refine dropLoop_testsDrops 4 s d ha hc ?_
  have h (x : ActionKind) := pairsOf_filter s.units[s.coils[i].unit].controller s.coils[i].kind
    (s.coils[i].profile.map (·.map)) x
  have hl (x : ActionKind) : ((s.targetPairs s.coils[i]).filter fun k => k.kind == x && !d.has x).length ≤ 1 := by
    have hs := (List.monotone_filter_right (s.targetPairs s.coils[i])
      (p := fun k => k.kind == x && !d.has x) (q := fun k => k.kind == x) fun k hk => (Bool.and_eq_true_iff.1 hk).1).length_le
    rcases h x with h | ⟨b, h⟩ <;> exact le_trans hs (by rw [State.targetPairs, h]; simp)
  have := hl .oac; have := hl .fbf; have := hl .pms; have := hl .vfo
  simp only [State.dropsLeft, List.flatMap_cons, List.flatMap_nil, List.length_append, List.length_nil]
  omega

end Sys2Proof.Machine
end

