-- ==== Sys2Proof/Tests/Slice0.lean ====
section
/-! SUPPORT. The model's own tests: terms that the well-formedness checks refuse, steps of the spec's worked examples, and for
each statement with hypotheses a state and operands that meet them, with a case for each of its clauses. -/

open Sys2Proof Sys2Proof.Machine

namespace Sys2Proof.Tests

-- Each of these theorems waits for the kernel: checked one after another, they need no threads of their own.
set_option Elab.async false

/-! ### Ill-formed commands -/

theorem test_frame_too_long_is_ill_formed :
    (Instr.frameReception (List.replicate (maxFrameLevels + 1) .dominant)).wellFormed = false := by decide +kernel

theorem test_longest_frame_is_well_formed :
    (Instr.frameReception (List.replicate maxFrameLevels .dominant)).wellFormed = true := by decide +kernel

theorem test_hold_off_of_no_station_is_ill_formed : (Instr.holdOffExpiry ⟨0, .fs⟩).wellFormed = false := by decide

theorem test_refresh_of_group_address_is_ill_formed : (Instr.refreshTimerExpiry ⟨224, .oac⟩).wellFormed = false := by decide

theorem test_retry_of_no_station_is_ill_formed : (Instr.faultRetryTimerExpiry ⟨0, .vfo⟩).wellFormed = false := by decide

/-! ### A small plant: slot 5, a HOT_WATER coil of unit 3, ARMED in CLEAR -/

def profile : Profile := ⟨⟨40, 100, 30, 20⟩, ⟨1000, 3000, 12000⟩, 300, ⟨some 70, none, some 71⟩⟩

def coil : Coil :=
  { Coil.vacant 3 with
    lifecycle := .armed, tag := 4102, kind := some .hotWater, lat := some ⟨⟨41, 0⟩, 0⟩, ft := some ⟨⟨41, 1⟩, -5⟩
    profile := some profile, evalTimer := some 2000, cleanTimer := some 3600000 }

def point (p : Nat) (v : Int) : PointEntry :=
  { PointEntry.new ⟨41, p⟩ 1 with held := some v, quality := .fresh, streak := 3, lastSeq := some 2 }

def entry (k : DemandKey) : DemandEntry := { DemandEntry.new 0 k with commanded := .released, queued := none }

def unit : UnitEntry :=
  { UnitEntry.blank .closedLevel with controller := some 60, zone := 2, contact := .closed, fso := .run }

def plant : State :=
  { State.reset with
    units := tablePut State.reset.units 3 unit
    coils := tablePut State.reset.coils 5 coil
    points := tablePut (tablePut State.reset.points 0 (some (point 0 140))) 1 (some (point 1 200))
    demands := [⟨60, .fs⟩, ⟨60, .oac⟩, ⟨70, .vfo⟩, ⟨71, .fbf⟩].map entry }

/-- The plant with its record changed. -/
def plantWith (f : Coil → Coil) : State := plant.setCoil 5 (f coil)

/-- A frame of a function from a station, addressed to the part. -/
def frameOf (fn : Func) (a : Nat) (p : List Nat) : RxFrame :=
  { sender := a, target := 223, addressed := true, code := fn.code, payload := p.map byteOf }

/-- A state that holds one frame. -/
def holding (s : State) (f : RxFrame) : State := { s with rx := [f] }

/-- The state after a command. -/
def after (c : Instr) (s : State) : State :=
  match exec c s with
  | .next t => t
  | .fault _ => s
  | .refused _ => s

/-- The state after a step. -/
def stepped (s : State) : State :=
  match step s with
  | .next t => t
  | .fault _ => s
  | .refused _ => s

/-- The results in the answer queue. -/
def results (s : State) : List Result := s.answers.map (·.result)

/-- The record's stage after a command. -/
def stageAfter (c : Instr) (s : State) : Stage := (after c s).coils[(5 : Slot)].stage

theorem holding_takes_frame (f : RxFrame) : (holding plant f).TakesFrame f [] := ⟨rfl, rfl, rfl, rfl, Nat.zero_lt_succ 7⟩

/-- Every function of the right length from any station is taken by the plant. -/
theorem holding_takes_request {fn : Func} {a : Nat} {p : List Nat} (h : p.length = fn.length) :
    (holding plant (frameOf fn a p)).TakesRequest fn (frameOf fn a p) [] :=
  ⟨holding_takes_frame _, rfl, rfl, by simpa [frameOf] using h⟩

/-! ### Steps of the spec -/

theorem test_crc_check_value :
    crc ((List.range 9).flatMap fun i => fieldBits (BitVec.ofNat 8 (49 + i))) = 0x29B1#16 := by decide +kernel

theorem test_frame_is_read_back :
    readFrame (Frame.levels ⟨.urgent, 200, 60, 4, [1, 1]⟩) = some ⟨.urgent, 200, 60, 4, [1, 1]⟩ := by decide +kernel

theorem test_reset_is_the_load_of_blank_memory :
    { after .loadCompletion (after (.startUpLoad ⟨0, 0⟩ .asBefore) State.reset) with joinStamp := 0 } = State.reset := by
  decide +kernel

theorem test_evaluation_decays_and_stands :
    (after (.evaluationExpiry 5) (plantWith fun c => { c with dose := 50 })).coils[(5 : Slot)]
      = { coil with
          dose := 30, evalTimer := some 4000
          last := some ⟨some 95, some 100, true, .unknown⟩ } := by decide +kernel

theorem test_evaluation_enters_watch :
    stageAfter (.evaluationExpiry 5) { plant with points := tablePut plant.points 0 (some (point 0 60)) } = .watch := by
  decide +kernel

theorem test_air_limit_trips_and_stops_the_fan :
    let t := after (.evaluationExpiry 5) { plant with points := tablePut plant.points 0 (some (point 0 40)) }
    t.coils[(5 : Slot)].stage = .trip ∧ t.coils[(5 : Slot)].latch = .trip 1 ∧ t.units[(3 : UnitNo)].fso = .stop
      ∧ (t.demands.all fun e => e.demand == 1 && e.queued.isSome) = true ∧ t.storeQueue = [.coil 5] := by decide +kernel

theorem test_trip_with_a_lost_sensor_adds_both_faults :
    let chilled := tablePut plant.points 0 (some (point 0 40))
    let t := after (.evaluationExpiry 5) { plant with points := tablePut chilled 1 (some { point 1 200 with quality := .lost }) }
    t.coils[(5 : Slot)].cause = .airLimit ∧ t.units[(3 : UnitNo)].faults = ⟨false, true, false, true, false⟩ := by
  decide +kernel

theorem test_third_trip_locks_out :
    stageAfter (.contactFilterExpiry 3) { plantWith (fun c => { c with tripCount := 2 }) with
      units := tablePut plant.units 3 { unit with level := .openLevel, filter := .pending 200 } } = .lockout := by decide +kernel

theorem test_create_takes_the_lowest_slot :
    let t := after .create (holding plant (frameOf .create 9 [0, 7, 15, 2]))
    t.coils[(0 : Slot)] = Coil.draft 7 15 .chilledWater ∧ results t = [.done] := by decide +kernel

theorem test_power_loss_spoils_the_write_under_way :
    (after (.powerLoss .failsCheck) { plant with writing := some ⟨.coil 5 .erased, false, false⟩ }).retained.coils[(5 : Slot)]
      = .invalid := by decide +kernel

/-! ### The hypotheses of the statements are met -/

/-- A tick, a timer one millisecond before it is due and when it is due, the earlier of two, a load, a PART_RESTART that waits for a
write and one that does not, a write, and the frames that the handler takes. -/
theorem witness_EmptyQueueLetsThePartAct :
    State.reset.pending = [] ∧ (stepped State.reset).now = 1
    ∧ (stepped { State.reset with now := 9999 }).now = 10000
    ∧ (stepped { State.reset with now := 10000 }).pollTimer = some 20000
    ∧ (stepped { plant with now := 10000 }).coils[(5 : Slot)].evalTimer = some 12000
    ∧ (stepped { State.reset with power := .startLoad }).power = .running
    ∧ (stepped { State.reset with restartPending := true }).power = .restartLoad
    ∧ (stepped { State.reset with restartPending := true, writing := some ⟨.coil 5 .erased, false, false⟩ }).now = 1
    ∧ (stepped { State.reset with storeQueue := [.coil 5] }).storeQueue = []
    ∧ results (stepped (holding plant (frameOf .create 9 [0, 7, 3, 0]))) = [.done]
    ∧ results (stepped (holding plant { frameOf .arm 9 [5] with code := 36 })) = [.unknownFunction] := by decide +kernel

theorem witness_HandlerWaits :
    State.reset.rx = [] ∧ (after (.powerLoss .asBefore) State.reset).power ≠ .running
      ∧ ({ plant with restartPending := true } : State).restartPending = true
      ∧ ({ plant with deferred := [(frameOf .arm 9 [5]).answer (.done [])] } : State).deferred ≠ []
      ∧ 8 ≤ ({ plant with answers := List.replicate 8 ((frameOf .arm 9 [5]).answer (.done [])) } : State).answers.length := by
  decide +kernel

theorem witness_RequestsAreScreened :
    let f := frameOf .arm 9 [5, 5]
    Func.arm.isRequest = true ∧ (holding plant f).TakesFrame f [] ∧ f.code = Func.arm.code ∧ f.addressed = true
      ∧ f.payload.length ≠ Func.arm.length
      ∧ (holding plant { f with addressed := false }).TakesFrame { f with addressed := false } [] := by decide +kernel

theorem witness_FramesOfNoRequestAreDiscardedOrAnswered :
    ∀ f ∈ [3, 6, 0, 7, 14, 15, 22, 23, 36, 63].map fun c => { frameOf .arm 9 [5] with code := c },
      (holding plant f).TakesFrame f []
        ∧ (3 ≤ f.code.toNat ∧ f.code.toNat ≤ 6 ∨ f.code.toNat ∈ [0, 7, 14, 15, 22, 23] ∨ 36 ≤ f.code.toNat) := by
  decide +kernel

theorem witness_ReportsForNoOwnerAreIgnored :
    let s := holding plant (frameOf .report 41 [2, 0, 50, 3, 0])
    (∀ i : Fin 96, (s.points[i].all fun e => e.key != ⟨41, 2⟩) = true)
      ∧ (frameOf .report 41 [0, 0, 50, 3]).payload.length ≠ 5
      ∧ (frameOf .unitStatus 60 [3]).payload.length ≠ 2 ∧ 15 < byteAt (frameOf .unitStatus 60 [16, 1]).payload 0
      ∧ byteAt (frameOf .unitStatus 60 [3, 0]).payload 1 ≠ 1
      ∧ plant.units[(15 : UnitNo)].controller ≠ some 60 := by decide +kernel

theorem witness_DuplicateReportIsIgnored :
    let f := frameOf .report 41 [0, 0, 50, 2, 1]
    (holding plant f).TakesFrame f [] ∧ f.payload.length = 5
      ∧ indexOf (holding plant f).points ⟨f.sender, byteAt f.payload 0⟩ = some 0
      ∧ (holding plant f).points[(0 : Fin 96)] = some (point 0 140)
      ∧ (point 0 140).lastSeq = some (f.payload.getD 3 0) := by decide +kernel

/-- The fault flag, the value below -400 and the value above 900 each make a fault report. -/
theorem witness_FaultReportMakesTheEntryFault :
    ∀ f ∈ [frameOf .report 41 [0, 0, 50, 3, 1], frameOf .report 41 [0, 254, 111, 3, 0], frameOf .report 41 [0, 3, 133, 3, 0]],
      (holding plant f).TakesFrame f [] ∧ f.payload.length = 5
        ∧ indexOf (holding plant f).points ⟨f.sender, byteAt f.payload 0⟩ = some 0
        ∧ (point 0 140).lastSeq ≠ some (f.payload.getD 3 0)
        ∧ ((f.payload.getD 4 0).getLsbD 0 = true ∨ int16At f.payload 1 < -400 ∨ 900 < int16At f.payload 1) := by
  decide +kernel

/-- The least and the greatest plausible value, in step and after a gap. -/
theorem witness_GoodReportUpdatesTheEntry :
    ∀ f ∈ [frameOf .report 41 [0, 254, 112, 3, 0], frameOf .report 41 [0, 3, 132, 4, 0]],
      (holding plant f).TakesFrame f [] ∧ f.payload.length = 5
        ∧ indexOf (holding plant f).points ⟨f.sender, byteAt f.payload 0⟩ = some 0
        ∧ (point 0 140).lastSeq ≠ some (f.payload.getD 3 0) ∧ (f.payload.getD 4 0).getLsbD 0 = false
        ∧ -400 ≤ int16At f.payload 1 ∧ int16At f.payload 1 ≤ 900 := by decide +kernel

/-- A report completes the settling of the record into each stage that a latch gives, and TRIP reaches the unit's fault summary where
that stage is TRIP or LOCKOUT; a faulty one does not. -/
theorem witness_ReportCompletesSettling :
    (∀ p ∈ [(Latch.none, Stage.clear, false), (.trip 0, .trip, true), (.trip 2, .trip, true), (.lockout, .lockout, true)],
      let t := after .report
        (holding (plantWith fun c => { c with lifecycle := .settling, latch := p.1 }) (frameOf .report 41 [0, 0, 50, 3, 0]))
      t.coils[(5 : Slot)].stage = p.2.1 ∧ t.units[(3 : UnitNo)].faults.trip = p.2.2 ∧ t.noticeFlags[(5 : Slot)] = true)
    ∧
    let t := after .report
      (holding (plantWith fun c => { c with lifecycle := .settling, latch := .lockout }) (frameOf .report 41 [0, 0, 50, 3, 1]))
    t.coils[(5 : Slot)].lifecycle = .settling ∧ t.units[(3 : UnitNo)].faults.trip = false
      ∧ t.noticeFlags[(5 : Slot)] = false := by decide +kernel

theorem witness_UnitStatusSetsTheFanProof :
    ∀ f ∈ [frameOf .unitStatus 60 [3, 1], frameOf .unitStatus 60 [3, 2]],
      (holding plant f).TakesFrame f [] ∧ f.payload.length = 2 ∧ byteAt f.payload 0 = (3 : UnitNo).val
        ∧ (byteAt f.payload 1 = 1 ∨ byteAt f.payload 1 = 2)
        ∧ (holding plant f).units[(3 : UnitNo)].controller = some f.sender := by decide +kernel

/-- A RUNNING moves the record in FAN_RESTART and sets its notice flag; a STOPPED does neither. -/
theorem witness_UnitStatusMovesRecords :
    let s := plantWith fun c => { c with stage := .recovery .fanRestart, cleanTimer := none }
    let t (fan : Nat) := after .unitStatus (holding s (frameOf .unitStatus 60 [3, fan]))
    (t 1).coils[(5 : Slot)].stage = .recovery .prove ∧ (t 1).noticeFlags[(5 : Slot)] = true
    ∧ (t 1).noticeFlags[(6 : Slot)] = false
    ∧ (t 2).coils[(5 : Slot)].stage = .recovery .fanRestart ∧ (t 2).noticeFlags[(5 : Slot)] = false := by decide +kernel

/-- Each view by slot, and each by tag. -/
theorem witness_QueryCoilReportsTheRecord :
    (∀ v ∈ [0, 1, 2],
      let f := frameOf .queryCoil 9 [v, 0, 5]
      (holding plant f).TakesRequest .queryCoil f [] ∧ byteAt f.payload 0 = v ∧ wordAt f.payload 1 = (5 : Slot).val)
    ∧ (∀ v ∈ [0, 1, 2],
      let f := frameOf .queryCoil 9 [v + 3, 16, 6]
      byteAt f.payload 0 = v + 3 ∧ wordAt f.payload 1 = plant.coils[(5 : Slot)].tag ∧ 0 < plant.coils[(5 : Slot)].tag)
    ∧ plant.coils[(5 : Slot)].lifecycle ≠ .vacant
    ∧ ∀ j : Slot, plant.coils[j].lifecycle ≠ .vacant → plant.coils[j].tag = 4102 → j = 5 := by decide +kernel

theorem witness_QueryPointReportsTheEntry :
    let f := frameOf .queryPoint 9 [41, 1]
    (holding plant f).TakesRequest .queryPoint f [] ∧ 1 ≤ byteAt f.payload 0 ∧ byteAt f.payload 0 ≤ 223
      ∧ byteAt f.payload 1 ≤ 63 ∧ indexOf (holding plant f).points ⟨byteAt f.payload 0, byteAt f.payload 1⟩ = some 1
      ∧ (holding plant f).points[(1 : Fin 96)] = some (point 1 200) := by decide +kernel

theorem witness_QueryUnitReportsTheUnit :
    let f := frameOf .queryUnit 9 [15]
    (holding plant f).TakesRequest .queryUnit f [] ∧ byteAt f.payload 0 = (15 : UnitNo).val := by decide +kernel

theorem witness_QueryDemandReportsTheEntry :
    let f := frameOf .queryDemand 9 [71, 4]
    (holding plant f).TakesRequest .queryDemand f [] ∧ 1 ≤ byteAt f.payload 0 ∧ byteAt f.payload 0 ≤ 223
      ∧ byteAt f.payload 1 = actionKindWire .fbf
      ∧ demandOf (holding plant f).demands ⟨byteAt f.payload 0, .fbf⟩ = some (entry ⟨71, .fbf⟩) := by decide +kernel

theorem witness_PartStatusReportsAndEmptiesTheLostSlots :
    (holding plant (frameOf .partStatus 9 [])).TakesRequest .partStatus (frameOf .partStatus 9 []) [] :=
  holding_takes_request rfl

theorem witness_ReadFaultsEmptiesTheSummary :
    (∀ n ∈ [15, 16], (holding plant (frameOf .readFaults 9 [n])).TakesRequest .readFaults (frameOf .readFaults 9 [n]) [])
      ∧ byteAt (frameOf .readFaults 9 [15]).payload 0 = (15 : UnitNo).val
      ∧ 15 < byteAt (frameOf .readFaults 9 [16]).payload 0 := by decide +kernel

/-- Each refusal of a lookup, at the edge of its range. -/
theorem witness_LookupsRefuseWhatIsNotThere :
    (∀ p ∈ [([6, 0, 5], Result.outOfRange), ([2, 0, 48], .outOfRange), ([0, 0, 47], .noRecord), ([3, 0, 0], .noRecord),
        ([5, 0, 1], .noRecord)],
      results (after .queryCoil (holding plant (frameOf .queryCoil 9 p.1))) = [p.2])
    ∧ (∀ p ∈ [([0, 0], Result.outOfRange), ([224, 0], .outOfRange), ([41, 64], .outOfRange), ([223, 63], .noRecord)],
      results (after .queryPoint (holding plant (frameOf .queryPoint 9 p.1))) = [p.2])
    ∧ results (after .queryUnit (holding plant (frameOf .queryUnit 9 [16]))) = [.outOfRange]
    ∧ (∀ p ∈ [([0, 0], Result.outOfRange), ([224, 0], .outOfRange), ([60, 5], .outOfRange), ([223, 4], .noRecord)],
      results (after .queryDemand (holding plant (frameOf .queryDemand 9 p.1))) = [p.2]) := by decide +kernel

/-- Each outcome of CREATE. -/
theorem witness_CreateMakesADraft :
    results (after .create (holding { plant with supervisors := [12] } (frameOf .create 9 [0, 7, 3, 0]))) = [.notPermitted]
    ∧ (∀ p ∈ [([0, 0, 3, 0], Result.outOfRange), ([0, 7, 16, 0], .outOfRange), ([0, 7, 3, 3], .outOfRange),
        ([16, 6, 3, 0], .tagInUse), ([0, 7, 15, 2], .done)],
      results (after .create (holding plant (frameOf .create 9 p.1))) = [p.2])
    ∧ results (after .create
        (holding { plant with coils := Vector.replicate 48 coil } (frameOf .create 9 [0, 7, 3, 0]))) = [.tableFull] := by
  decide +kernel

/-- A record that may be armed. -/
def suspended : State := plantWith Coil.suspended

theorem witness_ArmStartsSettling :
    let f := frameOf .arm 60 [5]
    let s := holding { suspended with supervisors := [12] } f
    s.TakesRequest .arm f [] ∧ byteAt f.payload 0 = (5 : Slot).val ∧ s.Permitted f.sender 5
      ∧ s.coils[(5 : Slot)].lifecycle = .suspended ∧ s.coils[(5 : Slot)].profile.isSome
      ∧ s.coils[(5 : Slot)].lat.isSome ∧ s.coils[(5 : Slot)].ft.isSome ∧ s.units[(3 : UnitNo)].controller.isSome
      ∧ ((s.targetPairs s.coils[(5 : Slot)]).filter fun k => (s.demands.find? fun e => e.key == k).isNone).length
        + s.demands.length ≤ 64 := by decide +kernel

theorem witness_SuspendTakesOutOfProtection :
    ∀ c ∈ [coil, { coil with stage := .watch }, { coil with lifecycle := .settling }],
      let f := frameOf .suspend 9 [5]
      let s := holding (plantWith fun _ => c) f
      s.TakesRequest .suspend f [] ∧ s.Permitted f.sender 5
        ∧ (c.lifecycle = .armed ∧ (c.stage = .clear ∨ c.stage = .watch) ∨ c.lifecycle = .settling ∧ c.latch = .none) := by
  decide +kernel

theorem witness_RetireEmptiesTheSlot :
    let f := frameOf .retire 9 [5]
    let s := holding suspended f
    s.TakesRequest .retire f [] ∧ s.Supervisor f.sender ∧ s.coils[(5 : Slot)].lifecycle = .suspended
      ∧ s.coils[(5 : Slot)].writeInFlight = false := by decide +kernel

/-- A RESTART that passes, and one for each condition that fails. -/
theorem witness_RestartEntersFanRestart :
    let tripped (air : Int) : Coil := { coil with stage := .trip, last := some ⟨some air, some air, true, .unknown⟩ }
    let request (s : State) : List Result := results (after .restart (holding s (frameOf .restart 9 [5])))
    request (plantWith fun _ => tripped 1) = [.done]
    ∧ request (plantWith fun _ => tripped 0) = [.refusedCondition]
    ∧ request (plantWith fun _ => { tripped 1 with ft := some ⟨⟨41, 2⟩, 0⟩ }) = [.refusedCondition]
    ∧ request { plantWith (fun _ => tripped 1) with units := tablePut plant.units 3 { unit with contact := .opened } }
        = [.refusedCondition] := by decide +kernel

theorem witness_LockoutReleaseReturnsToTrip :
    let f := frameOf .releaseLockout 9 [5]
    let s := holding (plantWith fun c => { c with stage := .lockout, tripCount := 3, latch := .lockout }) f
    s.TakesRequest .releaseLockout f [] ∧ s.Supervisor f.sender ∧ s.coils[(5 : Slot)].lifecycle = .armed
      ∧ s.coils[(5 : Slot)].stage = .lockout := by decide +kernel

/-- Each refusal of the requests that name a slot. -/
theorem witness_SlotRequestsAreRefusedInOrder :
    let s : State := { plant with supervisors := [12] }
    let request (fn : Func) (a n : Nat) (s : State) : List Result := results (after fn.command (holding s (frameOf fn a [n])))
    (∀ fn ∈ [Func.arm, .suspend, .restart, .claim],
      request fn 9 48 s = [.outOfRange] ∧ request fn 9 47 s = [.noRecord] ∧ request fn 9 5 s = [.notPermitted])
    ∧ (∀ fn ∈ [Func.retire, .releaseLockout],
      request fn 60 48 s = [.notPermitted] ∧ request fn 12 48 s = [.outOfRange] ∧ request fn 12 47 s = [.noRecord]
        ∧ request fn 12 5 s = [.wrongState])
    ∧ request .arm 60 5 s = [.wrongState] ∧ request .restart 60 5 s = [.wrongState]
    ∧ request .suspend 60 5 (plantWith fun c => { c with stage := .guard }) = [.wrongState]
    ∧ request .arm 60 5 (plantWith fun c => { c.suspended with profile := none }) = [.incomplete]
    ∧ request .arm 60 5 { suspended with demands := (List.range 64).map fun n => entry ⟨100 + n, .fs⟩ } = [.demandTableFull]
    ∧ request .retire 12 5 (plantWith fun c => { c.suspended with writeInFlight := true }) = [.writing] := by decide +kernel

/-! ### Claims and commits -/

def openClaim : Claim := { Claim.new 9 5 0 with staging := { Staging.empty with timing := some 20 } }

/-- The plant with station 9 holding a claim on slot 5, H staged below its range. -/
def claimed : State := plant.setClaim 0 (some openClaim)

/-- Each outcome of CLAIM. -/
theorem witness_ClaimTakesTheLowestFreeEntry :
    let request (a : Nat) (s : State) : List Result := results (after .claim (holding s (frameOf .claim a [5])))
    request 12 plant = [.done] ∧ request 12 claimed = [.claimedElsewhere] ∧ request 9 claimed = [.wrongState]
    ∧ request 12 { plant with claims := Vector.replicate 4 (some (Claim.new 9 6 0)) } = [.noStaging] := by decide +kernel

theorem witness_StageFunctionsLayTheirGroups :
    (∀ p ∈ [(Func.stageLimits, [0, 40, 0, 100, 0, 30, 0, 20]), (.stageDose, [0, 1, 0, 2, 0, 3]), (.stageTiming, [0, 30]),
        (.stageMap, [70, 0, 71]), (.stageBind, [0, 41, 0, 0]), (.stageBind, [1, 0, 0, 0]), (.stageBind, [2, 0, 0, 0])],
      (holding claimed (frameOf p.1 9 p.2)).TakesRequest p.1 (frameOf p.1 9 p.2) [])
    ∧ claimed.claimOf 9 = some (0, openClaim) ∧ claimed.Permitted 9 openClaim.slot ∧ openClaim.state = .opened := by
  decide +kernel

theorem witness_ClaimedEditsAreRefusedInOrder :
    ∀ fn ∈ [Func.stageTiming, .commit, .abandon],
      let request (s : State) : List Result :=
        results (after fn.command (holding s (frameOf fn 9 (List.replicate fn.length 0))))
      request plant = [.notClaimed] ∧ request { claimed with supervisors := [12] } = [.notPermitted]
        ∧ request (plant.setClaim 3 (some { openClaim with state := .committed false })) = [.writing] := by decide +kernel

theorem witness_CommitTakesTheCandidate :
    let old := claimed.coils[openClaim.slot]
    let st := openClaim.staging.clamped
    let cd := st.over old
    (holding claimed (frameOf .commit 9 [])).TakesRequest .commit (frameOf .commit 9 []) []
      ∧ cd.WithinRanges ∧ cd.DosesOrdered ∧ st.CompleteFor old ∧ st.GateOpen old
      ∧ claimed.RoomForPoints old.keys (cd.into old).keys ∧ claimed.RoomForPairs [] [] := by decide +kernel

/-- A full demand table has room for a pair where the change frees an entry at once, and not where that entry is queued. -/
theorem test_room_for_pairs_counts_entries_removed_at_once :
    let full (e : DemandEntry) : State := { plant with demands := e :: (List.range 63).map fun n => entry ⟨100 + n, .fs⟩ }
    (full (entry ⟨70, .vfo⟩)).RoomForPairs [⟨70, .vfo⟩] [⟨72, .vfo⟩]
    ∧ ¬ (full { entry ⟨70, .vfo⟩ with queued := some 0 }).RoomForPairs [⟨70, .vfo⟩] [⟨72, .vfo⟩]
    ∧ ¬ (full (entry ⟨70, .vfo⟩)).RoomForPairs [] [⟨72, .vfo⟩] := by decide +kernel

/-- Each refusal of a COMMIT. -/
theorem witness_CommitIsRefusedInOrder :
    let request (s : State) (st : Staging) : List Result :=
      results (after .commit (holding (s.setClaim 0 (some { openClaim with staging := st })) (frameOf .commit 9 [])))
    request plant { Staging.empty with limits := some ⟨151, 0, 30, 20⟩ } = [.outOfRange]
    ∧ request plant { Staging.empty with dose := some ⟨1000, 1000, 60000⟩ } = [.inconsistent]
    ∧ request (plantWith fun c => { c.suspended with profile := none }) { Staging.empty with timing := some 30 } = [.incomplete]
    ∧ request (plantWith fun c => { c with stage := .watch }) { Staging.empty with timing := some 30 } = [.stageBusy]
    ∧ request { suspended with points := Vector.replicate 96 (some (point 9 0)) }
        { Staging.empty with ft := some (.bind ⟨⟨42, 0⟩, 0⟩) } = [.pointTableFull]
    ∧ request { plant with demands := (List.range 64).map fun n => entry ⟨100 + n, .fs⟩ }
        { Staging.empty with map := some ⟨some 72, none, none⟩ } = [.demandTableFull] := by decide +kernel

theorem witness_AbandonFreesTheClaim :
    (holding claimed (frameOf .abandon 9 [])).TakesRequest .abandon (frameOf .abandon 9 []) [] :=
  ⟨⟨rfl, rfl, rfl, rfl, by decide⟩, rfl, rfl, rfl⟩

/-! ### Settings -/

/-- Each outcome of UNIT_SET. -/
theorem witness_UnitSetDefinesTheUnit :
    let request (a : Nat) (p : List Nat) : List Result :=
      results (after .unitSet (holding { plant with supervisors := [12] } (frameOf .unitSet a p)))
    request 9 [15, 223, 15] = [.notPermitted] ∧ request 12 [16, 1, 0] = [.outOfRange] ∧ request 12 [0, 224, 0] = [.outOfRange]
    ∧ request 12 [0, 1, 16] = [.outOfRange] ∧ request 12 [3, 61, 0] = [.wrongState] ∧ request 12 [15, 223, 15] = [.done]
    ∧ request 12 [15, 0, 0] = [.done] := by decide +kernel

/-- Each outcome of PART_SET. -/
theorem witness_PartSetReplacesTheSettings :
    let request (a : Nat) (p : List Nat) (s : State) : List Result :=
      results (after .partSet (holding { s with supervisors := [12] } (frameOf .partSet a p)))
    request 9 [0, 0, 0, 20, 0, 50] plant = [.notPermitted] ∧ request 12 [0, 0, 254, 211, 0, 50] plant = [.outOfRange]
    ∧ request 12 [223, 64, 0, 20, 0, 50] plant = [.outOfRange] ∧ request 12 [0, 0, 0, 50, 0, 50] plant = [.inconsistent]
    ∧ request 12 [42, 0, 0, 20, 0, 50] { plant with points := Vector.replicate 96 (some (point 9 0)) } = [.pointTableFull]
    ∧ request 12 [0, 0, 254, 212, 1, 44] plant = [.done] ∧ request 12 [223, 63, 0, 20, 0, 21] plant = [.done] := by
  decide +kernel

/-- Each outcome of SUPERVISOR_SET. -/
theorem witness_SupervisorSetReplacesTheList :
    let request (a : Nat) (p : List Nat) : List Result :=
      results (after .supervisorSet (holding { plant with supervisors := [12] } (frameOf .supervisorSet a p)))
    request 9 [0, 0, 0, 0, 0] = [.notPermitted] ∧ request 12 [5, 1, 2, 3, 4] = [.outOfRange]
    ∧ request 12 [1, 0, 0, 0, 0] = [.outOfRange] ∧ request 12 [1, 224, 0, 0, 0] = [.outOfRange]
    ∧ request 12 [4, 1, 223, 1, 2] = [.done] ∧ request 12 [0, 0, 0, 0, 0] = [.done] := by decide +kernel

theorem witness_PartRestartBecomesPending :
    (holding plant (frameOf .partRestart 9 [])).TakesRequest .partRestart (frameOf .partRestart 9 []) []
      ∧ plant.Supervisor 9 ∧ ¬ ({ plant with supervisors := [12] } : State).Supervisor 9 := by decide +kernel

/-! ### The plant line -/

/-- A bad frame, one of no station, one for another target, and good ones for the part, its zone and every station. -/
theorem witness_FrameReceptionFiltersAndQueues :
    let receive (s : State) (l : List LineLevel) : Nat × Ack := ((after (.frameReception l) s).rx.length,
      (after (.frameReception l) s).ack)
    let levels (sender target : Byte) : List LineLevel := Frame.levels ⟨.routine, sender, target, 17, [5]⟩
    receive plant [] = (0, .nothing) ∧ receive plant (levels 224 223) = (0, .nothing)
    ∧ receive plant (levels 9 222) = (0, .nothing) ∧ receive plant (levels 9 223) = (1, .accept)
    ∧ receive plant (levels 9 224) = (1, .nothing) ∧ receive plant (levels 223 255) = (1, .nothing)
    ∧ receive { plant with power := .restartLoad } (levels 9 223) = (0, .refuse)
    ∧ receive { plant with rx := List.replicate 8 (frameOf .arm 9 [5]) } (levels 9 223) = (8, .refuse)
    ∧ receive { plant with power := .off } (levels 9 223) = (0, .nothing) := by decide +kernel

/-- The longest frame is read back, with levels behind it too; without its last level, with a level of its CRC, of its payload or of a
separator turned, and with a payload of 25 bytes, nothing is read. -/
theorem witness_SentFrameIsReadBack :
    let g : Frame := ⟨.routine, 0, 255, 63, List.replicate 24 0⟩
    let flipped (i : Nat) : List LineLevel := g.levels.modify i fun l => levelOfBit !(bitOfLevel l)
    g.payload.length ≤ 24 ∧ readFrame g.levels = some g ∧ readFrame (g.levels ++ [.recessive, .dominant]) = some g
    ∧ readFrame g.levels.dropLast = none
    ∧ (∀ i ∈ [8, 40, 260, 263, g.levels.length - 1], readFrame (flipped i) = none)
    ∧ g.levels[8]? = some .dominant ∧ readFrame ({ g with payload := List.replicate 25 0 } : Frame).levels = none := by
  decide +kernel

/-- Offers of every source. -/
def offering : State :=
  { plant with
    poll := some ⟨⟨41, 0⟩, some 0, .routine, 0⟩, backlog := 1, notice := some ⟨5, 7, false⟩
    noticeFlags := tablePut plant.noticeFlags 5 true, answers := [(frameOf .arm 9 [5]).answer (.done [])] }

/-- The source of the frame that a grant puts on the line. -/
def granted (s : State) : Option Source := (after .lineGrant s).line.map (·.source)

/-- The arbiter's places, from asserts to routine polls, and no offer. -/
theorem witness_LineGrantGoesToTheFirstSource :
    granted { offering with dispatch := some ⟨⟨60, .oac⟩, .assert⟩ } = some .action
    ∧ granted { offering with
        dispatch := some ⟨⟨60, .oac⟩, .release⟩, poll := some ⟨⟨41, 0⟩, some 0, .urgent, 0⟩ } = some .poll
    ∧ granted { offering with dispatch := some ⟨⟨60, .oac⟩, .release⟩ } = some .answer
    ∧ granted { offering with dispatch := some ⟨⟨60, .oac⟩, .release⟩, answers := [] } = some .action
    ∧ granted { offering with answers := [] } = some .notice
    ∧ granted { offering with answers := [], notice := none } = some .poll
    ∧ granted plant = none ∧ granted { offering with power := .off } = none := by decide +kernel

/-- The eighth loss drops an answer, a poll and a notice, and an orphan only leaves the line. -/
theorem witness_LossReturnsTheFrameOrDropsIt :
    let on (src : Source) : State := { offering with line := some ⟨src, ⟨.routine, 223, 9, 6, []⟩, false⟩ }
    (after .lostArbitration (on .action)).line = none
    ∧ (after .transmitError (on .answer)).answers.map (·.losses) = [1]
    ∧ (after .lostArbitration { on .answer with
        answers := [{ (frameOf .arm 9 [5]).answer (.done []) with losses := 7 }] }).answers = []
    ∧ (after .lostArbitration (on .poll)).poll.map (·.losses) = some 1
    ∧ (after .transmitError { on .poll with poll := some ⟨⟨41, 0⟩, some 0, .routine, 7⟩ }).poll = none
    ∧ (after .lostArbitration (on .notice)).notice = some ⟨5, 0, false⟩
    ∧ after .lostArbitration { offering with line := some ⟨.poll, ⟨.routine, 223, 9, 6, []⟩, true⟩ } = offering := by
  decide +kernel

theorem witness_CompletedFramesLeaveTheirSources :
    let on (src : Source) : State := { offering with line := some ⟨src, ⟨.routine, 223, 9, 6, []⟩, false⟩ }
    let nothing : AckBits := ⟨.recessive, .recessive⟩
    ((after (.pollCompletion nothing) (on .poll)).points[(0 : Fin 96)].map (·.polled) = some true)
    ∧ (after (.pollCompletion nothing) (on .poll)).backlog = 0
    ∧ (after (.answerCompletion nothing) (on .answer)).answers = []
    ∧ (after (.stageNoticeCompletion nothing) (on .notice)).noticeFlags[(5 : Slot)] = false
    ∧ after (.answerCompletion nothing) (on .poll) = on .poll
    ∧ after (.answerCompletion nothing) { offering with line := some ⟨.answer, ⟨.routine, 223, 9, 6, []⟩, true⟩ } = offering := by
  decide +kernel

/-- A candidate, none, and a tie that the lower index wins. -/
theorem witness_SourcesChooseAndItemsAreMarked :
    let missed (m : Nat) : State :=
      { plant with
        backlog := 3, points := tablePut (tablePut plant.points 0 (some { point 0 140 with miss := 1 })) 1
          (some { point 1 200 with miss := m }) }
    (missed 1).choosePoll.poll.map (·.entry) = some (some 0) ∧ (missed 2).choosePoll.poll.map (·.entry) = some (some 1)
    ∧ ({ plant with backlog := 3 } : State).choosePoll.backlog = 0
    ∧ offering.notice ≠ none ∧ ({ offering with notice := none } : State).chooseNotice.notice = some ⟨5, 0, false⟩
    ∧ (plant.markDirty (.coil 47)).storeQueue = [.coil 47]
    ∧ (offering.setNotice 5).notice = some ⟨5, 7, true⟩ ∧ (offering.setNotice 6).notice = some ⟨5, 7, false⟩
    ∧ (offering.setNotice 6).noticeFlags[(6 : Slot)] = true ∧ (plant.setNotice 5).notice = none := by decide +kernel

/-- A map reference added to a held key and to a new one; one given up on an entry that stays and on one that goes; a trip and its end
at the demand counts. -/
theorem witness_MapReferencesAndContributions :
    let held := { entry ⟨60, .oac⟩ with faulted := true, commanded := .unknown, retryTimer := some 30000, mapRefs := 2 }
    let added := addMapRefs 7 [⟨60, .oac⟩, ⟨70, .vfo⟩] [held]
    let lost := dropMapRefs [⟨60, .oac⟩, ⟨70, .vfo⟩] [held, entry ⟨70, .vfo⟩]
    let tripped := plant.changeCoil 5 { coil with stage := .trip }
    [(⟨60, .oac⟩ : DemandKey), ⟨70, .vfo⟩].Nodup ∧ (plant.demands.map (·.key)).Nodup
    ∧ demandOf added ⟨60, .oac⟩ = some { held with mapRefs := 3 } ∧ demandOf added ⟨70, .vfo⟩ = some (.new 7 ⟨70, .vfo⟩)
    ∧ demandOf lost ⟨60, .oac⟩ = some { held with mapRefs := 1 } ∧ demandOf lost ⟨70, .vfo⟩ = none
    ∧ tripped.demands.map (fun e => (e.demand, e.queued)) = List.replicate 4 (1, some 0)
    ∧ (tripped.changeCoil 5 coil).demands = plant.demands
    ∧ plant.targetPairs coil = [⟨60, .fs⟩, ⟨60, .oac⟩, ⟨70, .vfo⟩, ⟨71, .fbf⟩]
    ∧ plant.demandedPairs coil = [] := by decide +kernel

/-- The four cases of a changed demand count: in flight, joining, refresh-due and leaving. -/
theorem witness_WithDemand :
    let e := entry ⟨60, .oac⟩
    ({ e with inFlight := some .release } : DemandEntry).withDemand 1 7 = { e with inFlight := some .release, demand := 1 }
    ∧ e.withDemand 1 7 = { e with demand := 1, queued := some 7 }
    ∧ ({ e with commanded := .asserted, queued := some 3, refreshDue := true } : DemandEntry).withDemand 2 7
        = { e with commanded := .asserted, queued := some 3, refreshDue := true, demand := 2 }
    ∧ ({ e with commanded := .asserted, queued := some 3, refreshDue := true } : DemandEntry).withDemand 0 7
        = { e with commanded := .asserted, queued := some 3 }
    ∧ ({ e with queued := some 3, demand := 1 } : DemandEntry).withDemand 0 7 = e := by decide +kernel

/-! ### Outcomes of a dispatch -/

/-- An assert of the record in GUARD on the line, after failures. -/
def dispatched (kind : ActionKind) (attempts : Nat) : State :=
  { plantWith (fun c => { c with stage := .guard, cleanTimer := none }) with
    line := some ⟨.action, ⟨.urgent, 223, 60, 4, [1, 1]⟩, false⟩, dispatch := some ⟨⟨60, kind⟩, .assert⟩
    demands := [{ entry ⟨60, kind⟩ with demand := 1, inFlight := some .assert, attempts := attempts }] }

theorem witness_ActionCompletionAppliesTheOutcome :
    ∀ n ∈ [0, 2, 3],
      let s := dispatched .fbf n
      (s.demands.map (·.key)).Nodup
        ∧ demandOf s.demands ⟨60, .fbf⟩
          = some { entry ⟨60, .fbf⟩ with demand := 1, inFlight := some .assert, attempts := n }
        ∧ (⟨60, .fbf⟩ : DemandKey).station ≠ s.address := by decide +kernel

/-- The record in STEP_DOWN with OAC dropped last, whose release is on the line, and the entries of the kinds not yet dropped. -/
def steppingDown (commanded : Commanded) : State :=
  let s := plantWith fun c => { c with stage := .recovery (.stepDown ⟨true, false, false, false⟩), cleanTimer := none }
  { s with
    line := some ⟨.action, ⟨.routine, 223, 60, 4, [1, 0]⟩, false⟩, dispatch := some ⟨⟨60, .oac⟩, .release⟩
    demands := [{ entry ⟨60, .oac⟩ with commanded := .asserted, inFlight := some .release },
      { entry ⟨70, .vfo⟩ with demand := 1, commanded := .asserted }, { entry ⟨71, .fbf⟩ with demand := 1, commanded := commanded }] }

/-- Once OAC is released, FBF is dropped; where its entry does not wait, VFO too, which completes STEP_DOWN. A release that fails
keeps the record waiting. -/
theorem test_completed_release_lets_the_next_kind_go :
    let accept : AckBits := ⟨.dominant, .recessive⟩
    stageAfter (.actionCompletion accept) (steppingDown .asserted) = .recovery (.stepDown ⟨true, true, false, false⟩)
    ∧ stageAfter (.actionCompletion accept) { steppingDown .asserted with
        demands := (steppingDown .asserted).demands.map fun e =>
          if e.key.kind = .fbf then { e with faulted := true, commanded := .unknown } else e } = .clear
    ∧ stageAfter (.actionCompletion ⟨.recessive, .recessive⟩) (steppingDown .asserted)
        = .recovery (.stepDown ⟨true, false, false, false⟩)
    ∧ (steppingDown .asserted).DroppedLast (steppingDown .asserted).coils[(5 : Slot)] ⟨true, false, false, false⟩ ⟨60, .oac⟩
    ∧ (steppingDown .asserted).dropsLeft (steppingDown .asserted).coils[(5 : Slot)] ⟨true, false, false, false⟩
        = [⟨71, .fbf⟩, ⟨70, .vfo⟩] := by decide +kernel

/-- An entry without a reference or a demand is gone once its release is accepted. -/
theorem test_unneeded_entry_is_removed :
    (after (.actionCompletion ⟨.dominant, .recessive⟩) { plant with
      line := some ⟨.action, ⟨.routine, 223, 90, 4, [2, 0]⟩, false⟩, dispatch := some ⟨⟨90, .vfo⟩, .release⟩
      demands := [{ entry ⟨90, .vfo⟩ with mapRefs := 0, commanded := .asserted, inFlight := some .release }] }).demands = [] := by
  decide +kernel

theorem test_orphaned_action_is_applied_nowhere :
    after (.actionCompletion ⟨.dominant, .recessive⟩) { plant with line := some ⟨.action, ⟨.routine, 223, 60, 4, [1, 0]⟩, true⟩ }
      = plant := by decide +kernel

theorem witness_FaultIsReportedAndEscalated :
    let ack : AckBits := ⟨.dominant, .dominant⟩
    (dispatched .oac 3).line.map (·.source) = some .action
    ∧ (demandOf (dispatched .oac 3).demands ⟨60, .oac⟩).map (·.attempts) = some 3
    ∧ (after (.actionCompletion ack) (dispatched .oac 3)).coils[(5 : Slot)].cause = .actuator
    ∧ (after (.actionCompletion ack) (dispatched .oac 3)).units[(3 : UnitNo)].fso = .stop
    ∧ (after (.actionCompletion ack) (dispatched .fbf 3)).coils[(5 : Slot)].stage = .guard
    ∧ (after (.actionCompletion ack) (dispatched .oac 3)).units[(3 : UnitNo)].faults.actuatorFail = true := by decide +kernel

/-! ### Evaluations and timers -/

theorem witness_EvaluationStepsTheDose :
    plant.coils[(5 : Slot)].evalTimer = some 2000 ∧ plant.coils[(5 : Slot)].profile = some profile
      ∧ plant.coils[(5 : Slot)].lifecycle = .armed := by decide +kernel

/-- Each check of an evaluation, with the leaving-air value, the dose and the stage before it. -/
theorem witness_EvaluationMovesTheStage :
    ∀ p ∈ ([(Stage.clear, 40, 0, Stage.trip), (.clear, 140, 12020, .trip), (.clear, 140, 3020, .guard),
        (.clear, 140, 3019, .clear), (.clear, 69, 0, .watch), (.watch, 70, 20, .clear), (.watch, 70, 21, .watch),
        (.watch, 140, 3020, .guard), (.guard, 70, 1020, .watch), (.guard, 70, 1021, .guard), (.trip, 40, 0, .trip),
        (.lockout, 40, 0, .lockout), (.recovery .fanRestart, 140, 0, .recovery .prove),
        (.recovery .prove, 69, 0, .recovery .prove), (.recovery (.stepDown ⟨true, false, false, false⟩), 69, 0, .guard),
        (.recovery (.stepDown ⟨true, false, false, false⟩), 70, 0, .clear)]
        : List (Stage × Int × Nat × Stage)),
      stageAfter (.evaluationExpiry 5)
        { plantWith (fun c => { c with stage := p.1, dose := p.2.2.1 }) with
          points := tablePut plant.points 0 (some (point 0 p.2.1))
          units := tablePut plant.units 3 { unit with fan := .running } } = p.2.2.2 := by decide +kernel

/-- A required sensor is lost. -/
theorem witness_EvaluationLosesASensor :
    ∀ st ∈ [Stage.clear, .watch, .recovery .prove, .guard],
      stageAfter (.evaluationExpiry 5)
        { plantWith (fun c => { c with stage := st }) with
          points := tablePut plant.points 1 (some { point 1 200 with quality := .lost }) } = .guard := by decide +kernel

/-- The restart hold passes at dose L and not above; the clean and settle timers expire. -/
theorem witness_RecordTimersExpire :
    let prove (dose : Nat) : State := plantWith fun c =>
      { c with
        stage := .recovery .prove, holdTimer := some 5000, dose := dose, cleanTimer := none
        last := some ⟨some 30, some 30, true, .running⟩ }
    stageAfter (.restartHoldExpiry 5) (prove 1001) = .recovery .prove
    ∧ stageAfter (.restartHoldExpiry 5) { prove 1000 with
        demands := prove 1000 |>.demands.map fun e => { e with demand := 1, commanded := .asserted } }
        = .recovery (.stepDown ⟨true, false, false, false⟩)
    ∧ stageAfter (.restartHoldExpiry 5) { prove 1000 with
        demands := prove 1000 |>.demands.map fun e =>
          { e with demand := 1, commanded := if e.key.kind = .vfo then .asserted else .released, queued := none } }
        = .clear
    ∧ (after (.cleanTimerExpiry 5) (plantWith fun c => { c with latch := .trip 2 })).storeQueue = [.coil 5]
    ∧ (after (.settleTimerExpiry 5)
        (plantWith fun c => { c with lifecycle := .settling, settleTimer := some 300000 })).coils[(5 : Slot)].settleOverdue
        = true := by decide +kernel

/-- The third missed period makes a point LOST, and the outdoor point's loss makes the regime COLD. -/
theorem witness_PollPeriodEnds :
    let s : State :=
      { plant with
        regime := .mild, outdoor := some ⟨41, 0⟩
        points := tablePut plant.points 0 (some { point 0 140 with miss := 2, quality := .stale }) }
    plant.pollTimer = some 10000 ∧ (after .pollPeriodExpiry s).regime = .cold
      ∧ (after .pollPeriodExpiry s).pollTimer = some 20000
      ∧ (after .pollPeriodExpiry { s with points := plant.points }).pollTimer = some 70000 := by decide +kernel

theorem witness_OtherTimersExpire :
    (claimed.claims[(0 : ClaimNo)].bind (·.timer)) = some 60000
    ∧ (after (.statusTimerExpiry 15) { plant with
        units := tablePut plant.units 15 { unit with fan := .running, statusTimer := some 30000 } }).units[(15 : UnitNo)].fan
        = .unknown
    ∧ (after (.refreshTimerExpiry ⟨60, .oac⟩) { plant with
        demands := [{ entry ⟨60, .oac⟩ with demand := 1, commanded := .asserted, refreshTimer := some 60000 }] }).demands.map
        (·.refreshDue) = [true]
    ∧ (after (.faultRetryTimerExpiry ⟨60, .oac⟩) { plant with
        demands := [{ entry ⟨60, .oac⟩ with faulted := true, attempts := 4, retryTimer := some 30000 }] }).demands.map
        (·.queued) = [some 0]
    ∧ (∀ k ∈ [(⟨60, .oac⟩ : DemandKey), ⟨99, .oac⟩],
        after (.holdOffExpiry k) plant = plant ∧ after (.refreshTimerExpiry k) plant = plant
          ∧ after (.faultRetryTimerExpiry k) plant = plant)
    ∧ (demandOf plant.demands ⟨60, .oac⟩).map (fun e => (e.holdOff, e.refreshTimer, e.retryTimer)) = some (none, none, none)
    ∧ demandOf plant.demands ⟨99, .oac⟩ = none
    ∧ (after .storeRetryTimerExpiry { plant with
        storeRetry := some 60000, settingsStale := true, unitStale := tablePut plant.unitStale 15 true
        coils := tablePut plant.coils 47 { coil with storeStale := true } }).storeQueue
        = [.settings, .unit 15, .coil 47] := by decide +kernel

/-- A flag that a step sets marks the current notice of its slot. -/
theorem test_step_marks_the_current_notice :
    (after (.contactFilterExpiry 3) { offering with
      units := tablePut plant.units 3 { unit with level := .openLevel, filter := .pending 200 } }).notice = some ⟨5, 7, true⟩
    ∧ (after (.evaluationExpiry 5) { offering with points := tablePut plant.points 0 (some (point 0 60)) }).notice
        = some ⟨5, 7, true⟩
    ∧ (after (.evaluationExpiry 5) offering).notice = some ⟨5, 7, false⟩ := by decide +kernel

/-- An input opens and closes again within the filter time, and one that stays open trips. -/
theorem witness_ContactsFollowTheirInputs :
    let opened := after (.llLevelChange 3 .openLevel) plant
    opened.units[(3 : UnitNo)].filter = .pending 200
    ∧ (after (.llLevelChange 3 .closedLevel) opened).units[(3 : UnitNo)].filter = .steady
    ∧ stageAfter (.contactFilterExpiry 3) opened = .trip
    ∧ (after (.contactFilterExpiry 3) opened).noticeFlags[(5 : Slot)] = true
    ∧ (after (.contactFilterExpiry 3) opened).storeQueue = [.coil 5]
    ∧ (after (.contactFilterExpiry 3) opened).units[(3 : UnitNo)].faults = ⟨true, false, false, true, false⟩
    ∧ (after (.contactFilterExpiry 3) { opened with power := .startLoad }).units[(3 : UnitNo)].faults
        = ⟨true, false, false, false, false⟩
    ∧ (after (.contactFilterExpiry 3) { opened with power := .startLoad }).noticeFlags[(5 : Slot)] = false
    ∧ (after (.contactFilterExpiry 15) (after (.llLevelChange 15 .closedLevel) plant)).units[(15 : UnitNo)].fso = .run
    ∧ (after (.llLevelChange 3 .openLevel) { plant with power := .held }).units[(3 : UnitNo)].filter = .steady := by
  decide +kernel

/-! ### The retained store -/

/-- Each kind of item is written, and a failed write starts the retry timer. -/
theorem witness_StoreWritesBeginAndEnd :
    (∀ it ∈ [Item.settings, .unit 15, .coil 47, .coil 5],
      ((after .storeWriteBegin { plant with storeQueue := [it] }).writing.map fun w => w.content.item) = some it)
    ∧ (after (.storeWriteCompletion false) { plant with writing := some ⟨.coil 5 coil.item, false, true⟩ }).storeRetry
        = some 60000
    ∧ results (after (.storeWriteCompletion true)
        { plant.setClaim 3 (some { openClaim with state := .committed true, timer := none }) with
          writing := some ⟨.coil 5 coil.item, true, false⟩ }) = [.done] := by decide +kernel

/-- A retained memory with the record of the plant stored in slots 5 and 6, and one in a DRAFT of another tag in slot 7. -/
def stored : Retained :=
  let draft : Coil := { coil with tag := 7, lifecycle := .draft, lat := some ⟨⟨42, 0⟩, 0⟩ }
  { Retained.blank with
    units := tablePut Retained.blank.units 3 (.valid ⟨some 60, 2⟩)
    coils := tablePut (tablePut (tablePut Retained.blank.coils 5 (.valid { coil with latch := .trip 2 }.item)) 6
      (.valid coil.item)) 7 (.valid draft.item) }

/-- A load of a retained memory at start-up. -/
def loadOf (r : Retained) : State := after (.startUpLoad ⟨1, 15⟩ .asBefore) { State.reset with retained := r }

/-- A record stored ARMED comes back SETTLING with its latch, or SUSPENDED where its unit is undefined; one with the tag of a lower
slot, and an item that fails its check, are lost; a DRAFT comes back as it was. -/
theorem witness_LossOfPowerAndLoads :
    let stages (s : State) : List Lifecycle := [5, 6, 7].map fun i => s.coils[(Fin.ofNat 48 i : Slot)].lifecycle
    stages (loadOf stored) = [.settling, .vacant, .draft] ∧ (loadOf stored).coils[(5 : Slot)].latch = .trip 2
    ∧ (loadOf stored).lostSlots = 1 ∧ (loadOf stored).slotsLost = 1
    ∧ (loadOf stored).address = 1 ∧ (loadOf stored).zone = 15
    ∧ stages (loadOf { stored with units := Retained.blank.units }) = [.suspended, .vacant, .draft]
    ∧ (loadOf { stored with units := Retained.blank.units }).slotsLost = 2
    ∧ (loadOf { stored with coils := tablePut stored.coils 5 .invalid }).lostSlots = 1
    ∧ stages (loadOf { stored with coils := tablePut stored.coils 5 .invalid }) = [.vacant, .settling, .draft]
    ∧ (∀ e ∈ (loadOf stored).demands, e.Fresh) ∧ (loadOf stored).demands.length = 4
    ∧ (∀ i : Fin 96, ∀ e ∈ (loadOf stored).points[i], e.Fresh) ∧ pointsInUse (loadOf stored).points = 3
    ∧ (let t := after (.partRestartLoadBegin ⟨1, 15⟩) { plant with restartPending := true, retained := stored }
      (∀ e ∈ t.demands, e.Fresh) ∧ ∀ i : Fin 96, ∀ e ∈ t.points[i], e.Fresh)
    ∧ (after (.startUpLoad ⟨224, 0⟩ .asBefore) plant).strapValid = false
    ∧ (after (.partRestartLoadBegin ⟨223, 0⟩) { plant with restartPending := true }).power = .restartLoad
    ∧ (after (.resetPinHold .asBefore) plant).power = .held := by decide +kernel

theorem witness_LoadCompletionBeginsService :
    (after .loadCompletion (after (.startUpLoad ⟨1, 0⟩ .asBefore)
      { State.reset with retained := { Retained.blank with coils := tablePut Retained.blank.coils 47 .invalid } })).storeQueue
      = [.coil 47] := by decide +kernel

/-! ### The invariants hold of the plant -/

theorem witness_StepKeepsFansSafe : plant.FanSafe ∧ ∃ t, step plant = .next t :=
  ⟨⟨by decide +kernel, fun u => (by decide +kernel : ∀ u : UnitNo, plant.units[u].fso = .stop ↔ plant.MustStop u) u⟩,
    step_next plant⟩

theorem witness_StepKeepsDemandsSafe : plant.DemandSafe := by
  refine ⟨by decide +kernel, ⟨by decide +kernel, by decide +kernel, ⟨by decide +kernel, fun d h => ?_⟩, by decide +kernel⟩,
    by decide +kernel, ?_⟩
  · exact nomatch (h : (none : Option Dispatch) = some d)
  · intro i k h
    have hk : k ∈ plant.targetPairs plant.coils[i] := by
      have := (List.mem_filter.1 h).2
      simp only [Bool.and_eq_true, List.contains_iff_mem] at this
      exact this.2
    have hi : (plant.coils[i].lifecycle == .settling || plant.coils[i].lifecycle == .armed) = true := by
      have := (List.mem_filter.1 h).2
      simp only [Bool.and_eq_true] at this
      exact this.1
    exact (by decide +kernel : ∀ i : Slot, (plant.coils[i].lifecycle == .settling || plant.coils[i].lifecycle == .armed) = true →
      ∀ k ∈ plant.targetPairs plant.coils[i], ∃ e ∈ plant.demands, e.key = k) i hi k hk

/-- The entries that an ARM creates are fresh. -/
theorem test_created_entries_are_fresh :
    let t := after .arm (holding { suspended with demands := [] } (frameOf .arm 60 [5]))
    t.demands.length = 4 ∧ ∀ e ∈ t.demands, e.Fresh := by decide +kernel

theorem plant_keys : ∀ i : Slot, ∀ k ∈ plant.coils[i].keys, k = ⟨41, 0⟩ ∨ k = ⟨41, 1⟩ := by decide +kernel

theorem witness_StepKeepsPointsCounted : plant.PointsCounted := by
  refine ⟨fun i e h => (by decide +kernel : ∀ i : Fin 96, ∀ e ∈ plant.points[i], e.refs = plant.bindingCount e.key ∧ 1 ≤ e.refs)
      i e h,
    fun i j d e hd he => (by decide +kernel : ∀ i j : Fin 96, ∀ d ∈ plant.points[i], ∀ e ∈ plant.points[j],
      d.key = e.key → i = j) i j d hd e he, fun k h => ?_⟩
  by_contra hn
  have h0 : k ≠ ⟨41, 0⟩ := fun e => hn ⟨0, _, rfl, e.symm⟩
  have h1 : k ≠ ⟨41, 1⟩ := fun e => hn ⟨1, _, rfl, e.symm⟩
  have hz : ∀ i : Slot, (if plant.coils[i].lifecycle = .vacant then 0 else plant.coils[i].keys.count k) = 0 := by
    intro i
    split_ifs with hv
    · rfl
    · exact List.count_eq_zero.2 fun hm => (plant_keys i k hm).elim h0 h1
  refine absurd h ?_
  have ho : ¬ plant.outdoor = some k := fun h => nomatch (h : (none : Option PointKey) = some k)
  simp only [State.bindingCount, hz, ho, if_false]
  simp

/-- A reference change that removes the entry of the poll offered and places another in its place. -/
theorem witness_ReferenceChange :
    let s : State := { plant with backlog := 1, poll := some ⟨⟨41, 0⟩, some 0, .routine, 0⟩ }
    plant.PointsCounted ∧ s.RoomForPoints [⟨41, 0⟩] [⟨42, 0⟩]
    ∧ (s.changeRefs ⟨[⟨41, 0⟩], [⟨42, 0⟩]⟩).points[(0 : Fin 96)] = some (.new ⟨42, 0⟩ 1)
    ∧ (s.changeRefs ⟨[⟨41, 0⟩], [⟨42, 0⟩]⟩).poll = none
    ∧ (s.changeRefs ⟨[⟨41, 1⟩], [⟨42, 0⟩]⟩).poll = s.poll
    ∧ ¬ ({ plant with points := Vector.replicate 96 (some (point 9 0)) } : State).RoomForPoints [] [⟨42, 0⟩] :=
  ⟨witness_StepKeepsPointsCounted, by decide +kernel⟩

/-- The plant with a second record, two claims, retained items, two items queued and a third being written. -/
def promising : State :=
  let s := (claimed.setCoil 47 { Coil.vacant 15 with lifecycle := .draft, tag := 65535 }).setClaim 3 (some (Claim.new 10 47 0))
  { s with
    points := tablePut s.points 95 (some { point 63 0 with miss := 3, quality := .fault, streak := 0 })
    retained := { stored with settings := .valid ⟨none, -300, -299, [223]⟩ }
    storeQueue := [.settings, .coil 47], writing := some ⟨.coil 5 coil.item, false, true⟩
    noticeFlags := tablePut (tablePut s.noticeFlags 0 true) 47 true, notice := some ⟨47, 7, true⟩ }

/-- The plant's definition, and every coil item and write with it, lies in its ranges. -/
theorem promising_definitions : promising.DefinitionsInRange := by
  refine ⟨by decide +kernel, fun i d h => ?_, fun w i d h hc => ?_⟩
  · have key : ∀ i : Slot, (match promising.retained.coils[i] with
        | .valid (.record d) => decide (DefinitionInRange d.lat d.ft d.profile)
        | _ => true) = true := by decide +kernel
    have := key i
    rw [h] at this
    exact of_decide_eq_true this
  · obtain rfl := Option.some.inj ((rfl : promising.writing = some ⟨.coil 5 coil.item, false, true⟩).symm.trans h)
    injection hc with _ hd
    injection hd with hd
    exact hd ▸ (by decide +kernel : DefinitionInRange coil.lat coil.ft coil.profile)

theorem witness_StepKeepsBounds :
    promising.Bounded ∧ promising.ThresholdsOrdered ∧ promising.TagsDistinct ∧ promising.ClaimsDistinct
    ∧ promising.PointsInAccount ∧ promising.DefinitionsInRange ∧ promising.StoreQueuedOnce ∧ promising.NoticeOffered
    ∧ ∃ t, step promising = .next t := by
  refine ⟨by decide +kernel, ⟨by decide +kernel, fun c h => ?_, fun w c h hc => ?_⟩, by unfold State.TagsDistinct; decide +kernel,
    fun m n c d hc hd => ?_, fun i e h => ?_, promising_definitions, ⟨by decide +kernel, fun w h => ?_⟩,
    ⟨by decide +kernel, fun n h => ?_⟩, step_next promising⟩
  · obtain rfl := Stored.valid.inj ((rfl : promising.retained.settings = .valid ⟨none, -300, -299, [223]⟩).symm.trans h)
    decide
  · obtain rfl := Option.some.inj ((rfl : promising.writing = some ⟨.coil 5 coil.item, false, true⟩).symm.trans h)
    exact nomatch hc
  · exact (by decide +kernel : ∀ m n : ClaimNo, ∀ c ∈ promising.claims[m], ∀ d ∈ promising.claims[n],
      c.slot = d.slot ∨ c.holder = d.holder → m = n) m n c hc d hd
  · exact (by decide +kernel : ∀ i : Fin 96, ∀ e ∈ promising.points[i], e.InAccount) i e h
  · obtain rfl := Option.some.inj ((rfl : promising.writing = some ⟨.coil 5 coil.item, false, true⟩).symm.trans h)
    decide +kernel
  · obtain rfl := Option.some.inj ((rfl : promising.notice = some ⟨47, 7, true⟩).symm.trans h)
    decide +kernel

/-- The promises about tags, claims, miss accounts and the store write queue, where a step meets their boundary. -/
theorem test_promises_at_their_boundaries :
    results (after .create (holding promising (frameOf .create 12 [255, 255, 3, 0]))) = [.tagInUse]
    ∧ results (after .claim (holding promising (frameOf .claim 10 [5]))) = [.claimedElsewhere]
    ∧ results (after .claim (holding promising (frameOf .claim 10 [47]))) = [.wrongState]
    ∧ (after .pollPeriodExpiry promising).points[(95 : Fin 96)].map (fun e => (e.miss, e.quality)) = some (3, .fault)
    ∧ (after (.storeWriteCompletion true) promising).storeQueue = [.settings, .coil 47, .coil 5]
    ∧ (promising.markDirty (.coil 47)).storeQueue = promising.storeQueue := by decide +kernel

end Sys2Proof.Tests
end

