-- ==== Sys2Proof/Proofs/StageMoves.lean ====
section
/-! What the Stage Machine's operations can do, said once: every one of them is a chain of moves, each on one record or one
unit, with the condition under which the model makes it. -/

namespace Sys2Proof.Machine

/-- A record that is ARMED, or shows a sign of it: in a record of R6's shape, only an ARMED one does. -/
def Coil.Live (c : Coil) : Prop := c.lifecycle = .armed ∨ ¬ c.AtRest

/-- A record in PROVE, or one whose restart hold timer runs: in a record of R6's shape, only one in PROVE does. -/
def Coil.Proving (c : Coil) : Prop := c.stage = .recovery .prove ∨ c.holdTimer.isSome

theorem Coil.live_of_stage {c : Coil} (h : c.stage ≠ .clear) : c.Live := .inr fun r => h r.1

theorem Coil.live_of_evalTimer {c : Coil} (h : c.evalTimer.isSome) : c.Live := .inr fun r => by simp [r.2.2.1] at h

theorem Coil.live_of_holdTimer {c : Coil} (h : c.holdTimer.isSome) : c.Live := .inr fun r => by simp [r.2.2.2.2.1] at h

theorem Coil.live_of_cleanTimer {c : Coil} (h : c.cleanTimer.isSome) : c.Live := .inr fun r => by simp [r.2.2.2.1] at h

theorem Coil.Proving.live {c : Coil} (h : c.Proving) : c.Live :=
  h.elim (fun h => live_of_stage (by simp [h])) live_of_holdTimer

/-- A record of R6's shape is ARMED where it shows a sign of it. -/
theorem Coil.Shaped.armed {c : Coil} (h : c.Shaped) (hl : c.Live) : c.lifecycle = .armed := by
  obtain ⟨-, -, hrest, -⟩ := h
  by_contra hn
  exact hl.elim hn fun hr => hr (hrest hn)

/-- A record of R6's shape is in PROVE where its hold timer runs. -/
theorem Coil.Shaped.prove {c : Coil} (h : c.Shaped) (hp : c.Proving) : c.stage = .recovery .prove := by
  obtain ⟨-, -, -, -, -, -, hhold, -⟩ := h
  exact hp.elim id hhold

/-! ### Moves -/

/-- One move of the Stage Machine, the Dose Evaluator or the Coil Table on one record, or one addition to a fault summary. -/
inductive StageMove (s : State) : State → Prop where
  | evaluated (i : Slot) (dose : Nat) (r : EvalResult) (next : Nat) (hl : s.coils[i].evalTimer.isSome)
      (hd : s.coils[i].dose ≤ 60000 → dose ≤ 60000) :
      StageMove s (s.setCoil i { s.coils[i] with dose := dose, last := some r, evalTimer := some next })
  | evalRestarted (i : Slot) (next : Nat) (hl : s.coils[i].evalTimer.isSome) :
      StageMove s (s.setCoil i { s.coils[i] with evalTimer := some next })
  | faulted (u : UnitNo) (k : FaultKind) : StageMove s (s.addFault u k)
  | tripped (i : Slot) (cause : Cause) (hl : s.coils[i].Live) : StageMove s (s.trip i cause)
  | staged (i : Slot) (st : Stage) (cause : Cause) (hl : s.coils[i].Live)
      (ht : s.coils[i].stage ≠ .trip ∧ s.coils[i].stage ≠ .lockout) (hst : st = .clear ∨ st = .watch ∨ st = .guard) :
      StageMove s (s.enterStage i st cause)
  | proved (i : Slot) (h : s.coils[i].stage = .recovery .fanRestart) : StageMove s (s.enterProve i)
  | held (i : Slot) (next : Nat) (h : s.coils[i].Proving) :
      StageMove s (s.setCoil i { s.coils[i] with holdTimer := some next })
  | steppedDown (i : Slot) (h : s.coils[i].Proving) :
      StageMove s ((s.setCoil i { s.coils[i] with stage := .recovery (.stepDown .empty), holdTimer := none }).setNotice i)
  | dropped (i : Slot) (d : Dropped) (k : ActionKind) (h : s.coils[i].stage = .recovery (.stepDown d)) :
      StageMove s (s.dropKind i d k)
  | cleared (i : Slot) (d : Dropped) (h : s.coils[i].stage = .recovery (.stepDown d)) : StageMove s (s.finishStepDown i)
  | armed (i : Slot) (h : s.coils[i].lifecycle = .settling) : StageMove s (s.enterArmed i)
  | overdue (i : Slot) :
      StageMove s ((s.setCoil i { s.coils[i] with settleOverdue := true, settleTimer := none }).setNotice i)

/-- A chain of moves. -/
abbrev StageMoves : State → State → Prop := Relation.ReflTransGen StageMove

theorem StageMove.moves {s t : State} (h : StageMove s t) : StageMoves s t := .single h

/-- A loop over the slots whose every pass is a chain of moves is one. -/
theorem forSlots_moves {f : Slot → State → State} (h : ∀ i s, StageMoves s (f i s)) (s : State) :
    StageMoves s (forSlots f s) :=
  forSlots_keeps_prop (P := StageMoves s) (fun i t ht => ht.trans (h i t)) s .refl

/-- A loop over the units whose every pass is a chain of moves is one. -/
theorem forUnits_moves {f : UnitNo → State → State} (h : ∀ u s, StageMoves s (f u s)) (s : State) :
    StageMoves s (forUnits f s) :=
  forUnits_keeps_prop (P := StageMoves s) (fun u t ht => ht.trans (h u t)) s .refl

theorem addFaultWhere_moves (s : State) (k : FaultKind) (p : UnitNo → Bool) : StageMoves s (s.addFaultWhere k p) :=
  forUnits_moves (fun u s => by
    split_ifs
    · exact (StageMove.faulted u k).moves
    · exact .refl) s

theorem settlingTests_moves (s : State) (k : PointKey) : StageMoves s (s.settlingTests k) :=
  forSlots_moves (fun i s => by
    split_ifs with h
    · exact (StageMove.armed i h.1).moves
    · exact .refl) s

theorem contactTrips_moves (s : State) (u : UnitNo) : StageMoves s (s.contactTrips u) :=
  forSlots_moves (fun i s => by
    split_ifs with h
    · exact (StageMove.tripped i .contact (.inl h.1)).moves
    · exact .refl) s

theorem escalate_moves (s : State) (k : DemandKey) : StageMoves s (s.escalate k) :=
  forSlots_moves (fun i s => by
    split_ifs with h
    · exact (StageMove.tripped i .actuator (Coil.live_of_stage fun hc => by rw [hc] at h; exact Bool.false_ne_true h.1)).moves
    · exact .refl) s

theorem fansProved_moves (s : State) (u : UnitNo) : StageMoves s (s.fansProved u) :=
  forSlots_moves (fun i s => by
    split_ifs with h
    · exact (StageMove.proved i h.2.2).moves
    · exact .refl) s

/-- A drop leaves its record in STEP_DOWN. -/
theorem dropKind_stage (s : State) (i : Slot) (d : Dropped) (k : ActionKind) :
    (s.dropKind i d k).coils[i].stage = .recovery (.stepDown (d.add k)) := by
  simp [State.dropKind, -Fin.getElem_fin]

theorem dropLoop_moves (n : Nat) (i : Slot) (s : State) : StageMoves s (s.dropLoop n i) := by
  induction n generalizing s with
  | zero => exact .refl
  | succ n ih =>
    unfold State.dropLoop
    split
    next d hd =>
      split_ifs
      · exact .refl
      · split
        · exact .refl
        next k _ =>
          have hdrop := (StageMove.dropped i d k hd).moves
          dsimp only
          split_ifs
          · exact hdrop.tail (.cleared i _ (dropKind_stage s i d k))
          · exact hdrop.trans (ih _)
    · exact .refl

theorem testDrops_moves (s : State) (i : Slot) : StageMoves s (s.testDrops i) := dropLoop_moves 4 i s

theorem stepDownTests_moves (s : State) (k : DemandKey) : StageMoves s (s.stepDownTests k) :=
  forSlots_moves (fun i s => by
    split
    · split_ifs
      · exact testDrops_moves s i
      · exact .refl
    · exact .refl) s

theorem enterStepDown_moves (s : State) (i : Slot) (h : s.coils[i].Proving) : StageMoves s (s.enterStepDown i) :=
  (StageMove.steppedDown i h).moves.trans (testDrops_moves _ i)

theorem holdExpired_moves (s : State) (i : Slot) (h : s.coils[i].holdTimer.isSome) : StageMoves s (s.holdExpired i) := by
  unfold State.holdExpired
  split_ifs
  · exact enterStepDown_moves s i (.inr h)
  · exact (StageMove.held i _ (.inr h)).moves

theorem laterChecks_moves (s : State) (i : Slot) (p : Profile) (r : EvalResult) (hl : s.coils[i].Live) :
    StageMoves s (s.laterChecks i p r) := by
  have enter (st : Stage) (cause : Cause) (ht : s.coils[i].stage ≠ .trip ∧ s.coils[i].stage ≠ .lockout)
      (hst : st = .clear ∨ st = .watch ∨ st = .guard) : StageMoves s (s.enterStage i st cause) :=
    (StageMove.staged i st cause hl ht hst).moves
  unfold State.laterChecks
  dsimp only
  split
  next h =>
    have ht : s.coils[i].stage ≠ .trip ∧ s.coils[i].stage ≠ .lockout := by simp [h, -Fin.getElem_fin]
    split_ifs
    · exact enter _ _ ht (by simp)
    · exact enter _ _ ht (by simp)
    · exact .refl
  next h =>
    have ht : s.coils[i].stage ≠ .trip ∧ s.coils[i].stage ≠ .lockout := by simp [h, -Fin.getElem_fin]
    split_ifs
    · exact enter _ _ ht (by simp)
    · exact enter _ _ ht (by simp)
    · exact .refl
  next h =>
    split_ifs
    · exact enter _ _ (by simp [h, -Fin.getElem_fin]) (by simp)
    · exact .refl
  next h =>
    split_ifs
    · exact (StageMove.proved i h).moves
    · exact .refl
  next h =>
    split_ifs
    · exact (StageMove.held i _ (.inl h)).moves
    · exact .refl
  next h =>
    split_ifs
    · exact enter _ _ (by simp [h, -Fin.getElem_fin]) (by simp)
    · exact testDrops_moves s i
  · exact .refl
  · exact .refl

theorem stageChecks_moves (s : State) (i : Slot) (p : Profile) (r : EvalResult) (hl : s.coils[i].Live) :
    StageMoves s (s.stageChecks i p r) := by
  unfold State.stageChecks
  split_ifs with ht
  · exact .refl
  · exact (StageMove.tripped i _ hl).moves
  · exact (StageMove.tripped i _ hl).moves
  · unfold State.sensorLost
    split_ifs
    · exact .refl
    · exact (StageMove.staged i _ _ hl (not_or.1 ht) (by simp)).moves
  · exact laterChecks_moves s i p r hl

theorem markUnavailable_moves (s : State) (i : Slot) (r : EvalResult) : StageMoves s (s.markUnavailable i r) := by
  unfold State.markUnavailable
  split_ifs
  · exact .refl
  · exact (StageMove.faulted _ _).moves

/-- An evaluation keeps the dose in its range (R62). -/
theorem doseStep_le (p : Profile) (k : Nat) (r : EvalResult) {dose : Nat} (h : dose ≤ 60000) : doseStep p k r dose ≤ 60000 := by
  unfold doseStep
  split_ifs
  · split
    · exact h
    · split_ifs
      · exact Nat.min_le_left _ _
      · omega
  · exact h

theorem evaluation_moves (s : State) (i : Slot) (h : s.coils[i].evalTimer.isSome) : StageMoves s (s.evaluation i) := by
  unfold State.evaluation
  dsimp only
  split
  · exact (StageMove.evalRestarted i _ h).moves
  next p _ =>
    refine ((StageMove.evaluated i _ _ _ h (doseStep_le p _ _)).moves.trans (markUnavailable_moves _ i _)).trans
      (stageChecks_moves _ i p _ ?_)
    refine Coil.live_of_evalTimer ?_
    unfold State.markUnavailable
    split_ifs <;> simp [-Fin.getElem_fin]

/-! ### What a chain of moves touches -/

/-- A record keeps what its definition is and whether it is VACANT. -/
structure Coil.SameDefinition (c d : Coil) : Prop where
  tag : d.tag = c.tag
  unit : d.unit = c.unit
  kind : d.kind = c.kind
  lat : d.lat = c.lat
  ft : d.ft = c.ft
  profile : d.profile = c.profile
  vacant : d.lifecycle = .vacant ↔ c.lifecycle = .vacant

/-- The fields that a move touches, each by the operation that writes it: a record whose definition stays, the demand table,
a unit, a dirty mark, or a notice flag. -/
inductive Touch (s : State) : State → Prop where
  | coil (i : Slot) (c : Coil) (h : s.coils[i].SameDefinition c) : Touch s (s.setCoil i c)
  | demands (ds : List DemandEntry) : Touch s { s with demands := ds }
  | unit (u : UnitNo) (e : UnitEntry) : Touch s (s.setUnit u e)
  | dirty (it : Item) : Touch s (s.markDirty it)
  | notice (i : Slot) : Touch s (s.setNotice i)

/-- A chain of touches. -/
abbrev Touches : State → State → Prop := Relation.ReflTransGen Touch

theorem changeCoil_touches {s : State} {i : Slot} {c : Coil} (h : s.coils[i].SameDefinition c) : Touches s (s.changeCoil i c) :=
  (Relation.ReflTransGen.single (.coil i c h)).tail (.demands _)

theorem addFault_touch (s : State) (u : UnitNo) (k : FaultKind) : Touch s (s.addFault u k) := .unit u _

theorem recomputeFso_touch (s : State) (u : UnitNo) : Touch s (s.recomputeFso u) := .unit u _

theorem StageMove.touches {s t : State} (h : StageMove s t) : Touches s t := by
  cases h with
  | evaluated i => exact .single (.coil i _ ⟨rfl, rfl, rfl, rfl, rfl, rfl, .rfl⟩)
  | evalRestarted i => exact .single (.coil i _ ⟨rfl, rfl, rfl, rfl, rfl, rfl, .rfl⟩)
  | faulted u k => exact .single (addFault_touch s u k)
  | tripped i cause =>
    have hc : Touches s (s.changeCoil i (s.coils[i].trip cause)) := changeCoil_touches ⟨rfl, rfl, rfl, rfl, rfl, rfl, .rfl⟩
    exact (((hc.tail (addFault_touch _ _ _)).tail (recomputeFso_touch _ _)).tail (.dirty _)).tail (.notice i)
  | staged i =>
    unfold State.enterStage
    refine .tail (changeCoil_touches ?_) (.notice i)
    exact ⟨rfl, rfl, rfl, rfl, rfl, rfl, .rfl⟩
  | proved i => exact (Relation.ReflTransGen.single (.coil i _ ⟨rfl, rfl, rfl, rfl, rfl, rfl, .rfl⟩)).tail (.notice i)
  | held i => exact .single (.coil i _ ⟨rfl, rfl, rfl, rfl, rfl, rfl, .rfl⟩)
  | steppedDown i => exact (Relation.ReflTransGen.single (.coil i _ ⟨rfl, rfl, rfl, rfl, rfl, rfl, .rfl⟩)).tail (.notice i)
  | dropped i => exact changeCoil_touches ⟨rfl, rfl, rfl, rfl, rfl, rfl, .rfl⟩
  | cleared i =>
    unfold State.finishStepDown
    refine .tail (.tail (changeCoil_touches ?_) (.dirty _)) (.notice i)
    exact ⟨rfl, rfl, rfl, rfl, rfl, rfl, .rfl⟩
  | armed i h =>
    have hc : Touches s (s.changeCoil i (s.coils[i].enterArmed s.now)) :=
      changeCoil_touches ⟨rfl, rfl, rfl, rfl, rfl, rfl, by simp [Coil.enterArmed, h, -Fin.getElem_fin]⟩
    unfold State.enterArmed
    dsimp only
    split_ifs
    · exact (hc.tail (recomputeFso_touch _ _)).tail (.notice i)
    · exact ((hc.tail (addFault_touch _ _ _)).tail (recomputeFso_touch _ _)).tail (.notice i)
  | overdue i => exact (Relation.ReflTransGen.single (.coil i _ ⟨rfl, rfl, rfl, rfl, rfl, rfl, .rfl⟩)).tail (.notice i)

/-- A RESTART touches its record, its unit and the notice flag, at the event's end (R81). -/
theorem restart_touches (s : State) (i : Slot) : ∃ t, Touches s t ∧ s.restart i = t.endEvent := by
  refine ⟨_, ?_, rfl⟩
  refine .tail (.tail (changeCoil_touches ?_) (recomputeFso_touch _ _)) (.notice i)
  exact ⟨rfl, rfl, rfl, rfl, rfl, rfl, .rfl⟩

/-- A RELEASE_LOCKOUT touches its record, a dirty mark and the notice flag, at the event's end (R82). -/
theorem releaseLockout_touches (s : State) (i : Slot) : ∃ t, Touches s t ∧ s.releaseLockout i = t.endEvent := by
  refine ⟨_, ?_, rfl⟩
  refine .tail (.tail (changeCoil_touches ?_) (.dirty _)) (.notice i)
  exact ⟨rfl, rfl, rfl, rfl, rfl, rfl, .rfl⟩

/-- The clean timer's expiry touches its record and, with a latch, a dirty mark (R79). -/
theorem cleanExpired_touches (s : State) (i : Slot) : Touches s (s.cleanExpired i) := by
  have hc : Touches s (s.setCoil i { s.coils[i] with tripCount := 0, latch := .none, cleanTimer := none }) :=
    .single (.coil i _ ⟨rfl, rfl, rfl, rfl, rfl, rfl, .rfl⟩)
  unfold State.cleanExpired
  dsimp only
  split_ifs
  · exact hc
  · exact hc.tail (.dirty _)

theorem Touches.keep {P : State → Prop} (hP : ∀ s t, Touch s t → P s → P t) {s t : State} (h : Touches s t) (hs : P s) : P t := by
  induction h with
  | refl => exact hs
  | tail _ hu ih => exact hP _ _ hu ih

/-- What every touch keeps, every chain of moves keeps. -/
theorem StageMoves.keep {P : State → Prop} (hP : ∀ s t, Touch s t → P s → P t) {s t : State} (h : StageMoves s t) (hs : P s) :
    P t := by
  induction h with
  | refl => exact hs
  | tail _ hm ih => exact hm.touches.keep hP ih

/-- A touch leaves the fields that `apart` leaves. -/
theorem Touch.apart {s t : State} (h : Touch s t) : t.apart = s.apart := by
  cases h with
  | coil => rfl
  | demands => rfl
  | unit => rfl
  | dirty it => exact markDirty_apart s it
  | notice => rfl

theorem StageMoves.apart {s t : State} (h : StageMoves s t) : t.apart = s.apart :=
  h.keep (P := fun u => u.apart = s.apart) (fun _ _ hu he => hu.apart.trans he) rfl

end Sys2Proof.Machine
end

