-- ==== Sys2Proof/Proofs/Requests.lean ====
section
/-! What a frame that the request handler takes can do, said once: each owner either leaves its state, or makes one change of
this list, with the conditions under which it makes it. -/

namespace Sys2Proof.Machine

/-- What a frame `f` that the handler has taken does to a state: a refusal, a lookup's counts, a report or a status handed on to the
Stage Machine, or the change of a request that has passed its checks. -/
inductive Request (f : RxFrame) (s : State) : State → Prop where
  | unchanged : Request f s s
  | freeTaken (n : Nat) : Request f s { s with freeCount := n }
  | lostSlotsRead : Request f s { s with lostSlots := 0 }
  | faultsRead (u : UnitNo) : Request f s (s.setUnit u { s.units[u] with faults := .empty })
  | reported (i : Fin 96) (e d : PointEntry) (r : Reading) (t u : State)
      (he : s.points[i] = some e) (hd : d = e.takeFault r ∨ d = e.takeGood r)
      (hm : StageMoves { s with points := tablePut s.points i (some d) } t)
      (hu : ∃ average regime, u = { t with average := average, regime := regime }) : Request f s u.endEvent
  | statusTaken (u : UnitNo) (fan : FanProof) (timer : Option Nat) (t : State)
      (hm : StageMoves (s.setUnit u { s.units[u] with fan := fan, statusTimer := timer }) t) : Request f s t.endEvent
  | created (tag : Nat) (u : UnitNo) (kind : CoilKind) (i : Slot) (hv : s.coils[i].lifecycle = .vacant)
      (ht : s.tagHeld tag = false) : Request f s ((s.setCoil i (.draft tag u kind)).lifecycleChanged i)
  | armed (i : Slot) (hl : s.coils[i].lifecycle = .draft ∨ s.coils[i].lifecycle = .suspended)
      (hf : s.pairsFit s.coils[i] = true) : Request f s (s.arm i)
  | suspended (i : Slot) (h : s.coils[i].maySuspend = true) : Request f s (s.suspend i)
  | retired (i : Slot) (hl : s.coils[i].lifecycle = .draft ∨ s.coils[i].lifecycle = .suspended) : Request f s (s.retire i)
  | restarted (i : Slot) (hl : s.coils[i].lifecycle = .armed) (hs : s.coils[i].stage = .trip) : Request f s (s.restart i)
  | released (i : Slot) (hl : s.coils[i].lifecycle = .armed) (hs : s.coils[i].stage = .lockout) :
      Request f s (s.releaseLockout i)
  | claimed (n : ClaimNo) (i : Slot) (hon : ∀ p, s.claimOn i = some p → p.2.holder = f.sender)
      (hof : s.claimOf f.sender = none) : Request f s (s.setClaim n (some (.new f.sender i s.now)))
  | staged (n : ClaimNo) (c : Claim) (st : Staging) (timer : Option Nat) (hc : s.claimOf f.sender = some (n, c)) :
      Request f s (s.setClaim n (some { c with staging := st, timer := timer }))
  | committed (n : ClaimNo) (c : Claim) (hc : s.claimOf f.sender = some (n, c))
      (hr : (c.staging.clamped.over s.coils[c.slot]).WithinRanges) (hd : (c.staging.clamped.over s.coils[c.slot]).DosesOrdered)
      (hp : c.staging.clamped.CompleteFor s.coils[c.slot]) (hg : c.staging.clamped.GateOpen s.coils[c.slot])
      (hf : s.coils[c.slot].holdsReferences = true → c.staging.clamped.map.isSome = true →
        s.mapFits s.coils[c.slot] ((c.staging.clamped.over s.coils[c.slot]).into s.coils[c.slot]) = true) :
      Request f s (s.commit n c ((c.staging.clamped.over s.coils[c.slot]).into s.coils[c.slot])
        (c.staging.clamped != c.staging))
  | abandoned (n : ClaimNo) : Request f s (s.setClaim n none)
  | unitDefined (u : UnitNo) (controller : Option Nat) (zone : Fin 16) (h : s.unitInUse u = false) :
      Request f s (s.defineUnit u controller zone)
  | partSet (k : Option PointKey) (on off : Int) (h : on < off) : Request f s (s.setPart k on off)
  | supervisorsSet (l : List Nat) : Request f s (({ s with supervisors := l } : State).markDirty .settings)
  | restartRequested : Request f s { s with restartPending := true }

variable {f : RxFrame} {s : State}

/-- A request that names a slot leaves its state where it is refused, and else is judged on a non-vacant record. -/
theorem withRecord_request {n : Nat} {k : Slot → Handled} (h : ∀ i : Slot, s.coils[i].lifecycle ≠ .vacant → Request f s (k i).1) :
    Request f s (withRecord s n k).1 := by
  unfold withRecord
  split
  · exact .unchanged
  next i _ =>
    split_ifs with hv
    · exact .unchanged
    · exact h i hv

/-- A claimed edit leaves its state where it is refused, and else is judged on the sender's own claim. -/
theorem withClaim_request {k : ClaimNo → Claim → Handled}
    (h : ∀ n c, s.claimOf f.sender = some (n, c) → Request f s (k n c).1) : Request f s (withClaim f s k).1 := by
  unfold withClaim
  split
  · exact .unchanged
  next n c hc =>
    split_ifs
    · exact .unchanged
    · exact .unchanged
    · exact h n c hc

/-- What a report hands to the Regime Monitor reaches the average and the regime alone (R54 to R56). -/
theorem fallBack_if (p : Prop) [Decidable p] (t : State) :
    ∃ average regime, (if p then t.fallBack else t) = { t with average := average, regime := regime } := by
  split
  · exact ⟨t.average, .cold, rfl⟩
  · exact ⟨t.average, t.regime, rfl⟩

theorem outdoorReport_if (p : Prop) [Decidable p] (t : State) (x : Int) :
    ∃ average regime, (if p then t.outdoorReport x else t) = { t with average := average, regime := regime } := by
  split
  · exact ⟨_, _, rfl⟩
  · exact ⟨t.average, t.regime, rfl⟩

theorem takeReport_request : Request f s (s.takeReport f) := by
  unfold State.takeReport
  split_ifs
  · exact .unchanged
  split
  · exact .unchanged
  next i _ =>
    split
    · exact .unchanged
    next e he =>
      unfold State.takeReading
      split_ifs
      · exact .unchanged
      · unfold State.takeFaultReport
        have hm := settlingTests_moves { s with points := tablePut s.points i (some (e.takeFault (readingOf f.payload))) } e.key
        dsimp only
        exact .reported i e _ _ _ _ he (.inl rfl) hm (fallBack_if _ _)
      · unfold State.takeGoodReport
        dsimp only
        refine .reported i e _ (readingOf f.payload) _ _ he (.inr rfl) (.trans ?_ (settlingTests_moves _ e.key)) (outdoorReport_if _ _ _)
        split
        · exact .refl
        · exact addFaultWhere_moves _ _ _

theorem takeUnitStatus_request : Request f s (s.takeUnitStatus f) := by
  unfold State.takeUnitStatus
  split_ifs
  · exact .unchanged
  split
  next u fan _ _ =>
    split_ifs
    · unfold State.takeStatus
      dsimp only
      split_ifs
      · exact .statusTaken u fan _ _ (fansProved_moves _ u)
      · exact .statusTaken u fan _ _ .refl
    · exact .unchanged
  · exact .unchanged

theorem queryCoilOwner_request : Request f s (queryCoilOwner f s).1 := by
  have view (v : CoilView) (i : Slot) : Request f s (s.answerView v i).1 := by
    cases v
    · exact .unchanged
    · exact .freeTaken _
    · exact .unchanged
  unfold queryCoilOwner
  dsimp only
  split
  · exact .unchanged
  · exact withRecord_request fun i _ => view _ i
  · split
    · exact .unchanged
    · exact view _ _

theorem queryPointOwner_request : Request f s (queryPointOwner f s).1 := by
  unfold queryPointOwner
  dsimp only
  split_ifs
  · exact .unchanged
  · split
    · exact .unchanged
    · split <;> exact .unchanged

theorem queryUnitOwner_request : Request f s (queryUnitOwner f s).1 := by
  unfold queryUnitOwner
  split <;> exact .unchanged

theorem readFaultsOwner_request : Request f s (readFaultsOwner f s).1 := by
  unfold readFaultsOwner
  split
  · exact .unchanged
  · exact .faultsRead _

theorem queryDemandOwner_request : Request f s (queryDemandOwner f s).1 := by
  unfold queryDemandOwner
  dsimp only
  split
  · exact .unchanged
  · split_ifs
    · exact .unchanged
    · split
      · exact .unchanged
      · exact .freeTaken _

theorem createOwner_request : Request f s (createOwner f s).1 := by
  unfold createOwner
  dsimp only
  split
  · exact .unchanged
  split
  next u kind _ _ =>
    split_ifs with _ ht
    · exact .unchanged
    · exact .unchanged
    split
    · exact .unchanged
    next i hi => exact .created _ u kind i (by simpa using List.find?_some hi) (by simpa using ht)
  · exact .unchanged

theorem armOwner_request : Request f s (armOwner f s).1 :=
  withRecord_request fun i _ => by
    split_ifs with _ hl _ hf
    · exact .unchanged
    · exact .unchanged
    · exact .unchanged
    · exact .unchanged
    · exact .armed i (by rwa [← not_and_or.trans (or_congr not_not not_not)]) (by simpa using hf)

theorem suspendOwner_request : Request f s (suspendOwner f s).1 :=
  withRecord_request fun i _ => by
    split_ifs with _ h
    · exact .unchanged
    · exact .unchanged
    · exact .suspended i (by simpa using h)

theorem retireOwner_request : Request f s (retireOwner f s).1 := by
  unfold retireOwner
  split_ifs
  · exact .unchanged
  refine withRecord_request fun i _ => ?_
  split_ifs with hl
  · exact .unchanged
  · exact .unchanged
  · exact .retired i (by rwa [← not_and_or.trans (or_congr not_not not_not)])

theorem restartOwner_request : Request f s (restartOwner f s).1 :=
  withRecord_request fun i _ => by
    split_ifs with _ h
    · exact .unchanged
    · exact .unchanged
    · exact .unchanged
    · rw [not_or, not_not, not_not] at h
      exact .restarted i h.1 h.2

theorem releaseLockoutOwner_request : Request f s (releaseLockoutOwner f s).1 := by
  unfold releaseLockoutOwner
  split_ifs
  · exact .unchanged
  refine withRecord_request fun i _ => ?_
  split_ifs with h
  · exact .unchanged
  · rw [not_or, not_not, not_not] at h
    exact .released i h.1 h.2

theorem claimOwner_request : Request f s (claimOwner f s).1 :=
  withRecord_request fun i _ => by
    split_ifs with _ hon hof
    · exact .unchanged
    · exact .unchanged
    · exact .unchanged
    split
    · exact .unchanged
    next n _ =>
      refine .claimed n i (fun p hp => ?_) (by simpa using hof)
      simpa [hp] using hon

theorem stageLimitsOwner_request : Request f s (stageLimitsOwner f s).1 :=
  withClaim_request fun n c hc => .staged n c _ _ hc

theorem stageDoseOwner_request : Request f s (stageDoseOwner f s).1 :=
  withClaim_request fun n c hc => .staged n c _ _ hc

theorem stageTimingOwner_request : Request f s (stageTimingOwner f s).1 :=
  withClaim_request fun n c hc => .staged n c _ _ hc

theorem stageMapOwner_request : Request f s (stageMapOwner f s).1 :=
  withClaim_request fun n c hc => .staged n c _ _ hc

theorem stageBindOwner_request : Request f s (stageBindOwner f s).1 :=
  withClaim_request fun n c hc => by
    split
    · exact .staged n c _ _ hc
    · exact .staged n c _ _ hc
    · exact .unchanged

theorem commitOwner_request : Request f s (commitOwner f s).1 :=
  withClaim_request fun n c hc => by
    unfold State.tryCommit
    dsimp only
    split_ifs with hr hd hp hg _ hf
    · exact .unchanged
    · exact .unchanged
    · exact .unchanged
    · exact .unchanged
    · exact .unchanged
    · exact .unchanged
    · refine .committed n c hc (candidate_inRange_iff.1 (by simpa using hr)) (dose_consistent_iff.1 (by simpa using hd))
        (incompleteFor_iff.1 (by simpa using hp)) (passesGate_iff.1 (by simpa using hg)) fun h1 h2 => ?_
      simpa only [h1, h2, Bool.true_and, Bool.not_eq_true', Bool.not_eq_false] using hf

theorem abandonOwner_request : Request f s (abandonOwner f s).1 := withClaim_request fun n _ _ => .abandoned n

theorem unitSetOwner_request : Request f s (unitSetOwner f s).1 := by
  unfold unitSetOwner
  dsimp only
  split
  · exact .unchanged
  split
  next u zone _ _ =>
    split_ifs with _ hu
    · exact .unchanged
    · exact .unchanged
    · exact .unitDefined u _ zone (by simpa using hu)
  · exact .unchanged

theorem partSetOwner_request : Request f s (partSetOwner f s).1 := by
  unfold partSetOwner
  dsimp only
  split_ifs with _ _ h
  · exact .unchanged
  · exact .unchanged
  · exact .unchanged
  · exact .unchanged
  · exact .partSet _ _ _ (not_le.1 h)

theorem supervisorSetOwner_request : Request f s (supervisorSetOwner f s).1 := by
  unfold supervisorSetOwner
  dsimp only
  split_ifs
  · exact .unchanged
  · exact .unchanged
  · exact .supervisorsSet _

theorem partRestartOwner_request : Request f s (partRestartOwner f s).1 := by
  unfold partRestartOwner
  split_ifs
  · exact .restartRequested
  · exact .unchanged

end Sys2Proof.Machine
end

