-- ==== Sys2Proof/Proofs/Events.lean ====
section
/-! What one event of the part can do, said once: a step is one of these events at some moment of the clock, and each promise that
every step keeps is proved by going through them. -/

namespace Sys2Proof.Machine

/-- What one event does to the state, with the conditions under which it occurs: the frame that the handler takes, the events of the
plant line, the expiries of the timers, the low-limit contacts, the store's writes, and the losses and loads. -/
inductive Event (s : State) : State → Prop where
  | stays : Event s s
  | taken (f : RxFrame) (rest : List RxFrame) (t : State) (hrx : s.rx = f :: rest)
      (h : Request f { s with rx := rest } t) : Event s t
  | answered (f : RxFrame) (rest : List RxFrame) (a : Answer) (t : State) (hrx : s.rx = f :: rest)
      (hr : s.handlerReady = true) (h : Request f { s with rx := rest } t) : Event s (t.pushAnswer a)
  | received (rx : List RxFrame) (ack : Ack) (h : s.rx.length ≤ 8 → rx.length ≤ 8) : Event s { s with rx := rx, ack := ack }
  | lined (l : Option LineFrame) : Event s { s with line := l }
  | dispatched (e : DemandEntry) (l : Option LineFrame) (hd : s.dispatch = none) (he : e ∈ s.demands)
      (hq : e.queued.isSome) : Event s { s.takeEntry { key := e.key, polarity := e.polarity } with line := l }
  | noticeMoved (l : Option LineFrame) (n m : NoticeOffer) (hn : s.notice = some n) (hm : m.slot = n.slot) :
      Event s { s with line := l, notice := some m }
  | noticeLeft (flags : Table Bool 48) :
      Event s ({ s with line := none, notice := none, noticeFlags := flags } : State).chooseNotice
  | answersMoved (as ds : List Answer) (h : s.answers.length ≤ 8 → as.length ≤ 8) :
      Event s { s with line := none, answers := as, deferred := ds }
  | polled (line : Option LineFrame) (points : Table (Option PointEntry) 96) (backlog : Nat) (poll : Option PollOffer)
      (regime : Regime) (timer : Option Nat) (period : Nat) (hb : s.backlog ≤ 3 → backlog ≤ 3)
      (hp : ∀ i : Fin 96, points[i] = s.points[i] ∨ ∃ e, s.points[i] = some e
        ∧ (points[i] = some { e with polled := true } ∨ points[i] = some e.endPeriod)) :
      Event s { s with
        line := line, points := points, backlog := backlog, poll := poll, regime := regime, pollTimer := timer
        pollPeriod := period }
  | completed (d : Dispatch) (e : DemandEntry) (g : DemandEntry → DemandEntry) (t : State) (hd : s.dispatch = some d)
      (he : demandOf s.demands d.key = some e)
      (hg : g = DemandEntry.accepted s.now s.joinStamp d.polarity ∨ g = DemandEntry.failed s.now s.joinStamp d.polarity)
      (hm : StageMoves
        { s with line := none, dispatch := none, demands := sweepDemand d.key (updateDemand d.key g s.demands) } t) :
      Event s t.endEvent
  | uncompleted (d : Dispatch) (hd : s.dispatch = some d) (he : demandOf s.demands d.key = none) :
      Event s { s with line := none, dispatch := none }
  | moved (t : State) (hm : StageMoves s t) : Event s t.endEvent
  | cleaned (i : Slot) (h : s.coils[i].cleanTimer.isSome) : Event s (s.cleanExpired i)
  | claimFreed (n : ClaimNo) : Event s (s.setClaim n none)
  | fanUnproved (u : UnitNo) : Event s (s.setUnit u { s.units[u] with fan := .unknown, statusTimer := none })
  | refreshed (k : DemandKey) :
      Event s ({ s with demands := updateDemand k (DemandEntry.refreshExpired s.joinStamp) s.demands } : State).endEvent
  | retried (k : DemandKey) (e : DemandEntry) (he : demandOf s.demands k = some e) (hr : e.retryTimer.isSome) :
      Event s ({ s with demands := updateDemand k (DemandEntry.retryExpired s.joinStamp) s.demands } : State).endEvent
  | storeRetried : Event s { s with storeQueue := s.storeQueue ++ s.retryItems, storeRetry := none }
  | levelChanged (u : UnitNo) (level : ContactLevel) (filter : ContactFilter) :
      Event s (s.setUnit u { s.units[u] with level := level, filter := filter })
  | contactClosed (u : UnitNo) :
      Event s ((s.setUnit u { s.units[u] with contact := .closed, filter := .steady }).recomputeFso u)
  | contactOpened (u : UnitNo) (t : State)
      (hm : StageMoves
        (((s.setUnit u { s.units[u] with contact := .opened, filter := .steady }).addFault u .contactOpen).recomputeFso u) t) :
      Event s t.endEvent
  | writeBegun (it : Item) (rest : List Item) (hq : s.storeQueue = it :: rest) (hw : s.writing = none) :
      Event s { s with
        storeQueue := rest
        writing := some { content := s.contentOf it, carries := s.carriesCommit it, requeue := false } }
  | writeCompleted (w : Write) (success : Bool) (hw : s.writing = some w) :
      Event s (((({ s with writing := none } : State).writeResult w success).requeueAfter w).handOff w success)
  | brokenOff (p : Power) (cut : BrokenWrite) (hp : p = .off ∨ p = .held) : Event s (s.breakOff p cut)
  | startUp (strap : Strap) (cut : BrokenWrite) : Event s (s.startUp strap cut)
  | restartBegun (strap : Strap) (hp : s.power = .running) : Event s (s.clearedForRestart.readStrap strap).load
  | loaded : Event s s.completeLoad

/-- An event at a moment that the clock has moved to. -/
def EventAt (s t : State) : Prop := ∃ now, Event { s with now := now } t

variable {s : State}

theorem Event.at {t : State} (h : Event s t) : EventAt s t := ⟨s.now, h⟩

theorem EventAt.stays : EventAt s s := Event.stays.at

/-- The handler takes the frame at the head of the queue, or nothing happens. -/
theorem takeFrame_cases {P : State → Prop} {p : RxFrame → Bool} {effect : RxFrame → State → State} (stays : P s)
    (takes : ∀ f rest, s.rx = f :: rest → s.handlerReady = true → P (effect f { s with rx := rest })) :
    P (takeFrame p effect s) := by
  unfold takeFrame
  split
  · exact stays
  next f rest hrx =>
    split_ifs with hp
    · exact takes f rest hrx (Bool.and_eq_true_iff.1 hp).1
    · exact stays

/-- A frame that the handler takes is discarded, answered, or judged by its owner. -/
theorem takeRequest_event {fn : Func} {owner : RxFrame → State → Handled} (h : ∀ f s, Request f s (owner f s).1) :
    Event s (takeRequest fn owner s) := by
  refine takeFrame_cases .stays fun f rest hrx hr => ?_
  split_ifs
  · exact .taken f rest _ hrx .unchanged
  · exact .answered f rest _ _ hrx hr .unchanged
  · have ho := h f { s with rx := rest }
    split
    next t r heq =>
      rw [heq] at ho
      exact .answered f rest _ _ hrx hr ho
    next t heq =>
      rw [heq] at ho
      exact .taken f rest _ hrx ho

theorem takeFrame_event {p : RxFrame → Bool} {effect : RxFrame → State → State} (h : ∀ f s, Request f s (effect f s)) :
    Event s (takeFrame p effect s) :=
  takeFrame_cases .stays fun f rest hrx _ => .taken f rest _ hrx (h f _)

theorem unknownFunction_event {p : RxFrame → Bool} {r : Reply} :
    Event s (takeFrame p (fun f s => if f.addressed then s.pushAnswer (f.answer r) else s) s) := by
  refine takeFrame_cases .stays fun f rest hrx hr => ?_
  split_ifs
  · exact .answered f rest _ _ hrx hr .unchanged
  · exact .taken f rest _ hrx .unchanged

theorem receive_event (levels : List LineLevel) : Event s (s.receive levels) := by
  unfold State.receive
  split_ifs
  · exact .stays
  split
  · exact .received s.rx _ id
  split_ifs
  · refine .received _ _ fun h => ?_
    split_ifs with hr
    · simp only [List.length_append, List.length_singleton]
      exact hr.2
    · exact h
  · exact .received s.rx _ id

/-! ### The plant line -/

/-- The engine's choice reaches its offer and the backlog alone, and raises no backlog (R44). -/
theorem choosePoll_fields (s : State) : ∃ poll backlog, s.choosePoll = { s with poll := poll, backlog := backlog }
    ∧ backlog ≤ s.backlog := by
  unfold State.choosePoll
  split_ifs
  · exact ⟨s.poll, s.backlog, rfl, le_rfl⟩
  · split
    · exact ⟨_, s.backlog, rfl, le_rfl⟩
    · exact ⟨s.poll, 0, rfl, Nat.zero_le _⟩

/-- The entry that the dispatcher would take is queued (R104, R107). -/
theorem firstEligible_queued {now : Nat} {ds : List DemandEntry} {e : DemandEntry} (h : firstEligible now ds = some e) :
    e ∈ ds ∧ e.queued.isSome := by
  refine List.foldlRecOn (motive := fun best => ∀ b, best = some b → b ∈ ds ∧ b.queued.isSome) ds _ (by simp)
    (fun best hb x hx b h => ?_) e h
  split_ifs at h with he
  · have hx : x ∈ ds ∧ x.queued.isSome := ⟨hx, (Bool.and_eq_true_iff.1 he).1⟩
    split at h
    · obtain rfl := Option.some.inj h; exact hx
    · split_ifs at h
      · obtain rfl := Option.some.inj h; exact hx
      · exact hb b h
  · exact hb b h

theorem grant_event (s : State) : Event s s.grant := by
  unfold State.grant
  split_ifs
  · exact .stays
  split
  · exact .stays
  · unfold State.grantAction State.nextAction
    cases hd : s.dispatch with
    | some d =>
      simp only [Option.isSome_some, if_true]
      exact .lined _
    | none =>
      cases he : firstEligible s.now s.demands with
      | none => exact .stays
      | some e =>
        obtain ⟨hm, hq⟩ := firstEligible_queued he
        exact .dispatched e _ hd hm hq
  · unfold State.grantPoll
    split
    · exact .stays
    · exact .lined _
  · unfold State.grantAnswer
    split
    · exact .stays
    · exact .lined _
  · unfold State.grantNotice
    split
    · exact .stays
    next n hn => exact .noticeMoved _ n _ hn rfl

theorem loseAnswer_event (s : State) : Event s s.offLine.loseAnswer := by
  unfold State.loseAnswer
  split
  · exact .lined none
  next a rest ha =>
    have ha : s.answers = a :: rest := ha
    split_ifs
    · unfold State.freeAnswer
      split
      · exact .answersMoved _ s.deferred fun h => by
          have h : s.offLine.answers.length ≤ 8 := h
          rw [List.length_tail]; omega
      · exact .answersMoved _ _ fun h => by
          simp only [offLine_answers, ha, List.tail_cons, List.length_append, List.length_cons] at h ⊢
          exact h
    · exact .answersMoved _ s.deferred fun h => by
        rw [ha] at h
        exact h

theorem freeAnswer_event (s : State) : Event s s.offLine.freeAnswer := by
  unfold State.freeAnswer
  split
  · exact .answersMoved _ s.deferred fun h => by
      have h : s.offLine.answers.length ≤ 8 := h
      rw [List.length_tail]; omega
  · exact .answersMoved _ _ fun h => by
      have h : s.offLine.answers.length ≤ 8 := h
      rw [List.length_append, List.length_tail, List.length_singleton]; omega

theorem losePoll_event (s : State) : Event s s.offLine.losePoll := by
  unfold State.losePoll
  split
  · exact .lined none
  next p _ =>
    split_ifs
    · obtain ⟨poll, backlog, he, hb⟩ := choosePoll_fields ({ s.offLine with poll := none } : State)
      rw [he]
      exact .polled none s.points backlog poll s.regime s.pollTimer s.pollPeriod (fun h => le_trans hb h) fun i => .inl rfl
    · exact .polled none s.points s.backlog _ s.regime s.pollTimer s.pollPeriod id fun i => .inl rfl

theorem loseNotice_event (s : State) : Event s s.offLine.loseNotice := by
  unfold State.loseNotice
  split
  · exact .lined none
  next n hn =>
    split_ifs
    · exact .noticeLeft s.noticeFlags
    · exact .noticeMoved none n _ hn rfl

theorem loseLine_event (s : State) : Event s s.loseLine := by
  unfold State.loseLine
  split
  · exact .stays
  · split_ifs
    · exact .lined none
    · split
      · exact .lined none
      · exact loseAnswer_event s
      · exact losePoll_event s
      · exact loseNotice_event s

theorem completeLine_event {src : Source} {effect : State → State} (h : Event s (effect s.offLine)) :
    Event s (s.completeLine src effect) := by
  unfold State.completeLine
  split
  · exact .stays
  · split_ifs
    · exact .stays
    · exact .lined none
    · exact h

theorem handFault_moves (s : State) (d : Dispatch) : StageMoves s (s.handFault d) := by
  have hf := addFaultWhere_moves s .actuatorFail (s.actuatorUnits d.key)
  unfold State.handFault
  dsimp only
  split_ifs
  · exact hf.trans (escalate_moves _ _)
  · exact hf

theorem completeAction_event (s : State) (ack : AckBits) : Event s (s.offLine.completeAction ack) := by
  unfold State.completeAction
  split
  · exact .lined none
  next d hd =>
    dsimp only
    split
    next he => exact .uncompleted d hd he
    next e he =>
      unfold State.applyOutcome
      split_ifs
      · exact .completed d e _ _ hd he (.inl rfl) (stepDownTests_moves _ _)
      · exact .completed d e _ _ hd he (.inr rfl) ((handFault_moves _ d).trans (stepDownTests_moves _ _))
      · exact .completed d e _ _ hd he (.inr rfl) (stepDownTests_moves _ _)

theorem completePoll_event (s : State) : Event s s.offLine.completePoll := by
  unfold State.completePoll
  split
  · exact .lined none
  next p _ =>
    unfold State.markPolled
    split
    next i _ =>
      obtain ⟨poll, backlog, he, hb⟩ := choosePoll_fields
        { s with
          line := none, backlog := s.backlog - 1, poll := none
          points := tablePut s.points i (s.points[i].map fun e => { e with polled := true }) }
      refine he ▸ .polled none _ backlog poll s.regime s.pollTimer s.pollPeriod (fun h => ?_) fun j => ?_
      · exact le_trans hb (le_trans (Nat.sub_le _ _) h)
      · rw [tablePut_get]
        split_ifs with hj
        · subst hj
          cases hp : s.points[j] with
          | none => exact .inl rfl
          | some e => exact .inr ⟨e, rfl, .inl rfl⟩
        · exact .inl rfl
    · obtain ⟨poll, backlog, he, hb⟩ := choosePoll_fields { s with line := none, backlog := s.backlog - 1, poll := none }
      refine he ▸ .polled none s.points backlog poll s.regime s.pollTimer s.pollPeriod (fun h => ?_) fun j => .inl rfl
      exact le_trans hb (le_trans (Nat.sub_le _ _) h)

theorem completeNotice_event (s : State) : Event s s.offLine.completeNotice := by
  unfold State.completeNotice
  split
  · exact .lined none
  · exact .noticeLeft _

/-! ### Timers and contacts -/

theorem expire_event {timer : Option Nat} {effect : State → State}
    (h : ∀ t, timer = some t → Event (s.atExpiry t) (effect (s.atExpiry t))) : EventAt s (s.expire timer effect) := by
  unfold State.expire
  split
  · exact .stays
  next t => exact ⟨_, h t rfl⟩

theorem periodExpired_event (s : State) : Event s s.periodExpired := by
  unfold State.periodExpired
  dsimp only
  have hw : ∃ poll, s.withdrawPoll = { s with poll := poll } := by
    unfold State.withdrawPoll
    split_ifs
    · exact ⟨s.poll, rfl⟩
    · exact ⟨none, rfl⟩
  obtain ⟨p1, hw⟩ := hw
  have hm : ∃ regime, s.withdrawPoll.endMissPeriod =
      { s with poll := p1, points := tableMap (fun o => o.map PointEntry.endPeriod) s.points, regime := regime } := by
    rw [hw]
    unfold State.endMissPeriod
    dsimp only
    split_ifs
    · exact ⟨.cold, rfl⟩
    · exact ⟨s.regime, rfl⟩
  obtain ⟨regime, hm⟩ := hm
  rw [hm]
  obtain ⟨poll, backlog, he, hb⟩ := choosePoll_fields
    { s with
      poll := p1, points := tableMap (fun o => o.map PointEntry.endPeriod) s.points, regime := regime
      backlog := min Config.maxBacklog (s.backlog + 1) }
  rw [he]
  refine .polled s.line _ backlog poll regime _ _ (fun _ => le_trans hb (Nat.min_le_left _ _)) fun i => ?_
  rw [tableMap_get]
  cases hi : s.points[i] with
  | none => exact .inl rfl
  | some e => exact .inr ⟨e, rfl, .inr rfl⟩

theorem filterExpired_event (s : State) (u : UnitNo) : Event s (s.filterExpired u) := by
  unfold State.filterExpired
  dsimp only
  split
  next h =>
    rw [h]
    unfold State.contactOpens
    dsimp only
    split_ifs
    · exact .contactOpened u _ (contactTrips_moves _ u)
    · exact .contactOpened u _ .refl
  next h =>
    rw [h]
    exact .contactClosed u

theorem changeLevel_event (s : State) (u : UnitNo) (level : ContactLevel) : Event s (s.changeLevel u level) := by
  unfold State.changeLevel
  split_ifs
  · exact .stays
  · exact .levelChanged u level _
  · exact .levelChanged u level _

/-! ### The store -/

theorem beginWrite_event (s : State) : Event s s.beginWrite := by
  unfold State.beginWrite
  split
  · exact .stays
  next it rest hq =>
    split_ifs with hr
    · refine .writeBegun it rest hq ?_
      simp only [State.storeReady, Bool.and_eq_true, Option.isNone_iff_eq_none] at hr
      exact hr.1.2
    · exact .stays

theorem completeWrite_event (s : State) (success : Bool) : Event s (s.completeWrite success) := by
  unfold State.completeWrite
  split
  · exact .stays
  next w hw => exact .writeCompleted w success hw

/-! ### Commands and steps -/

/-- Every command is one event, at the moment its timer was set for. -/
theorem exec_event (c : Instr) {t : State} (h : exec c s = .next t) : EventAt s t := by
  have next {u : State} (hu : EventAt s u) (h : (Host.Outcome.next u : Step) = .next t) : EventAt s t := by
    obtain rfl := Host.Outcome.next.inj h
    exact hu
  cases c with
  | report => exact next (takeFrame_event fun _ _ => takeReport_request).at h
  | unitStatus => exact next (takeFrame_event fun _ _ => takeUnitStatus_request).at h
  | queryCoil => exact next (takeRequest_event fun _ _ => queryCoilOwner_request).at h
  | queryPoint => exact next (takeRequest_event fun _ _ => queryPointOwner_request).at h
  | queryUnit => exact next (takeRequest_event fun _ _ => queryUnitOwner_request).at h
  | queryDemand => exact next (takeRequest_event fun _ _ => queryDemandOwner_request).at h
  | partStatus => exact next (takeRequest_event fun _ _ => .lostSlotsRead).at h
  | readFaults => exact next (takeRequest_event fun _ _ => readFaultsOwner_request).at h
  | create => exact next (takeRequest_event fun _ _ => createOwner_request).at h
  | arm => exact next (takeRequest_event fun _ _ => armOwner_request).at h
  | suspend => exact next (takeRequest_event fun _ _ => suspendOwner_request).at h
  | retire => exact next (takeRequest_event fun _ _ => retireOwner_request).at h
  | restart => exact next (takeRequest_event fun _ _ => restartOwner_request).at h
  | releaseLockout => exact next (takeRequest_event fun _ _ => releaseLockoutOwner_request).at h
  | claim => exact next (takeRequest_event fun _ _ => claimOwner_request).at h
  | stageLimits => exact next (takeRequest_event fun _ _ => stageLimitsOwner_request).at h
  | stageDose => exact next (takeRequest_event fun _ _ => stageDoseOwner_request).at h
  | stageTiming => exact next (takeRequest_event fun _ _ => stageTimingOwner_request).at h
  | stageMap => exact next (takeRequest_event fun _ _ => stageMapOwner_request).at h
  | stageBind => exact next (takeRequest_event fun _ _ => stageBindOwner_request).at h
  | commit => exact next (takeRequest_event fun _ _ => commitOwner_request).at h
  | abandon => exact next (takeRequest_event fun _ _ => abandonOwner_request).at h
  | unitSet => exact next (takeRequest_event fun _ _ => unitSetOwner_request).at h
  | partSet => exact next (takeRequest_event fun _ _ => partSetOwner_request).at h
  | supervisorSet => exact next (takeRequest_event fun _ _ => supervisorSetOwner_request).at h
  | partRestart => exact next (takeRequest_event fun _ _ => partRestartOwner_request).at h
  | unknownFunction => exact next unknownFunction_event.at h
  | discardedFunctionFrame => exact next (takeFrame_event fun _ _ => .unchanged).at h
  | frameReception levels => exact next (receive_event levels).at h
  | lineGrant => exact next (grant_event s).at h
  | lostArbitration => exact next (loseLine_event s).at h
  | transmitError => exact next (loseLine_event s).at h
  | actionCompletion ack => exact next (completeLine_event (completeAction_event s ack)).at h
  | pollCompletion ack => exact next (completeLine_event (completePoll_event s)).at h
  | answerCompletion ack => exact next (completeLine_event (freeAnswer_event s)).at h
  | stageNoticeCompletion ack => exact next (completeLine_event (completeNotice_event s)).at h
  | evaluationExpiry i =>
    refine next (u := s.expire s.coils[i].evalTimer fun s => (s.evaluation i).endEvent) (expire_event fun t ht => ?_) h
    have hs : (s.atExpiry t).coils[i].evalTimer.isSome := by rw [atExpiry_coils, ht]; rfl
    exact .moved _ (evaluation_moves _ i hs)
  | restartHoldExpiry i =>
    refine next (u := s.expire s.coils[i].holdTimer fun s => (s.holdExpired i).endEvent) (expire_event fun t ht => ?_) h
    have hs : (s.atExpiry t).coils[i].holdTimer.isSome := by rw [atExpiry_coils, ht]; rfl
    exact .moved _ (holdExpired_moves _ i hs)
  | cleanTimerExpiry i =>
    refine next (u := s.expire s.coils[i].cleanTimer fun s => s.cleanExpired i) (expire_event fun t ht => ?_) h
    exact .cleaned i (by rw [atExpiry_coils, ht]; rfl)
  | settleTimerExpiry i =>
    refine next (u := s.expire s.coils[i].settleTimer fun s => s.settleExpired i) (expire_event fun t _ => ?_) h
    exact .moved _ (.tail (StageMove.overdue i).moves (.faulted _ _))
  | pollPeriodExpiry => exact next (expire_event fun t _ => periodExpired_event _) h
  | claimTimerExpiry n => exact next (expire_event fun t _ => .claimFreed n) h
  | statusTimerExpiry u => exact next (expire_event fun t _ => .fanUnproved u) h
  | llLevelChange u level => exact next (changeLevel_event s u level).at h
  | contactFilterExpiry u => exact next (expire_event fun t _ => filterExpired_event _ u) h
  | holdOffExpiry k => exact next (expire_event fun t _ => .stays) h
  | refreshTimerExpiry k => exact next (expire_event fun t _ => .refreshed k) h
  | faultRetryTimerExpiry k =>
    refine next (expire_event fun t ht => ?_) h
    obtain ⟨e, he, hr⟩ := Option.bind_eq_some_iff.1 ht
    exact .retried k e he (by rw [hr]; rfl)
  | storeWriteBegin => exact next (beginWrite_event s).at h
  | storeWriteCompletion success => exact next (completeWrite_event s success).at h
  | storeRetryTimerExpiry => exact next (expire_event fun t _ => .storeRetried) h
  | resetPinHold cut =>
    refine next ?_ h
    unfold State.holdReset
    split_ifs
    · exact .stays
    · exact (Event.brokenOff .held cut (.inr rfl)).at
  | startUpLoad strap cut => exact next (Event.startUp strap cut).at h
  | partRestartLoadBegin strap =>
    refine next ?_ h
    unfold State.beginRestart
    split_ifs with hb
    · exact (Event.restartBegun strap hb.1).at
    · exact .stays
  | loadCompletion =>
    refine next ?_ h
    split_ifs
    · exact Event.loaded.at
    · exact .stays
  | powerLoss cut => exact next (Event.brokenOff .off cut (.inl rfl)).at h

/-- Every step is one event, at some moment of the clock, on some rest of the queue of commands. -/
theorem step_event {t : State} (h : step s = .next t) :
    ∃ now pending, Event { s with now := now, pending := pending } t := by
  unfold step at h
  split at h
  next c rest _ =>
    obtain ⟨now, he⟩ := exec_event c h
    exact ⟨now, rest, he⟩
  · unfold State.idle at h
    split at h
    next c _ =>
      obtain ⟨now, he⟩ := exec_event c h
      exact ⟨now, s.pending, he⟩
    · obtain rfl := Host.Outcome.next.inj h
      exact ⟨s.now + 1, s.pending, .stays⟩

end Sys2Proof.Machine
end

