-- ==== Sys2Proof/Proofs/FieldFacts.lean ====
section
/-! What the shared operations that are no moves leave alone: each is written as an update of the fields it reaches, and the field
lemmas follow. -/

namespace Sys2Proof.Machine

variable (s : State)

/-! ### The notice source and the end of an event -/

theorem chooseNotice_eq : s.chooseNotice = { s with notice := s.chooseNotice.notice } := by
  unfold State.chooseNotice; split <;> rfl

theorem endEvent_eq : s.endEvent = { s with notice := s.chooseNotice.notice, joinStamp := s.joinStamp + 1 } := by
  unfold State.endEvent; rw [chooseNotice_eq]

@[simp] theorem chooseNotice_power : (s.chooseNotice).power = s.power := by rw [chooseNotice_eq]
@[simp] theorem chooseNotice_rx : (s.chooseNotice).rx = s.rx := by rw [chooseNotice_eq]
@[simp] theorem chooseNotice_answers : (s.chooseNotice).answers = s.answers := by rw [chooseNotice_eq]
@[simp] theorem chooseNotice_points : (s.chooseNotice).points = s.points := by rw [chooseNotice_eq]
@[simp] theorem chooseNotice_backlog : (s.chooseNotice).backlog = s.backlog := by rw [chooseNotice_eq]
@[simp] theorem chooseNotice_regimeOn : (s.chooseNotice).regimeOn = s.regimeOn := by rw [chooseNotice_eq]
@[simp] theorem chooseNotice_regimeOff : (s.chooseNotice).regimeOff = s.regimeOff := by rw [chooseNotice_eq]
@[simp] theorem chooseNotice_demands : (s.chooseNotice).demands = s.demands := by rw [chooseNotice_eq]
@[simp] theorem chooseNotice_dispatch : (s.chooseNotice).dispatch = s.dispatch := by rw [chooseNotice_eq]
@[simp] theorem chooseNotice_claims : (s.chooseNotice).claims = s.claims := by rw [chooseNotice_eq]
@[simp] theorem chooseNotice_retained : (s.chooseNotice).retained = s.retained := by rw [chooseNotice_eq]
@[simp] theorem chooseNotice_lostSlots : (s.chooseNotice).lostSlots = s.lostSlots := by rw [chooseNotice_eq]
@[simp] theorem chooseNotice_now : (s.chooseNotice).now = s.now := by rw [chooseNotice_eq]
@[simp] theorem chooseNotice_outdoor : (s.chooseNotice).outdoor = s.outdoor := by rw [chooseNotice_eq]
@[simp] theorem chooseNotice_deferred : (s.chooseNotice).deferred = s.deferred := by rw [chooseNotice_eq]
@[simp] theorem chooseNotice_noticeFlags : (s.chooseNotice).noticeFlags = s.noticeFlags := by rw [chooseNotice_eq]
@[simp] theorem chooseNotice_storeQueue : (s.chooseNotice).storeQueue = s.storeQueue := by rw [chooseNotice_eq]
@[simp] theorem chooseNotice_writing : (s.chooseNotice).writing = s.writing := by rw [chooseNotice_eq]
@[simp] theorem chooseNotice_joinStamp : (s.chooseNotice).joinStamp = s.joinStamp := by rw [chooseNotice_eq]

@[simp] theorem endEvent_power : (s.endEvent).power = s.power := by rw [endEvent_eq]
@[simp] theorem endEvent_rx : (s.endEvent).rx = s.rx := by rw [endEvent_eq]
@[simp] theorem endEvent_answers : (s.endEvent).answers = s.answers := by rw [endEvent_eq]
@[simp] theorem endEvent_points : (s.endEvent).points = s.points := by rw [endEvent_eq]
@[simp] theorem endEvent_backlog : (s.endEvent).backlog = s.backlog := by rw [endEvent_eq]
@[simp] theorem endEvent_regimeOn : (s.endEvent).regimeOn = s.regimeOn := by rw [endEvent_eq]
@[simp] theorem endEvent_regimeOff : (s.endEvent).regimeOff = s.regimeOff := by rw [endEvent_eq]
@[simp] theorem endEvent_demands : (s.endEvent).demands = s.demands := by rw [endEvent_eq]
@[simp] theorem endEvent_dispatch : (s.endEvent).dispatch = s.dispatch := by rw [endEvent_eq]
@[simp] theorem endEvent_claims : (s.endEvent).claims = s.claims := by rw [endEvent_eq]
@[simp] theorem endEvent_retained : (s.endEvent).retained = s.retained := by rw [endEvent_eq]
@[simp] theorem endEvent_lostSlots : (s.endEvent).lostSlots = s.lostSlots := by rw [endEvent_eq]
@[simp] theorem endEvent_now : (s.endEvent).now = s.now := by rw [endEvent_eq]
@[simp] theorem endEvent_outdoor : (s.endEvent).outdoor = s.outdoor := by rw [endEvent_eq]
@[simp] theorem endEvent_deferred : (s.endEvent).deferred = s.deferred := by rw [endEvent_eq]
@[simp] theorem endEvent_noticeFlags : (s.endEvent).noticeFlags = s.noticeFlags := by rw [endEvent_eq]
@[simp] theorem endEvent_storeQueue : (s.endEvent).storeQueue = s.storeQueue := by rw [endEvent_eq]
@[simp] theorem endEvent_writing : (s.endEvent).writing = s.writing := by rw [endEvent_eq]

/-! ### Marked items -/

theorem markDirty_eq (it : Item) :
    s.markDirty it = { s with storeQueue := (s.markDirty it).storeQueue, writing := (s.markDirty it).writing } := by
  unfold State.markDirty; split_ifs <;> rfl

@[simp] theorem markDirty_power (it : Item) : (s.markDirty it).power = s.power := by rw [markDirty_eq]
@[simp] theorem markDirty_rxQueue (it : Item) : (s.markDirty it).rx = s.rx := by rw [markDirty_eq]
@[simp] theorem markDirty_answers (it : Item) : (s.markDirty it).answers = s.answers := by rw [markDirty_eq]
@[simp] theorem markDirty_points (it : Item) : (s.markDirty it).points = s.points := by rw [markDirty_eq]
@[simp] theorem markDirty_backlog (it : Item) : (s.markDirty it).backlog = s.backlog := by rw [markDirty_eq]
@[simp] theorem markDirty_regimeOn (it : Item) : (s.markDirty it).regimeOn = s.regimeOn := by rw [markDirty_eq]
@[simp] theorem markDirty_regimeOff (it : Item) : (s.markDirty it).regimeOff = s.regimeOff := by rw [markDirty_eq]
@[simp] theorem markDirty_dispatch (it : Item) : (s.markDirty it).dispatch = s.dispatch := by rw [markDirty_eq]
@[simp] theorem markDirty_claims (it : Item) : (s.markDirty it).claims = s.claims := by rw [markDirty_eq]
@[simp] theorem markDirty_retained (it : Item) : (s.markDirty it).retained = s.retained := by rw [markDirty_eq]
@[simp] theorem markDirty_lostSlots (it : Item) : (s.markDirty it).lostSlots = s.lostSlots := by rw [markDirty_eq]
@[simp] theorem markDirty_now (it : Item) : (s.markDirty it).now = s.now := by rw [markDirty_eq]
@[simp] theorem markDirty_outdoor (it : Item) : (s.markDirty it).outdoor = s.outdoor := by rw [markDirty_eq]
@[simp] theorem markDirty_deferred (it : Item) : (s.markDirty it).deferred = s.deferred := by rw [markDirty_eq]
@[simp] theorem markDirty_noticeFlags (it : Item) : (s.markDirty it).noticeFlags = s.noticeFlags := by rw [markDirty_eq]
@[simp] theorem markDirty_notice (it : Item) : (s.markDirty it).notice = s.notice := by rw [markDirty_eq]
@[simp] theorem markDirty_joinStamp (it : Item) : (s.markDirty it).joinStamp = s.joinStamp := by rw [markDirty_eq]

/-! ### What a lifecycle request does besides -/

theorem lifecycleChanged_eq (i : Slot) : s.lifecycleChanged i =
    { s with
      noticeFlags := tablePut s.noticeFlags i true, notice := (s.lifecycleChanged i).notice
      storeQueue := (s.markDirty (.coil i)).storeQueue, writing := (s.markDirty (.coil i)).writing
      joinStamp := s.joinStamp + 1 } := by
  have hm := markDirty_congr (s := s) (t := s.setNotice i) rfl rfl (.coil i)
  unfold State.lifecycleChanged
  rw [endEvent_eq, markDirty_eq, hm.1, hm.2]
  rfl

@[simp] theorem lifecycleChanged_power (i : Slot) : (s.lifecycleChanged i).power = s.power := by rw [lifecycleChanged_eq]
@[simp] theorem lifecycleChanged_rx (i : Slot) : (s.lifecycleChanged i).rx = s.rx := by rw [lifecycleChanged_eq]
@[simp] theorem lifecycleChanged_answers (i : Slot) : (s.lifecycleChanged i).answers = s.answers := by rw [lifecycleChanged_eq]
@[simp] theorem lifecycleChanged_points (i : Slot) : (s.lifecycleChanged i).points = s.points := by rw [lifecycleChanged_eq]
@[simp] theorem lifecycleChanged_backlog (i : Slot) : (s.lifecycleChanged i).backlog = s.backlog := by rw [lifecycleChanged_eq]
@[simp] theorem lifecycleChanged_regimeOn (i : Slot) : (s.lifecycleChanged i).regimeOn = s.regimeOn := by rw [lifecycleChanged_eq]
@[simp] theorem lifecycleChanged_regimeOff (i : Slot) : (s.lifecycleChanged i).regimeOff = s.regimeOff := by rw [lifecycleChanged_eq]
@[simp] theorem lifecycleChanged_coils (i : Slot) : (s.lifecycleChanged i).coils = s.coils := by rw [lifecycleChanged_eq]
@[simp] theorem lifecycleChanged_demands (i : Slot) : (s.lifecycleChanged i).demands = s.demands := by rw [lifecycleChanged_eq]
@[simp] theorem lifecycleChanged_dispatch (i : Slot) : (s.lifecycleChanged i).dispatch = s.dispatch := by rw [lifecycleChanged_eq]
@[simp] theorem lifecycleChanged_units (i : Slot) : (s.lifecycleChanged i).units = s.units := by rw [lifecycleChanged_eq]
@[simp] theorem lifecycleChanged_claims (i : Slot) : (s.lifecycleChanged i).claims = s.claims := by rw [lifecycleChanged_eq]
@[simp] theorem lifecycleChanged_retained (i : Slot) : (s.lifecycleChanged i).retained = s.retained := by rw [lifecycleChanged_eq]
@[simp] theorem lifecycleChanged_lostSlots (i : Slot) : (s.lifecycleChanged i).lostSlots = s.lostSlots := by rw [lifecycleChanged_eq]
@[simp] theorem lifecycleChanged_now (i : Slot) : (s.lifecycleChanged i).now = s.now := by rw [lifecycleChanged_eq]
@[simp] theorem lifecycleChanged_outdoor (i : Slot) : (s.lifecycleChanged i).outdoor = s.outdoor := by rw [lifecycleChanged_eq]
@[simp] theorem lifecycleChanged_deferred (i : Slot) : (s.lifecycleChanged i).deferred = s.deferred := by rw [lifecycleChanged_eq]

/-! ### Reference changes -/

/-- A reference change reaches the point entries, the poll offer and the backlog, and raises no backlog (R30, R49). -/
theorem changeRefs_fields (ch : RefChange) : ∃ poll backlog,
    s.changeRefs ch = { s with points := ch.apply s.points, poll := poll, backlog := backlog } ∧ backlog ≤ s.backlog := by
  unfold State.changeRefs State.pollEntryRemoved
  dsimp only
  split_ifs
  · exact ⟨_, s.backlog, rfl, le_rfl⟩
  · exact choosePoll_fields { s with points := ch.apply s.points, poll := none }
  · exact ⟨s.poll, s.backlog, rfl, le_rfl⟩

theorem changeRefs_eq (ch : RefChange) : s.changeRefs ch =
    { s with points := ch.apply s.points, poll := (s.changeRefs ch).poll, backlog := (s.changeRefs ch).backlog } := by
  obtain ⟨poll, backlog, h, -⟩ := changeRefs_fields s ch
  rw [h]

theorem changeRefs_backlog_le (ch : RefChange) : (s.changeRefs ch).backlog ≤ s.backlog := by
  obtain ⟨poll, backlog, h, hb⟩ := changeRefs_fields s ch
  rw [h]; exact hb

@[simp] theorem changeRefs_points (ch : RefChange) : (s.changeRefs ch).points = ch.apply s.points := by rw [changeRefs_eq]
@[simp] theorem changeRefs_power (ch : RefChange) : (s.changeRefs ch).power = s.power := by rw [changeRefs_eq]
@[simp] theorem changeRefs_rx (ch : RefChange) : (s.changeRefs ch).rx = s.rx := by rw [changeRefs_eq]
@[simp] theorem changeRefs_answers (ch : RefChange) : (s.changeRefs ch).answers = s.answers := by rw [changeRefs_eq]
@[simp] theorem changeRefs_regimeOn (ch : RefChange) : (s.changeRefs ch).regimeOn = s.regimeOn := by rw [changeRefs_eq]
@[simp] theorem changeRefs_regimeOff (ch : RefChange) : (s.changeRefs ch).regimeOff = s.regimeOff := by rw [changeRefs_eq]
@[simp] theorem changeRefs_coils (ch : RefChange) : (s.changeRefs ch).coils = s.coils := by rw [changeRefs_eq]
@[simp] theorem changeRefs_demands (ch : RefChange) : (s.changeRefs ch).demands = s.demands := by rw [changeRefs_eq]
@[simp] theorem changeRefs_dispatch (ch : RefChange) : (s.changeRefs ch).dispatch = s.dispatch := by rw [changeRefs_eq]
@[simp] theorem changeRefs_units (ch : RefChange) : (s.changeRefs ch).units = s.units := by rw [changeRefs_eq]
@[simp] theorem changeRefs_claims (ch : RefChange) : (s.changeRefs ch).claims = s.claims := by rw [changeRefs_eq]
@[simp] theorem changeRefs_retained (ch : RefChange) : (s.changeRefs ch).retained = s.retained := by rw [changeRefs_eq]
@[simp] theorem changeRefs_lostSlots (ch : RefChange) : (s.changeRefs ch).lostSlots = s.lostSlots := by rw [changeRefs_eq]
@[simp] theorem changeRefs_now (ch : RefChange) : (s.changeRefs ch).now = s.now := by rw [changeRefs_eq]
@[simp] theorem changeRefs_outdoor (ch : RefChange) : (s.changeRefs ch).outdoor = s.outdoor := by rw [changeRefs_eq]
@[simp] theorem changeRefs_deferred (ch : RefChange) : (s.changeRefs ch).deferred = s.deferred := by rw [changeRefs_eq]
@[simp] theorem changeRefs_noticeFlags (ch : RefChange) : (s.changeRefs ch).noticeFlags = s.noticeFlags := by rw [changeRefs_eq]
@[simp] theorem changeRefs_notice (ch : RefChange) : (s.changeRefs ch).notice = s.notice := by rw [changeRefs_eq]
@[simp] theorem changeRefs_storeQueue (ch : RefChange) : (s.changeRefs ch).storeQueue = s.storeQueue := by rw [changeRefs_eq]
@[simp] theorem changeRefs_writing (ch : RefChange) : (s.changeRefs ch).writing = s.writing := by rw [changeRefs_eq]
@[simp] theorem changeRefs_joinStamp (ch : RefChange) : (s.changeRefs ch).joinStamp = s.joinStamp := by rw [changeRefs_eq]

theorem changeMapRefs_eq (old new : Coil) : s.changeMapRefs old new = { s with demands := (s.changeMapRefs old new).demands } := by
  unfold State.changeMapRefs; split_ifs <;> rfl

@[simp] theorem changeMapRefs_power (old new : Coil) : (s.changeMapRefs old new).power = s.power := by rw [changeMapRefs_eq]
@[simp] theorem changeMapRefs_rx (old new : Coil) : (s.changeMapRefs old new).rx = s.rx := by rw [changeMapRefs_eq]
@[simp] theorem changeMapRefs_answers (old new : Coil) : (s.changeMapRefs old new).answers = s.answers := by rw [changeMapRefs_eq]
@[simp] theorem changeMapRefs_points (old new : Coil) : (s.changeMapRefs old new).points = s.points := by rw [changeMapRefs_eq]
@[simp] theorem changeMapRefs_backlog (old new : Coil) : (s.changeMapRefs old new).backlog = s.backlog := by rw [changeMapRefs_eq]
@[simp] theorem changeMapRefs_regimeOn (old new : Coil) : (s.changeMapRefs old new).regimeOn = s.regimeOn := by rw [changeMapRefs_eq]
@[simp] theorem changeMapRefs_regimeOff (old new : Coil) : (s.changeMapRefs old new).regimeOff = s.regimeOff := by rw [changeMapRefs_eq]
@[simp] theorem changeMapRefs_coils (old new : Coil) : (s.changeMapRefs old new).coils = s.coils := by rw [changeMapRefs_eq]
@[simp] theorem changeMapRefs_dispatch (old new : Coil) : (s.changeMapRefs old new).dispatch = s.dispatch := by rw [changeMapRefs_eq]
@[simp] theorem changeMapRefs_units (old new : Coil) : (s.changeMapRefs old new).units = s.units := by rw [changeMapRefs_eq]
@[simp] theorem changeMapRefs_claims (old new : Coil) : (s.changeMapRefs old new).claims = s.claims := by rw [changeMapRefs_eq]
@[simp] theorem changeMapRefs_retained (old new : Coil) : (s.changeMapRefs old new).retained = s.retained := by rw [changeMapRefs_eq]
@[simp] theorem changeMapRefs_lostSlots (old new : Coil) : (s.changeMapRefs old new).lostSlots = s.lostSlots := by rw [changeMapRefs_eq]
@[simp] theorem changeMapRefs_now (old new : Coil) : (s.changeMapRefs old new).now = s.now := by rw [changeMapRefs_eq]
@[simp] theorem changeMapRefs_outdoor (old new : Coil) : (s.changeMapRefs old new).outdoor = s.outdoor := by rw [changeMapRefs_eq]
@[simp] theorem changeMapRefs_deferred (old new : Coil) : (s.changeMapRefs old new).deferred = s.deferred := by rw [changeMapRefs_eq]
@[simp] theorem changeMapRefs_noticeFlags (old new : Coil) : (s.changeMapRefs old new).noticeFlags = s.noticeFlags := by rw [changeMapRefs_eq]
@[simp] theorem changeMapRefs_notice (old new : Coil) : (s.changeMapRefs old new).notice = s.notice := by rw [changeMapRefs_eq]
@[simp] theorem changeMapRefs_storeQueue (old new : Coil) : (s.changeMapRefs old new).storeQueue = s.storeQueue := by rw [changeMapRefs_eq]
@[simp] theorem changeMapRefs_writing (old new : Coil) : (s.changeMapRefs old new).writing = s.writing := by rw [changeMapRefs_eq]
@[simp] theorem changeMapRefs_joinStamp (old new : Coil) : (s.changeMapRefs old new).joinStamp = s.joinStamp := by rw [changeMapRefs_eq]

/-! ### Stale marks and the completion of a write -/

theorem setStale_fields (it : Item) (b : Bool) : ∃ coils settingsStale unitStale,
    s.setStale it b = { s with coils := coils, settingsStale := settingsStale, unitStale := unitStale }
    ∧ (∀ i : Slot, coils[i] = if it = .coil i then { s.coils[i] with storeStale := b } else s.coils[i])
    ∧ (settingsStale = if it = .settings then b else s.settingsStale)
    ∧ ∀ n : UnitNo, unitStale[n] = if it = .unit n then b else s.unitStale[n] := by
  cases it with
  | settings =>
    exact ⟨s.coils, b, s.unitStale, rfl, fun i => (if_neg nofun).symm, (if_pos rfl).symm, fun n => (if_neg nofun).symm⟩
  | unit n =>
    refine ⟨s.coils, s.settingsStale, _, rfl, fun i => (if_neg nofun).symm, (if_neg nofun).symm, fun m => ?_⟩
    rw [tablePut_get]
    simp only [Item.unit.injEq, eq_comm]
  | coil n =>
    refine ⟨_, s.settingsStale, s.unitStale, rfl, fun i => ?_, (if_neg nofun).symm, fun m => (if_neg nofun).symm⟩
    rw [tablePut_get]
    by_cases h : i = n
    · subst h; simp
    · rw [if_neg h, if_neg (by simpa using Ne.symm h)]

theorem writeResult_fields (w : Write) (success : Bool) : ∃ coils settingsStale unitStale,
    s.writeResult w success =
      { s with
        coils := coils, settingsStale := settingsStale, unitStale := unitStale
        retained := if success then s.retained.write w.content else s.retained
        storeRetry := if success then s.storeRetry else some (s.storeRetry.getD (s.now + 60000)) }
    ∧ (∀ i : Slot, coils[i] = if w.content.item = .coil i then { s.coils[i] with storeStale := !success } else s.coils[i])
    ∧ (settingsStale = if w.content.item = .settings then !success else s.settingsStale)
    ∧ ∀ n : UnitNo, unitStale[n] = if w.content.item = .unit n then !success else s.unitStale[n] := by
  cases success with
  | true =>
    obtain ⟨coils, st, us, h, hc, hs, hu⟩ := setStale_fields { s with retained := s.retained.write w.content } w.content.item false
    exact ⟨coils, st, us, by simp only [State.writeResult, if_true, h], hc, hs, hu⟩
  | false =>
    obtain ⟨coils, st, us, h, hc, hs, hu⟩ := setStale_fields s w.content.item true
    refine ⟨coils, st, us, ?_, hc, hs, hu⟩
    simp only [State.writeResult, Bool.false_eq_true, if_false, h]

theorem requeueAfter_eq (w : Write) :
    s.requeueAfter w = { s with storeQueue := s.storeQueue ++ if w.requeue then [w.content.item] else [] } := by
  unfold State.requeueAfter
  split_ifs
  · rfl
  · rw [List.append_nil]

/-- The COMMITTED claim whose commit a write carries (R153). -/
def State.carriedClaim (s : State) (w : Write) : Option (ClaimNo × Claim × Bool) :=
  if w.carries then
    match w.content.item with
    | .coil i => s.committedClaim i
    | .settings | .unit _ => none
  else none

/-- What the completion of a write that carries a commit hands to the Edit Unit: the claim is freed and the commit answered, in the
answer queue where it has a place and else in the deferred list (R153, R166). -/
theorem handOff_fields (w : Write) (success : Bool) : ∃ coils claims answers deferred,
    s.handOff w success = { s with coils := coils, claims := claims, answers := answers, deferred := deferred }
    ∧ (∀ i : Slot, coils[i] =
        if w.content.item = .coil i then { s.coils[i] with writeInFlight := s.coils[i].writeInFlight && !w.carries }
        else s.coils[i])
    ∧ (s.carriedClaim w = none → claims = s.claims ∧ answers = s.answers ∧ deferred = s.deferred)
    ∧ ∀ n c clamped, s.carriedClaim w = some (n, c, clamped) →
      claims = tablePut s.claims n none
      ∧ (s.answers.length < 8 → answers = s.answers ++ [commitAnswer c.holder success clamped] ∧ deferred = s.deferred)
      ∧ (8 ≤ s.answers.length → answers = s.answers ∧ deferred = s.deferred ++ [commitAnswer c.holder success clamped]) := by
  unfold State.handOff State.carriedClaim
  cases hc : w.carries with
  | false =>
    simp only [Bool.false_eq_true, if_false]
    refine ⟨s.coils, s.claims, s.answers, s.deferred, rfl, fun i => ?_, fun _ => ⟨rfl, rfl, rfl⟩,
        fun _ _ _ h => (Option.some_ne_none _ h.symm).elim⟩
    rw [Bool.not_false, Bool.and_true, ite_self]
  | true =>
    simp only [if_true]
    cases hi : w.content.item with
    | settings =>
      exact ⟨s.coils, s.claims, s.answers, s.deferred, rfl, fun i => (if_neg nofun).symm, fun _ => ⟨rfl, rfl, rfl⟩,
        fun _ _ _ h => (Option.some_ne_none _ h.symm).elim⟩
    | unit n =>
      exact ⟨s.coils, s.claims, s.answers, s.deferred, rfl, fun i => (if_neg nofun).symm, fun _ => ⟨rfl, rfl, rfl⟩,
        fun _ _ _ h => (Option.some_ne_none _ h.symm).elim⟩
    | coil i =>
      have hput (j : Slot) : (tablePut s.coils i { s.coils[i] with writeInFlight := false })[j] =
          if Item.coil i = .coil j then { s.coils[j] with writeInFlight := s.coils[j].writeInFlight && !true } else s.coils[j] := by
        rw [tablePut_get, Bool.not_true, Bool.and_false]
        by_cases h : j = i
        · subst h; simp
        · rw [if_neg h, if_neg (by simpa using Ne.symm h)]
      have hcl : (s.setCoil i { s.coils[i] with writeInFlight := false }).committedClaim i = s.committedClaim i := rfl
      simp only [State.commitWritten, hcl]
      cases hm : s.committedClaim i with
      | none => exact ⟨_, s.claims, s.answers, s.deferred, rfl, hput, fun _ => ⟨rfl, rfl, rfl⟩,
        fun _ _ _ h => (Option.some_ne_none _ h.symm).elim⟩
      | some p =>
        obtain ⟨n, c, clamped⟩ := p
        simp only [State.pushCommitAnswer]
        by_cases hlen : s.answers.length < 8
        · refine ⟨tablePut s.coils i { s.coils[i] with writeInFlight := false }, tablePut s.claims n none,
            s.answers ++ [commitAnswer c.holder success clamped], s.deferred, if_pos hlen, hput, fun h => (Option.some_ne_none _ h).elim,
            fun n' c' b h => ?_⟩
          obtain ⟨rfl, rfl, rfl⟩ : n = n' ∧ c = c' ∧ clamped = b := by simpa using h
          exact ⟨rfl, fun _ => ⟨rfl, rfl⟩, fun h => absurd hlen (not_lt.2 h)⟩
        · refine ⟨tablePut s.coils i { s.coils[i] with writeInFlight := false }, tablePut s.claims n none, s.answers,
            s.deferred ++ [commitAnswer c.holder success clamped], if_neg hlen, hput, fun h => (Option.some_ne_none _ h).elim,
            fun n' c' b h => ?_⟩
          obtain ⟨rfl, rfl, rfl⟩ : n = n' ∧ c = c' ∧ clamped = b := by simpa using h
          exact ⟨rfl, fun h => absurd h hlen, fun _ => ⟨rfl, rfl⟩⟩

/-- What the completion of a write leaves (R153, R189). -/
theorem writeCompleted_fields (w : Write) (success : Bool) : ∃ coils settingsStale unitStale claims answers deferred,
    ((({ s with writing := none } : State).writeResult w success).requeueAfter w).handOff w success =
      { s with
        writing := none, coils := coils, settingsStale := settingsStale, unitStale := unitStale, claims := claims
        answers := answers, deferred := deferred
        retained := if success then s.retained.write w.content else s.retained
        storeRetry := if success then s.storeRetry else some (s.storeRetry.getD (s.now + 60000))
        storeQueue := s.storeQueue ++ if w.requeue then [w.content.item] else [] }
    ∧ (∀ i : Slot, coils[i] =
        if w.content.item = .coil i then
          { s.coils[i] with storeStale := !success, writeInFlight := s.coils[i].writeInFlight && !w.carries }
        else s.coils[i])
    ∧ (settingsStale = if w.content.item = .settings then !success else s.settingsStale)
    ∧ (∀ n : UnitNo, unitStale[n] = if w.content.item = .unit n then !success else s.unitStale[n])
    ∧ (s.carriedClaim w = none → claims = s.claims ∧ answers = s.answers ∧ deferred = s.deferred)
    ∧ ∀ n c clamped, s.carriedClaim w = some (n, c, clamped) →
      claims = tablePut s.claims n none
      ∧ (s.answers.length < 8 → answers = s.answers ++ [commitAnswer c.holder success clamped] ∧ deferred = s.deferred)
      ∧ (8 ≤ s.answers.length → answers = s.answers ∧ deferred = s.deferred ++ [commitAnswer c.holder success clamped]) := by
  obtain ⟨c1, st, us, h1, hc1, hst, hus⟩ := writeResult_fields { s with writing := none } w success
  rw [h1, requeueAfter_eq]
  obtain ⟨c2, cl, an, df, h2, hc2, hnone, hsome⟩ := handOff_fields
    { s with
      writing := none, coils := c1, settingsStale := st, unitStale := us
      retained := if success then s.retained.write w.content else s.retained
      storeRetry := if success then s.storeRetry else some (s.storeRetry.getD (s.now + 60000))
      storeQueue := s.storeQueue ++ if w.requeue then [w.content.item] else [] } w success
  refine ⟨c2, st, us, cl, an, df, h2, fun i => ?_, hst, hus, hnone, hsome⟩
  rw [hc2 i]
  split_ifs with h <;> simp only [hc1 i, h, if_true, if_false]

/-! ### The completion of a load -/

theorem foldl_markDirty_eq (l : List Item) : l.foldl State.markDirty s =
    { s with storeQueue := (l.foldl State.markDirty s).storeQueue, writing := (l.foldl State.markDirty s).writing } := by
  induction l generalizing s with
  | nil => rfl
  | cons it l ih => rw [List.foldl_cons, ih, markDirty_eq]

end Sys2Proof.Machine
end

