-- ==== Sys2Proof/Proofs/Loads.lean ====
section
/-! What a load does, said once: the settings and units it takes, and what it can do in one slot. -/

namespace Sys2Proof.Machine

variable {s : State}

/-! ### Settings, units and the outdoor point -/

theorem loadSettings_valid {c : SettingsItem} (h : s.retained.settings = .valid c) : s.loadSettings =
    { s with outdoor := c.outdoor, regimeOn := c.regimeOn, regimeOff := c.regimeOff, supervisors := c.supervisors } := by
  unfold State.loadSettings; rw [h]

theorem loadSettings_default (h : ∀ c, s.retained.settings ≠ .valid c) :
    s.loadSettings = { s with outdoor := none, regimeOn := 20, regimeOff := 50, supervisors := [] } := by
  unfold State.loadSettings
  cases hs : s.retained.settings with
  | valid c => exact absurd hs (h c)
  | blank => rfl
  | invalid => rfl

theorem loadSettings_eq (s : State) : s.loadSettings =
    { s with
      outdoor := s.loadSettings.outdoor, regimeOn := s.loadSettings.regimeOn, regimeOff := s.loadSettings.regimeOff
      supervisors := s.loadSettings.supervisors } := by
  unfold State.loadSettings; split <;> rfl

/-- A unit with the controller station and the zone that its item gives (R119, R187, R191, log 34). -/
def UnitEntry.withItem (e : UnitEntry) (item : Stored UnitItem) : UnitEntry :=
  match item with
  | .valid c => { e with controller := c.controller, zone := c.zone }
  | .blank | .invalid => { e with controller := none, zone := 0 }

/-- The loading of a unit item changes the controller station and the zone alone. -/
theorem withItem_fields (e : UnitEntry) (item : Stored UnitItem) :
    e.withItem item = { e with controller := (e.withItem item).controller, zone := (e.withItem item).zone } := by
  cases item <;> rfl

theorem foldl_units {P : State → Prop} {f : UnitNo → State → State} {g : UnitNo → UnitEntry → UnitEntry}
    (keep : ∀ u s, P s → P (f u s))
    (pass : ∀ u s, P s → ∀ v : UnitNo, (f u s).units[v] = if v = u then g u s.units[u] else s.units[v])
    (l : List UnitNo) (hl : l.Nodup) (s : State) (hs : P s) (v : UnitNo) :
    (l.foldl (fun s u => f u s) s).units[v] = if v ∈ l then g v s.units[v] else s.units[v] := by
  induction l generalizing s with
  | nil => rw [if_neg (List.not_mem_nil)]; rfl
  | cons u l ih =>
    obtain ⟨hu, hl⟩ := List.nodup_cons.1 hl
    rw [List.foldl_cons, ih hl _ (keep u s hs), pass u s hs v]
    by_cases hvu : v = u
    · subst hvu; simp [hu]
    · simp [hvu]

/-- A loop whose pass changes its own unit, under a condition on the state that every pass keeps, changes every unit by its own
pass. -/
theorem forUnits_units {P : State → Prop} {f : UnitNo → State → State} {g : UnitNo → UnitEntry → UnitEntry}
    (keep : ∀ u s, P s → P (f u s))
    (pass : ∀ u s, P s → ∀ v : UnitNo, (f u s).units[v] = if v = u then g u s.units[u] else s.units[v])
    (hs : P s) (v : UnitNo) : (forUnits f s).units[v] = g v s.units[v] := by
  rw [forUnits, foldl_units keep pass _ (List.nodup_finRange 16) s hs v, if_pos (List.mem_finRange v)]

theorem loadUnits_units (s : State) (u : UnitNo) : s.loadUnits.units[u] = s.units[u].withItem s.retained.units[u] :=
  forUnits_units (P := fun t => t.retained = s.retained) (g := fun u e => e.withItem s.retained.units[u])
    (fun u t ht => by split <;> exact ht)
    (fun u t ht v => by
      rw [← ht]
      cases hi : t.retained.units[u] with
      | valid c => exact tablePut_get _ _ _ _
      | blank => exact tablePut_get _ _ _ _
      | invalid => exact tablePut_get _ _ _ _) rfl u

theorem loadUnits_eq (s : State) : s.loadUnits = { s with units := s.loadUnits.units } :=
  forUnits_keeps_prop (P := fun t => t = { s with units := t.units })
    (fun u t ht => by
      obtain ⟨us, rfl⟩ : ∃ us, t = { s with units := us } := ⟨_, ht⟩
      split <;> rfl) s rfl

theorem loadOutdoor_eq (s : State) : s.loadOutdoor = { s with points := s.loadOutdoor.points } := by
  unfold State.loadOutdoor; split <;> rfl

/-- The state in which a load comes to the slots: settings, units and the outdoor binding's entry. -/
def State.beforeSlots (s : State) : State := s.loadSettings.loadUnits.loadOutdoor

theorem beforeSlots_eq (s : State) : s.beforeSlots =
    { s with
      outdoor := s.loadSettings.outdoor, regimeOn := s.loadSettings.regimeOn, regimeOff := s.loadSettings.regimeOff
      supervisors := s.loadSettings.supervisors, units := s.loadUnits.units, points := s.beforeSlots.points } := by
  have hu : s.loadSettings.loadUnits.units = s.loadUnits.units := by
    refine table_ext fun u => ?_
    rw [loadUnits_units, loadUnits_units, loadSettings_eq]
  unfold State.beforeSlots
  rw [loadOutdoor_eq, loadUnits_eq, hu, loadSettings_eq]

@[simp] theorem beforeSlots_coils (s : State) : s.beforeSlots.coils = s.coils := by rw [beforeSlots_eq]
@[simp] theorem beforeSlots_demands (s : State) : s.beforeSlots.demands = s.demands := by rw [beforeSlots_eq]
@[simp] theorem beforeSlots_retained (s : State) : s.beforeSlots.retained = s.retained := by rw [beforeSlots_eq]
@[simp] theorem beforeSlots_regimeOn (s : State) : s.beforeSlots.regimeOn = s.loadSettings.regimeOn := by rw [beforeSlots_eq]
@[simp] theorem beforeSlots_regimeOff (s : State) : s.beforeSlots.regimeOff = s.loadSettings.regimeOff := by rw [beforeSlots_eq]
@[simp] theorem beforeSlots_units (s : State) : s.beforeSlots.units = s.loadUnits.units := by rw [beforeSlots_eq]
@[simp] theorem beforeSlots_outdoor (s : State) : s.beforeSlots.outdoor = s.loadSettings.outdoor := by rw [beforeSlots_eq]
@[simp] theorem beforeSlots_lostSlots (s : State) : s.beforeSlots.lostSlots = s.lostSlots := by rw [beforeSlots_eq]
@[simp] theorem beforeSlots_power (s : State) : s.beforeSlots.power = s.power := by rw [beforeSlots_eq]

theorem beforeSlots_points (s : State) : s.beforeSlots.points =
    match s.loadSettings.outdoor with
    | some k => createEntry s.points k 1
    | none => s.points := by
  unfold State.beforeSlots State.loadOutdoor
  rw [loadUnits_eq]
  cases h : s.loadSettings.outdoor with
  | some k => dsimp only; rw [loadSettings_eq]
  | none => dsimp only; rw [loadSettings_eq]

theorem load_eq (s : State) : s.load = (forSlots (fun i s => s.loadCoil i) s.beforeSlots).endEvent := rfl

/-! ### One slot -/

/-- The point entries after both bindings of a definition have been placed, if they can be (R50). -/
def placeBindings (points : Table (Option PointEntry) 96) (d : CoilDefinition) : Option (Table (Option PointEntry) 96) :=
  (placeBinding points d.lat).bind fun t => placeBinding t d.ft

/-- The pairs of a definition find room in the demand table (R25). -/
def State.roomForArmed (s : State) (d : CoilDefinition) : Prop :=
  s.units[d.unit].controller.isSome
    ∧ (newPairs (s.targetPairs (d.toCoil .settling d.latch)) s.demands).length ≤ 64 - s.demands.length

/-- What a load can do in one slot: leave it, count it as lost, or place the record of its item, whose tag no record holds. -/
inductive SlotLoad (s : State) (i : Slot) : State → Prop where
  | stays (h : s.retained.coils[i] = .blank ∨ s.retained.coils[i] = .valid .erased) : SlotLoad s i s
  | lost (h : s.retained.coils[i] = .invalid ∨ ∃ d, s.retained.coils[i] = .valid (.record d)
      ∧ (s.tagHeld d.tag = true ∨ placeBindings s.points d = none)) : SlotLoad s i s.loseSlot
  | placed (d : CoilDefinition) (points : Table (Option PointEntry) 96) (l : Lifecycle)
      (hd : s.retained.coils[i] = .valid (.record d)) (ht : s.tagHeld d.tag = false) (hp : placeBindings s.points d = some points)
      (hl : d.lifecycle = .draft ∧ l = .draft ∨ d.lifecycle = .suspended ∧ l = .suspended) :
      SlotLoad s i (({ s with points := points } : State).setCoil i (d.toCoil l .none))
  | settles (d : CoilDefinition) (points : Table (Option PointEntry) 96) (hd : s.retained.coils[i] = .valid (.record d))
      (ht : s.tagHeld d.tag = false) (hp : placeBindings s.points d = some points) (hl : d.lifecycle = .armed)
      (hr : s.roomForArmed d) :
      SlotLoad s i { ({ s with points := points } : State).setCoil i (d.toCoil .settling d.latch) with
        demands := addMapRefs s.joinStamp (s.targetPairs (d.toCoil .settling d.latch)) s.demands }
  | fellBack (d : CoilDefinition) (points : Table (Option PointEntry) 96) (hd : s.retained.coils[i] = .valid (.record d))
      (ht : s.tagHeld d.tag = false) (hp : placeBindings s.points d = some points) (hl : d.lifecycle = .armed)
      (hr : ¬ s.roomForArmed d) :
      SlotLoad s i (({ s with points := points } : State).setCoil i (d.toCoil .suspended .none)).loseSlot

theorem loadCoil_slotLoad (s : State) (i : Slot) : SlotLoad s i (s.loadCoil i) := by
  unfold State.loadCoil
  split
  next h => exact .stays (.inl h)
  next h => exact .stays (.inr h)
  next h => exact .lost (.inl h)
  next d hd =>
    split_ifs with ht
    · exact .lost (.inr ⟨d, hd, .inl ht⟩)
    have ht : s.tagHeld d.tag = false := by simpa using ht
    split
    next hp => exact .lost (.inr ⟨d, hd, .inr hp⟩)
    next points hp =>
      dsimp only
      split
      next hl => exact .placed d points .draft hd ht hp (.inl ⟨hl, rfl⟩)
      next hl => exact .placed d points .suspended hd ht hp (.inr ⟨hl, rfl⟩)
      next hl =>
        unfold State.loadArmed
        dsimp only
        split_ifs with hr
        · exact .settles d points hd ht hp hl hr
        · exact .fellBack d points hd ht hp hl hr

/-- What the state before the slots has and every slot keeps holds when the slots are settled. -/
theorem load_keeps {P : State → Prop} (hs : P s.beforeSlots) (slot : ∀ i t u, SlotLoad t i u → P t → P u)
    (hend : ∀ t, P t → P t.endEvent) : P s.load :=
  hend _ (forSlots_keeps_prop (fun i t ht => slot i t _ (loadCoil_slotLoad t i) ht) _ hs)

theorem slotLoad_retained {i : Slot} {t : State} (h : SlotLoad s i t) : t.retained = s.retained := by cases h <;> rfl

/-! ### The completion -/

/-- A loop that recomputes every output in service reaches the units alone, and the output of each (R130, R131). -/
theorem recomputeAll_fields (hp : s.power = .running) : ∃ units, forUnits (fun u s => s.recomputeFso u) s = { s with units := units }
    ∧ ∀ u : UnitNo, units[u] = { s.units[u] with fso := s.fsoFor u } := by
  let Rest (t : State) : Prop :=
    t = { s with units := t.units } ∧ ∀ v : UnitNo, t.units[v].contact = s.units[v].contact
  have keep (u : UnitNo) (t : State) (ht : Rest t) : Rest (t.recomputeFso u) := by
    obtain ⟨h, hc⟩ := ht
    refine ⟨?_, fun v => ?_⟩
    · obtain ⟨us, rfl⟩ : ∃ us, t = { s with units := us } := ⟨_, h⟩
      rfl
    · rw [recomputeFso_units, tablePut_get]
      split_ifs with hv
      · subst hv; exact hc v
      · exact hc v
  have hs : Rest s := ⟨rfl, fun _ => rfl⟩
  refine ⟨_, (forUnits_keeps_prop (P := Rest) keep s hs).1, fun v => ?_⟩
  refine forUnits_units (P := Rest) (g := fun u e => { e with fso := s.fsoFor u }) keep (fun u t ht v => ?_) hs v
  have hf : t.fsoFor u = s.fsoFor u := by
    unfold State.fsoFor State.coilHoldsFan
    rw [ht.2 u, ht.1, hp]
  rw [recomputeFso_units, tablePut_get, hf]

/-- What the completion of a load leaves (R193). -/
theorem completeLoad_fields (s : State) : ∃ units,
    s.completeLoad =
      { s with
        coils := s.startSettling.coils, power := .running, lastLoadRestart := s.power == .restartLoad
        settingsDefaulted := (match s.retained.settings with
          | .valid _ => false
          | .blank | .invalid => true)
        pollTimer := some (s.now + 10000), pollPeriod := 10000, line := none, units := units
        storeQueue := ((allItems.filter s.loadedOtherwise).foldl State.markDirty s).storeQueue
        writing := ((allItems.filter s.loadedOtherwise).foldl State.markDirty s).writing }
    ∧ ∀ u : UnitNo, ∃ fso, units[u] = { s.units[u] with fso := fso }
        ∧ (fso = .stop ↔ ({ s with coils := s.startSettling.coils } : State).MustStop u) := by
  let t : State :=
    { s.startSettling with
      power := .running
      lastLoadRestart := s.power == .restartLoad
      settingsDefaulted := match s.retained.settings with
        | .valid _ => false
        | .blank | .invalid => true
      pollTimer := some (s.now + Config.coldPeriod)
      pollPeriod := Config.coldPeriod
      line := none }
  have hcongr : ∀ (l : List Item) (x y : State), x.storeQueue = y.storeQueue → x.writing = y.writing →
      (l.foldl State.markDirty x).storeQueue = (l.foldl State.markDirty y).storeQueue
      ∧ (l.foldl State.markDirty x).writing = (l.foldl State.markDirty y).writing := by
    intro l
    induction l with
    | nil => exact fun x y hq hw => ⟨hq, hw⟩
    | cons it l ih => exact fun x y hq hw => ih _ _ (markDirty_congr hq hw it).1 (markDirty_congr hq hw it).2
  obtain ⟨hq, hw⟩ := hcongr (allItems.filter s.loadedOtherwise) t s rfl rfl
  obtain ⟨units, hu, hfso⟩ := recomputeAll_fields (s := (allItems.filter s.loadedOtherwise).foldl State.markDirty t)
    (by rw [foldl_markDirty_eq])
  refine ⟨units, hu.trans ?_, fun u => ?_⟩
  · rw [foldl_markDirty_eq, hq, hw]
    rfl
  · have hpow : ((allItems.filter s.loadedOtherwise).foldl State.markDirty t).power = .running := by rw [foldl_markDirty_eq]
    refine ⟨_, (hfso u).trans (by rw [foldl_markDirty_eq]; rfl), (fsoFor_running _ hpow u).trans ?_⟩
    exact mustStop_congr u (by rw [foldl_markDirty_eq]; rfl) (by rw [foldl_markDirty_eq])

end Sys2Proof.Machine
end

