-- ==== Sys2Proof/Proofs/BoundsAndClaims.lean ====
section
/-! Every step keeps its promises (O59): bounds, thresholds, distinct tags and claims, miss accounts, ranges, the store write queue
and the notice offered, each shown of every request and then of every event. -/

namespace Sys2Proof.Machine

variable {s t : State} {f : RxFrame}

/-! ### The state that a loss of power or a load starts from -/

/-- The live state is blank: no frame, answer, poll owed, point, record, demand, claim, notice or mark (R118, R187, R191). -/
structure State.Swept (s : State) : Prop where
  rx : s.rx = []
  answers : s.answers = []
  backlog : s.backlog = 0
  points : s.points = Vector.replicate 96 none
  coils : s.coils = Vector.replicate 48 (Coil.vacant 0)
  demands : s.demands = []
  dispatch : s.dispatch = none
  claims : s.claims = Vector.replicate 4 none
  noticeFlags : s.noticeFlags = Vector.replicate 48 false
  notice : s.notice = none
  storeQueue : s.storeQueue = []
  writing : s.writing = none

theorem breakOff_swept (s : State) (p : Power) (cut : BrokenWrite) : (s.breakOff p cut).Swept :=
  ⟨rfl, rfl, rfl, rfl, rfl, rfl, rfl, rfl, rfl, rfl, rfl, rfl⟩

/-- The state from which a start-up load sets out. -/
def State.startState (s : State) (strap : Strap) (cut : BrokenWrite) : State :=
  ((s.breakOff .startLoad cut).startFilters).readStrap strap

theorem startState_swept (s : State) (strap : Strap) (cut : BrokenWrite) : (s.startState strap cut).Swept :=
  ⟨rfl, rfl, rfl, rfl, rfl, rfl, rfl, rfl, rfl, rfl, rfl, rfl⟩

theorem restartState_swept (s : State) (strap : Strap) : (s.clearedForRestart.readStrap strap).Swept :=
  ⟨rfl, rfl, rfl, rfl, rfl, rfl, rfl, rfl, rfl, rfl, rfl, rfl⟩

theorem startUp_eq (s : State) (strap : Strap) (cut : BrokenWrite) : s.startUp strap cut = (s.startState strap cut).load := rfl

@[simp] theorem startState_retained (s : State) (strap : Strap) (cut : BrokenWrite) :
    (s.startState strap cut).retained = s.retainedAfterCut cut := rfl

theorem Table.replicate_get {α : Type} {n : Nat} (x : α) (i : Fin n) : (Vector.replicate n x : Table α n)[i] = x := by simp

theorem State.Swept.coil (h : s.Swept) (i : Slot) : s.coils[i] = Coil.vacant 0 := by rw [h.coils, Table.replicate_get]
theorem State.Swept.point (h : s.Swept) (i : Fin 96) : s.points[i] = none := by rw [h.points, Table.replicate_get]
theorem State.Swept.claim (h : s.Swept) (n : ClaimNo) : s.claims[n] = none := by rw [h.claims, Table.replicate_get]
theorem State.Swept.flag (h : s.Swept) (i : Slot) : s.noticeFlags[i] = false := by rw [h.noticeFlags, Table.replicate_get]

/-! ### Queues and counts (R43, R163, R167, R191) -/

theorem moves_answers (h : StageMoves s t) : t.answers = s.answers := field_of_apart State.answers h.apart fun _ => rfl

/-- The bounds depend on three queues or counts and on the backlog, which may fall. -/
theorem bounded_of (hrx : t.rx = s.rx) (ha : t.answers = s.answers) (hb : t.backlog ≤ s.backlog) (hl : t.lostSlots = s.lostSlots)
    (hs : s.Bounded) : t.Bounded := by
  obtain ⟨h1, h2, h3, h4⟩ := hs
  exact ⟨hrx ▸ h1, ha ▸ h2, le_trans hb h3, hl ▸ h4⟩

theorem bounded_of_apart (h : t.apart = s.apart) (hs : s.Bounded) : t.Bounded :=
  bounded_of (field_of_apart State.rx h fun _ => rfl) (field_of_apart State.answers h fun _ => rfl)
    (field_of_apart State.backlog h fun _ => rfl).le (field_of_apart State.lostSlots h fun _ => rfl) hs

theorem request_answers (h : Request f s t) : t.answers = s.answers := by
  cases h with
  | reported i e d r u v he hd hm hu =>
    obtain ⟨_, _, rfl⟩ := hu
    rw [endEvent_answers]
    exact (moves_answers hm).trans rfl
  | statusTaken u fan timer v hm =>
    rw [endEvent_answers]
    exact (moves_answers hm).trans rfl
  | partSet k on off =>
    unfold State.setPart State.rebindOutdoor
    split_ifs <;> simp
  | _ =>
    simp [State.arm, State.suspend, State.retire, State.restart, State.releaseLockout, State.commit, State.defineUnit,
      State.cancelClaim, State.changeCoil, State.recomputeFso, State.setNotice]

theorem request_bounded (h : Request f s t) (hs : s.Bounded) : t.Bounded := by
  cases h with
  | lostSlotsRead => exact ⟨hs.1, hs.2.1, hs.2.2.1, Nat.zero_le _⟩
  | reported i e d r u v he hd hm hu =>
    obtain ⟨_, _, rfl⟩ := hu
    have hv : u.Bounded := bounded_of_apart hm.apart hs
    exact bounded_of_apart (endEvent_apart _) hv
  | statusTaken u fan timer v hm => exact bounded_of_apart ((endEvent_apart _).trans hm.apart) hs
  | retired i =>
    refine bounded_of ?_ ?_ ?_ ?_ hs <;> simp [State.retire, State.cancelClaim]
    exact changeRefs_backlog_le _ _
  | committed n c =>
    refine bounded_of ?_ ?_ ?_ ?_ hs <;> simp [State.commit]
    exact changeRefs_backlog_le _ _
  | partSet k on off =>
    unfold State.setPart State.rebindOutdoor
    split_ifs
    · exact bounded_of_apart (markDirty_apart _ _) hs
    · refine bounded_of_apart (markDirty_apart _ _) (bounded_of ?_ ?_ ?_ ?_ hs) <;> simp
      exact changeRefs_backlog_le _ _
  | created | armed | suspended | restarted | released | unitDefined | supervisorsSet =>
    refine bounded_of ?_ ?_ ?_ ?_ hs <;>
      simp [State.arm, State.suspend, State.restart, State.releaseLockout, State.defineUnit, State.changeCoil, State.recomputeFso,
        State.setNotice]
  | _ => exact hs

theorem slotLoad_bounded {i : Slot} (h : SlotLoad s i t) (hs : s.Bounded) : t.Bounded := by
  have hl : min Config.maxLostSlots (s.lostSlots + 1) ≤ 255 := Nat.min_le_left _ _
  cases h with
  | lost => exact ⟨hs.1, hs.2.1, hs.2.2.1, hl⟩
  | fellBack => exact ⟨hs.1, hs.2.1, hs.2.2.1, hl⟩
  | _ => exact hs

theorem load_bounded (hs : s.Bounded) : s.load.Bounded := by
  refine load_keeps (P := State.Bounded) ?_ (fun i t u h ht => slotLoad_bounded h ht)
    fun t ht => bounded_of_apart (endEvent_apart t) ht
  rw [beforeSlots_eq]
  exact hs

theorem State.Swept.bounded (h : s.Swept) (hl : s.lostSlots ≤ 255) : s.Bounded := by
  simp [State.Bounded, h.rx, h.answers, h.backlog, hl]

theorem writeCompleted_answers (w : Write) (success : Bool) (h : s.answers.length ≤ 8) :
    (((({ s with writing := none } : State).writeResult w success).requeueAfter w).handOff w success).answers.length ≤ 8 := by
  obtain ⟨_, _, _, _, as, _, he, -, -, -, hnone, hsome⟩ := writeCompleted_fields s w success
  rw [he]
  show as.length ≤ 8
  cases hc : s.carriedClaim w with
  | none => rw [(hnone hc).2.1]; exact h
  | some p =>
    obtain ⟨-, hfree, hfull⟩ := hsome p.1 p.2.1 p.2.2 hc
    by_cases hlen : s.answers.length < 8
    · rw [(hfree hlen).1, List.length_append, List.length_singleton]; omega
    · rw [(hfull (not_lt.1 hlen)).1]; exact h

theorem request_of_rest_bounded {rest : List RxFrame} (hrx : s.rx = f :: rest) (h : Request f { s with rx := rest } t)
    (hs : s.Bounded) : t.Bounded := by
  refine request_bounded (s := { s with rx := rest }) h ⟨?_, hs.2⟩
  have h1 := hs.1
  rw [hrx, List.length_cons] at h1
  exact Nat.le_of_succ_le h1

theorem event_bounded (h : Event s t) (hs : s.Bounded) : t.Bounded := by
  cases h with
  | taken f rest u hrx hq => exact request_of_rest_bounded hrx hq hs
  | answered f rest a u hrx hr hq =>
    obtain ⟨h1, h2, h3⟩ := request_of_rest_bounded hrx hq hs
    have ha : u.answers = s.answers := (request_answers hq).trans rfl
    have hfree := ((handlerReady_iff s).1 hr).2.2.2
    refine ⟨h1, ?_, h3⟩
    simp only [pushAnswer_answers, List.length_append, ha, List.length_singleton]
    omega
  | received rx ack h => exact ⟨h hs.1, hs.2⟩
  | answersMoved as ds h => exact ⟨hs.1, h hs.2.1, hs.2.2⟩
  | polled _ _ backlog _ _ _ _ hb => exact ⟨hs.1, hs.2.1, hb hs.2.2.1, hs.2.2.2⟩
  | noticeLeft flags => exact bounded_of_apart (chooseNotice_apart _) hs
  | completed d e g u hd he hg hm => exact bounded_of_apart ((endEvent_apart _).trans hm.apart) hs
  | moved u hm => exact bounded_of_apart ((endEvent_apart _).trans hm.apart) hs
  | contactOpened u v hm => exact bounded_of_apart ((endEvent_apart _).trans hm.apart) hs
  | refreshed k => exact bounded_of_apart (endEvent_apart _) hs
  | retried k => exact bounded_of_apart (endEvent_apart _) hs
  | writeCompleted w success hw =>
    have ha := writeCompleted_answers w success hs.2.1
    obtain ⟨_, _, _, _, _, _, he, -⟩ := writeCompleted_fields s w success
    rw [he] at ha ⊢
    exact ⟨hs.1, ha, hs.2.2⟩
  | brokenOff p cut => exact (breakOff_swept s p cut).bounded (Nat.zero_le _)
  | startUp strap cut => exact load_bounded ((startState_swept s strap cut).bounded (Nat.zero_le _))
  | restartBegun strap => exact load_bounded ((restartState_swept s strap).bounded hs.2.2.2)
  | loaded =>
    obtain ⟨_, he, -⟩ := completeLoad_fields s
    rw [he]
    exact hs
  | cleaned i =>
    unfold State.cleanExpired
    dsimp only
    split_ifs
    · exact hs
    · exact bounded_of_apart (markDirty_apart _ _) hs
  | _ => exact hs

/-! ### Claims (R140) -/

theorem claimsDistinct_of (h : t.claims = s.claims) (hs : s.ClaimsDistinct) : t.ClaimsDistinct := by
  unfold State.ClaimsDistinct
  rw [h]
  exact hs

/-- Places that are emptied or left keep the claims distinct. -/
theorem claimsDistinct_of_fewer (h : ∀ n : ClaimNo, t.claims[n] = s.claims[n] ∨ t.claims[n] = none) (hs : s.ClaimsDistinct) :
    t.ClaimsDistinct := by
  have held (n : ClaimNo) (c : Claim) (hc : t.claims[n] = some c) : s.claims[n] = some c :=
    (h n).elim (fun h => h ▸ hc) fun h => by simp [h] at hc
  exact fun m n c d hc hd => hs m n c d (held m c hc) (held n d hd)

theorem claimsDistinct_of_moves (h : StageMoves s t) (hs : s.ClaimsDistinct) : t.ClaimsDistinct :=
  claimsDistinct_of (claims_of_apart h.apart) hs

/-- A sender that holds no claim takes a record that no other station holds, so that its claim is the only one on it (R141). -/
theorem claim_claimsDistinct {n : ClaimNo} {i : Slot} (hon : ∀ p, s.claimOn i = some p → p.2.holder = f.sender)
    (hof : s.claimOf f.sender = none) (hs : s.ClaimsDistinct) :
    (s.setClaim n (some (.new f.sender i s.now))).ClaimsDistinct := by
  have hnone : s.claimOn i = none := by
    cases hc : s.claimOn i with
    | none => rfl
    | some p =>
      obtain ⟨m, -, hm⟩ := List.exists_of_findSome?_eq_some hc
      obtain ⟨c, hc', hp⟩ := Option.bind_eq_some_iff.1 hm
      split_ifs at hp
      obtain rfl := Option.some.inj hp
      exact absurd (hon _ hc) (claimOf_eq_none.1 hof m c hc')
  refine setClaim_claimsDistinct hs fun c hc m d _ hd => ?_
  obtain rfl := Option.some.inj hc
  exact ⟨claimOn_eq_none.1 hnone m d hd, claimOf_eq_none.1 hof m d hd⟩

/-- A claim that keeps its record and its holder leaves the claims distinct. -/
theorem editClaim_claimsDistinct {n : ClaimNo} {c d : Claim} (hc : s.claims[n] = some c) (hslot : d.slot = c.slot)
    (hh : d.holder = c.holder) (hs : s.ClaimsDistinct) : (s.setClaim n (some d)).ClaimsDistinct := by
  refine setClaim_claimsDistinct hs fun d' hd m e hm he => ?_
  obtain rfl := Option.some.inj hd
  rw [hslot, hh]
  exact ⟨fun h => hm (hs m n e c he hc (.inl h)), fun h => hm (hs m n e c he hc (.inr h))⟩

theorem freeClaim_claimsDistinct (n : ClaimNo) (hs : s.ClaimsDistinct) : (s.setClaim n none).ClaimsDistinct :=
  setClaim_claimsDistinct hs fun _ hc => (Option.not_mem_none _ hc).elim

theorem request_claimsDistinct (h : Request f s t) (hs : s.ClaimsDistinct) : t.ClaimsDistinct := by
  cases h with
  | reported i e d r u v he hd hm hu =>
    obtain ⟨_, _, rfl⟩ := hu
    have hv : u.ClaimsDistinct := claimsDistinct_of_moves hm hs
    exact claimsDistinct_of (endEvent_claims _) hv
  | statusTaken u fan timer v hm =>
    have hv : v.ClaimsDistinct := claimsDistinct_of_moves hm hs
    exact claimsDistinct_of (endEvent_claims _) hv
  | retired i =>
    refine claimsDistinct_of_fewer (s := s) (fun n => ?_) hs
    simp only [State.retire, lifecycleChanged_claims, setCoil_claims, changeRefs_claims, State.cancelClaim, tableMap_get]
    cases s.claims[n] with
    | none => exact .inl rfl
    | some c => by_cases h : (c.slot != i) = true <;> simp [Option.filter, h]
  | claimed n i hon hof => exact claim_claimsDistinct hon hof hs
  | staged n c st timer hc => exact editClaim_claimsDistinct (claimOf_holds hc).1 rfl rfl hs
  | committed n c hc =>
    have hn := editClaim_claimsDistinct (d := { c with timer := none, state := .committed (c.staging.clamped != c.staging) })
      (claimOf_holds hc).1 rfl rfl hs
    refine claimsDistinct_of ?_ hn
    simp [State.commit]
  | abandoned n => exact freeClaim_claimsDistinct n hs
  | partSet k on off =>
    refine claimsDistinct_of ?_ hs
    unfold State.setPart State.rebindOutdoor
    split_ifs <;> simp
  | created | armed | suspended | restarted | released | unitDefined | supervisorsSet =>
    refine claimsDistinct_of ?_ hs
    simp [State.arm, State.suspend, State.restart, State.releaseLockout, State.defineUnit, State.changeCoil, State.recomputeFso,
      State.setNotice]
  | _ => exact hs

theorem slotLoad_claims {i : Slot} (h : SlotLoad s i t) : t.claims = s.claims := by cases h <;> rfl

theorem load_claims (s : State) : s.load.claims = s.claims := by
  refine load_keeps (P := fun t => t.claims = s.claims) (by rw [beforeSlots_eq]) (fun i t u h ht => ?_) fun t ht => ?_
  · rw [slotLoad_claims h, ht]
  · rw [endEvent_claims, ht]

theorem State.Swept.claimsDistinct (h : s.Swept) : s.ClaimsDistinct := by
  intro m n c d hc
  rw [h.claim] at hc
  cases hc

theorem event_claimsDistinct (h : Event s t) (hs : s.ClaimsDistinct) : t.ClaimsDistinct := by
  cases h with
  | taken f rest u hrx hq => exact request_claimsDistinct hq hs
  | answered f rest a u hrx hr hq => 
    have hu : u.ClaimsDistinct := request_claimsDistinct hq hs
    exact hu
  | noticeLeft flags => exact claimsDistinct_of (chooseNotice_claims _) hs
  | completed d e g u hd he hg hm =>
    have hu : u.ClaimsDistinct := claimsDistinct_of_moves hm hs
    exact claimsDistinct_of (endEvent_claims _) hu
  | moved u hm => exact claimsDistinct_of (endEvent_claims _) (claimsDistinct_of_moves hm hs)
  | contactOpened u v hm =>
    have hv : v.ClaimsDistinct := claimsDistinct_of_moves hm hs
    exact claimsDistinct_of (endEvent_claims _) hv
  | refreshed k => exact claimsDistinct_of (endEvent_claims _) hs
  | retried k => exact claimsDistinct_of (endEvent_claims _) hs
  | cleaned i =>
    unfold State.cleanExpired
    dsimp only
    split_ifs
    · exact hs
    · exact claimsDistinct_of (markDirty_claims _ _) hs
  | claimFreed n => exact freeClaim_claimsDistinct n hs
  | writeCompleted w success hw =>
    obtain ⟨_, _, _, cl, _, _, he, -, -, -, hnone, hsome⟩ := writeCompleted_fields s w success
    rw [he]
    cases hc : s.carriedClaim w with
    | none =>
      obtain rfl := (hnone hc).1
      exact hs
    | some p =>
      obtain rfl := (hsome p.1 p.2.1 p.2.2 hc).1
      have hf := freeClaim_claimsDistinct p.1 hs
      exact claimsDistinct_of rfl hf
  | brokenOff p cut => exact (breakOff_swept s p cut).claimsDistinct
  | startUp strap cut => exact claimsDistinct_of (load_claims _) (startState_swept s strap cut).claimsDistinct
  | restartBegun strap => exact claimsDistinct_of (load_claims _) (restartState_swept s strap).claimsDistinct
  | loaded =>
    obtain ⟨_, he, -⟩ := completeLoad_fields s
    rw [he]
    exact hs
  | _ => exact hs

end Sys2Proof.Machine
end

