-- ==== Sys2Proof/Proofs/AccountsAndTags.lean ====
section
/-! Every step keeps its promises (O59), continued: miss accounts, tags, the store write queue and the notice offered. -/

namespace Sys2Proof.Machine

variable {s t : State} {f : RxFrame}

/-! ### Point entries: what creates and changes them (R28, R30) -/

/-- An entry of a table after a creation stood there before, or is the new one at the lowest unused place (R30). -/
theorem createEntry_get (points : Table (Option PointEntry) 96) (k : PointKey) (refs : Nat) (i : Fin 96) :
    (createEntry points k refs)[i] = points[i]
      ∨ points[i] = none ∧ (createEntry points k refs)[i] = some (.new k refs) ∧ ∀ j, j < i → points[j].isSome := by
  unfold createEntry
  split
  next j hj =>
    rw [tablePut_get]
    split_ifs with h
    · subst h
      obtain ⟨hi, hlow⟩ := List.find?_eq_some_iff_append.1 hj
      refine .inr ⟨Option.isNone_iff_eq_none.1 hi, rfl, fun j hj' => ?_⟩
      obtain ⟨as, bs, hl, has⟩ := hlow
      have hm : j ∈ as := by
        have hj'' : j ∈ as ++ i :: bs := hl ▸ List.mem_finRange j
        rcases List.mem_append.1 hj'' with hm | hm
        · exact hm
        · have hp : (as ++ i :: bs).Pairwise (· < ·) := hl ▸ List.pairwise_lt_finRange 96
          rcases List.mem_cons.1 hm with rfl | hm
          · exact absurd hj' (lt_irrefl _)
          · exact absurd ((List.pairwise_cons.1 (List.pairwise_append.1 hp).2.1).1 j hm) (not_lt.2 hj'.le)
      simpa using has j hm
    · exact .inl rfl
  · exact .inl rfl

/-- A new count is given to an entry that stays (R30). -/
theorem recount_get (ch : RefChange) (points : Table (Option PointEntry) 96) (i : Fin 96) :
    (ch.recount points)[i] = points[i].bind fun e =>
      if ch.count points e.key = 0 then none else some { e with refs := ch.count points e.key } := tableMap_get _ _ _

/-- Every entry of a table has its miss account (R42). -/
def InAccounts (points : Table (Option PointEntry) 96) : Prop := ∀ (i : Fin 96) (e : PointEntry), points[i] = some e → e.InAccount

theorem createEntry_inAccounts {points : Table (Option PointEntry) 96} (h : InAccounts points) (k : PointKey) (refs : Nat) :
    InAccounts (createEntry points k refs) := by
  intro i e he
  rcases createEntry_get points k refs i with hi | ⟨-, hi, -⟩
  · exact h i e (hi ▸ he)
  · rw [hi] at he
    exact Option.some.inj he ▸ new_inAccount k refs

theorem apply_inAccounts {points : Table (Option PointEntry) 96} (h : InAccounts points) (ch : RefChange) :
    InAccounts (ch.apply points) := by
  have hr : InAccounts (ch.recount points) := by
    intro i e he
    rw [recount_get, Option.bind_eq_some_iff] at he
    obtain ⟨d, hd, he⟩ := he
    split_ifs at he
    exact Option.some.inj he ▸ h i d hd
  exact List.foldlRecOn (motive := InAccounts) _ _ hr fun points hp k _ => createEntry_inAccounts hp k _

theorem addPointRef_inAccounts {points points' : Table (Option PointEntry) 96} {k : PointKey} (h : InAccounts points)
    (hp : addPointRef points k = some points') : InAccounts points' := by
  unfold addPointRef at hp
  split at hp
  next i _ =>
    obtain rfl := Option.some.inj hp
    intro j e he
    rw [tablePut_get] at he
    split_ifs at he with hj
    · obtain ⟨d, hd, rfl⟩ := Option.map_eq_some_iff.1 he
      exact h i d hd
    · exact h j e he
  · split_ifs at hp
    obtain rfl := Option.some.inj hp
    exact createEntry_inAccounts h k 1

theorem placeBinding_inAccounts {points points' : Table (Option PointEntry) 96} {b : Option Binding} (h : InAccounts points)
    (hp : placeBinding points b = some points') : InAccounts points' := by
  cases b with
  | none => exact Option.some.inj hp ▸ h
  | some b => exact addPointRef_inAccounts h hp

theorem placeBindings_inAccounts {points points' : Table (Option PointEntry) 96} {d : CoilDefinition} (h : InAccounts points)
    (hp : placeBindings points d = some points') : InAccounts points' := by
  obtain ⟨p, h1, h2⟩ := Option.bind_eq_some_iff.1 hp
  exact placeBinding_inAccounts (placeBinding_inAccounts h h1) h2

/-! ### Miss accounts (R35 to R37, R42) -/

theorem pointsInAccount_of (h : t.points = s.points) (hs : s.PointsInAccount) : t.PointsInAccount := by
  unfold State.PointsInAccount
  rw [h]
  exact hs

theorem changeRefs_pointsInAccount (ch : RefChange) (hs : s.PointsInAccount) : (s.changeRefs ch).PointsInAccount := by
  unfold State.PointsInAccount
  rw [changeRefs_points]
  exact apply_inAccounts hs ch

theorem request_pointsInAccount (h : Request f s t) (hs : s.PointsInAccount) : t.PointsInAccount := by
  cases h with
  | reported i e d r u v he hd hm hu =>
    obtain ⟨_, _, rfl⟩ := hu
    have hp : ({ s with points := tablePut s.points i (some d) } : State).PointsInAccount := by
      intro j e' he'
      simp only [tablePut_get] at he'
      split_ifs at he' with hj
      · obtain rfl := Option.some.inj he'
        rcases hd with rfl | rfl
        · exact takeFault_inAccount (hs i e he) r
        · exact takeGood_inAccount e r
      · exact hs j e' he'
    have hv : u.PointsInAccount := pointsInAccount_of (points_of_apart hm.apart) hp
    exact pointsInAccount_of (endEvent_points _) hv
  | statusTaken u fan timer v hm =>
    have hv : v.PointsInAccount := pointsInAccount_of (points_of_apart hm.apart) hs
    exact pointsInAccount_of (endEvent_points _) hv
  | retired i =>
    have hc : (s.cancelClaim i).PointsInAccount := hs
    exact pointsInAccount_of (lifecycleChanged_points _ i) (changeRefs_pointsInAccount _ hc)
  | committed n c =>
    refine pointsInAccount_of ?_ (changeRefs_pointsInAccount
      (bindingChange s.coils[c.slot] ((c.staging.clamped.over s.coils[c.slot]).into s.coils[c.slot])) hs)
    simp [State.commit]
  | partSet k on off =>
    unfold State.setPart State.rebindOutdoor
    split_ifs
    · exact pointsInAccount_of (markDirty_points _ _) hs
    · have hr := changeRefs_pointsInAccount (s := { s with regimeOn := on, regimeOff := off })
        (({ s with regimeOn := on, regimeOff := off } : State).outdoorChange k) hs
      exact pointsInAccount_of (markDirty_points _ _) hr
  | created | armed | suspended | restarted | released | unitDefined | supervisorsSet =>
    refine pointsInAccount_of ?_ hs
    simp [State.arm, State.suspend, State.restart, State.releaseLockout, State.defineUnit, State.changeCoil, State.recomputeFso,
      State.setNotice]
  | _ => exact hs

theorem slotLoad_pointsInAccount {i : Slot} (h : SlotLoad s i t) (hs : s.PointsInAccount) : t.PointsInAccount := by
  cases h with
  | stays => exact hs
  | lost => exact hs
  | placed d points l hd ht hp => exact placeBindings_inAccounts hs hp
  | settles d points hd ht hp => exact placeBindings_inAccounts hs hp
  | fellBack d points hd ht hp => exact placeBindings_inAccounts hs hp

theorem load_pointsInAccount (hs : s.PointsInAccount) : s.load.PointsInAccount := by
  refine load_keeps (P := State.PointsInAccount) ?_ (fun _ _ _ h ht => slotLoad_pointsInAccount h ht)
    fun t ht => pointsInAccount_of (endEvent_points t) ht
  unfold State.PointsInAccount
  rw [beforeSlots_points]
  split
  · exact createEntry_inAccounts hs _ 1
  · exact hs

theorem State.Swept.pointsInAccount (h : s.Swept) : s.PointsInAccount := by
  intro i e he
  rw [h.point] at he
  cases he

theorem event_pointsInAccount (h : Event s t) (hs : s.PointsInAccount) : t.PointsInAccount := by
  cases h with
  | taken f rest u hrx hq => exact request_pointsInAccount hq hs
  | answered f rest a u hrx hr hq =>
    have hu : u.PointsInAccount := request_pointsInAccount hq hs
    exact hu
  | polled line points backlog poll regime timer period hb hp =>
    intro i e he
    rcases hp i with h | ⟨d, hd, h | h⟩
    · exact hs i e (h ▸ he)
    · exact Option.some.inj (h.symm.trans he) ▸ hs i d hd
    · exact Option.some.inj (h.symm.trans he) ▸ endPeriod_inAccount (hs i d hd)
  | noticeLeft flags => exact pointsInAccount_of (chooseNotice_points _) hs
  | completed d e g u hd he hg hm =>
    have hu : u.PointsInAccount := pointsInAccount_of (points_of_apart hm.apart) hs
    exact pointsInAccount_of (endEvent_points _) hu
  | moved u hm => exact pointsInAccount_of (endEvent_points _) (pointsInAccount_of (points_of_apart hm.apart) hs)
  | contactOpened u v hm =>
    have hv : v.PointsInAccount := pointsInAccount_of (points_of_apart hm.apart) hs
    exact pointsInAccount_of (endEvent_points _) hv
  | refreshed k => exact pointsInAccount_of (endEvent_points _) hs
  | retried k => exact pointsInAccount_of (endEvent_points _) hs
  | cleaned i =>
    unfold State.cleanExpired
    dsimp only
    split_ifs
    · exact hs
    · exact pointsInAccount_of (markDirty_points _ _) hs
  | writeCompleted w success hw =>
    obtain ⟨_, _, _, _, _, _, he, -⟩ := writeCompleted_fields s w success
    rw [he]
    exact hs
  | brokenOff p cut => exact (breakOff_swept s p cut).pointsInAccount
  | startUp strap cut => exact load_pointsInAccount (startState_swept s strap cut).pointsInAccount
  | restartBegun strap => exact load_pointsInAccount (restartState_swept s strap).pointsInAccount
  | loaded =>
    obtain ⟨_, he, -⟩ := completeLoad_fields s
    rw [he]
    exact hs
  | _ => exact hs

/-! ### Tags (R3) -/

theorem tagsDistinct_of (h : ∀ i : Slot, (t.coils[i].lifecycle = .vacant ↔ s.coils[i].lifecycle = .vacant)
    ∧ t.coils[i].tag = s.coils[i].tag) (hs : s.TagsDistinct) : t.TagsDistinct := by
  intro i j hi hj he
  rw [(h i).2, (h j).2] at he
  exact hs i j (fun hv => hi ((h i).1.2 hv)) (fun hv => hj ((h j).1.2 hv)) he

theorem tagsDistinct_of_coils (h : t.coils = s.coils) (hs : s.TagsDistinct) : t.TagsDistinct :=
  tagsDistinct_of (fun i => by rw [h]; exact ⟨.rfl, rfl⟩) hs

/-- A record that keeps its tag leaves the tags distinct, unless it leaves VACANT. -/
theorem setCoil_keepsTag {i : Slot} {c : Coil} (ht : c.tag = s.coils[i].tag)
    (hv : s.coils[i].lifecycle = .vacant → c.lifecycle = .vacant) (hs : s.TagsDistinct) : (s.setCoil i c).TagsDistinct :=
  setCoil_tagsDistinct hs fun hc j hj hvj he => hj (hs j i hvj (fun h => hc (hv h)) (he.trans ht))

theorem touch_tagsDistinct (h : Touch s t) (hs : s.TagsDistinct) : t.TagsDistinct := by
  cases h with
  | coil i c hd => exact setCoil_keepsTag hd.tag hd.vacant.2 hs
  | demands => exact hs
  | unit => exact hs
  | dirty it => exact tagsDistinct_of_coils (markDirty_coils s it) hs
  | notice => exact hs

theorem touches_tagsDistinct (h : Touches s t) (hs : s.TagsDistinct) : t.TagsDistinct :=
  h.keep (fun _ _ hu => touch_tagsDistinct hu) hs

theorem moves_tagsDistinct (h : StageMoves s t) (hs : s.TagsDistinct) : t.TagsDistinct :=
  h.keep (fun _ _ hu => touch_tagsDistinct hu) hs

theorem lifecycleChanged_tagsDistinct (i : Slot) (hs : s.TagsDistinct) : (s.lifecycleChanged i).TagsDistinct :=
  tagsDistinct_of_coils (lifecycleChanged_coils s i) hs

theorem request_tagsDistinct (h : Request f s t) (hs : s.TagsDistinct) : t.TagsDistinct := by
  cases h with
  | reported i e d r u v he hd hm hu =>
    obtain ⟨_, _, rfl⟩ := hu
    have hv : u.TagsDistinct := moves_tagsDistinct hm hs
    exact tagsDistinct_of_coils (endEvent_coils _) hv
  | statusTaken u fan timer v hm =>
    have hv : v.TagsDistinct := moves_tagsDistinct hm hs
    exact tagsDistinct_of_coils (endEvent_coils _) hv
  | created tag u kind i hv ht =>
    refine lifecycleChanged_tagsDistinct i (setCoil_tagsDistinct hs fun _ j _ hj => ?_)
    exact tagHeld_eq_false.1 ht j hj
  | armed i hl =>
    have hc : (s.setCoil i (s.coils[i].startsSettling s.now)).TagsDistinct := by
      refine setCoil_keepsTag rfl (fun hv => ?_) hs
      rcases hl with h | h <;> rw [hv] at h <;> cases h
    exact tagsDistinct_of_coils (lifecycleChanged_coils _ i) hc
  | suspended i h =>
    have hc : (s.setCoil i s.coils[i].suspended).TagsDistinct := by
      refine setCoil_keepsTag rfl (fun hv => ?_) hs
      simp [Coil.maySuspend, hv, -Fin.getElem_fin] at h
    exact tagsDistinct_of_coils (lifecycleChanged_coils _ i) hc
  | retired i =>
    have hc : (s.setCoil i (.vacant s.coils[i].unit)).TagsDistinct :=
      setCoil_tagsDistinct hs fun h => absurd rfl h
    refine tagsDistinct_of_coils ?_ hc
    simp [State.retire, State.cancelClaim]
  | restarted i =>
    obtain ⟨u, hu, he⟩ := restart_touches s i
    rw [he]
    exact tagsDistinct_of_coils (endEvent_coils u) (touches_tagsDistinct hu hs)
  | released i =>
    obtain ⟨u, hu, he⟩ := releaseLockout_touches s i
    rw [he]
    exact tagsDistinct_of_coils (endEvent_coils u) (touches_tagsDistinct hu hs)
  | committed n c =>
    have hc (d : Coil) (ht : d.tag = s.coils[c.slot].tag) (hl : d.lifecycle = s.coils[c.slot].lifecycle) :
        (s.setCoil c.slot d).TagsDistinct := setCoil_keepsTag ht (fun h => hl.trans h) hs
    refine tagsDistinct_of_coils ?_ (hc { (c.staging.clamped.over s.coils[c.slot]).into s.coils[c.slot] with writeInFlight := true }
      rfl rfl)
    simp [State.commit]
  | partSet k on off =>
    refine tagsDistinct_of_coils ?_ hs
    unfold State.setPart State.rebindOutdoor
    split_ifs <;> simp
  | unitDefined => exact tagsDistinct_of_coils (markDirty_coils _ _) hs
  | supervisorsSet => exact tagsDistinct_of_coils (markDirty_coils _ _) hs
  | _ => exact hs

theorem slotLoad_tagsDistinct {i : Slot} (h : SlotLoad s i t) (hs : s.TagsDistinct) : t.TagsDistinct := by
  have put (d : CoilDefinition) (l : Lifecycle) (latch : Latch) (ht : s.tagHeld d.tag = false) :
      (s.setCoil i (d.toCoil l latch)).TagsDistinct :=
    setCoil_tagsDistinct hs fun _ j _ hj => tagHeld_eq_false.1 ht j hj
  cases h with
  | stays => exact hs
  | lost => exact hs
  | placed d points l hd ht => exact put d l .none ht
  | settles d points hd ht => exact put d .settling d.latch ht
  | fellBack d points hd ht => exact put d .suspended .none ht

theorem load_tagsDistinct (hs : s.TagsDistinct) : s.load.TagsDistinct :=
  load_keeps (P := State.TagsDistinct) (tagsDistinct_of_coils (beforeSlots_coils s) hs)
    (fun _ _ _ h ht => slotLoad_tagsDistinct h ht) fun t ht => tagsDistinct_of_coils (endEvent_coils t) ht

theorem State.Swept.tagsDistinct (h : s.Swept) : s.TagsDistinct := by
  intro i j hi
  rw [h.coil] at hi
  exact absurd rfl hi

theorem event_tagsDistinct (h : Event s t) (hs : s.TagsDistinct) : t.TagsDistinct := by
  cases h with
  | taken f rest u hrx hq => exact request_tagsDistinct hq hs
  | answered f rest a u hrx hr hq =>
    have hu : u.TagsDistinct := request_tagsDistinct hq hs
    exact hu
  | noticeLeft flags => exact tagsDistinct_of_coils (chooseNotice_coils _) hs
  | completed d e g u hd he hg hm =>
    have hu : u.TagsDistinct := moves_tagsDistinct hm hs
    exact tagsDistinct_of_coils (endEvent_coils _) hu
  | moved u hm => exact tagsDistinct_of_coils (endEvent_coils _) (moves_tagsDistinct hm hs)
  | contactOpened u v hm =>
    have hv : v.TagsDistinct := moves_tagsDistinct hm hs
    exact tagsDistinct_of_coils (endEvent_coils _) hv
  | refreshed k => exact tagsDistinct_of_coils (endEvent_coils _) hs
  | retried k => exact tagsDistinct_of_coils (endEvent_coils _) hs
  | cleaned i => exact touches_tagsDistinct (cleanExpired_touches s i) hs
  | writeCompleted w success hw =>
    obtain ⟨coils, _, _, _, _, _, he, hc, -⟩ := writeCompleted_fields s w success
    rw [he]
    refine tagsDistinct_of (fun i => ?_) hs
    simp only [hc i]
    split_ifs <;> exact ⟨.rfl, rfl⟩
  | brokenOff p cut => exact (breakOff_swept s p cut).tagsDistinct
  | startUp strap cut => exact load_tagsDistinct (startState_swept s strap cut).tagsDistinct
  | restartBegun strap => exact load_tagsDistinct (restartState_swept s strap).tagsDistinct
  | loaded =>
    obtain ⟨_, he, -⟩ := completeLoad_fields s
    rw [he]
    refine tagsDistinct_of (fun i => ?_) hs
    simp only [State.startSettling, tableMap_get]
    split_ifs <;> exact ⟨.rfl, rfl⟩
  | _ => exact hs

end Sys2Proof.Machine
end

