-- ==== Sys2Proof/Proofs/StoreAndThresholds.lean ====
section
/-! Every step keeps its promises (O59), concluded: the store write queue, the notice offered, thresholds and ranges. -/

namespace Sys2Proof.Machine

variable {s t : State} {f : RxFrame}

/-! ### The store write queue (R188) -/

theorem storeQueuedOnce_of (hq : t.storeQueue = s.storeQueue) (hw : t.writing = s.writing) (hs : s.StoreQueuedOnce) :
    t.StoreQueuedOnce := by
  unfold State.StoreQueuedOnce
  rw [hq, hw]
  exact hs

theorem endEvent_storeQueuedOnce (hs : s.StoreQueuedOnce) : s.endEvent.StoreQueuedOnce :=
  storeQueuedOnce_of (endEvent_storeQueue s) (endEvent_writing s) hs

theorem lifecycleChanged_storeQueuedOnce (i : Slot) (hs : s.StoreQueuedOnce) : (s.lifecycleChanged i).StoreQueuedOnce := by
  have hm := markDirty_storeQueuedOnce hs (.coil i)
  rw [lifecycleChanged_eq]
  exact hm

theorem changeRefs_storeQueuedOnce (ch : RefChange) (hs : s.StoreQueuedOnce) : (s.changeRefs ch).StoreQueuedOnce :=
  storeQueuedOnce_of (changeRefs_storeQueue s ch) (changeRefs_writing s ch) hs

theorem touch_storeQueuedOnce (h : Touch s t) (hs : s.StoreQueuedOnce) : t.StoreQueuedOnce := by
  cases h with
  | dirty it => exact markDirty_storeQueuedOnce hs it
  | _ => exact hs

theorem touches_storeQueuedOnce (h : Touches s t) (hs : s.StoreQueuedOnce) : t.StoreQueuedOnce :=
  h.keep (fun _ _ hu => touch_storeQueuedOnce hu) hs

theorem moves_storeQueuedOnce (h : StageMoves s t) (hs : s.StoreQueuedOnce) : t.StoreQueuedOnce :=
  h.keep (fun _ _ hu => touch_storeQueuedOnce hu) hs

theorem request_storeQueuedOnce (h : Request f s t) (hs : s.StoreQueuedOnce) : t.StoreQueuedOnce := by
  cases h with
  | reported i e d r u v he hd hm hu =>
    obtain ⟨_, _, rfl⟩ := hu
    have hv : u.StoreQueuedOnce := moves_storeQueuedOnce hm hs
    exact endEvent_storeQueuedOnce hv
  | statusTaken u fan timer v hm =>
    have hv : v.StoreQueuedOnce := moves_storeQueuedOnce hm hs
    exact endEvent_storeQueuedOnce hv
  | created tag u kind i =>
    have hc : (s.setCoil i (.draft tag u kind)).StoreQueuedOnce := hs
    exact lifecycleChanged_storeQueuedOnce i hc
  | armed i => exact lifecycleChanged_storeQueuedOnce i hs
  | suspended i => exact lifecycleChanged_storeQueuedOnce i hs
  | retired i =>
    have hc : (s.cancelClaim i).StoreQueuedOnce := hs
    have hr := changeRefs_storeQueuedOnce { gives := (s.cancelClaim i).coils[i].keys, takes := [] } hc
    exact lifecycleChanged_storeQueuedOnce i hr
  | restarted i =>
    obtain ⟨u, hu, he⟩ := restart_touches s i
    exact he ▸ endEvent_storeQueuedOnce (touches_storeQueuedOnce hu hs)
  | released i =>
    obtain ⟨u, hu, he⟩ := releaseLockout_touches s i
    exact he ▸ endEvent_storeQueuedOnce (touches_storeQueuedOnce hu hs)
  | committed n c =>
    refine endEvent_storeQueuedOnce (markDirty_storeQueuedOnce (storeQueuedOnce_of ?_ ?_ hs) _) <;> simp
  | unitDefined u controller zone => exact markDirty_storeQueuedOnce (s := s.setUnit u _) hs _
  | partSet k on off =>
    refine markDirty_storeQueuedOnce (storeQueuedOnce_of ?_ ?_ hs) _ <;>
    · unfold State.rebindOutdoor
      split_ifs <;> simp
  | supervisorsSet l => exact markDirty_storeQueuedOnce (s := { s with supervisors := l }) hs _
  | _ => exact hs

theorem slotLoad_storeQueuedOnce {i : Slot} (h : SlotLoad s i t) (hs : s.StoreQueuedOnce) : t.StoreQueuedOnce := by
  have hq : t.storeQueue = s.storeQueue := by cases h <;> rfl
  have hw : t.writing = s.writing := by cases h <;> rfl
  exact storeQueuedOnce_of hq hw hs

theorem load_storeQueuedOnce (hs : s.StoreQueuedOnce) : s.load.StoreQueuedOnce := by
  have hb : s.beforeSlots.StoreQueuedOnce := by
    refine storeQueuedOnce_of ?_ ?_ hs <;> rw [beforeSlots_eq]
  exact load_keeps hb (fun _ _ _ h ht => slotLoad_storeQueuedOnce h ht) fun _ ht => endEvent_storeQueuedOnce ht

theorem State.Swept.storeQueuedOnce (h : s.Swept) : s.StoreQueuedOnce := by
  simp [State.StoreQueuedOnce, h.storeQueue, h.writing]

theorem foldl_markDirty_storeQueuedOnce (l : List Item) (hs : s.StoreQueuedOnce) :
    (l.foldl State.markDirty s).StoreQueuedOnce :=
  List.foldlRecOn (motive := State.StoreQueuedOnce) l _ hs fun _ hu it _ => markDirty_storeQueuedOnce hu it

theorem event_storeQueuedOnce (h : Event s t) (hs : s.StoreQueuedOnce) : t.StoreQueuedOnce := by
  cases h with
  | taken f rest u hrx hq => exact request_storeQueuedOnce hq hs
  | answered f rest a u hrx hr hq =>
    have hu : u.StoreQueuedOnce := request_storeQueuedOnce hq hs
    exact hu
  | noticeLeft flags => exact storeQueuedOnce_of (chooseNotice_storeQueue _) (chooseNotice_writing _) hs
  | completed d e g u hd he hg hm =>
    have hu : u.StoreQueuedOnce := moves_storeQueuedOnce hm hs
    exact endEvent_storeQueuedOnce hu
  | moved u hm => exact endEvent_storeQueuedOnce (moves_storeQueuedOnce hm hs)
  | contactOpened u v hm =>
    have hv : v.StoreQueuedOnce := moves_storeQueuedOnce hm hs
    exact endEvent_storeQueuedOnce hv
  | refreshed k => exact endEvent_storeQueuedOnce hs
  | retried k => exact endEvent_storeQueuedOnce hs
  | cleaned i => exact touches_storeQueuedOnce (cleanExpired_touches s i) hs
  | storeRetried => exact storeRetry_storeQueuedOnce hs
  | writeBegun it rest hq hw =>
    have hn := hs.1
    rw [hq, List.nodup_cons] at hn
    refine ⟨hn.2, fun w hx => ?_⟩
    obtain rfl := Option.some.inj hx
    have hit : (s.contentOf it).item = it := by cases it <;> rfl
    exact hit.symm ▸ hn.1
  | writeCompleted w success hw =>
    obtain ⟨_, _, _, _, _, _, he, -⟩ := writeCompleted_fields s w success
    rw [he]
    refine ⟨?_, fun w' h => by cases h⟩
    show (s.storeQueue ++ if w.requeue then [w.content.item] else []).Nodup
    split_ifs
    · exact List.nodup_append.2 ⟨hs.1, List.nodup_singleton _, fun x hx y hy hxy =>
        hs.2 w hw (by rwa [← List.mem_singleton.1 hy, ← hxy])⟩
    · simpa using hs.1
  | brokenOff p cut => exact (breakOff_swept s p cut).storeQueuedOnce
  | startUp strap cut => exact load_storeQueuedOnce (startState_swept s strap cut).storeQueuedOnce
  | restartBegun strap => exact load_storeQueuedOnce (restartState_swept s strap).storeQueuedOnce
  | loaded =>
    obtain ⟨_, he, -⟩ := completeLoad_fields s
    rw [he]
    exact foldl_markDirty_storeQueuedOnce _ hs
  | _ => exact hs

/-! ### The notice offered (R171, R173) -/

/-- The notice source's current slot, if it has one, has its flag set. -/
def State.NoticeFlagged (s : State) : Prop := ∀ n, s.notice = some n → s.noticeFlags[n.slot] = true

theorem noticeFlagged_of (hf : t.noticeFlags = s.noticeFlags) (hn : t.notice = s.notice) (hs : s.NoticeFlagged) :
    t.NoticeFlagged := by
  unfold State.NoticeFlagged
  rw [hf, hn]
  exact hs

theorem noticeOffered_of (hf : t.noticeFlags = s.noticeFlags) (hn : t.notice = s.notice) (hs : s.NoticeOffered) :
    t.NoticeOffered := by
  unfold State.NoticeOffered
  rw [hf, hn]
  exact hs

/-- Once the source has chosen, a notice is offered while any flag is set (R171). -/
theorem chooseNotice_noticeOffered (hs : s.NoticeFlagged) : s.chooseNotice.NoticeOffered := by
  cases hn : s.notice with
  | some n =>
    have he : s.chooseNotice = s := by unfold State.chooseNotice; rw [hn]
    rw [he]
    exact ⟨fun _ _ => by rw [hn]; rfl, hs⟩
  | none =>
    have he : s.chooseNotice = { s with notice := s.lowestFlag.map fun i => { slot := i, losses := 0, setAgain := false } } := by
      unfold State.chooseNotice; rw [hn]
    rw [he]
    refine ⟨fun i hi => ?_, fun n hn' => ?_⟩
    · have hl : s.lowestFlag.isSome := List.find?_isSome.2 ⟨i, List.mem_finRange i, hi⟩
      simpa using hl
    · obtain ⟨i, hi, rfl⟩ := Option.map_eq_some_iff.1 hn'
      have hflag : s.noticeFlags[i] = true := List.find?_some (p := fun j => s.noticeFlags[j]) hi
      exact hflag

theorem endEvent_noticeOffered (hs : s.NoticeFlagged) : s.endEvent.NoticeOffered :=
  noticeOffered_of (s := s.chooseNotice) rfl rfl (chooseNotice_noticeOffered hs)

theorem setNotice_noticeFlagged (i : Slot) (hs : s.NoticeFlagged) : (s.setNotice i).NoticeFlagged := by
  intro n hn
  obtain ⟨m, hm, rfl⟩ := Option.map_eq_some_iff.1 hn
  have hput (j : Slot) (hj : j = m.slot) : (tablePut s.noticeFlags i true)[j] = true := by
    rw [tablePut_get]
    split_ifs
    · rfl
    · subst hj; exact hs m hm
  exact hput _ (by split_ifs <;> rfl)

theorem markDirty_noticeFlagged (it : Item) (hs : s.NoticeFlagged) : (s.markDirty it).NoticeFlagged :=
  noticeFlagged_of (markDirty_noticeFlags s it) (markDirty_notice s it) hs

theorem markDirty_noticeOffered (it : Item) (hs : s.NoticeOffered) : (s.markDirty it).NoticeOffered :=
  noticeOffered_of (markDirty_noticeFlags s it) (markDirty_notice s it) hs

theorem touch_noticeFlagged (h : Touch s t) (hs : s.NoticeFlagged) : t.NoticeFlagged := by
  cases h with
  | dirty it => exact markDirty_noticeFlagged it hs
  | notice i => exact setNotice_noticeFlagged i hs
  | _ => exact hs

theorem touches_noticeFlagged (h : Touches s t) (hs : s.NoticeFlagged) : t.NoticeFlagged :=
  h.keep (fun _ _ hu => touch_noticeFlagged hu) hs

theorem moves_noticeFlagged (h : StageMoves s t) (hs : s.NoticeFlagged) : t.NoticeFlagged :=
  h.keep (fun _ _ hu => touch_noticeFlagged hu) hs

theorem lifecycleChanged_noticeOffered (i : Slot) (hs : s.NoticeFlagged) : (s.lifecycleChanged i).NoticeOffered :=
  endEvent_noticeOffered (markDirty_noticeFlagged _ (setNotice_noticeFlagged i hs))

theorem request_noticeOffered (h : Request f s t) (hs : s.NoticeOffered) : t.NoticeOffered := by
  cases h with
  | reported i e d r u v he hd hm hu =>
    obtain ⟨_, _, rfl⟩ := hu
    have hv : u.NoticeFlagged := moves_noticeFlagged hm hs.2
    exact endEvent_noticeOffered hv
  | statusTaken u fan timer v hm =>
    have hv : v.NoticeFlagged := moves_noticeFlagged hm hs.2
    exact endEvent_noticeOffered hv
  | created tag u kind i => exact lifecycleChanged_noticeOffered (s := s.setCoil i _) i hs.2
  | armed i => exact lifecycleChanged_noticeOffered i hs.2
  | suspended i => exact lifecycleChanged_noticeOffered i hs.2
  | retired i =>
    refine lifecycleChanged_noticeOffered i (noticeFlagged_of ?_ ?_ hs.2) <;> simp [State.cancelClaim]
  | restarted i =>
    obtain ⟨u, hu, he⟩ := restart_touches s i
    exact he ▸ endEvent_noticeOffered (touches_noticeFlagged hu hs.2)
  | released i =>
    obtain ⟨u, hu, he⟩ := releaseLockout_touches s i
    exact he ▸ endEvent_noticeOffered (touches_noticeFlagged hu hs.2)
  | committed n c =>
    refine endEvent_noticeOffered (markDirty_noticeFlagged _ (noticeFlagged_of ?_ ?_ hs.2)) <;> simp
  | unitDefined u controller zone => exact markDirty_noticeOffered (s := s.setUnit u _) _ hs
  | partSet k on off =>
    refine markDirty_noticeOffered _ (noticeOffered_of ?_ ?_ hs) <;>
    · unfold State.rebindOutdoor
      split_ifs <;> simp
  | supervisorsSet l => exact markDirty_noticeOffered (s := { s with supervisors := l }) _ hs
  | _ => exact hs

theorem slotLoad_noticeFlagged {i : Slot} (h : SlotLoad s i t) (hs : s.NoticeFlagged) : t.NoticeFlagged := by
  cases h <;> exact hs

theorem State.Swept.load_noticeOffered (h : s.Swept) : s.load.NoticeOffered := by
  refine endEvent_noticeOffered (forSlots_keeps_prop (P := State.NoticeFlagged)
    (fun i t ht => slotLoad_noticeFlagged (loadCoil_slotLoad t i) ht) _ ?_)
  intro n hn
  have hn : s.beforeSlots.notice = some n := hn
  rw [beforeSlots_eq] at hn
  exact absurd (h.notice.symm.trans hn) (by simp)

theorem event_noticeOffered (h : Event s t) (hs : s.NoticeOffered) : t.NoticeOffered := by
  cases h with
  | taken f rest u hrx hq => exact request_noticeOffered hq hs
  | answered f rest a u hrx hr hq =>
    have hu : u.NoticeOffered := request_noticeOffered hq hs
    exact hu
  | noticeMoved l n m hn hm =>
    refine ⟨fun _ _ => rfl, fun m' h => ?_⟩
    obtain rfl := Option.some.inj h
    have hflag (j : Slot) (hj : j = n.slot) : s.noticeFlags[j] = true := by
      subst hj; exact hs.2 n hn
    exact hflag _ hm
  | noticeLeft flags => exact chooseNotice_noticeOffered fun n hn => by cases hn
  | completed d e g u hd he hg hm =>
    have hu : u.NoticeFlagged := moves_noticeFlagged hm hs.2
    exact endEvent_noticeOffered hu
  | moved u hm => exact endEvent_noticeOffered (moves_noticeFlagged hm hs.2)
  | contactOpened u v hm =>
    have hv : v.NoticeFlagged := moves_noticeFlagged hm hs.2
    exact endEvent_noticeOffered hv
  | refreshed k => exact endEvent_noticeOffered hs.2
  | retried k => exact endEvent_noticeOffered hs.2
  | cleaned i =>
    unfold State.cleanExpired
    dsimp only
    split_ifs
    · exact hs
    · exact markDirty_noticeOffered _ hs
  | writeCompleted w success hw =>
    obtain ⟨_, _, _, _, _, _, he, -⟩ := writeCompleted_fields s w success
    rw [he]
    exact hs
  | brokenOff p cut =>
    have hb := breakOff_swept s p cut
    refine ⟨fun i hi => ?_, fun n hn => ?_⟩
    · rw [hb.flag] at hi; cases hi
    · rw [hb.notice] at hn; cases hn
  | startUp strap cut => exact (startState_swept s strap cut).load_noticeOffered
  | restartBegun strap => exact (restartState_swept s strap).load_noticeOffered
  | loaded =>
    obtain ⟨_, he, -⟩ := completeLoad_fields s
    rw [he]
    exact hs
  | _ => exact hs

/-! ### What a write has taken, and the retained items (R187, R188) -/

/-- The content of the write under way. -/
def State.writingContent (s : State) : Option WriteContent := s.writing.map (·.content)

theorem markDirty_writingContent (s : State) (it : Item) : (s.markDirty it).writingContent = s.writingContent := by
  unfold State.markDirty State.writingContent
  split_ifs
  · cases h : s.writing <;> simp
  · rfl
  · rfl

theorem foldl_markDirty_writingContent (l : List Item) (s : State) :
    (l.foldl State.markDirty s).writingContent = s.writingContent :=
  List.foldlRecOn (motive := fun t => t.writingContent = s.writingContent) l _ rfl
    fun t ht it _ => (markDirty_writingContent t it).trans ht

theorem touch_writingContent (h : Touch s t) : t.writingContent = s.writingContent := by
  cases h with
  | dirty it => exact markDirty_writingContent s it
  | _ => rfl

theorem touches_writingContent (h : Touches s t) : t.writingContent = s.writingContent :=
  h.keep (P := fun u => u.writingContent = s.writingContent) (fun _ _ hu he => (touch_writingContent hu).trans he) rfl

theorem moves_writingContent (h : StageMoves s t) : t.writingContent = s.writingContent :=
  h.keep (P := fun u => u.writingContent = s.writingContent) (fun _ _ hu he => (touch_writingContent hu).trans he) rfl

theorem endEvent_writingContent (s : State) : s.endEvent.writingContent = s.writingContent := by
  unfold State.writingContent; rw [endEvent_writing]

theorem lifecycleChanged_writingContent (s : State) (i : Slot) : (s.lifecycleChanged i).writingContent = s.writingContent := by
  have hm := markDirty_writingContent s (.coil i)
  rw [lifecycleChanged_eq]
  exact hm

/-- A request reaches no retained item and takes no content: a write under way goes on with the content it took (R188). -/
theorem request_writingContent (h : Request f s t) : t.writingContent = s.writingContent := by
  cases h with
  | reported i e d r u v he hd hm hu =>
    obtain ⟨_, _, rfl⟩ := hu
    rw [endEvent_writingContent]
    exact (moves_writingContent hm).trans rfl
  | statusTaken u fan timer v hm =>
    rw [endEvent_writingContent]
    exact (moves_writingContent hm).trans rfl
  | created tag u kind i => exact lifecycleChanged_writingContent _ i
  | armed i => exact lifecycleChanged_writingContent _ i
  | suspended i => exact lifecycleChanged_writingContent _ i
  | retired i =>
    refine (lifecycleChanged_writingContent _ i).trans ?_
    unfold State.writingContent
    simp [State.cancelClaim]
  | restarted i =>
    obtain ⟨u, hu, he⟩ := restart_touches s i
    rw [he, endEvent_writingContent, touches_writingContent hu]
  | released i =>
    obtain ⟨u, hu, he⟩ := releaseLockout_touches s i
    rw [he, endEvent_writingContent, touches_writingContent hu]
  | committed n c =>
    refine (endEvent_writingContent _).trans ((markDirty_writingContent _ _).trans ?_)
    unfold State.writingContent
    simp
  | unitDefined u controller zone => exact markDirty_writingContent _ _
  | partSet k on off =>
    refine (markDirty_writingContent _ _).trans ?_
    unfold State.rebindOutdoor State.writingContent
    split_ifs <;> simp
  | supervisorsSet l => exact markDirty_writingContent _ _
  | _ => rfl

theorem moves_retained (h : StageMoves s t) : t.retained = s.retained := field_of_apart State.retained h.apart fun _ => rfl

theorem request_retained (h : Request f s t) : t.retained = s.retained := by
  cases h with
  | reported i e d r u v he hd hm hu =>
    obtain ⟨_, _, rfl⟩ := hu
    rw [endEvent_retained]
    exact (moves_retained hm).trans rfl
  | statusTaken u fan timer v hm =>
    rw [endEvent_retained]
    exact (moves_retained hm).trans rfl
  | partSet k on off =>
    unfold State.setPart State.rebindOutdoor
    split_ifs <;> simp
  | _ =>
    simp [State.arm, State.suspend, State.retire, State.restart, State.releaseLockout, State.commit, State.defineUnit,
      State.cancelClaim, State.changeCoil, State.recomputeFso, State.setNotice]

/-- A retained settings item after a write that succeeded: the content written, or the item as it was. -/
theorem write_settings {r : Retained} {w : WriteContent} {c : SettingsItem} (h : (r.write w).settings = .valid c) :
    w = .settings c ∨ r.settings = .valid c := by
  cases w with
  | settings d =>
    obtain rfl := Stored.valid.inj h
    exact .inl rfl
  | unit => exact .inr h
  | coil => exact .inr h

/-- A retained coil item after a write that succeeded: the content written, or the item as it was. -/
theorem write_coil {r : Retained} {w : WriteContent} {i : Slot} {c : CoilItem} (h : (r.write w).coils[i] = .valid c) :
    w = .coil i c ∨ r.coils[i] = .valid c := by
  cases w with
  | settings => exact .inr h
  | unit => exact .inr h
  | coil n d =>
    have hput : (r.write (.coil n d)).coils[i] = if i = n then .valid d else r.coils[i] := tablePut_get _ _ _ _
    rw [hput] at h
    split_ifs at h with hi
    · subst hi
      exact .inl (congrArg (WriteContent.coil i) (Stored.valid.inj h))
    · exact .inr h

/-- A write that is broken off makes no item valid (R187). -/
theorem afterCut_settings {cut : BrokenWrite} {c : SettingsItem} (h : (s.retainedAfterCut cut).settings = .valid c) :
    s.retained.settings = .valid c := by
  unfold State.retainedAfterCut at h
  split at h
  next w _ =>
    unfold Retained.spoil at h
    split at h
    · cases h
    · exact h
    · exact h
  · exact h
  · exact h

theorem afterCut_coil {cut : BrokenWrite} {i : Slot} {c : CoilItem} (h : (s.retainedAfterCut cut).coils[i] = .valid c) :
    s.retained.coils[i] = .valid c := by
  unfold State.retainedAfterCut at h
  split at h
  next w _ =>
    unfold Retained.spoil at h
    split at h
    · exact h
    · exact h
    · simp only [tablePut_get] at h
      split_ifs at h
      exact h
  · exact h
  · exact h

/-! ### Thresholds (R51, R52) -/

theorem thresholds_of (hon : t.regimeOn = s.regimeOn) (hoff : t.regimeOff = s.regimeOff) (hr : t.retained = s.retained)
    (hw : t.writingContent = s.writingContent) (hs : s.ThresholdsOrdered) : t.ThresholdsOrdered := by
  refine ⟨hon ▸ hoff ▸ hs.1, hr ▸ hs.2.1, fun w c h hc => ?_⟩
  obtain ⟨v, hv, he⟩ : ∃ v, s.writing = some v ∧ v.content = w.content := by
    have : s.writingContent = some w.content := by rw [← hw, State.writingContent, h]; rfl
    exact Option.map_eq_some_iff.1 this
  exact hs.2.2 v c hv (he.trans hc)

theorem moves_thresholds (h : StageMoves s t) (hs : s.ThresholdsOrdered) : t.ThresholdsOrdered :=
  thresholds_of (field_of_apart State.regimeOn h.apart fun _ => rfl) (field_of_apart State.regimeOff h.apart fun _ => rfl)
    (moves_retained h) (moves_writingContent h) hs

theorem endEvent_thresholds (hs : s.ThresholdsOrdered) : s.endEvent.ThresholdsOrdered :=
  thresholds_of (endEvent_regimeOn s) (endEvent_regimeOff s) (endEvent_retained s) (endEvent_writingContent s) hs

theorem request_thresholds (h : Request f s t) (hs : s.ThresholdsOrdered) : t.ThresholdsOrdered := by
  have hw := request_writingContent h
  have hr := request_retained h
  cases h with
  | reported i e d r u v he hd hm hu =>
    obtain ⟨_, _, rfl⟩ := hu
    have hv : u.ThresholdsOrdered := moves_thresholds hm hs
    exact endEvent_thresholds hv
  | statusTaken u fan timer v hm =>
    have hv : v.ThresholdsOrdered := moves_thresholds hm hs
    exact endEvent_thresholds hv
  | partSet k on off h =>
    have hp : ({ s with regimeOn := on, regimeOff := off } : State).ThresholdsOrdered := ⟨h, hs.2⟩
    refine thresholds_of (s := { s with regimeOn := on, regimeOff := off }) ?_ ?_ hr hw hp <;>
    · unfold State.setPart State.rebindOutdoor
      split_ifs <;> simp
  | _ =>
    refine thresholds_of ?_ ?_ hr hw hs <;>
    simp [State.arm, State.suspend, State.retire, State.restart, State.releaseLockout, State.commit, State.defineUnit,
      State.cancelClaim, State.changeCoil, State.recomputeFso, State.setNotice]

/-- A load takes its thresholds from the settings item, or else the defaults (R191). -/
theorem load_thresholds (hv : ∀ c, s.retained.settings = .valid c → c.regimeOn < c.regimeOff) (hw : s.writing = none) :
    s.load.ThresholdsOrdered := by
  have slot {i : Slot} {t u : State} (h : SlotLoad t i u) (ht : t.ThresholdsOrdered) : u.ThresholdsOrdered := by
    cases h <;> exact ht
  refine load_keeps (P := State.ThresholdsOrdered) ⟨?_, ?_, ?_⟩ (fun _ _ _ h ht => slot h ht) fun _ ht => endEvent_thresholds ht
  · rw [beforeSlots_regimeOn, beforeSlots_regimeOff]
    cases hs : s.retained.settings with
    | valid c => rw [loadSettings_valid hs]; exact hv c hs
    | blank => rw [loadSettings_default (by simp [hs])]; exact (by decide : (20 : Int) < 50)
    | invalid => rw [loadSettings_default (by simp [hs])]; exact (by decide : (20 : Int) < 50)
  · rw [beforeSlots_retained]; exact hv
  · intro w c h
    rw [beforeSlots_eq] at h
    exact absurd (hw.symm.trans h) (by simp)

theorem event_thresholds (h : Event s t) (hs : s.ThresholdsOrdered) : t.ThresholdsOrdered := by
  cases h with
  | taken f rest u hrx hq => exact request_thresholds hq hs
  | answered f rest a u hrx hr hq =>
    have hu : u.ThresholdsOrdered := request_thresholds hq hs
    exact hu
  | noticeLeft flags =>
    exact thresholds_of (chooseNotice_regimeOn _) (chooseNotice_regimeOff _) (chooseNotice_retained _)
      (congrArg (Option.map _) (chooseNotice_writing _)) hs
  | completed d e g u hd he hg hm =>
    have hu : u.ThresholdsOrdered := moves_thresholds hm hs
    exact endEvent_thresholds hu
  | moved u hm => exact endEvent_thresholds (moves_thresholds hm hs)
  | contactOpened u v hm =>
    have hv : v.ThresholdsOrdered := moves_thresholds hm hs
    exact endEvent_thresholds hv
  | refreshed k => exact endEvent_thresholds hs
  | retried k => exact endEvent_thresholds hs
  | cleaned i =>
    have hc := cleanExpired_touches s i
    refine thresholds_of ?_ ?_ ?_ (touches_writingContent hc) hs
    · exact hc.keep (P := fun u => u.regimeOn = s.regimeOn)
        (fun _ _ hu he => (field_of_apart State.regimeOn hu.apart fun _ => rfl).trans he) rfl
    · exact hc.keep (P := fun u => u.regimeOff = s.regimeOff)
        (fun _ _ hu he => (field_of_apart State.regimeOff hu.apart fun _ => rfl).trans he) rfl
    · exact hc.keep (P := fun u => u.retained = s.retained)
        (fun _ _ hu he => (field_of_apart State.retained hu.apart fun _ => rfl).trans he) rfl
  | writeBegun it rest hq hw =>
    refine ⟨hs.1, hs.2.1, fun w c h hc => ?_⟩
    obtain rfl := Option.some.inj h
    cases it with
    | settings =>
      obtain rfl := WriteContent.settings.inj hc
      exact hs.1
    | unit => cases hc
    | coil => cases hc
  | writeCompleted w success hw =>
    obtain ⟨_, _, _, _, _, _, he, -⟩ := writeCompleted_fields s w success
    rw [he]
    refine ⟨hs.1, fun c hc => ?_, fun _ _ h => by cases h⟩
    cases success with
    | false => exact hs.2.1 c hc
    | true => exact (write_settings hc).elim (hs.2.2 w c hw) (hs.2.1 c)
  | brokenOff p cut => exact ⟨(by decide : (20 : Int) < 50), fun c hc => hs.2.1 c (afterCut_settings hc), fun _ _ h => by cases h⟩
  | startUp strap cut => exact load_thresholds (s := s.startState strap cut) (fun c hc => hs.2.1 c (afterCut_settings hc)) rfl
  | restartBegun strap => exact load_thresholds (s := s.clearedForRestart.readStrap strap) hs.2.1 rfl
  | loaded =>
    have hf := foldl_markDirty_writingContent (allItems.filter s.loadedOtherwise) s
    obtain ⟨_, he, -⟩ := completeLoad_fields s
    rw [he]
    exact thresholds_of (s := s) rfl rfl rfl hf hs
  | _ => exact hs

end Sys2Proof.Machine
end

