-- ==== Sys2Proof/Proofs/Ranges.lean ====
section
/-! Every step keeps the bindings and profiles in their ranges, and with that each of the promises of O59. -/

namespace Sys2Proof.Machine

variable {s t : State} {f : RxFrame}

/-! ### The ranges of the records (R4, R148) -/

/-- Every record's bindings and profile lie in their ranges. -/
def State.CoilsInRange (s : State) : Prop := ∀ i : Slot, DefinitionInRange s.coils[i].lat s.coils[i].ft s.coils[i].profile

/-- Every coil item's bindings and profile lie in their ranges, those of a write under way too. -/
def State.ItemsInRange (s : State) : Prop :=
  (∀ (i : Slot) (d : CoilDefinition), s.retained.coils[i] = .valid (.record d) → DefinitionInRange d.lat d.ft d.profile)
  ∧ ∀ (i : Slot) (d : CoilDefinition), s.writingContent = some (.coil i (.record d)) → DefinitionInRange d.lat d.ft d.profile

theorem definitionsInRange_iff : s.DefinitionsInRange ↔ s.CoilsInRange ∧ s.ItemsInRange := by
  have hw : (∀ (w : Write) (i : Slot) (d : CoilDefinition),
        s.writing = some w → w.content = .coil i (.record d) → DefinitionInRange d.lat d.ft d.profile)
      ↔ ∀ (i : Slot) (d : CoilDefinition), s.writingContent = some (.coil i (.record d)) → DefinitionInRange d.lat d.ft d.profile := by
    unfold State.writingContent
    exact ⟨fun h i d hc => by obtain ⟨w, hw, hc⟩ := Option.map_eq_some_iff.1 hc; exact h w i d hw hc,
      fun h w i d hw hc => h i d (by rw [hw, Option.map_some, hc])⟩
  unfold State.DefinitionsInRange State.CoilsInRange State.ItemsInRange
  rw [hw]

theorem itemsInRange_of (hr : t.retained = s.retained) (hw : t.writingContent = s.writingContent) (hs : s.ItemsInRange) :
    t.ItemsInRange := by
  unfold State.ItemsInRange
  rw [hr, hw]
  exact hs

theorem coilsInRange_of (h : t.coils = s.coils) (hs : s.CoilsInRange) : t.CoilsInRange := by
  unfold State.CoilsInRange
  rw [h]
  exact hs

/-- A record that keeps its definition keeps its ranges. -/
theorem coilsInRange_of_same (h : ∀ i : Slot, t.coils[i].lat = s.coils[i].lat ∧ t.coils[i].ft = s.coils[i].ft
    ∧ t.coils[i].profile = s.coils[i].profile) (hs : s.CoilsInRange) : t.CoilsInRange := by
  intro i
  obtain ⟨hl, hf, hp⟩ := h i
  rw [hl, hf, hp]
  exact hs i

theorem setCoil_coilsInRange {i : Slot} {c : Coil} (hc : DefinitionInRange c.lat c.ft c.profile) (hs : s.CoilsInRange) :
    (s.setCoil i c).CoilsInRange := by
  intro j
  rw [setCoil_coils, tablePut_get]
  split_ifs
  · exact hc
  · exact hs j

theorem touch_coilsInRange (h : Touch s t) (hs : s.CoilsInRange) : t.CoilsInRange := by
  cases h with
  | coil i c hd =>
    refine setCoil_coilsInRange ?_ hs
    rw [hd.lat, hd.ft, hd.profile]
    exact hs i
  | dirty it => exact coilsInRange_of (markDirty_coils s it) hs
  | _ => exact hs

theorem touches_coilsInRange (h : Touches s t) (hs : s.CoilsInRange) : t.CoilsInRange :=
  h.keep (fun _ _ hu => touch_coilsInRange hu) hs

theorem moves_coilsInRange (h : StageMoves s t) (hs : s.CoilsInRange) : t.CoilsInRange :=
  h.keep (fun _ _ hu => touch_coilsInRange hu) hs

/-- A record with neither bindings nor profile. -/
theorem definitionInRange_none : DefinitionInRange none none none :=
  ⟨fun _ h => (Option.not_mem_none _ h).elim, fun _ h => (Option.not_mem_none _ h).elim, fun _ h => (Option.not_mem_none _ h).elim⟩

theorem request_coilsInRange (h : Request f s t) (hs : s.CoilsInRange) : t.CoilsInRange := by
  cases h with
  | reported i e d r u v he hd hm hu =>
    obtain ⟨_, _, rfl⟩ := hu
    have hv : u.CoilsInRange := moves_coilsInRange hm hs
    exact coilsInRange_of (endEvent_coils _) hv
  | statusTaken u fan timer v hm =>
    have hv : v.CoilsInRange := moves_coilsInRange hm hs
    exact coilsInRange_of (endEvent_coils _) hv
  | created tag u kind i =>
    exact coilsInRange_of (lifecycleChanged_coils _ i) (setCoil_coilsInRange definitionInRange_none hs)
  | armed i =>
    have hc : (s.setCoil i (s.coils[i].startsSettling s.now)).CoilsInRange := setCoil_coilsInRange (hs i) hs
    exact coilsInRange_of (lifecycleChanged_coils _ i) hc
  | suspended i =>
    have hc : (s.setCoil i s.coils[i].suspended).CoilsInRange := setCoil_coilsInRange (hs i) hs
    exact coilsInRange_of (lifecycleChanged_coils _ i) hc
  | retired i =>
    have hc : (s.setCoil i (.vacant s.coils[i].unit)).CoilsInRange := setCoil_coilsInRange definitionInRange_none hs
    refine coilsInRange_of ?_ hc
    simp [State.retire, State.cancelClaim]
  | restarted i =>
    obtain ⟨u, hu, he⟩ := restart_touches s i
    rw [he]
    exact coilsInRange_of (endEvent_coils u) (touches_coilsInRange hu hs)
  | released i =>
    obtain ⟨u, hu, he⟩ := releaseLockout_touches s i
    rw [he]
    exact coilsInRange_of (endEvent_coils u) (touches_coilsInRange hu hs)
  | committed n c hc hr hd =>
    have hc := setCoil_coilsInRange (i := c.slot)
      (c := { (c.staging.clamped.over s.coils[c.slot]).into s.coils[c.slot] with writeInFlight := true })
      (commit_definitionInRange (hs c.slot) hr hd) hs
    refine coilsInRange_of ?_ hc
    simp [State.commit]
  | partSet k on off =>
    refine coilsInRange_of ?_ hs
    unfold State.setPart State.rebindOutdoor
    split_ifs <;> simp
  | unitDefined => exact coilsInRange_of (markDirty_coils _ _) hs
  | supervisorsSet => exact coilsInRange_of (markDirty_coils _ _) hs
  | _ => exact hs

/-! ### Loads -/

theorem slotLoad_coilsInRange {i : Slot} (h : SlotLoad s i t) (hi : s.ItemsInRange) (hs : s.CoilsInRange) : t.CoilsInRange := by
  cases h with
  | stays => exact hs
  | lost => exact hs
  | placed d points l hd => exact setCoil_coilsInRange (s := { s with points := points }) (hi.1 i d hd) hs
  | settles d points hd => exact setCoil_coilsInRange (s := { s with points := points }) (hi.1 i d hd) hs
  | fellBack d points hd => exact setCoil_coilsInRange (s := { s with points := points }) (hi.1 i d hd) hs

theorem writingContent_of (h : t.writing = s.writing) : t.writingContent = s.writingContent := by
  unfold State.writingContent
  rw [h]

theorem slotLoad_writing {i : Slot} (h : SlotLoad s i t) : t.writing = s.writing := by cases h <;> rfl

theorem load_definitionsInRange (hc : s.CoilsInRange) (hi : s.ItemsInRange) : s.load.CoilsInRange ∧ s.load.ItemsInRange := by
  have hb : s.beforeSlots.writing = s.writing := by rw [beforeSlots_eq]
  refine load_keeps (P := fun t => t.CoilsInRange ∧ t.ItemsInRange)
    ⟨coilsInRange_of (beforeSlots_coils s) hc, itemsInRange_of (beforeSlots_retained s) (writingContent_of hb) hi⟩
    (fun i t u h ht => ⟨slotLoad_coilsInRange h ht.2 ht.1,
      itemsInRange_of (slotLoad_retained h) (writingContent_of (slotLoad_writing h)) ht.2⟩)
    fun t ht => ⟨coilsInRange_of (endEvent_coils t) ht.1, itemsInRange_of (endEvent_retained t) (endEvent_writingContent t) ht.2⟩

theorem State.Swept.coilsInRange (h : s.Swept) : s.CoilsInRange := by
  intro i
  rw [h.coil]
  exact definitionInRange_none

/-- A broken-off write makes no item valid, and goes on in no state. -/
theorem afterCut_itemsInRange {cut : BrokenWrite} (hs : s.ItemsInRange) (hr : t.retained = s.retainedAfterCut cut)
    (hw : t.writing = none) : t.ItemsInRange := by
  refine ⟨fun i d hd => hs.1 i d (afterCut_coil (hr ▸ hd)), fun i d hd => ?_⟩
  rw [State.writingContent, hw] at hd
  cases hd

/-! ### Every event -/

theorem event_coilsInRange (h : Event s t) (hi : s.ItemsInRange) (hs : s.CoilsInRange) : t.CoilsInRange := by
  cases h with
  | taken f rest u hrx hq => exact request_coilsInRange hq hs
  | answered f rest a u hrx hr hq =>
    have hu : u.CoilsInRange := request_coilsInRange hq hs
    exact hu
  | noticeLeft flags => exact coilsInRange_of (chooseNotice_coils _) hs
  | completed d e g u hd he hg hm =>
    have hu : u.CoilsInRange := moves_coilsInRange hm hs
    exact coilsInRange_of (endEvent_coils _) hu
  | moved u hm => exact coilsInRange_of (endEvent_coils _) (moves_coilsInRange hm hs)
  | contactOpened u v hm =>
    have hv : v.CoilsInRange := moves_coilsInRange hm hs
    exact coilsInRange_of (endEvent_coils _) hv
  | refreshed k => exact coilsInRange_of (endEvent_coils _) hs
  | retried k => exact coilsInRange_of (endEvent_coils _) hs
  | cleaned i => exact touches_coilsInRange (cleanExpired_touches s i) hs
  | writeCompleted w success hw =>
    obtain ⟨coils, _, _, _, _, _, he, hc, -⟩ := writeCompleted_fields s w success
    rw [he]
    refine coilsInRange_of_same (fun i => ?_) hs
    simp only [hc i]
    split_ifs <;> exact ⟨rfl, rfl, rfl⟩
  | brokenOff p cut => exact (breakOff_swept s p cut).coilsInRange
  | startUp strap cut =>
    exact (load_definitionsInRange (startState_swept s strap cut).coilsInRange (afterCut_itemsInRange hi rfl rfl)).1
  | restartBegun strap =>
    exact (load_definitionsInRange (restartState_swept s strap).coilsInRange ⟨hi.1, fun _ _ h => by cases h⟩).1
  | loaded =>
    obtain ⟨_, he, -⟩ := completeLoad_fields s
    rw [he]
    refine coilsInRange_of_same (fun i => ?_) hs
    simp only [State.startSettling, tableMap_get]
    split_ifs <;> exact ⟨rfl, rfl, rfl⟩
  | _ => exact hs

theorem moves_itemsInRange (h : StageMoves s t) (hs : s.ItemsInRange) : t.ItemsInRange :=
  itemsInRange_of (moves_retained h) (moves_writingContent h) hs

theorem endEvent_itemsInRange (hs : s.ItemsInRange) : s.endEvent.ItemsInRange :=
  itemsInRange_of (endEvent_retained s) (endEvent_writingContent s) hs

theorem event_itemsInRange (h : Event s t) (hc : s.CoilsInRange) (hs : s.ItemsInRange) : t.ItemsInRange := by
  cases h with
  | taken f rest u hrx hq => exact itemsInRange_of (request_retained hq) (request_writingContent hq) hs
  | answered f rest a u hrx hr hq =>
    have hu : u.ItemsInRange := itemsInRange_of (request_retained hq) (request_writingContent hq) hs
    exact hu
  | noticeLeft flags =>
    exact itemsInRange_of (chooseNotice_retained _) (writingContent_of (chooseNotice_writing _)) hs
  | completed d e g u hd he hg hm =>
    have hu : u.ItemsInRange := moves_itemsInRange hm hs
    exact endEvent_itemsInRange hu
  | moved u hm => exact endEvent_itemsInRange (moves_itemsInRange hm hs)
  | contactOpened u v hm =>
    have hv : v.ItemsInRange := moves_itemsInRange hm hs
    exact endEvent_itemsInRange hv
  | refreshed k => exact endEvent_itemsInRange hs
  | retried k => exact endEvent_itemsInRange hs
  | cleaned i =>
    have ht := cleanExpired_touches s i
    exact ht.keep (P := State.ItemsInRange) (fun _ _ hu hi => itemsInRange_of
      (field_of_apart State.retained hu.apart fun _ => rfl) (touch_writingContent hu) hi) hs
  | writeBegun it rest hq hw =>
    refine ⟨hs.1, fun i d h => ?_⟩
    have h : s.contentOf it = .coil i (.record d) := Option.some.inj h
    cases it with
    | settings => cases h
    | unit => cases h
    | coil j =>
      obtain ⟨rfl, hd⟩ := WriteContent.coil.inj h
      have hrange := hc j
      unfold Coil.item at hd
      split at hd
      · cases hd
      · cases hd; exact hrange
  | writeCompleted w success hw =>
    obtain ⟨_, _, _, _, _, _, he, -⟩ := writeCompleted_fields s w success
    rw [he]
    refine ⟨fun i d hd => ?_, fun _ _ h => by cases h⟩
    cases success with
    | false => exact hs.1 i d hd
    | true =>
      refine (write_coil hd).elim (fun h => hs.2 i d ?_) (hs.1 i d)
      rw [State.writingContent, hw, Option.map_some, h]
  | brokenOff p cut => exact afterCut_itemsInRange hs rfl rfl
  | startUp strap cut =>
    exact (load_definitionsInRange (startState_swept s strap cut).coilsInRange (afterCut_itemsInRange hs rfl rfl)).2
  | restartBegun strap =>
    exact (load_definitionsInRange (restartState_swept s strap).coilsInRange ⟨hs.1, fun _ _ h => by cases h⟩).2
  | loaded =>
    have hf := foldl_markDirty_writingContent (allItems.filter s.loadedOtherwise) s
    obtain ⟨_, he, -⟩ := completeLoad_fields s
    rw [he]
    exact itemsInRange_of (s := s) rfl hf hs
  | _ => exact hs

theorem event_definitionsInRange (h : Event s t) (hs : s.DefinitionsInRange) : t.DefinitionsInRange := by
  obtain ⟨hc, hi⟩ := definitionsInRange_iff.1 hs
  exact definitionsInRange_iff.2 ⟨event_coilsInRange h hi hc, event_itemsInRange h hc hi⟩

/-- Settles O59: a step is one event, and each promise is kept by every event. -/
theorem stepKeepsBounds : Obligations.StepKeepsBounds := by
  intro s t h
  obtain ⟨now, pending, he⟩ := step_event h
  exact ⟨fun hs => event_bounded he hs, fun hs => event_thresholds he hs, fun hs => event_tagsDistinct he hs,
    fun hs => event_claimsDistinct he hs, fun hs => event_pointsInAccount he hs, fun hs => event_definitionsInRange he hs,
    fun hs => event_storeQueuedOnce he hs, fun hs => event_noticeOffered he hs⟩

end Sys2Proof.Machine
end

