-- ==== Sys2Proof/Proofs/Lookups.lean ====
section
/-! The lookups and the requests of chapter 1 and 4.5: what each owner answers, case by case in the order of its checks. -/

namespace Sys2Proof.Machine

variable {s : State} {f : RxFrame} {rest : List RxFrame} {fn : Func} {owner : RxFrame → State → Handled}

/-! ### Answers and refusals -/

/-- A request that its owner refuses leaves its refusal in the answer queue and nothing else (R166). -/
theorem takeRequest_refuses (h : s.TakesRequest fn f rest) {r : Result}
    (ho : owner f { s with rx := rest } = refuse { s with rx := rest } r) :
    (Host.Outcome.next (takeRequest fn owner s) : Step) = .next (s.replied f rest r []) := by
  rw [takeRequest_answers h ho]
  rfl

/-- A request that its owner answers with data from the state that the frame has left. -/
theorem takeRequest_done (h : s.TakesRequest fn f rest) {data : List Byte}
    (ho : owner f { s with rx := rest } = ({ s with rx := rest }, some (.done data))) :
    (Host.Outcome.next (takeRequest fn owner s) : Step) = .next (s.replied f rest .done data) := by
  rw [takeRequest_answers h ho]
  rfl

/-! ### QUERY_COIL (R182) -/

theorem viewOf_eq_none {n : Nat} (h : 5 < n) : viewOf n = none := by
  obtain ⟨m, rfl⟩ := Nat.exists_eq_add_of_le' h
  rfl

/-- Views 0 to 2 name the record by slot. -/
theorem viewOf_slot {n : Nat} (h : n ≤ 2) : ∃ v, viewOf n = some (false, v) := by
  interval_cases n
  exacts [⟨_, rfl⟩, ⟨_, rfl⟩, ⟨_, rfl⟩]

/-- Views 3 to 5 name the record by tag. -/
theorem viewOf_tag {n : Nat} (h3 : 3 ≤ n) (h5 : n ≤ 5) : ∃ v, viewOf n = some (true, v) := by
  interval_cases n
  exacts [⟨_, rfl⟩, ⟨_, rfl⟩, ⟨_, rfl⟩]

/-- No record carries the tag, or it is the tag 0 that is none (R3). -/
theorem slotOfTag_eq_none {tag : Nat}
    (h : tag = 0 ∨ ∀ i : Slot, s.coils[i].lifecycle ≠ .vacant → s.coils[i].tag ≠ tag) : s.slotOfTag tag = none := by
  unfold State.slotOfTag
  split_ifs with h0
  · rfl
  · refine List.find?_eq_none.2 fun i _ hi => ?_
    simp only [Bool.and_eq_true, bne_iff_ne, ne_eq, beq_iff_eq] at hi
    exact h.elim h0 fun h => h i hi.1 hi.2

/-- The record that alone carries a tag is found by it. -/
theorem slotOfTag_eq_some {i : Slot} (ht : 0 < s.coils[i].tag) (hv : s.coils[i].lifecycle ≠ .vacant)
    (hu : ∀ j : Slot, s.coils[j].lifecycle ≠ .vacant → s.coils[j].tag = s.coils[i].tag → j = i) :
    s.slotOfTag s.coils[i].tag = some i := by
  unfold State.slotOfTag
  rw [if_neg ht.ne']
  cases hf : (List.finRange 48).find? fun j => s.coils[j].lifecycle != .vacant && s.coils[j].tag == s.coils[i].tag with
  | none =>
    have hn := List.find?_eq_none.1 hf i (List.mem_finRange i)
    simp only [Bool.and_eq_true, bne_iff_ne, ne_eq, beq_self_eq_true, and_true, not_not] at hn
    exact absurd hn hv
  | some j =>
    have hj := List.find?_some hf
    simp only [Bool.and_eq_true, bne_iff_ne, ne_eq, beq_iff_eq] at hj
    rw [hu j hj.1 hj.2]

/-- A non-vacant record that a QUERY_COIL names, by slot or by tag, is answered with the view. -/
theorem queryCoilOwner_view {v : CoilView} {i : Slot} (hi : s.coils[i].lifecycle ≠ .vacant)
    (h : viewOf (byteAt f.payload 0) = some (false, v) ∧ wordAt f.payload 1 = i.val
      ∨ viewOf (byteAt f.payload 0) = some (true, v) ∧ s.slotOfTag (wordAt f.payload 1) = some i) :
    queryCoilOwner f s = s.answerView v i := by
  unfold queryCoilOwner
  dsimp only
  rcases h with ⟨hv, hn⟩ | ⟨hv, hn⟩
  · rw [hv]
    exact withRecord_named hn hi _
  · rw [hv]
    dsimp only
    rw [hn]

/-- The stage timer of the STATE view (R94). -/
theorem stageTimer_eq (c : Coil) : c.stageTimer =
    if c.stage = .recovery .prove then c.holdTimer else if c.stage = .clear then c.cleanTimer else none := by
  unfold Coil.stageTimer
  split
  next h => rw [if_pos h]
  next h => rw [if_neg (by simp [h]), if_pos h]
  all_goals next h => rw [if_neg (by simp [h]), if_neg (by simp [h])]

/-- Settles O13: the owner answers the view of the record, whether it is named by slot or by tag. -/
theorem queryCoilReportsTheRecord : Obligations.QueryCoilReportsTheRecord := by
  intro s f rest i view ht hi hn c held
  have view_eq (v : CoilView) (h0 : viewOf view = some (false, v)) (h3 : viewOf (view + 3) = some (true, v)) :
      queryCoilOwner f { s with rx := rest } = ({ s with rx := rest } : State).answerView v i := by
    refine queryCoilOwner_view hi ?_
    rcases hn with ⟨hb, hw⟩ | ⟨hb, hw, htag, hu⟩
    · exact .inl ⟨hb ▸ h0, hw⟩
    · rw [hb, hw]
      exact .inr ⟨h3, slotOfTag_eq_some htag hi hu⟩
  refine ⟨fun hv => ?_, fun hv => ?_, fun hv => ?_⟩
  · subst hv
    refine (takeRequest_done ht (view_eq .state rfl rfl)).trans ?_
    unfold State.coilStateView
    dsimp only
    rw [stageTimer_eq]
    rfl
  · subst hv
    show (Host.Outcome.next (takeRequest .queryCoil queryCoilOwner s) : Step) = _
    rw [takeRequest_answers ht (view_eq .definition rfl rfl)]
    unfold State.coilDefinitionView
    rfl
  · subst hv
    exact takeRequest_done ht (view_eq .limits rfl rfl)

/-! ### The refusals of the lookups -/

theorem queryCoilOwner_noView (h : 5 < byteAt f.payload 0) : queryCoilOwner f s = refuse s .outOfRange := by
  unfold queryCoilOwner
  rw [viewOf_eq_none h]

/-- A view by slot is judged as every request that names a slot. -/
theorem queryCoilOwner_slot (h : byteAt f.payload 0 ≤ 2) :
    ∃ v, queryCoilOwner f s = withRecord s (wordAt f.payload 1) fun i => s.answerView v i := by
  obtain ⟨v, hv⟩ := viewOf_slot h
  refine ⟨v, ?_⟩
  unfold queryCoilOwner
  rw [hv]

theorem queryCoilOwner_noTag (h3 : 3 ≤ byteAt f.payload 0) (h5 : byteAt f.payload 0 ≤ 5)
    (h : s.slotOfTag (wordAt f.payload 1) = none) : queryCoilOwner f s = refuse s .noRecord := by
  obtain ⟨v, hv⟩ := viewOf_tag h3 h5
  unfold queryCoilOwner
  rw [hv]
  dsimp only
  rw [h]

/-- No entry holds the key (R27). -/
theorem indexOf_eq_none {points : Table (Option PointEntry) 96} {k : PointKey}
    (h : ∀ (i : Fin 96) (e : PointEntry), points[i] = some e → e.key ≠ k) : indexOf points k = none := by
  refine List.find?_eq_none.2 fun i _ hi => ?_
  obtain ⟨e, he, hk⟩ := (Option.any_eq_true _ _).1 hi
  exact h i e he (by simpa using hk)

theorem queryPointOwner_outOfRange
    (h : ¬ (1 ≤ byteAt f.payload 0 ∧ byteAt f.payload 0 ≤ 223 ∧ byteAt f.payload 1 ≤ 63)) :
    queryPointOwner f s = refuse s .outOfRange := by
  refine if_pos ?_
  rw [Bool.not_eq_true', Bool.eq_false_iff]
  intro hk
  simp only [PointKey.inRange, Bool.and_eq_true, decide_eq_true_eq, isStation_iff] at hk
  exact h ⟨hk.1.1, hk.1.2, hk.2⟩

theorem queryPointOwner_noEntry (h : 1 ≤ byteAt f.payload 0 ∧ byteAt f.payload 0 ≤ 223 ∧ byteAt f.payload 1 ≤ 63)
    (hn : indexOf s.points ⟨byteAt f.payload 0, byteAt f.payload 1⟩ = none) : queryPointOwner f s = refuse s .noRecord := by
  have hk : PointKey.inRange ⟨byteAt f.payload 0, byteAt f.payload 1⟩ = true := by
    simp only [PointKey.inRange, Bool.and_eq_true, decide_eq_true_eq, isStation_iff]
    exact ⟨⟨h.1, h.2.1⟩, h.2.2⟩
  unfold queryPointOwner
  dsimp only
  rw [hk, hn]
  rfl

theorem unitOf_eq_none {n : Nat} (h : 15 < n) : unitOf n = none := dif_neg (by omega)

theorem queryUnitOwner_outOfRange (h : 15 < byteAt f.payload 0) : queryUnitOwner f s = refuse s .outOfRange := by
  unfold queryUnitOwner
  rw [unitOf_eq_none h]

theorem actionKindOf_wire (k : ActionKind) : actionKindOf (actionKindWire k) = some k := by cases k <;> rfl

theorem actionKindOf_eq_none {n : Nat} (h : 4 < n) : actionKindOf n = none := by
  obtain ⟨m, rfl⟩ := Nat.exists_eq_add_of_le' h
  rfl

theorem queryDemandOwner_outOfRange
    (h : ¬ (1 ≤ byteAt f.payload 0 ∧ byteAt f.payload 0 ≤ 223 ∧ byteAt f.payload 1 ≤ 4)) :
    queryDemandOwner f s = refuse s .outOfRange := by
  unfold queryDemandOwner
  dsimp only
  split
  · rfl
  next k hk =>
    refine if_pos ?_
    have h4 : byteAt f.payload 1 ≤ 4 := by
      by_contra hn
      rw [actionKindOf_eq_none (not_le.1 hn)] at hk
      cases hk
    rw [Bool.not_eq_true', Bool.eq_false_iff, ne_eq, isStation_iff]
    exact fun ha => h ⟨ha.1, ha.2, h4⟩

theorem queryDemandOwner_noEntry {kind : ActionKind} (h1 : 1 ≤ byteAt f.payload 0) (h223 : byteAt f.payload 0 ≤ 223)
    (hk : byteAt f.payload 1 = actionKindWire kind) (hn : demandOf s.demands ⟨byteAt f.payload 0, kind⟩ = none) :
    queryDemandOwner f s = refuse s .noRecord := by
  have hst : isStation (byteAt f.payload 0) = true := (isStation_iff).2 ⟨h1, h223⟩
  unfold queryDemandOwner
  rw [hk, actionKindOf_wire]
  dsimp only
  rw [hst, hn]
  rfl

/-- No entry of the demand table holds the key. -/
theorem demandOf_eq_none {ds : List DemandEntry} {k : DemandKey} (h : ∀ e ∈ ds, e.key ≠ k) : demandOf ds k = none :=
  List.find?_eq_none.2 fun e he hk => h e he (by simpa using hk)

/-- Settles O19: each lookup is refused at its owner, by range first and then by what is not there. -/
theorem lookupsRefuseWhatIsNotThere : Obligations.LookupsRefuseWhatIsNotThere := by
  intro s f rest
  refine ⟨fun ht => ⟨?_, ?_⟩, fun ht => ⟨fun h => ?_, fun h => ?_⟩, fun ht h => ?_, fun ht => ⟨fun h => ?_, ?_⟩⟩
  · rintro (h | ⟨h2, hn⟩)
    · exact takeRequest_refuses ht (queryCoilOwner_noView h)
    · obtain ⟨v, hv⟩ := queryCoilOwner_slot (s := { s with rx := rest }) h2
      exact takeRequest_refuses ht (hv.trans (withRecord_outOfRange hn _))
  · rintro (⟨i, h2, hn, hi⟩ | ⟨h3, h5, hn⟩)
    · obtain ⟨v, hv⟩ := queryCoilOwner_slot (s := { s with rx := rest }) h2
      exact takeRequest_refuses ht (hv.trans (withRecord_vacant (s := { s with rx := rest }) hn hi _))
    · exact takeRequest_refuses ht (queryCoilOwner_noTag h3 h5 (slotOfTag_eq_none hn))
  · exact takeRequest_refuses ht (queryPointOwner_outOfRange h)
  · exact takeRequest_refuses ht (queryPointOwner_noEntry h.1 (indexOf_eq_none h.2))
  · exact takeRequest_refuses ht (queryUnitOwner_outOfRange h)
  · exact takeRequest_refuses ht (queryDemandOwner_outOfRange h)
  · exact fun kind h hk hn => takeRequest_refuses ht (queryDemandOwner_noEntry h.1 h.2.1 hk (demandOf_eq_none hn))

end Sys2Proof.Machine
end

