-- ==== Sys2Proof/Proofs/Lifecycles.lean ====
section
/-! The lifecycle requests CREATE, ARM, SUSPEND and RETIRE (chapter 1), and the refusals of the requests that name a slot. -/

namespace Sys2Proof.Machine

variable {s : State} {f : RxFrame} {rest : List RxFrame} {fn : Func} {owner : RxFrame → State → Handled}

/-! ### Permissions -/

theorem not_isSupervisor (h : ¬ s.Supervisor f.sender) : (!s.isSupervisor f.sender) = true := by
  rw [Bool.not_eq_true', Bool.eq_false_iff, ne_eq, isSupervisor_iff]
  exact h

theorem isSupervisor_passes (h : s.Supervisor f.sender) : ¬ (!s.isSupervisor f.sender) = true := by
  rw [(isSupervisor_iff s f.sender).2 h]
  decide

theorem not_mayEdit {i : Slot} (h : ¬ s.Permitted f.sender i) : (!s.mayEdit f.sender i) = true := by
  rw [Bool.not_eq_true', Bool.eq_false_iff, ne_eq, mayEdit_iff]
  exact h

theorem mayEdit_passes {i : Slot} (h : s.Permitted f.sender i) : ¬ (!s.mayEdit f.sender i) = true := by
  rw [(mayEdit_iff s f.sender i).2 h]
  decide

/-! ### CREATE (R11, R12) -/

theorem coilKindOf_wire (k : CoilKind) : coilKindOf k.wire = some k := by cases k <;> rfl

theorem coilKindOf_eq_none {n : Nat} (h : 2 < n) : coilKindOf n = none := by
  obtain ⟨m, rfl⟩ := Nat.exists_eq_add_of_le' h
  rfl

theorem coilKindOf_isSome {n : Nat} (h : n ≤ 2) : ∃ k, coilKindOf n = some k := by
  interval_cases n
  exacts [⟨_, rfl⟩, ⟨_, rfl⟩, ⟨_, rfl⟩]

theorem unitOf_isSome {n : Nat} (h : n ≤ 15) : ∃ u, unitOf n = some u := ⟨_, dif_pos (by omega)⟩

/-- Some non-vacant record carries the tag (R3). -/
theorem tagHeld_iff {tag : Nat} : s.tagHeld tag = true ↔ ∃ j : Slot, s.coils[j].lifecycle ≠ .vacant ∧ s.coils[j].tag = tag := by
  rw [← Bool.not_eq_false, tagHeld_eq_false]
  push Not
  rfl

theorem lowestVacant_eq_none (h : ∀ j : Slot, s.coils[j].lifecycle ≠ .vacant) : s.lowestVacant = none :=
  List.find?_eq_none.2 fun i _ hi => h i (by simpa using hi)

/-- The first index of a list of all of them that has a property is the lowest that has it. -/
theorem find_finRange_lowest {n : Nat} {p : Fin n → Bool} {i : Fin n} (hi : p i = true) (h : ∀ j, j < i → p j = false) :
    (List.finRange n).find? p = some i := by
  cases hf : (List.finRange n).find? p with
  | none => exact absurd hi (List.find?_eq_none.1 hf i (List.mem_finRange i))
  | some j =>
    rw [List.find?_eq_some_iff_append] at hf
    obtain ⟨hj, as, bs, hl, has⟩ := hf
    have hp : (as ++ j :: bs).Pairwise (· < ·) := hl ▸ List.pairwise_lt_finRange n
    rcases lt_trichotomy i j with hij | rfl | hij
    · have hm : i ∈ as ++ j :: bs := hl ▸ List.mem_finRange i
      rcases List.mem_append.1 hm with hm | hm
      · simpa [hi] using has i hm
      · rcases List.mem_cons.1 hm with rfl | hm
        · exact absurd hij (lt_irrefl _)
        · exact absurd ((List.pairwise_cons.1 (List.pairwise_append.1 hp).2.1).1 i hm) (not_lt.2 hij.le)
    · rfl
    · rw [h j hij] at hj
      cases hj

theorem lowestVacant_eq_some {i : Slot} (hi : s.coils[i].lifecycle = .vacant) (h : ∀ j, j < i → s.coils[j].lifecycle ≠ .vacant) :
    s.lowestVacant = some i :=
  find_finRange_lowest (by simpa using hi) fun j hj => by simpa using h j hj

theorem createOwner_notPermitted (h : ¬ s.Supervisor f.sender) : createOwner f s = refuse s .notPermitted :=
  if_pos (not_isSupervisor h)

/-- A CREATE with a unit and a kind is judged on its tag and on the room. -/
theorem createOwner_inRange {u : UnitNo} {kind : CoilKind} (h : s.Supervisor f.sender) (hu : unitOf (byteAt f.payload 2) = some u)
    (hk : coilKindOf (byteAt f.payload 3) = some kind) : createOwner f s =
      if wordAt f.payload 0 = 0 then refuse s .outOfRange
      else if s.tagHeld (wordAt f.payload 0) then refuse s .tagInUse
      else
        match s.lowestVacant with
        | none => refuse s .tableFull
        | some i => ((s.setCoil i (.draft (wordAt f.payload 0) u kind)).lifecycleChanged i, some (.done [byteOf i.val])) := by
  refine (if_neg (isSupervisor_passes h)).trans ?_
  rw [hu, hk] <;> rfl

theorem createOwner_outOfRange (h : s.Supervisor f.sender)
    (hr : ¬ (0 < wordAt f.payload 0 ∧ byteAt f.payload 2 ≤ 15 ∧ byteAt f.payload 3 ≤ 2)) :
    createOwner f s = refuse s .outOfRange := by
  by_cases h2 : byteAt f.payload 2 ≤ 15
  · by_cases h3 : byteAt f.payload 3 ≤ 2
    · obtain ⟨u, hu⟩ := unitOf_isSome h2
      obtain ⟨kind, hk⟩ := coilKindOf_isSome h3
      rw [createOwner_inRange h hu hk]
      exact if_pos (by omega)
    · refine (if_neg (isSupervisor_passes h)).trans ?_
      rw [coilKindOf_eq_none (not_le.1 h3)]
      cases unitOf (byteAt f.payload 2) <;> rfl
  · refine (if_neg (isSupervisor_passes h)).trans ?_
    rw [unitOf_eq_none (not_le.1 h2)]

section
variable (h : s.Supervisor f.sender) (h0 : 0 < wordAt f.payload 0)
include h h0

theorem createOwner_tagInUse (h2 : byteAt f.payload 2 ≤ 15) (h3 : byteAt f.payload 3 ≤ 2)
    (hh : ∃ j : Slot, s.coils[j].lifecycle ≠ .vacant ∧ s.coils[j].tag = wordAt f.payload 0) :
    createOwner f s = refuse s .tagInUse := by
  obtain ⟨u, hu⟩ := unitOf_isSome h2
  obtain ⟨kind, hk⟩ := coilKindOf_isSome h3
  rw [createOwner_inRange h hu hk, if_neg h0.ne', if_pos (tagHeld_iff.2 hh)]

theorem createOwner_tableFull (h2 : byteAt f.payload 2 ≤ 15) (h3 : byteAt f.payload 3 ≤ 2)
    (hh : ¬ ∃ j : Slot, s.coils[j].lifecycle ≠ .vacant ∧ s.coils[j].tag = wordAt f.payload 0)
    (hv : ∀ j : Slot, s.coils[j].lifecycle ≠ .vacant) : createOwner f s = refuse s .tableFull := by
  obtain ⟨u, hu⟩ := unitOf_isSome h2
  obtain ⟨kind, hk⟩ := coilKindOf_isSome h3
  rw [createOwner_inRange h hu hk, if_neg h0.ne', if_neg fun h => hh (tagHeld_iff.1 h), lowestVacant_eq_none hv]

theorem createOwner_creates {i : Slot} {u : UnitNo} {kind : CoilKind} (hu : byteAt f.payload 2 = u.val)
    (hk : byteAt f.payload 3 = kind.wire)
    (hh : ¬ ∃ j : Slot, s.coils[j].lifecycle ≠ .vacant ∧ s.coils[j].tag = wordAt f.payload 0)
    (hi : s.coils[i].lifecycle = .vacant) (hlow : ∀ j, j < i → s.coils[j].lifecycle ≠ .vacant) : createOwner f s =
      ((s.setCoil i (.draft (wordAt f.payload 0) u kind)).lifecycleChanged i, some (.done [byteOf i.val])) := by
  rw [createOwner_inRange h (hu ▸ unitOf_val u) (hk ▸ coilKindOf_wire kind), if_neg h0.ne',
    if_neg fun h => hh (tagHeld_iff.1 h), lowestVacant_eq_some hi hlow]

end

/-- Settles O20: the owner's checks in their order, and the DRAFT record of a CREATE that passes them. -/
theorem createMakesADraft : Obligations.CreateMakesADraft := by
  intro s f rest ht tag refused inRange held
  let t : State := { s with rx := rest }
  refine ⟨fun hs => ?_, fun hs hr => ?_, fun hs hr hh => ?_, fun hs hr hh hv => ?_, fun i u kind hs h0 hu hk hh hi hlow => ?_⟩
  · exact takeRequest_refuses ht (createOwner_notPermitted (s := t) hs)
  · exact takeRequest_refuses ht (createOwner_outOfRange (s := t) hs hr)
  · exact takeRequest_refuses ht (createOwner_tagInUse (s := t) hs hr.1 hr.2.1 hr.2.2 hh)
  · exact takeRequest_refuses ht (createOwner_tableFull (s := t) hs hr.1 hr.2.1 hr.2.2 hh hv)
  · have hc := takeRequest_answers ht (createOwner_creates (s := t) hs h0 hu hk hh hi hlow)
    exact congrArg Host.Outcome.next hc

/-! ### ARM (R13 to R15) -/

theorem ftRequired_iff (k : Option CoilKind) : ftRequired k = true ↔ k = some .hotWater ∨ k = some .steam := by
  rcases k with _ | _ | _ | _ <;> simp [ftRequired]

/-- What a complete record has (R13). -/
theorem isComplete_iff {c : Coil} : s.isComplete c = true ↔
    c.profile.isSome ∧ c.lat.isSome ∧ (c.kind = some .hotWater ∨ c.kind = some .steam → c.ft.isSome)
      ∧ s.units[c.unit].controller.isSome := by
  have hany (b : Option Binding) : (b.any fun _ => true) = b.isSome := by cases b <;> rfl
  simp only [State.isComplete, Coil.everyRequired, Bool.and_eq_true, Bool.or_eq_true, hany, Bool.not_eq_true',
    Bool.eq_false_iff, ne_eq, ftRequired_iff, and_assoc, imp_iff_not_or]

/-- The pairs that a record brings to the demand table (R14). -/
theorem pairsFit_iff {c : Coil} : s.pairsFit c = true ↔
    ((s.targetPairs c).filter fun k => (s.demands.find? fun e => e.key == k).isNone).length ≤ 64 - s.demands.length :=
  decide_eq_true_iff

section
variable {i : Slot} (hn : byteAt f.payload 0 = i.val)
include hn

theorem armOwner_notPermitted (hv : s.coils[i].lifecycle ≠ .vacant) (hp : ¬ s.Permitted f.sender i) :
    armOwner f s = refuse s .notPermitted := (withRecord_named hn hv _).trans (if_pos (not_mayEdit hp))

theorem armOwner_wrongState (hl : s.coils[i].lifecycle = .settling ∨ s.coils[i].lifecycle = .armed)
    (hp : s.Permitted f.sender i) : armOwner f s = refuse s .wrongState := by
  have hv : s.coils[i].lifecycle ≠ .vacant := fun h => by rcases hl with hl | hl <;> rw [h] at hl <;> cases hl
  refine (withRecord_named hn hv _).trans ((if_neg (mayEdit_passes hp)).trans (if_pos ?_))
  rcases hl with hl | hl <;> rw [hl] <;> decide

/-- An ARM of a DRAFT or SUSPENDED record is judged on completeness and on the room for its pairs. -/
theorem armOwner_judged (hp : s.Permitted f.sender i)
    (hl : s.coils[i].lifecycle = .draft ∨ s.coils[i].lifecycle = .suspended) : armOwner f s =
      if !s.isComplete s.coils[i] then refuse s .incomplete
      else if !s.pairsFit s.coils[i] then refuse s .demandTableFull
      else (s.arm i, some (.done [])) := by
  have hv : s.coils[i].lifecycle ≠ .vacant := fun h => by rcases hl with hl | hl <;> rw [h] at hl <;> cases hl
  refine (withRecord_named hn hv _).trans ((if_neg (mayEdit_passes hp)).trans (if_neg ?_))
  rcases hl with hl | hl <;> rw [hl] <;> decide

end

/-- Settles O21: an ARM that passes its checks makes its changes. -/
theorem armStartsSettling : Obligations.ArmStartsSettling := by
  intro s f rest i ht hn hp c hl hprofile hlat hft hu hroom
  let t : State := { s with rx := rest }
  have hc : t.isComplete t.coils[i] = true := isComplete_iff.2 ⟨hprofile, hlat, hft, hu⟩
  have hf : t.pairsFit t.coils[i] = true := pairsFit_iff.2 (Nat.le_sub_of_add_le hroom)
  have hj : armOwner f t = (t.arm i, some (.done [])) := by
    rw [armOwner_judged (s := t) hn hp hl, hc, hf]
    rfl
  exact congrArg Host.Outcome.next (takeRequest_answers ht hj)

/-! ### SUSPEND (R20, R21) -/

theorem maySuspend_iff {c : Coil} : c.maySuspend = true ↔
    c.lifecycle = .armed ∧ (c.stage = .clear ∨ c.stage = .watch) ∨ c.lifecycle = .settling ∧ c.latch = .none := by
  simp [Coil.maySuspend]

theorem maySuspend_not_vacant {c : Coil} (h : c.maySuspend = true) : c.lifecycle ≠ .vacant := by
  intro hv
  rcases maySuspend_iff.1 h with ⟨hl, _⟩ | ⟨hl, _⟩ <;> rw [hv] at hl <;> cases hl

/-- Settles O22: a SUSPEND that passes its checks makes its changes. -/
theorem suspendTakesOutOfProtection : Obligations.SuspendTakesOutOfProtection := by
  intro s f rest i ht hn hp c hl
  let t : State := { s with rx := rest }
  have hm : t.coils[i].maySuspend = true := maySuspend_iff.2 hl
  have hj : suspendOwner f t = (t.suspend i, some (.done [])) := by
    refine (withRecord_named hn (maySuspend_not_vacant hm) _).trans ((if_neg (mayEdit_passes (s := t) hp)).trans (if_neg ?_))
    rw [hm]
    decide
  exact congrArg Host.Outcome.next (takeRequest_answers ht hj)

/-! ### RETIRE (R22, R23) -/

/-- A RETIRE of a non-vacant record is judged on its state and on its outstanding write. -/
theorem retireOwner_judged {i : Slot} (hn : byteAt f.payload 0 = i.val) (hs : s.Supervisor f.sender)
    (hv : s.coils[i].lifecycle ≠ .vacant) : retireOwner f s =
      if s.coils[i].lifecycle ≠ .draft ∧ s.coils[i].lifecycle ≠ .suspended then refuse s .wrongState
      else if s.coils[i].writeInFlight then refuse s .writing
      else (s.retire i, some (.done [])) :=
  (if_neg (isSupervisor_passes hs)).trans (withRecord_named hn hv _)

/-- The claims that a RETIRE leaves: those on other records (R23, R156). -/
theorem cancelClaim_claim (s : State) (i : Slot) (n : ClaimNo) :
    (s.cancelClaim i).claims[n] = if (s.claims[n].any fun d => d.slot == i) then none else s.claims[n] := by
  have hget : (s.cancelClaim i).claims[n] = s.claims[n].filter fun c => c.slot != i := tableMap_get _ _ _
  rw [hget]
  cases s.claims[n] with
  | none => rfl
  | some d => by_cases h : d.slot = i <;> simp [h]

theorem retire_eq (s : State) (i : Slot) : s.retire i =
    (((s.cancelClaim i).changeRefs { gives := s.coils[i].keys, takes := [] }).setCoil i
      (.vacant s.coils[i].unit)).lifecycleChanged i := by
  unfold State.retire
  dsimp only
  rw [changeRefs_coils]
  rfl

/-- Settles O23: a RETIRE that passes its checks makes its changes. -/
theorem retireEmptiesTheSlot : Obligations.RetireEmptiesTheSlot := by
  intro s f rest i ht hn hs c hl hw
  let t : State := { s with rx := rest }
  have hv : t.coils[i].lifecycle ≠ .vacant := fun h => by
    have h : c.lifecycle = .vacant := h
    rcases hl with hl | hl <;> rw [h] at hl <;> cases hl
  have hst : ¬ (t.coils[i].lifecycle ≠ .draft ∧ t.coils[i].lifecycle ≠ .suspended) := fun h => hl.elim h.1 h.2
  have hfl : ¬ t.coils[i].writeInFlight = true := by
    rw [show t.coils[i].writeInFlight = false from hw]
    decide
  have hj : retireOwner f t = ((((t.cancelClaim i).changeRefs { gives := t.coils[i].keys, takes := [] }).setCoil i
      (.vacant t.coils[i].unit)).lifecycleChanged i, some (.done [])) := by
    rw [retireOwner_judged (s := t) hn hs hv, if_neg hst, if_neg hfl, retire_eq]
  exact ⟨(s.cancelClaim i).claims, cancelClaim_claim s i, congrArg Host.Outcome.next (takeRequest_answers ht hj)⟩

/-! ### Refusals in their order (R10) -/

theorem suspendOwner_wrongState {i : Slot} (hn : byteAt f.payload 0 = i.val) (hv : s.coils[i].lifecycle ≠ .vacant)
    (hp : s.Permitted f.sender i)
    (hl : ¬ (s.coils[i].lifecycle = .armed ∧ (s.coils[i].stage = .clear ∨ s.coils[i].stage = .watch)
      ∨ s.coils[i].lifecycle = .settling ∧ s.coils[i].latch = .none)) : suspendOwner f s = refuse s .wrongState := by
  refine (withRecord_named hn hv _).trans ((if_neg (mayEdit_passes hp)).trans (if_pos ?_))
  rw [Bool.not_eq_true', Bool.eq_false_iff, ne_eq, maySuspend_iff]
  exact hl

theorem restartOwner_wrongState {i : Slot} (hn : byteAt f.payload 0 = i.val) (hv : s.coils[i].lifecycle ≠ .vacant)
    (hp : s.Permitted f.sender i) (hl : ¬ (s.coils[i].lifecycle = .armed ∧ s.coils[i].stage = .trip)) :
    restartOwner f s = refuse s .wrongState :=
  (withRecord_named hn hv _).trans ((if_neg (mayEdit_passes hp)).trans (if_pos (not_and_or.1 hl)))

theorem releaseLockoutOwner_wrongState {i : Slot} (hn : byteAt f.payload 0 = i.val) (hs : s.Supervisor f.sender)
    (hv : s.coils[i].lifecycle ≠ .vacant) (hl : ¬ (s.coils[i].lifecycle = .armed ∧ s.coils[i].stage = .lockout)) :
    releaseLockoutOwner f s = refuse s .wrongState :=
  (if_neg (isSupervisor_passes hs)).trans ((withRecord_named hn hv _).trans (if_pos (not_and_or.1 hl)))

/-- A request that judges its slot, and then its sender on the slot's record: the first three refusals (R13, R20, R80, R141). -/
theorem slotThenPermission {k : State → Slot → Handled}
    (ho : ∀ s, owner f s = withRecord s (byteAt f.payload 0) fun i =>
      if !s.mayEdit f.sender i then refuse s .notPermitted else k s i) (s : State) :
    (47 < byteAt f.payload 0 → owner f s = refuse s .outOfRange)
    ∧ ∀ i : Slot, byteAt f.payload 0 = i.val →
      (s.coils[i].lifecycle = .vacant → owner f s = refuse s .noRecord)
      ∧ (s.coils[i].lifecycle ≠ .vacant ∧ ¬ s.Permitted f.sender i → owner f s = refuse s .notPermitted) :=
  ⟨fun h => (ho s).trans (withRecord_outOfRange h _), fun _ hn => ⟨fun hv => (ho s).trans (withRecord_vacant hn hv _),
    fun ⟨hv, hp⟩ => ((ho s).trans (withRecord_named hn hv _)).trans (if_pos (not_mayEdit hp))⟩⟩

/-- A request that judges its sender, and then its slot: the first three refusals (R22, R82). -/
theorem permissionThenSlot {k : State → Slot → Handled}
    (ho : ∀ s, owner f s = if !s.isSupervisor f.sender then refuse s .notPermitted
      else withRecord s (byteAt f.payload 0) fun i => k s i) (s : State) :
    (¬ s.Supervisor f.sender → owner f s = refuse s .notPermitted)
    ∧ (s.Supervisor f.sender → 47 < byteAt f.payload 0 → owner f s = refuse s .outOfRange)
    ∧ (s.Supervisor f.sender → ∀ i : Slot, byteAt f.payload 0 = i.val → s.coils[i].lifecycle = .vacant →
        owner f s = refuse s .noRecord) :=
  ⟨fun hs => (ho s).trans (if_pos (not_isSupervisor hs)),
    fun hs h => ((ho s).trans (if_neg (isSupervisor_passes hs))).trans (withRecord_outOfRange h _),
    fun hs _ hn hv => ((ho s).trans (if_neg (isSupervisor_passes hs))).trans (withRecord_vacant hn hv _)⟩

section
variable {i : Slot} (hn : byteAt f.payload 0 = i.val)
include hn

theorem armOwner_incomplete (hp : s.Permitted f.sender i)
    (hl : s.coils[i].lifecycle = .draft ∨ s.coils[i].lifecycle = .suspended) (hc : ¬ s.isComplete s.coils[i] = true) :
    armOwner f s = refuse s .incomplete := by
  rw [armOwner_judged hn hp hl, if_pos (by simpa [-Fin.getElem_fin] using hc)]

theorem armOwner_demandTableFull (hp : s.Permitted f.sender i)
    (hl : s.coils[i].lifecycle = .draft ∨ s.coils[i].lifecycle = .suspended) (hc : s.isComplete s.coils[i] = true)
    (hf : ¬ s.pairsFit s.coils[i] = true) : armOwner f s = refuse s .demandTableFull := by
  rw [armOwner_judged hn hp hl, hc, if_neg (by decide), if_pos (by simpa [-Fin.getElem_fin] using hf)]

theorem retireOwner_wrongState (hs : s.Supervisor f.sender) (hv : s.coils[i].lifecycle ≠ .vacant)
    (hl : s.coils[i].lifecycle = .settling ∨ s.coils[i].lifecycle = .armed) : retireOwner f s = refuse s .wrongState := by
  rw [retireOwner_judged hn hs hv, if_pos]
  rcases hl with hl | hl <;> rw [hl] <;> decide

theorem retireOwner_writing (hs : s.Supervisor f.sender)
    (hl : s.coils[i].lifecycle = .draft ∨ s.coils[i].lifecycle = .suspended) (hw : s.coils[i].writeInFlight = true) :
    retireOwner f s = refuse s .writing := by
  have hv : s.coils[i].lifecycle ≠ .vacant := fun h => by rcases hl with hl | hl <;> rw [h] at hl <;> cases hl
  rw [retireOwner_judged hn hs hv, if_neg fun h => hl.elim h.1 h.2, if_pos hw]

end

/-- Settles O26: for each function the shared refusals of its kind, and then those that its own owner gives. -/
theorem slotRequestsAreRefusedInOrder : Obligations.SlotRequestsAreRefusedInOrder := by
  intro fn s f rest ht n refused
  let t : State := { s with rx := rest }
  refine ⟨fun hfn => ?_, fun hfn => ?_⟩
  · have ordered {owner : RxFrame → State → Handled} (hx : exec fn.command s = .next (takeRequest fn owner s))
        (k : State → Slot → Handled)
        (ho : ∀ s, owner f s = withRecord s (byteAt f.payload 0) fun i =>
          if !s.mayEdit f.sender i then refuse s .notPermitted else k s i) :
        (47 < n → refused .outOfRange) ∧ ∀ i : Slot, n = i.val →
          (s.coils[i].lifecycle = .vacant → refused .noRecord)
          ∧ (s.coils[i].lifecycle ≠ .vacant ∧ ¬ s.Permitted f.sender i → refused .notPermitted) := by
      obtain ⟨h1, h2⟩ := slotThenPermission ho t
      exact ⟨fun h => hx.trans (takeRequest_refuses ht (h1 h)), fun i hn =>
        ⟨fun h => hx.trans (takeRequest_refuses ht ((h2 i hn).1 h)), fun h => hx.trans (takeRequest_refuses ht ((h2 i hn).2 h))⟩⟩
    simp only [List.mem_cons, List.not_mem_nil, or_false] at hfn
    rcases hfn with rfl | rfl | rfl | rfl
    · obtain ⟨h1, h2⟩ := ordered (owner := armOwner) rfl _ fun _ => rfl
      refine ⟨h1, fun i hn => ⟨(h2 i hn).1, (h2 i hn).2, fun ⟨hv, hp⟩ h => ?_, fun hp _ hl => ⟨fun hc => ?_, fun hc hroom hle => ?_⟩⟩⟩
      · rcases h with ⟨-, hl⟩ | ⟨h, -⟩ | ⟨h, -⟩
        · exact takeRequest_refuses ht (armOwner_wrongState (s := t) hn hl hp)
        · cases h
        · cases h
      · exact takeRequest_refuses ht (armOwner_incomplete (s := t) hn hp hl fun h => hc (isComplete_iff.1 h))
      · refine takeRequest_refuses ht (armOwner_demandTableFull (s := t) hn hp hl (isComplete_iff.2 hc) fun h => ?_)
        have hfit := pairsFit_iff.1 h
        exact absurd hroom (not_lt.2 (Nat.add_le_of_le_sub hle hfit))
    · obtain ⟨h1, h2⟩ := ordered (owner := suspendOwner) rfl _ fun _ => rfl
      refine ⟨h1, fun i hn => ⟨(h2 i hn).1, (h2 i hn).2, fun ⟨hv, hp⟩ h => ?_, fun _ h => by cases h⟩⟩
      rcases h with ⟨h, -⟩ | ⟨-, hl⟩ | ⟨h, -⟩
      · cases h
      · exact takeRequest_refuses ht (suspendOwner_wrongState (s := t) hn hv hp hl)
      · cases h
    · obtain ⟨h1, h2⟩ := ordered (owner := restartOwner) rfl _ fun _ => rfl
      refine ⟨h1, fun i hn => ⟨(h2 i hn).1, (h2 i hn).2, fun ⟨hv, hp⟩ h => ?_, fun _ h => by cases h⟩⟩
      rcases h with ⟨h, -⟩ | ⟨h, -⟩ | ⟨-, hl⟩
      · cases h
      · cases h
      · exact takeRequest_refuses ht (restartOwner_wrongState (s := t) hn hv hp hl)
    · obtain ⟨h1, h2⟩ := ordered (owner := claimOwner) rfl _ fun _ => rfl
      refine ⟨h1, fun i hn => ⟨(h2 i hn).1, (h2 i hn).2, fun _ h => ?_, fun _ h => by cases h⟩⟩
      rcases h with ⟨h, -⟩ | ⟨h, -⟩ | ⟨h, -⟩ <;> cases h
  · simp only [List.mem_cons, List.not_mem_nil, or_false] at hfn
    rcases hfn with rfl | rfl
    · obtain ⟨h1, h2, h3⟩ := permissionThenSlot (owner := retireOwner) (f := f) (fun _ => rfl) t
      refine ⟨fun hs => takeRequest_refuses ht (h1 hs), fun hs => ⟨fun h => takeRequest_refuses ht (h2 hs h), fun i hn =>
        ⟨fun hv => takeRequest_refuses ht (h3 hs i hn hv), fun hv h => ?_, fun _ hl hw => ?_⟩⟩⟩
      · rcases h with ⟨-, hl⟩ | ⟨h, -⟩
        · exact takeRequest_refuses ht (retireOwner_wrongState (s := t) hn hs hv hl)
        · cases h
      · exact takeRequest_refuses ht (retireOwner_writing (s := t) hn hs hl hw)
    · obtain ⟨h1, h2, h3⟩ := permissionThenSlot (owner := releaseLockoutOwner) (f := f) (fun _ => rfl) t
      refine ⟨fun hs => takeRequest_refuses ht (h1 hs), fun hs => ⟨fun h => takeRequest_refuses ht (h2 hs h), fun i hn =>
        ⟨fun hv => takeRequest_refuses ht (h3 hs i hn hv), fun hv h => ?_, fun h => by cases h⟩⟩⟩
      rcases h with ⟨h, -⟩ | ⟨-, hl⟩
      · cases h
      · exact takeRequest_refuses ht (releaseLockoutOwner_wrongState (s := t) hn hs hv hl)

end Sys2Proof.Machine
end

