-- ==== Sys2Proof/Proofs/StoreWrites.lean ====
section
/-! The store's writes: what a write begins with, and what its completion leaves (R188, R189). -/

namespace Sys2Proof.Machine

variable {s : State}

theorem storeReady_iff : s.storeReady = true ↔ s.power = .running ∧ s.writing = none ∧ s.restartPending = false := by
  simp [State.storeReady, and_assoc]

theorem beginWrite_stays (h : s.storeQueue = [] ∨ s.power ≠ .running ∨ s.writing ≠ none ∨ s.restartPending = true) :
    s.beginWrite = s := by
  unfold State.beginWrite
  split
  · rfl
  next hq =>
    rw [if_neg]
    rw [storeReady_iff]
    rintro ⟨hp, hw, hr⟩
    rcases h with h | h | h | h
    · rw [hq] at h; cases h
    · exact h hp
    · exact h hw
    · rw [hr] at h; cases h

theorem beginWrite_begins {it : Item} {rest : List Item} (hq : s.storeQueue = it :: rest) (hp : s.power = .running)
    (hw : s.writing = none) (hr : s.restartPending = false) : s.beginWrite =
      { s with
        storeQueue := rest
        writing := some { content := s.contentOf it, carries := s.carriesCommit it, requeue := false } } := by
  unfold State.beginWrite
  rw [hq]
  exact if_pos (storeReady_iff.2 ⟨hp, hw, hr⟩)

/-- The content of a non-vacant record's coil item: the record with the lifecycle that is stored for its own (R24). -/
theorem coil_item {c : Coil} {l : StoredLifecycle} (h : storedLifecycle c.lifecycle = some l) :
    c.item = .record ⟨c.tag, c.unit, c.kind, c.lat, c.ft, c.profile, l, c.latch⟩ := by
  unfold Coil.item
  rw [h]

theorem coil_item_vacant {c : Coil} (h : c.lifecycle = .vacant) : c.item = .erased := by
  unfold Coil.item
  rw [h]
  rfl

/-- The only claim on a slot is the COMMITTED one that is found there. -/
theorem committedClaim_eq {i : Slot} {m : ClaimNo} {c : Claim} {b : Bool} (hm : s.claims[m] = some c) (hi : c.slot = i)
    (hs : c.state = .committed b) (hu : ∀ (n : ClaimNo) (d : Claim), s.claims[n] = some d → d.slot = i → n = m) :
    s.committedClaim i = some (m, c, b) := by
  unfold State.committedClaim
  cases hf : (List.finRange 4).findSome? _ with
  | none =>
    have hn := List.findSome?_eq_none_iff.1 hf m (List.mem_finRange m)
    simp only [hm, hs, if_pos hi, reduceCtorEq] at hn
  | some x =>
    obtain ⟨n, -, hn⟩ := List.exists_of_findSome?_eq_some hf
    split at hn
    next d hd =>
      split at hn
      next b' hb =>
        split_ifs at hn with hslot
        obtain rfl := hu n d hd hslot
        obtain rfl := Option.some.inj (hm.symm.trans hd)
        rw [hs] at hb
        cases hb
        exact hn.symm ▸ rfl
      · cases hn
    · cases hn

/-- A write that carries no commit is handed to no claim. -/
theorem carriedClaim_none {w : Write} (h : w.carries = false) : s.carriedClaim w = none := by
  unfold State.carriedClaim
  rw [h]
  rfl

theorem carriedClaim_coil {w : Write} {n : Slot} {x : CoilItem} (h : w.carries = true) (hw : w.content = .coil n x) :
    s.carriedClaim w = s.committedClaim n := by
  unfold State.carriedClaim
  rw [h, hw]
  rfl

theorem completeWrite_writes {w : Write} (success : Bool) (h : s.writing = some w) : s.completeWrite success =
    ((({ s with writing := none } : State).writeResult w success).requeueAfter w).handOff w success := by
  unfold State.completeWrite
  rw [h]

theorem completeWrite_idle (success : Bool) (h : s.writing = none) : s.completeWrite success = s := by
  unfold State.completeWrite
  rw [h]

/-- Settles O53: a write begins with its item's live content where the store is ready, and a completion leaves what
`writeCompleted_fields` says. -/
theorem storeWritesBeginAndEnd : Obligations.StoreWritesBeginAndEnd := by
  intro s begins
  have begins_of (it : Item) (rest : List Item) (w : Write) (hw : w = ⟨s.contentOf it, s.carriesCommit it, false⟩) :
      begins it rest w := fun hq hp hn hr => by
    subst hw
    exact congrArg Host.Outcome.next (beginWrite_begins hq hp hn hr)
  refine ⟨fun h => congrArg Host.Outcome.next (beginWrite_stays h), fun rest => begins_of _ rest _ rfl,
    fun n rest => begins_of _ rest _ rfl, fun n rest => ?_, fun success => ⟨fun hw => ?_, fun w hw => ?_⟩⟩
  · have coil_of (x : CoilItem) (hx : x = s.coils[n].item) : begins (.coil n) rest ⟨.coil n x, s.coils[n].writeInFlight, false⟩ :=
      begins_of _ rest _ (by subst hx; rfl)
    refine ⟨fun h => coil_of _ (coil_item_vacant h).symm, fun h => coil_of _ (coil_item ?_).symm,
      fun h => coil_of _ (coil_item ?_).symm, fun h => coil_of _ (coil_item ?_).symm⟩
    · rw [h]; rfl
    · rw [h]; rfl
    · rcases h with h | h <;> rw [h] <;> rfl
  · exact congrArg Host.Outcome.next (completeWrite_idle success hw)
  · obtain ⟨coils, st, us, cl, an, df, he, hcoils, hst, hus, hnone, hsome⟩ := writeCompleted_fields s w success
    have hc := (completeWrite_writes success hw).trans he
    refine ⟨_, congrArg Host.Outcome.next hc, rfl, rfl, rfl, fun h => ?_, fun c h hx => ?_, fun n c h hx => ?_, fun n c h hx => ?_,
      hst, hus, hcoils, fun h => hnone (carriedClaim_none h), fun n x m c clamped h hx hm hslot hstate hu => ?_⟩
    · subst h; rfl
    · subst h; rw [hx]; rfl
    · subst h; rw [hx]; rfl
    · subst h; rw [hx]; rfl
    · exact hsome m c clamped ((carriedClaim_coil h hx).trans (committedClaim_eq hm hslot hstate hu))

end Sys2Proof.Machine
end

