-- ==== Sys2Proof/Proofs/Settling.lean ====
section
/-! A report completes the settling of the records that it proves, and of no other (R17, R18, R38). -/

namespace Sys2Proof.Machine

variable {s t : State} {f : RxFrame} {rest : List RxFrame}

/-! ### Loops over the slots, slot by slot -/

/-- What holds before the first slot, and is carried over each slot, holds after the last. -/
theorem forSlots_upTo {P : Nat → State → Prop} {f : Slot → State → State} (step : ∀ (i : Slot) t, P i.val t → P (i.val + 1) (f i t))
    (hs : P 0 s) : P 48 (forSlots f s) := by
  have upTo (n : Nat) (hn : n ≤ 48) : P n (((List.finRange 48).take n).foldl (fun s i => f i s) s) := by
    induction n with
    | zero => exact hs
    | succ n ih =>
      have hlen : n < (List.finRange 48).length := by rw [List.length_finRange]; omega
      rw [List.take_add_one, List.getElem?_eq_getElem hlen, Option.toList_some, List.foldl_append, List.foldl_cons, List.foldl_nil,
        List.getElem_finRange]
      exact step ⟨n, hn⟩ _ (ih (by omega))
  have h := upTo 48 le_rfl
  rwa [List.take_of_length_le (by rw [List.length_finRange])] at h

/-! ### One record that enters ARMED -/

theorem latch_stage_clear (l : Latch) : l.stage = .clear ↔ l = .none := by cases l <;> simp [Latch.stage]

/-- A record that enters ARMED sets its notice flag, and marks a current notice of its slot (R9, R173). -/
theorem enterArmed_notice (s : State) (i : Slot) : (s.enterArmed i).noticeFlags = tablePut s.noticeFlags i true
    ∧ (s.enterArmed i).notice = s.notice.map fun n => if n.slot = i then { n with setAgain := true } else n := by
  unfold State.enterArmed
  dsimp only
  split_ifs <;> exact ⟨rfl, rfl⟩

/-- A record that enters ARMED in TRIP or LOCKOUT adds TRIP to its unit's fault summary (R18). -/
theorem enterArmed_trip (s : State) (i : Slot) (u : UnitNo) : (s.enterArmed i).units[u].faults.trip = true ↔
    s.units[u].faults.trip = true ∨ s.coils[i].unit = u ∧ s.coils[i].latch ≠ .none := by
  have hfso (t : State) (v : UnitNo) : ((t.recomputeFso v).setNotice i).units[u].faults = t.units[u].faults := by
    rw [setNotice_units, recomputeFso_units, tablePut_get]
    split_ifs with h
    · rw [h]
    · rfl
  unfold State.enterArmed
  dsimp only
  rw [hfso]
  split_ifs with h
  · have hl := (latch_stage_clear _).1 h
    exact ⟨.inl, fun h => h.elim id fun h => absurd hl h.2⟩
  · have hl : s.coils[i].latch ≠ .none := fun hl => h ((latch_stage_clear _).2 hl)
    rw [addFault_unit]
    split_ifs with hu
    · exact ⟨fun _ => .inr ⟨hu.symm, hl⟩, fun _ => rfl⟩
    · exact ⟨.inl, fun h => h.elim id fun h => absurd h.1.symm hu⟩

/-! ### The settling tests -/

/-- A record whose settling a report for a key completes (R17, R38). -/
abbrev State.Settles (s : State) (k : PointKey) (c : Coil) : Prop := c.lifecycle = .settling ∧ c.binds k = true ∧ s.settled c = true

/-- The settling tests have come to slot `n`: they have completed the settling of the records below that settle, and left the rest. -/
structure State.SettledBelow (s : State) (k : PointKey) (n : Nat) (t : State) : Prop where
  apart : t.apart = s.apart
  ahead : ∀ j : Slot, n ≤ j.val → t.coils[j] = s.coils[j]
  trips : ∀ u : UnitNo, t.units[u].faults.trip = true ↔ s.units[u].faults.trip = true
    ∨ ∃ j : Slot, j.val < n ∧ s.coils[j].unit = u ∧ s.Settles k s.coils[j] ∧ s.coils[j].latch ≠ .none
  flags : ∀ j : Slot, t.noticeFlags[j] = if j.val < n ∧ s.Settles k s.coils[j] then true else s.noticeFlags[j]
  notice : t.notice = s.notice.map fun m =>
    if m.slot.val < n ∧ s.Settles k s.coils[m.slot] then { m with setAgain := true } else m

theorem settledBelow_zero (s : State) (k : PointKey) : s.SettledBelow k 0 s where
  apart := rfl
  ahead _ _ := rfl
  trips u := by simp
  flags j := by simp
  notice := by simp

/-- The test passes over a slot whose record does not settle. -/
theorem State.SettledBelow.skip {k : PointKey} {i : Slot} (h : s.SettledBelow k i.val t) (hn : ¬ s.Settles k s.coils[i]) :
    s.SettledBelow k (i.val + 1) t := by
  have below (j : Slot) : j.val < i.val ∧ s.Settles k s.coils[j] ↔ j.val < i.val + 1 ∧ s.Settles k s.coils[j] := by
    refine and_congr_left fun hj => ⟨fun h => by omega, fun h => ?_⟩
    have hne : j ≠ i := by rintro rfl; exact hn hj
    have := Fin.val_ne_of_ne hne
    omega
  refine ⟨h.apart, fun j hj => h.ahead j (by omega), fun u => ?_, fun j => ?_, ?_⟩
  · rw [h.trips u]
    refine or_congr_right (exists_congr fun j => ⟨?_, ?_⟩)
    · rintro ⟨hj, hu, hs, hl⟩
      exact ⟨((below j).1 ⟨hj, hs⟩).1, hu, hs, hl⟩
    · rintro ⟨hj, hu, hs, hl⟩
      exact ⟨((below j).2 ⟨hj, hs⟩).1, hu, hs, hl⟩
  · rw [h.flags j]
    exact if_congr (below j) rfl rfl
  · rw [h.notice]
    exact congrArg (fun g => s.notice.map g) (funext fun m => if_congr (below m.slot) rfl rfl)

/-- The test completes the settling of a slot's record. -/
theorem State.SettledBelow.complete {k : PointKey} {i : Slot} (h : s.SettledBelow k i.val t) (hc : s.Settles k s.coils[i]) :
    s.SettledBelow k (i.val + 1) (t.enterArmed i) where
  apart := (enterArmed_apart t i).trans h.apart
  ahead j hj := by
    rw [enterArmed_coils, tablePut_get, if_neg (by rintro rfl; omega)]
    exact h.ahead j (by omega)
  trips u := by
    rw [enterArmed_trip, h.trips u, h.ahead i le_rfl]
    constructor
    · rintro ((h | ⟨j, hj, h⟩) | ⟨hu, hl⟩)
      · exact .inl h
      · exact .inr ⟨j, by omega, h⟩
      · exact .inr ⟨i, by omega, hu, hc, hl⟩
    · rintro (h | ⟨j, hj, hu, hs, hl⟩)
      · exact .inl (.inl h)
      · by_cases hji : j = i
        · subst hji; exact .inr ⟨hu, hl⟩
        · have := Fin.val_ne_of_ne hji
          exact .inl (.inr ⟨j, by omega, hu, hs, hl⟩)
  flags j := by
    rw [(enterArmed_notice t i).1, tablePut_get, h.flags j]
    by_cases hji : j = i
    · subst hji; rw [if_pos rfl, if_pos ⟨by omega, hc⟩]
    · have := Fin.val_ne_of_ne hji
      rw [if_neg hji]
      exact if_congr (and_congr_left fun _ => by omega) rfl rfl
  notice := by
    rw [(enterArmed_notice t i).2, h.notice, Option.map_map]
    refine congrArg (fun g => s.notice.map g) (funext fun m => ?_)
    have settles (j : Slot) (hj : j = i) : s.Settles k s.coils[j] := by subst hj; exact hc
    rw [Function.comp_apply]
    by_cases hmi : m.slot = i
    · have hval : m.slot.val = i.val := congrArg Fin.val hmi
      have hnot : ¬ (m.slot.val < i.val ∧ s.Settles k s.coils[m.slot]) := fun h => absurd h.1 (by omega)
      rw [if_neg hnot, if_pos hmi, if_pos ⟨by omega, settles _ hmi⟩]
    · have hval := Fin.val_ne_of_ne hmi
      have hslot : (if m.slot.val < i.val ∧ s.Settles k s.coils[m.slot] then { m with setAgain := true } else m).slot = m.slot := by
        split_ifs <;> rfl
      rw [if_neg fun h => hmi (hslot.symm.trans h)]
      exact if_congr (and_congr_left fun _ => by omega) rfl rfl

theorem settlingTests_settledBelow (s : State) (k : PointKey) : s.SettledBelow k 48 (s.settlingTests k) := by
  refine forSlots_upTo (P := fun n t => s.SettledBelow k n t) (fun i t h => ?_) (settledBelow_zero s k)
  have hset : t.settled = s.settled := by
    funext c
    simp only [State.settled, points_of_apart h.apart]
  rw [h.ahead i le_rfl, hset]
  split_ifs with hc
  · exact h.complete hc
  · exact h.skip hc

/-! ### A report -/

theorem everyRequired_iff {c : Coil} {p : Binding → Bool} : c.everyRequired p = true ↔
    (∃ b, c.lat = some b ∧ p b = true)
      ∧ (c.kind = some .hotWater ∨ c.kind = some .steam → ∃ b, c.ft = some b ∧ p b = true) := by
  simp only [Coil.everyRequired, Bool.and_eq_true, Bool.or_eq_true, Option.any_eq_true, Bool.not_eq_true', Bool.eq_false_iff,
    ne_eq, ftRequired_iff, imp_iff_not_or]

/-- A record binds a key in one of its two positions. -/
theorem binds_iff {c : Coil} {k : PointKey} : c.binds k = true ↔
    c.lifecycle ≠ .vacant ∧ ((∃ b, c.lat = some b ∧ b.key = k) ∨ ∃ b, c.ft = some b ∧ b.key = k) := by
  simp [Coil.binds, Option.any_eq_true]

/-- What the statements call completing: SETTLING, bound to the key, and every required binding FRESH with a streak of 3. -/
theorem settles_iff {k : PointKey} {c : Coil} : s.Settles k c ↔
    c.lifecycle = .settling
      ∧ ((∃ b, c.lat = some b ∧ b.key = k) ∨ ∃ b, c.ft = some b ∧ b.key = k)
      ∧ (∃ b, c.lat = some b ∧ ∃ d, entryOf s.points b.key = some d ∧ d.quality = .fresh ∧ d.streak = 3)
      ∧ (c.kind = some .hotWater ∨ c.kind = some .steam →
          ∃ b, c.ft = some b ∧ ∃ d, entryOf s.points b.key = some d ∧ d.quality = .fresh ∧ d.streak = 3) := by
  unfold State.Settles State.settled
  rw [binds_iff, everyRequired_iff]
  simp only [Option.any_eq_true, Bool.and_eq_true, beq_iff_eq]
  exact ⟨fun ⟨hl, hb, hs⟩ => ⟨hl, hb.2, hs⟩, fun ⟨hl, hb, hs⟩ => ⟨hl, ⟨by rw [hl]; decide, hb⟩, hs⟩⟩

/-- The record as the statements say it enters ARMED (R18, R64). -/
theorem enterArmed_eq (c : Coil) (now : Nat) : c.enterArmed now =
    { c with
      lifecycle := .armed
      stage := match c.latch with
        | .none => .clear
        | .trip _ => .trip
        | .lockout => .lockout
      tripCount := match c.latch with
        | .none => 0
        | .trip n => n.val
        | .lockout => 3
      cause := .none
      settleTimer := none
      settleOverdue := false
      evalTimer := some (now + 2000)
      cleanTimer := if c.latch = .none then some (now + 3600000) else none
      last := none } := by
  unfold Coil.enterArmed cleanTimerIn
  cases c.latch <;> rfl

/-- The gap that a good report may show reaches fault summaries alone, and there no TRIP (R37). -/
theorem sequenceGap_fields (p : Prop) [Decidable p] (s : State) (q : UnitNo → Bool) : ∃ units,
    (if p then s else s.addFaultWhere .sequenceGap q) = { s with units := units }
    ∧ ∀ u : UnitNo, units[u].faults.trip = s.units[u].faults.trip := by
  have hw : s.addFaultWhere .sequenceGap q = { s with units := (s.addFaultWhere .sequenceGap q).units }
      ∧ ∀ u : UnitNo, (s.addFaultWhere .sequenceGap q).units[u].faults.trip = s.units[u].faults.trip := by
    refine forUnits_keeps_prop (P := fun t => t = { s with units := t.units }
      ∧ ∀ u : UnitNo, t.units[u].faults.trip = s.units[u].faults.trip) (fun v t ht => ?_) s ⟨rfl, fun _ => rfl⟩
    split_ifs
    · obtain ⟨he, htrip⟩ := ht
      refine ⟨congrArg (fun x : State => x.addFault v .sequenceGap) he, fun u => ?_⟩
      rw [addFault_unit]
      split_ifs
      · exact htrip u
      · exact htrip u
    · exact ht
  split_ifs
  · exact ⟨s.units, rfl, fun _ => rfl⟩
  · exact ⟨_, hw⟩

/-- A report that its entry takes leaves what the settling tests leave, on the records, flags and TRIP bits of the state that the
frame has left; what the Regime Monitor and the event's end add touches none of these (R35 to R38). -/
theorem takeReading_settles (s : State) (i : Fin 96) (e : PointEntry) (r : Reading) (h : e.lastSeq ≠ some r.seq) :
    ∃ v w : State, v.coils = s.coils ∧ v.now = s.now ∧ v.noticeFlags = s.noticeFlags ∧ v.notice = s.notice
      ∧ (∀ u : UnitNo, v.units[u].faults.trip = s.units[u].faults.trip)
      ∧ (w.coils = (v.settlingTests e.key).coils ∧ w.units = (v.settlingTests e.key).units
        ∧ w.points = (v.settlingTests e.key).points ∧ w.noticeFlags = (v.settlingTests e.key).noticeFlags
        ∧ w.notice = (v.settlingTests e.key).notice)
      ∧ s.takeReading i e r = w.endEvent := by
  have monitor {t w : State} (h : ∃ average regime, w = { t with average := average, regime := regime }) :
      w.coils = t.coils ∧ w.units = t.units ∧ w.points = t.points ∧ w.noticeFlags = t.noticeFlags ∧ w.notice = t.notice := by
    obtain ⟨_, _, rfl⟩ := h
    exact ⟨rfl, rfl, rfl, rfl, rfl⟩
  unfold State.takeReading
  rw [if_neg h]
  split_ifs
  · unfold State.takeFaultReport
    exact ⟨{ s with points := tablePut s.points i (some (e.takeFault r)) }, _, rfl, rfl, rfl, rfl, fun _ => rfl, monitor (fallBack_if _ _), rfl⟩
  · unfold State.takeGoodReport
    dsimp only
    obtain ⟨units, he, htrip⟩ := sequenceGap_fields (e.inStep r.seq = true)
      { s with points := tablePut s.points i (some (e.takeGood r)) }
      (({ s with points := tablePut s.points i (some (e.takeGood r)) } : State).unitBinds e.key)
    rw [he]
    exact ⟨{ s with points := tablePut s.points i (some (e.takeGood r)), units := units }, _, rfl, rfl, rfl, rfl, htrip,
      monitor (outdoorReport_if _ _ _), rfl⟩

/-- The end of an event leaves a current notice (R171). -/
theorem endEvent_notice_some {n : NoticeOffer} (h : s.notice = some n) : s.endEvent.notice = some n := by
  unfold State.endEvent State.chooseNotice
  rw [h]
  exact h

theorem takeReport_takeReading {i : Fin 96} {e : PointEntry} (hl : f.payload.length = 5)
    (hi : indexOf s.points ⟨f.sender, byteAt f.payload 0⟩ = some i) (he : s.points[i] = some e) :
    s.takeReport f = s.takeReading i e (readingOf f.payload) := by
  have hk : indexOf s.points f.reportKey = some i := hi
  refine (if_neg (not_not.2 hl)).trans ?_
  rw [hk]
  dsimp only
  rw [he]

/-- Settles O11: what the settling tests of the report leave, slot by slot. -/
theorem reportCompletesSettling : Obligations.ReportCompletesSettling := by
  intro s f rest i e ht hcode hlen hi he hseq
  obtain ⟨v, w, hcoils, hnow, hflags, hnotice, htrip, ⟨hwc, hwu, hwp, hwf, hwn⟩, hr⟩ :=
    takeReading_settles { s with rx := rest } i e (readingOf f.payload) hseq
  have hx := settlingTests_settledBelow v e.key
  have hexec : exec .report s = .next w.endEvent := by
    have htake := takeFrame_takes ht (p := fun f => f.code == Func.report.code) (by rw [hcode]; rfl) fun f s => s.takeReport f
    rw [takeReport_takeReading (s := { s with rx := rest }) hlen hi he, hr] at htake
    exact congrArg Host.Outcome.next htake
  refine ⟨w.endEvent, hexec, ?_⟩
  intro proved completes
  have hpoints : w.endEvent.points = v.points := by
    rw [endEvent_points, hwp]
    exact points_of_apart hx.apart
  have hcomp (c : Coil) : completes c ↔ v.Settles e.key c := by
    rw [settles_iff, ← hpoints]
  have hcoil (j : Slot) : v.coils[j] = s.coils[j] := by rw [hcoils]
  refine ⟨fun u => ?_, fun j => ⟨fun hn => ⟨?_, ?_, fun n hs hj => ?_⟩, fun hc => ⟨⟨?_, fun n hs hj => ?_⟩, ?_⟩⟩⟩
  · have hunit : w.endEvent.units[u].faults.trip = (v.settlingTests e.key).units[u].faults.trip := by
      rw [endEvent_units, hwu]
    rw [hunit, hx.trips u, htrip u]
    refine or_congr .rfl (exists_congr fun j => ?_)
    rw [hcoil j, hcomp]
    exact ⟨fun h => h.2, fun h => ⟨j.isLt, h⟩⟩
  · have hj := settlingTests_coils v e.key j
    rw [if_neg (by rw [hcoil j]; exact fun h => hn ((hcomp _).2 h)), hcoil j] at hj
    rw [endEvent_coils, hwc]
    exact hj
  · have hj := hx.flags j
    rw [if_neg (by rw [hcoil j]; exact fun h => hn ((hcomp _).2 h.2)), hflags] at hj
    rw [endEvent_noticeFlags, hwf]
    exact hj
  · refine endEvent_notice_some ?_
    subst hj
    rw [hwn, hx.notice]
    rw [hnotice, hs]
    refine congrArg some (if_neg ?_)
    rw [hcoil]
    exact fun h => hn ((hcomp _).2 h.2)
  · have hj := hx.flags j
    rw [if_pos (by rw [hcoil j]; exact ⟨j.isLt, (hcomp _).1 hc⟩)] at hj
    rw [endEvent_noticeFlags, hwf]
    exact hj
  · refine endEvent_notice_some ?_
    subst hj
    rw [hwn, hx.notice]
    rw [hnotice, hs]
    refine congrArg some (if_pos ?_)
    rw [hcoil]
    exact ⟨n.slot.isLt, (hcomp _).1 hc⟩
  · have hj := settlingTests_coils v e.key j
    rw [if_pos (by rw [hcoil j]; exact (hcomp _).1 hc), hcoil j, hnow] at hj
    rw [endEvent_coils, hwc]
    exact hj.trans (enterArmed_eq _ _)

end Sys2Proof.Machine
end

