-- ==== Sys2Proof/Proofs/RecordTimers.lean ====
section
/-! The timers of a record expire (R19, R79, R85): what each leaves, and what the test for drops leaves of the other records. -/

namespace Sys2Proof.Machine

variable {s t u : State} {i j : Slot}

/-! ### The records and notices of other slots -/

/-- A slot's record and notice are as they were. -/
structure State.SlotKept (s t : State) (j : Slot) : Prop where
  coil : t.coils[j] = s.coils[j]
  flag : t.noticeFlags[j] = s.noticeFlags[j]
  notice : ∀ n, s.notice = some n → n.slot = j → t.notice = some n

theorem State.SlotKept.refl (s : State) (j : Slot) : s.SlotKept s j := ⟨rfl, rfl, fun _ h _ => h⟩

theorem State.SlotKept.trans (h : s.SlotKept t j) (h' : t.SlotKept u j) : s.SlotKept u j :=
  ⟨h'.coil.trans h.coil, h'.flag.trans h.flag, fun n hn hj => h'.notice n (h.notice n hn hj) hj⟩

theorem State.SlotKept.kept (h : s.SlotKept t j) : s.NoticeKept t j := ⟨h.flag, h.notice⟩

theorem setCoil_slotKept (c : Coil) (h : j ≠ i) : s.SlotKept (s.setCoil i c) j :=
  ⟨by rw [setCoil_coils, tablePut_get, if_neg h], rfl, fun _ h _ => h⟩

theorem changeCoil_slotKept (c : Coil) (h : j ≠ i) : s.SlotKept (s.changeCoil i c) j :=
  ⟨by rw [changeCoil_coils, tablePut_get, if_neg h], rfl, fun _ h _ => h⟩

theorem setNotice_slotKept (h : j ≠ i) : s.SlotKept (s.setNotice i) j := by
  refine ⟨rfl, ?_, fun n hn hj => ?_⟩
  · show (tablePut s.noticeFlags i true)[j] = s.noticeFlags[j]
    rw [tablePut_get, if_neg h]
  · show s.notice.map _ = some n
    rw [hn, Option.map_some, if_neg (hj ▸ h)]

theorem markDirty_slotKept (it : Item) : s.SlotKept (s.markDirty it) j :=
  ⟨by rw [markDirty_coils], by rw [markDirty_noticeFlags], fun n hn _ => (markDirty_notice s it).trans hn⟩

theorem addFault_slotKept (v : UnitNo) (k : FaultKind) : s.SlotKept (s.addFault v k) j := ⟨rfl, rfl, fun _ h _ => h⟩

theorem endEvent_slotKept : s.SlotKept s.endEvent j :=
  ⟨by rw [endEvent_coils], by rw [endEvent_noticeFlags], fun _ hn _ => endEvent_notice_some hn⟩

/-- A slot's notice flag is set by `setNotice`, and the rest of the notice source stands (R171). -/
theorem setNotice_noticeSet (s : State) (i : Slot) : s.NoticeSet (s.setNotice i) i := by
  refine ⟨?_, fun n hn hi => ?_⟩
  · show (tablePut s.noticeFlags i true)[i] = true
    rw [tablePut_get, if_pos rfl]
  · show s.notice.map _ = _
    rw [hn, Option.map_some, if_pos hi]

theorem noticeSet_endEvent (h : s.NoticeSet t i) : s.NoticeSet t.endEvent i :=
  ⟨by rw [endEvent_noticeFlags]; exact h.1, fun n hn hi => endEvent_notice_some (h.2 n hn hi)⟩

theorem dropLoop_slotKept (n : Nat) (h : j ≠ i) : s.SlotKept (s.dropLoop n i) j := by
  induction n generalizing s with
  | zero => exact .refl s j
  | succ n ih =>
    unfold State.dropLoop
    split
    next d _ =>
      split_ifs
      · exact .refl s j
      · split
        · exact .refl s j
        next k _ =>
          have hd : s.SlotKept (s.dropKind i d k) j := changeCoil_slotKept _ h
          dsimp only
          split_ifs
          · unfold State.finishStepDown
            exact hd.trans (((changeCoil_slotKept _ h).trans (markDirty_slotKept _)).trans (setNotice_slotKept h))
          · exact hd.trans ih
    · exact .refl s j

/-- The end of an event keeps what the test for drops has left (R87). -/
theorem testsDrops_endEvent {d : Dropped} (h : s.TestsDrops t i d) : s.TestsDrops t.endEvent i d := by
  obtain ⟨n, hn, hstop, hwait, hdone, hgo, hset, hkept, htake, hother, hcoils, hunits, hapart⟩ := h
  have hwaits (k : DemandKey) : t.endEvent.Waits k ↔ t.Waits k := by
    unfold State.Waits
    rw [endEvent_demands]
  refine ⟨n, hn, fun m hm hw => hstop m hm ?_, fun hlt => ?_, fun hd => ?_, fun hd => ?_, fun hd => noticeSet_endEvent (hset hd),
    fun j hj => ?_, fun k e hk he hr => ?_, fun k hk => ?_, fun j hj => ?_, ?_, ?_⟩
  · obtain ⟨k, hk, hw⟩ := hw
    exact ⟨k, hk, (hwaits k).1 hw⟩
  · obtain ⟨k, hk, hw⟩ := hwait hlt
    exact ⟨k, hk, (hwaits k).2 hw⟩
  · obtain ⟨h1, h2, h3⟩ := hdone hd
    rw [endEvent_coils, endEvent_storeQueue, endEvent_writing]
    exact ⟨h1, h2, h3⟩
  · obtain ⟨h1, h2, h3⟩ := hgo hd
    rw [endEvent_coils, endEvent_storeQueue, endEvent_writing]
    exact ⟨h1, h2, h3⟩
  · obtain ⟨h1, h2⟩ := hkept j hj
    exact ⟨by rw [endEvent_noticeFlags]; exact h1, fun n hn hj => endEvent_notice_some (h2 n hn hj)⟩
  · rw [endEvent_demands]; exact htake k e hk he hr
  · rw [endEvent_demands]; exact hother k hk
  · rw [endEvent_coils]; exact hcoils j hj
  · rw [endEvent_units]; exact hunits
  · rw [endEvent_apart]; exact hapart

/-! ### The hold timer (R85) -/

theorem holdPasses_iff {c : Coil} {p : Profile} (h : c.profile = some p) : c.holdPasses = true ↔
    (∃ r m, c.last = some r ∧ r.margin = some m ∧ p.limits.watchBand ≤ m) ∧ c.dose ≤ p.dose.lower := by
  simp [Coil.holdPasses, h, EvalResult.atOrAbove, Option.any_eq_true]

/-- A record that enters STEP_DOWN, before the test for drops (R86). -/
def State.stepsDown (s : State) (i : Slot) : State :=
  (s.setCoil i { s.coils[i] with stage := .recovery (.stepDown ⟨false, false, false, false⟩), holdTimer := none }).setNotice i

theorem stepsDown_testsDrops (h : s.coils[i].lifecycle = .armed) :
    (s.stepsDown i).TestsDrops (s.enterStepDown i) i ⟨false, false, false, false⟩ := by
  have hc : (s.stepsDown i).coils[i] =
      { s.coils[i] with stage := .recovery (.stepDown ⟨false, false, false, false⟩), holdTimer := none } := by
    unfold State.stepsDown
    rw [setNotice_coils, setCoil_coils, tablePut_get, if_pos rfl]
  have ht := testDrops_testsDrops (s := s.stepsDown i) (i := i) (d := ⟨false, false, false, false⟩) (by rw [hc]; exact h) (by rw [hc])
  exact ht

theorem enterStepDown_slotKept (h : j ≠ i) : s.SlotKept (s.enterStepDown i) j :=
  ((setCoil_slotKept _ h).trans (setNotice_slotKept h)).trans (dropLoop_slotKept 4 h)

theorem holdExpired_passes (h : s.coils[i].holdPasses = true) : s.holdExpired i = s.enterStepDown i := if_pos h

theorem holdExpired_restarts (h : ¬ s.coils[i].holdPasses = true) :
    s.holdExpired i = s.setCoil i { s.coils[i] with holdTimer := some (s.now + s.coils[i].holdTime) } := if_neg h

theorem expire_some {timer : Option Nat} {due : Nat} (h : timer = some due) (effect : State → State) :
    s.expire timer effect = effect (s.atExpiry due) := by
  rw [h]
  rfl

theorem expire_none {timer : Option Nat} (h : timer = none) (effect : State → State) : s.expire timer effect = s := by
  rw [h]
  rfl

/-- Settles O49: a timer that runs expires at its moment with its own effect, and one that does not run expires with none. -/
theorem recordTimersExpire : Obligations.RecordTimersExpire := by
  intro s i due c u
  refine ⟨fun h => congrArg Host.Outcome.next (expire_none h _), fun h => congrArg Host.Outcome.next (expire_none h _),
    fun h => congrArg Host.Outcome.next (expire_none h _), fun h => congrArg Host.Outcome.next (expire_none h _),
    fun p hdue hp => ?_, fun hdue => ?_, fun hdue => ?_⟩
  · intro passes
    have hexec : exec (.restartHoldExpiry i) s = .next (u.holdExpired i).endEvent :=
      congrArg Host.Outcome.next (expire_some hdue _)
    have hpasses : u.coils[i].holdPasses = true ↔ passes := holdPasses_iff hp
    by_cases hp' : u.coils[i].holdPasses = true
    · rw [holdExpired_passes hp'] at hexec
      have kept (j : Slot) (hj : j ≠ i) : u.SlotKept (u.enterStepDown i).endEvent j :=
        (enterStepDown_slotKept hj).trans endEvent_slotKept
      refine ⟨_, hexec, fun j hj => (kept j hj).coil, ?_, fun j hj => (kept j hj).kept,
        fun hn => absurd (hpasses.1 hp') hn, fun _ ha => ?_⟩
      · rw [endEvent_apart, enterStepDown_apart]
      · have ht := testsDrops_endEvent (stepsDown_testsDrops (s := u) (i := i) ha)
        exact ht
    · rw [holdExpired_restarts hp'] at hexec
      have kept (j : Slot) (hj : j ≠ i) : u.SlotKept (u.setCoil i
          { u.coils[i] with holdTimer := some (u.now + u.coils[i].holdTime) }).endEvent j :=
        (setCoil_slotKept _ hj).trans endEvent_slotKept
      have hhold : u.coils[i].holdTime = p.hold * 1000 := by
        unfold Coil.holdTime
        rw [show u.coils[i].profile = some p from hp]
        rfl
      refine ⟨_, hexec, fun j hj => (kept j hj).coil, ?_, fun j hj => (kept j hj).kept,
        fun _ => ⟨?_, ?_, ⟨?_, fun n hn _ => endEvent_notice_some hn⟩⟩, fun h => absurd (hpasses.2 h) hp'⟩
      · rw [endEvent_apart, setCoil_apart]
      · rw [endEvent_coils, setCoil_coils, tablePut_get, if_pos rfl, hhold]
      · rw [endEvent_demands]; rfl
      · rw [endEvent_noticeFlags]; rfl
  · intro t
    exact congrArg Host.Outcome.next (expire_some hdue _)
  · have hexec : exec (.settleTimerExpiry i) s = .next (u.settleExpired i) := congrArg Host.Outcome.next (expire_some hdue _)
    unfold State.settleExpired at hexec
    have kept (j : Slot) (hj : j ≠ i) : u.SlotKept (u.settleExpired i) j :=
      ((setCoil_slotKept _ hj).trans (setNotice_slotKept hj)).trans ((addFault_slotKept _ _).trans endEvent_slotKept)
    refine ⟨_, hexec, ?_, fun j hj => (kept j hj).coil, ?_, fun j hj => (kept j hj).kept, ?_, fun v hv => ?_, ?_, ?_, ?_, ?_⟩
    · rw [endEvent_coils, addFault_coils, setNotice_coils, setCoil_coils, tablePut_get, if_pos rfl]
    · refine noticeSet_endEvent ?_
      exact setNotice_noticeSet u i
    · rw [endEvent_units, addFault_unit, if_pos rfl]
      rfl
    · rw [endEvent_units, addFault_unit, if_neg hv]
      rfl
    · rw [endEvent_apart]; rfl
    · rw [endEvent_demands]; rfl
    · rw [endEvent_storeQueue]; rfl
    · rw [endEvent_writing]; rfl

end Sys2Proof.Machine
end

