-- ==== Sys2Proof/Proofs/Shapes.lean ====
section
/-! Every step keeps each record's shape (R6, R15, R58, R62, R69, R74, R79). -/

namespace Sys2Proof.Machine

variable {s t : State} {f : RxFrame} {i : Slot} {c : Coil}

/-! ### Shapes of single records -/

/-- The shape of an ARMED record. -/
theorem Coil.shaped_armed (ha : c.lifecycle = .armed) (hdose : c.dose ≤ 60000) (htrip : c.tripCount ≤ 3)
    (heval : c.evalTimer.isSome) (hsettle : c.settleTimer = none) (hclean : c.cleanTimer.isSome → c.stage = .clear)
    (hhold : c.holdTimer.isSome → c.stage = .recovery .prove) (hlock : c.stage = .lockout → c.tripCount = 3) : c.Shaped :=
  ⟨hdose, htrip, fun h => absurd ha h, fun _ => heval, fun h => by simp [hsettle] at h, hclean, hhold, fun _ => .inr ha, hlock⟩

/-- The shape of a record outside ARMED. -/
theorem Coil.shaped_rest (hl : c.lifecycle ≠ .armed) (hr : c.AtRest) (htrip : c.tripCount ≤ 3)
    (hsettle : c.settleTimer.isSome → c.lifecycle = .settling) (hlatch : c.latch ≠ .none → c.lifecycle = .settling) : c.Shaped := by
  obtain ⟨hst, hdose, heval, hclean, hhold, hlast⟩ := hr
  refine ⟨by rw [hdose]; exact Nat.zero_le _, htrip, fun _ => ⟨hst, hdose, heval, hclean, hhold, hlast⟩, fun h => absurd h hl,
    hsettle, fun _ => hst, fun h => by simp [hhold] at h, fun h => .inl (hlatch h), fun h => by rw [hst] at h; cases h⟩

theorem Coil.Shaped.settleTimer (h : c.Shaped) (ha : c.lifecycle = .armed) : c.settleTimer = none := by
  obtain ⟨-, -, -, -, hsettle, -⟩ := h
  by_contra hn
  have hs := hsettle (Option.isSome_iff_ne_none.2 hn)
  rw [ha] at hs
  cases hs

theorem Coil.Shaped.tripCount (h : c.Shaped) : c.tripCount ≤ 3 := h.2.1

theorem Coil.Shaped.atRest (h : c.Shaped) (hl : c.lifecycle ≠ .armed) : c.AtRest := h.2.2.1 hl

theorem Coil.Shaped.latch (h : c.Shaped) (hl : c.lifecycle = .draft ∨ c.lifecycle = .suspended) : c.latch = .none := by
  obtain ⟨-, -, -, -, -, -, -, hlatch, -⟩ := h
  by_contra hn
  rcases hlatch hn with h | h <;> rcases hl with hl | hl <;> rw [hl] at h <;> cases h

theorem Coil.vacant_shaped (u : UnitNo) : (Coil.vacant u).Shaped :=
  Coil.shaped_rest (by simp [Coil.vacant]) ⟨rfl, rfl, rfl, rfl, rfl, rfl⟩ (Nat.zero_le _) (by simp [Coil.vacant])
    (by simp [Coil.vacant])

/-- An ARMED record that changes its stage, with the trip account and the timers that go with the new stage. -/
theorem Coil.shaped_inStage (h : c.Shaped) (ha : c.lifecycle = .armed) (st : Stage) (cause : Cause) (n : Nat) (latch : Latch)
    (clean hold : Option Nat) (hn : n ≤ 3) (hclean : clean.isSome → st = .clear) (hhold : hold.isSome → st = .recovery .prove)
    (hlock : st = .lockout → n = 3) :
    ({ c with stage := st, cause := cause, tripCount := n, latch := latch, cleanTimer := clean, holdTimer := hold } : Coil).Shaped := by
  have hs := Coil.Shaped.settleTimer h ha
  obtain ⟨hdose, -, -, heval, -⟩ := h
  exact Coil.shaped_armed ha hdose hn (heval ha) hs hclean hhold hlock

/-- No timer that does not run contradicts a stage. -/
theorem none_isSome {p : Prop} (h : (none : Option Nat).isSome) : p := by cases h

/-- An ARMED record's clean timer runs in CLEAR only, and its hold timer in PROVE only. -/
theorem Coil.Shaped.cleanTimer (h : c.Shaped) : c.stage ≠ .clear → c.cleanTimer = none := by
  obtain ⟨-, -, -, -, -, hclean, -⟩ := h
  exact fun hn => Option.not_isSome_iff_eq_none.1 fun hs => hn (hclean hs)

theorem Coil.Shaped.holdTimer (h : c.Shaped) : c.stage ≠ .recovery .prove → c.holdTimer = none := by
  obtain ⟨-, -, -, -, -, -, hhold, -⟩ := h
  exact fun hn => Option.not_isSome_iff_eq_none.1 fun hs => hn (hhold hs)

theorem cleanTimerIn_isSome {st : Stage} {now : Nat} (h : (cleanTimerIn st now).isSome) : st = .clear := by
  unfold cleanTimerIn at h
  split_ifs at h with hst
  · exact hst
  · cases h

theorem Coil.trip_shaped (h : c.Shaped) (ha : c.lifecycle = .armed) (cause : Cause) : (c.trip cause).Shaped :=
  Coil.shaped_inStage h ha _ cause _ (tripLatch (c.tripCount + 1)) none none (Nat.min_le_left _ _) none_isSome none_isSome
    fun hst => by
      split_ifs at hst
      omega

theorem latch_count_le (l : Latch) : l.count ≤ 3 := by
  cases l with
  | none => exact Nat.zero_le _
  | trip n => exact le_trans (Nat.le_of_lt_succ n.isLt) (by omega)
  | lockout => exact le_rfl

theorem Coil.enterArmed_shaped (h : c.Shaped) (hl : c.lifecycle = .settling) (now : Nat) : (c.enterArmed now).Shaped := by
  obtain ⟨-, hdose, -, -, hhold, -⟩ := Coil.Shaped.atRest h (by rw [hl]; decide)
  have hd : (c.enterArmed now).dose ≤ 60000 := by
    show c.dose ≤ 60000
    rw [hdose]
    exact Nat.zero_le _
  refine Coil.shaped_armed rfl hd (latch_count_le _) rfl rfl (fun hc => cleanTimerIn_isSome hc) (fun hh => ?_) fun hk => ?_
  · have hh : c.holdTimer.isSome := hh
    simp [hhold] at hh
  · have hk : c.latch.stage = .lockout := hk
    show c.latch.count = 3
    cases hc : c.latch with
    | none => rw [hc] at hk; cases hk
    | trip n => rw [hc] at hk; cases hk
    | lockout => rfl

/-! ### Records of a state -/

theorem recordsShaped_of (h : t.coils = s.coils) (hs : s.RecordsShaped) : t.RecordsShaped := by
  intro i
  rw [h]
  exact hs i

theorem tablePut_shaped (hc : c.Shaped) (h : t.coils = tablePut s.coils i c) (hs : s.RecordsShaped) : t.RecordsShaped := by
  intro j
  rw [h, tablePut_get]
  split_ifs
  · exact hc
  · exact hs j

theorem setCoil_shaped (hc : c.Shaped) (hs : s.RecordsShaped) : (s.setCoil i c).RecordsShaped := tablePut_shaped hc rfl hs

theorem finishStepDown_coils (s : State) (i : Slot) : (s.finishStepDown i).coils = tablePut s.coils i
    { s.coils[i] with stage := .clear, cause := .cleared, latch := .none, cleanTimer := some (s.now + Config.cleanTime) } := by
  unfold State.finishStepDown
  rw [setNotice_coils, markDirty_coils, changeCoil_coils]

/-- A move of the Stage Machine keeps every record's shape. -/
theorem stageMove_shaped (h : StageMove s t) (hs : s.RecordsShaped) : t.RecordsShaped := by
  cases h with
  | evaluated i dose r next hl hd =>
    have ha := Coil.Shaped.armed (hs i) (Coil.live_of_evalTimer hl)
    have hset := Coil.Shaped.settleTimer (hs i) ha
    obtain ⟨hdose, htrip, -, -, -, hclean, hhold, -, hlock⟩ := hs i
    exact setCoil_shaped (c := { s.coils[i] with dose := dose, last := some r, evalTimer := some next })
      (Coil.shaped_armed ha (hd hdose) htrip rfl hset hclean hhold hlock) hs
  | evalRestarted i next hl =>
    have ha := Coil.Shaped.armed (hs i) (Coil.live_of_evalTimer hl)
    have hset := Coil.Shaped.settleTimer (hs i) ha
    obtain ⟨hdose, htrip, -, -, -, hclean, hhold, -, hlock⟩ := hs i
    exact setCoil_shaped (c := { s.coils[i] with evalTimer := some next })
      (Coil.shaped_armed ha hdose htrip rfl hset hclean hhold hlock) hs
  | faulted u k => exact hs
  | tripped i cause hl =>
    exact tablePut_shaped (Coil.trip_shaped (hs i) (Coil.Shaped.armed (hs i) hl) cause) (trip_coils s i cause) hs
  | staged i st cause hl ht hst =>
    have hc := Coil.shaped_inStage (hs i) (Coil.Shaped.armed (hs i) hl) st cause s.coils[i].tripCount s.coils[i].latch
      (cleanTimerIn st s.now) none (Coil.Shaped.tripCount (hs i)) cleanTimerIn_isSome none_isSome
      fun hk => by rcases hst with h | h | h <;> rw [hk] at h <;> cases h
    exact tablePut_shaped hc (enterStage_coils s i st cause) hs
  | proved i h =>
    have ha := Coil.Shaped.armed (hs i) (Coil.live_of_stage (by rw [h]; decide))
    have hclean := Coil.Shaped.cleanTimer (hs i) (by rw [h]; decide)
    have hc := Coil.shaped_inStage (hs i) ha (.recovery .prove) s.coils[i].cause s.coils[i].tripCount s.coils[i].latch
      s.coils[i].cleanTimer (some (s.now + s.coils[i].holdTime)) (Coil.Shaped.tripCount (hs i)) (by rw [hclean]; exact none_isSome) (fun _ => rfl)
      fun h => by cases h
    exact tablePut_shaped hc (enterProve_coils s i) hs
  | held i next h =>
    have ha := Coil.Shaped.armed (hs i) h.live
    have hp := Coil.Shaped.prove (hs i) h
    have hclean := Coil.Shaped.cleanTimer (hs i) (by rw [hp]; decide)
    have hc := Coil.shaped_inStage (hs i) ha s.coils[i].stage s.coils[i].cause s.coils[i].tripCount s.coils[i].latch
      s.coils[i].cleanTimer (some next) (Coil.Shaped.tripCount (hs i)) (by rw [hclean]; exact none_isSome) (fun _ => hp)
      fun hk => by rw [hp] at hk; cases hk
    exact setCoil_shaped hc hs
  | steppedDown i h =>
    have ha := Coil.Shaped.armed (hs i) h.live
    have hclean := Coil.Shaped.cleanTimer (hs i) (by rw [Coil.Shaped.prove (hs i) h]; decide)
    have hc := Coil.shaped_inStage (hs i) ha (.recovery (.stepDown .empty)) s.coils[i].cause s.coils[i].tripCount s.coils[i].latch
      s.coils[i].cleanTimer none (Coil.Shaped.tripCount (hs i)) (by rw [hclean]; exact none_isSome) none_isSome fun h => by cases h
    exact setCoil_shaped hc hs
  | dropped i d k h =>
    have ha := Coil.Shaped.armed (hs i) (Coil.live_of_stage (by rw [h]; simp))
    have hclean := Coil.Shaped.cleanTimer (hs i) (by rw [h]; simp)
    have hhold := Coil.Shaped.holdTimer (hs i) (by rw [h]; simp)
    have hc := Coil.shaped_inStage (hs i) ha (.recovery (.stepDown (d.add k))) s.coils[i].cause s.coils[i].tripCount
      s.coils[i].latch s.coils[i].cleanTimer s.coils[i].holdTimer (Coil.Shaped.tripCount (hs i)) (by rw [hclean]; exact none_isSome)
      (by rw [hhold]; exact none_isSome) fun h => by cases h
    exact tablePut_shaped hc (changeCoil_coils s i _) hs
  | cleared i d h =>
    have ha := Coil.Shaped.armed (hs i) (Coil.live_of_stage (by rw [h]; simp))
    have hhold := Coil.Shaped.holdTimer (hs i) (by rw [h]; simp)
    have hc := Coil.shaped_inStage (hs i) ha .clear .cleared s.coils[i].tripCount .none (some (s.now + Config.cleanTime))
      s.coils[i].holdTimer (Coil.Shaped.tripCount (hs i)) (fun _ => rfl) (by rw [hhold]; exact none_isSome) fun h => by cases h
    exact tablePut_shaped hc (finishStepDown_coils s i) hs
  | armed i h => exact tablePut_shaped (Coil.enterArmed_shaped (hs i) h s.now) (enterArmed_coils s i) hs
  | overdue i =>
    obtain ⟨hdose, htrip, hrest, heval, -, hclean, hhold, hlatch, hlock⟩ := hs i
    exact setCoil_shaped (c := { s.coils[i] with settleOverdue := true, settleTimer := none })
      ⟨hdose, htrip, hrest, heval, none_isSome, hclean, hhold, hlatch, hlock⟩ hs

theorem stageMoves_shaped (h : StageMoves s t) (hs : s.RecordsShaped) : t.RecordsShaped := by
  induction h with
  | refl => exact hs
  | tail _ hm ih => exact stageMove_shaped hm ih

/-! ### Requests -/

theorem Coil.startsSettling_shaped (h : c.Shaped) (hl : c.lifecycle = .draft ∨ c.lifecycle = .suspended) (now : Nat) :
    (c.startsSettling now).Shaped := by
  have hlatch := Coil.Shaped.latch h hl
  have hr := Coil.Shaped.atRest h (fun ha => by rcases hl with h | h <;> rw [ha] at h <;> cases h)
  obtain ⟨-, htrip, -⟩ := h
  exact Coil.shaped_rest (by simp [Coil.startsSettling]) hr htrip (fun _ => rfl) fun _ => rfl

theorem Coil.suspended_shaped (c : Coil) : c.suspended.Shaped :=
  Coil.shaped_rest (by simp [Coil.suspended]) ⟨rfl, rfl, rfl, rfl, rfl, rfl⟩ (Nat.zero_le _) (by simp [Coil.suspended])
    (by simp [Coil.suspended])

theorem Coil.draft_shaped (tag : Nat) (u : UnitNo) (kind : CoilKind) : (Coil.draft tag u kind).Shaped :=
  Coil.shaped_rest (by simp [Coil.draft]) ⟨rfl, rfl, rfl, rfl, rfl, rfl⟩ (Nat.zero_le _) (by simp [Coil.draft, Coil.vacant])
    (by simp [Coil.draft, Coil.vacant])

/-- A record that changes in its definition and its store marks alone keeps its shape. -/
theorem Coil.Shaped.edited (h : c.Shaped) (cd : Candidate) (w : Bool) : ({ cd.into c with writeInFlight := w } : Coil).Shaped := h

theorem retire_coils (s : State) (i : Slot) : (s.retire i).coils = tablePut s.coils i (.vacant s.coils[i].unit) := by
  rw [retire_eq, lifecycleChanged_coils, setCoil_coils, changeRefs_coils]
  rfl

theorem restart_coils (s : State) (i : Slot) :
    (s.restart i).coils = tablePut s.coils i { s.coils[i] with stage := .recovery .fanRestart, cause := .restart } := by
  unfold State.restart
  rw [endEvent_coils]
  rfl

theorem releaseLockout_coils (s : State) (i : Slot) : (s.releaseLockout i).coils =
    tablePut s.coils i { s.coils[i] with stage := .trip, tripCount := 0, latch := .trip 0, cause := .lockoutReleased } := by
  unfold State.releaseLockout
  rw [endEvent_coils, setNotice_coils, markDirty_coils]
  rfl

theorem setPart_coils (s : State) (k : Option PointKey) (on off : Int) : (s.setPart k on off).coils = s.coils := by
  unfold State.setPart State.rebindOutdoor
  split_ifs <;> simp

theorem commit_coils (s : State) (n : ClaimNo) (cl : Claim) (d : Coil) (clamped : Bool) :
    (s.commit n cl d clamped).coils = tablePut s.coils cl.slot { d with writeInFlight := true } := by
  simp [State.commit]

theorem request_shaped (h : Request f s t) (hs : s.RecordsShaped) : t.RecordsShaped := by
  cases h with
  | reported i e d r u v he hd hm hu =>
    obtain ⟨_, _, rfl⟩ := hu
    have hv : u.RecordsShaped := stageMoves_shaped hm hs
    exact recordsShaped_of (endEvent_coils _) hv
  | statusTaken u fan timer v hm =>
    have hv : v.RecordsShaped := stageMoves_shaped hm hs
    exact recordsShaped_of (endEvent_coils _) hv
  | created tag u kind i =>
    exact recordsShaped_of (lifecycleChanged_coils _ i) (setCoil_shaped (Coil.draft_shaped tag u kind) hs)
  | armed i hl =>
    exact tablePut_shaped (Coil.startsSettling_shaped (hs i) hl s.now) (lifecycleChanged_coils _ i) hs
  | suspended i => exact tablePut_shaped (s.coils[i].suspended_shaped) (lifecycleChanged_coils _ i) hs
  | retired i =>
    exact tablePut_shaped (Coil.vacant_shaped s.coils[i].unit) (retire_coils s i) hs
  | restarted i hl hst =>
    have hclean := Coil.Shaped.cleanTimer (hs i) (by rw [hst]; decide)
    have hhold := Coil.Shaped.holdTimer (hs i) (by rw [hst]; decide)
    have hc := Coil.shaped_inStage (hs i) hl (.recovery .fanRestart) .restart s.coils[i].tripCount s.coils[i].latch
      s.coils[i].cleanTimer s.coils[i].holdTimer (Coil.Shaped.tripCount (hs i)) (by rw [hclean]; exact none_isSome)
      (by rw [hhold]; exact none_isSome) fun h => by cases h
    exact tablePut_shaped hc (restart_coils s i) hs
  | released i hl hst =>
    have hclean := Coil.Shaped.cleanTimer (hs i) (by rw [hst]; decide)
    have hhold := Coil.Shaped.holdTimer (hs i) (by rw [hst]; decide)
    have hc := Coil.shaped_inStage (hs i) hl .trip .lockoutReleased 0 (.trip 0) s.coils[i].cleanTimer s.coils[i].holdTimer
      (Nat.zero_le _) (by rw [hclean]; exact none_isSome) (by rw [hhold]; exact none_isSome) fun h => by cases h
    exact tablePut_shaped hc (releaseLockout_coils s i) hs
  | committed n cl => exact tablePut_shaped (Coil.Shaped.edited (hs cl.slot) _ true) (commit_coils s n cl _ _) hs
  | partSet k on off => exact recordsShaped_of (setPart_coils s k on off) hs
  | unitDefined => exact recordsShaped_of (markDirty_coils _ _) hs
  | supervisorsSet => exact recordsShaped_of (markDirty_coils _ _) hs
  | _ => exact hs

/-! ### Loads and events -/

theorem toCoil_shaped (d : CoilDefinition) (l : Lifecycle) (latch : Latch) (hl : l ≠ .armed) (h : latch ≠ .none → l = .settling) :
    (d.toCoil l latch).Shaped :=
  Coil.shaped_rest hl ⟨rfl, rfl, rfl, rfl, rfl, rfl⟩ (Nat.zero_le _) (fun h => by cases h) h

theorem slotLoad_shaped (h : SlotLoad s i t) (hs : s.RecordsShaped) : t.RecordsShaped := by
  cases h with
  | stays => exact hs
  | lost => exact hs
  | placed d points l hd ht hp hl =>
    refine setCoil_shaped (s := { s with points := points }) (toCoil_shaped d l .none ?_ fun h => absurd rfl h) hs
    rcases hl with ⟨-, rfl⟩ | ⟨-, rfl⟩ <;> decide
  | settles d points =>
    exact setCoil_shaped (s := { s with points := points }) (toCoil_shaped d .settling d.latch (by decide) fun _ => rfl) hs
  | fellBack d points =>
    exact setCoil_shaped (s := { s with points := points }) (toCoil_shaped d .suspended .none (by decide) fun h => absurd rfl h) hs

theorem load_shaped (hs : s.RecordsShaped) : s.load.RecordsShaped :=
  load_keeps (P := State.RecordsShaped) (recordsShaped_of (beforeSlots_coils s) hs) (fun _ _ _ h ht => slotLoad_shaped h ht)
    fun t ht => recordsShaped_of (endEvent_coils t) ht

theorem State.Swept.shaped (h : s.Swept) : s.RecordsShaped := by
  intro i
  rw [h.coil]
  exact Coil.vacant_shaped 0

theorem startSettling_coil (s : State) (i : Slot) : s.startSettling.coils[i] =
    if s.coils[i].lifecycle = .settling then { s.coils[i] with settleTimer := some (s.now + 300000) } else s.coils[i] :=
  tableMap_get _ _ _

theorem startSettling_shaped (hs : s.RecordsShaped) : s.startSettling.RecordsShaped := by
  intro i
  rw [startSettling_coil]
  split_ifs with h
  · obtain ⟨hdose, htrip, hrest, heval, -, hclean, hhold, hlatch, hlock⟩ := hs i
    exact ⟨hdose, htrip, hrest, heval, fun _ => h, hclean, hhold, hlatch, hlock⟩
  · exact hs i

theorem cleanExpired_coils (s : State) (i : Slot) : (s.cleanExpired i).coils =
    tablePut s.coils i { s.coils[i] with tripCount := 0, latch := .none, cleanTimer := none } := by
  unfold State.cleanExpired
  dsimp only
  split_ifs
  · rfl
  · rw [markDirty_coils]
    rfl

theorem event_shaped (h : Event s t) (hs : s.RecordsShaped) : t.RecordsShaped := by
  cases h with
  | taken f rest u hrx hq => exact request_shaped hq hs
  | answered f rest a u hrx hr hq =>
    have hu : u.RecordsShaped := request_shaped hq hs
    exact hu
  | noticeLeft flags => exact recordsShaped_of (chooseNotice_coils _) hs
  | completed d e g u hd he hg hm =>
    have hu : u.RecordsShaped := stageMoves_shaped hm hs
    exact recordsShaped_of (endEvent_coils _) hu
  | moved u hm => exact recordsShaped_of (endEvent_coils _) (stageMoves_shaped hm hs)
  | contactOpened u v hm =>
    have hv : v.RecordsShaped := stageMoves_shaped hm hs
    exact recordsShaped_of (endEvent_coils _) hv
  | refreshed k => exact recordsShaped_of (endEvent_coils _) hs
  | retried k => exact recordsShaped_of (endEvent_coils _) hs
  | cleaned i h =>
    have ha := Coil.Shaped.armed (hs i) (Coil.live_of_cleanTimer h)
    have hst : s.coils[i].stage = .clear := (hs i).2.2.2.2.2.1 h
    have hc := Coil.shaped_inStage (hs i) ha s.coils[i].stage s.coils[i].cause 0 .none none s.coils[i].holdTimer (Nat.zero_le _)
      none_isSome (hs i).2.2.2.2.2.2.1 fun hk => by rw [hst] at hk; cases hk
    exact tablePut_shaped hc (cleanExpired_coils s i) hs
  | writeCompleted w success hw =>
    obtain ⟨coils, _, _, _, _, _, he, hc, -⟩ := writeCompleted_fields s w success
    rw [he]
    intro i
    simp only [hc i]
    split_ifs
    · exact hs i
    · exact hs i
  | brokenOff p cut => exact (breakOff_swept s p cut).shaped
  | startUp strap cut => exact load_shaped (startState_swept s strap cut).shaped
  | restartBegun strap => exact load_shaped (restartState_swept s strap).shaped
  | loaded =>
    obtain ⟨_, he, -⟩ := completeLoad_fields s
    rw [he]
    exact startSettling_shaped hs
  | _ => exact hs

end Sys2Proof.Machine
end

