-- ==== Sys2Proof/Proofs/FanOutputs.lean ====
section
/-! Every step keeps the hardwired protection (O56): each fan-stop output stands as the conditions of R130 say. -/

namespace Sys2Proof.Machine

variable {s t : State} {f : RxFrame} {i : Slot} {c : Coil} {u : UnitNo}

/-! ### What an output depends on -/

/-- A record holds its unit's output at STOP (R130). -/
def Coil.holdsFan (c : Coil) : Bool := c.tripped || c.settlesLatched

/-- Two states with the same power, contacts, outputs and conditions stand alike. -/
theorem fansStand_of (hp : t.power = s.power)
    (hu : ∀ u : UnitNo, t.units[u].fso = s.units[u].fso ∧ t.units[u].contact = s.units[u].contact)
    (hm : ∀ u, t.MustStop u ↔ s.MustStop u) (hs : s.FansStand) : t.FansStand := by
  intro u
  have h := hs u
  rw [hp, (hu u).1, (hu u).2, hm u]
  exact h

theorem fansStand_of_fields (hp : t.power = s.power) (hu : t.units = s.units) (hc : t.coils = s.coils) (hs : s.FansStand) :
    t.FansStand :=
  fansStand_of hp (fun u => by rw [hu]; exact ⟨rfl, rfl⟩) (fun u => mustStop_congr u (by rw [hu]) hc) hs

/-- A change of one record, which holds the output of the same unit as before or of none, leaves every condition. -/
theorem mustStop_of_put (h : t.coils = tablePut s.coils i c) (hu : t.units[u].contact = s.units[u].contact)
    (hh : (c.unit = u ∧ c.holdsFan = true) ↔ (s.coils[i].unit = u ∧ s.coils[i].holdsFan = true)) :
    t.MustStop u ↔ s.MustStop u := by
  refine mustStop_of_records u hu fun j => ?_
  rw [h, tablePut_get]
  split_ifs with hj
  · subst hj; exact hh
  · exact .rfl

/-- A record that keeps its unit and whether it holds the output leaves every output standing. -/
theorem fansStand_put (hc : t.coils = tablePut s.coils i c) (hp : t.power = s.power) (hu : t.units = s.units)
    (hunit : c.unit = s.coils[i].unit) (hh : c.holdsFan = s.coils[i].holdsFan) (hs : s.FansStand) : t.FansStand :=
  fansStand_of hp (fun u => by rw [hu]; exact ⟨rfl, rfl⟩)
    (fun u => mustStop_of_put hc (by rw [hu]) (by rw [hunit, hh])) hs

/-- A recomputed output stands as R130 says, and every other as it did (R131). -/
theorem recompute_stands (hp : t.power = s.power)
    (hu : ∀ v, v ≠ u → t.units[v].fso = s.units[v].fso ∧ t.units[v].contact = s.units[v].contact)
    (hm : ∀ v, v ≠ u → (t.MustStop v ↔ s.MustStop v)) (hs : s.FansStand) : (t.recomputeFso u).FansStand := by
  intro v
  have hcontact : (t.recomputeFso u).units[v].contact = t.units[v].contact := by
    rw [recomputeFso_units, tablePut_get]
    split_ifs with h
    · rw [h]
    · rfl
  have hmust := mustStop_congr v hcontact (recomputeFso_coils t u)
  have hpow : (t.recomputeFso u).power = t.power := rfl
  rw [hmust, hcontact, hpow]
  by_cases hv : v = u
  · subst hv
    have hfso : (t.recomputeFso v).units[v].fso = t.fsoFor v := by rw [recomputeFso_units, tablePut_get, if_pos rfl]
    rw [hfso]
    cases hpw : t.power with
    | running => exact fsoFor_running t hpw v
    | restartLoad =>
      unfold State.fsoFor
      rw [hpw]
      exact fun h => if_pos h
    | off => unfold State.fsoFor; rw [hpw]
    | held => unfold State.fsoFor; rw [hpw]
    | startLoad => unfold State.fsoFor; rw [hpw]
  · have hfso : (t.recomputeFso u).units[v].fso = t.units[v].fso := by rw [recomputeFso_units, tablePut_get, if_neg hv]
    have h := hs v
    rw [hfso, (hu v hv).1, (hu v hv).2, hm v hv, hp]
    exact h

/-- The output of a record's unit is recomputed after the record has changed, and after a fault of the unit. -/
theorem recompute_put_stands (hc : t.coils = tablePut s.coils i c) (hp : t.power = s.power)
    (hu : ∀ v : UnitNo, t.units[v].fso = s.units[v].fso ∧ t.units[v].contact = s.units[v].contact)
    (hunit : c.unit = s.coils[i].unit) (hs : s.FansStand) : (t.recomputeFso s.coils[i].unit).FansStand := by
  refine recompute_stands hp (fun v _ => hu v) (fun v hv => mustStop_of_put hc (hu v).2 ⟨fun h => ?_, fun h => ?_⟩) hs
  · exact absurd (hunit ▸ h.1).symm hv
  · exact absurd h.1.symm hv

theorem addFault_outputs (s : State) (v : UnitNo) (k : FaultKind) (u : UnitNo) :
    (s.addFault v k).units[u].fso = s.units[u].fso ∧ (s.addFault v k).units[u].contact = s.units[u].contact := by
  rw [addFault_unit]
  split_ifs <;> exact ⟨rfl, rfl⟩

theorem addFault_stands (v : UnitNo) (k : FaultKind) (hs : s.FansStand) : (s.addFault v k).FansStand := by
  have hunit := addFault_outputs s v k
  exact fansStand_of (s := s) rfl hunit (fun u => mustStop_congr u (hunit u).2 rfl) hs

theorem markDirty_stands (it : Item) (hs : s.FansStand) : (s.markDirty it).FansStand :=
  fansStand_of_fields (markDirty_power s it) (markDirty_units s it) (markDirty_coils s it) hs

theorem setNotice_stands (i : Slot) (hs : s.FansStand) : (s.setNotice i).FansStand := fansStand_of_fields rfl rfl rfl hs

theorem endEvent_stands (hs : s.FansStand) : s.endEvent.FansStand :=
  fansStand_of_fields (endEvent_power s) (endEvent_units s) (endEvent_coils s) hs

theorem lifecycleChanged_stands (i : Slot) (hs : s.FansStand) : (s.lifecycleChanged i).FansStand :=
  endEvent_stands (markDirty_stands _ (setNotice_stands i hs))

/-! ### Records that hold no output -/

theorem holdsFan_false (ha : c.lifecycle = .armed → c.stage ≠ .trip ∧ c.stage ≠ .lockout)
    (hl : c.lifecycle = .settling → c.latch = .none) : c.holdsFan = false := by
  unfold Coil.holdsFan
  rw [Bool.eq_false_iff, ne_eq, holds_iff]
  rintro (⟨h, hst⟩ | ⟨h, hlt⟩)
  · exact hst.elim (ha h).1 (ha h).2
  · exact hlt (hl h)

theorem holdsFan_armed (ha : c.lifecycle = .armed) (hst : c.stage ≠ .trip ∧ c.stage ≠ .lockout) : c.holdsFan = false :=
  holdsFan_false (fun _ => hst) fun h => by rw [ha] at h; cases h

theorem holdsFan_outside (ha : c.lifecycle ≠ .armed) (hl : c.lifecycle ≠ .settling) : c.holdsFan = false :=
  holdsFan_false (fun h => absurd h ha) fun h => absurd h hl

theorem holdsFan_tripped (ha : c.lifecycle = .armed) (hst : c.stage = .trip ∨ c.stage = .lockout) : c.holdsFan = true :=
  (holds_iff c).2 (.inl ⟨ha, hst⟩)

/-! ### Moves of the Stage Machine -/

theorem stageMove_stands (h : StageMove s t) (hr : s.RecordsShaped) (hs : s.FansStand) : t.FansStand := by
  cases h with
  | evaluated i => exact fansStand_put rfl rfl rfl rfl rfl hs
  | evalRestarted i => exact fansStand_put rfl rfl rfl rfl rfl hs
  | faulted v k => exact addFault_stands v k hs
  | tripped i cause hl =>
    have hc := recompute_put_stands (t := (s.changeCoil i (s.coils[i].trip cause)).addFault s.coils[i].unit .trip)
      (c := s.coils[i].trip cause) rfl rfl (fun v => addFault_outputs _ _ _ v) rfl hs
    exact setNotice_stands i (markDirty_stands _ hc)
  | staged i st cause hl ht hst =>
    have ha := Coil.Shaped.armed (hr i) hl
    refine fansStand_put (enterStage_coils s i st cause) rfl rfl rfl ?_ hs
    rw [holdsFan_armed ha ht]
    refine holdsFan_armed ha ⟨fun h => ?_, fun h => ?_⟩
    · have h : st = .trip := h
      rcases hst with hst | hst | hst <;> rw [h] at hst <;> cases hst
    · have h : st = .lockout := h
      rcases hst with hst | hst | hst <;> rw [h] at hst <;> cases hst
  | proved i h =>
    have ha := Coil.Shaped.armed (hr i) (Coil.live_of_stage (by rw [h]; decide))
    refine fansStand_put (enterProve_coils s i) rfl rfl rfl ?_ hs
    rw [holdsFan_armed ha (by rw [h]; decide)]
    exact holdsFan_armed ha ⟨fun h => (by cases h), fun h => (by cases h)⟩
  | held i => exact fansStand_put rfl rfl rfl rfl rfl hs
  | steppedDown i h =>
    have ha := Coil.Shaped.armed (hr i) h.live
    have hp := Coil.Shaped.prove (hr i) h
    refine fansStand_put (c := { s.coils[i] with stage := .recovery (.stepDown .empty), holdTimer := none }) rfl rfl rfl rfl ?_ hs
    rw [holdsFan_armed ha (by rw [hp]; decide)]
    exact holdsFan_armed ha ⟨fun h => (by cases h), fun h => (by cases h)⟩
  | dropped i d k h =>
    have ha := Coil.Shaped.armed (hr i) (Coil.live_of_stage (by rw [h]; simp))
    refine fansStand_put (changeCoil_coils s i _) rfl rfl rfl ?_ hs
    rw [holdsFan_armed (c := s.coils[i]) ha (by rw [h]; simp)]
    exact holdsFan_armed ha ⟨fun h => (by cases h), fun h => (by cases h)⟩
  | cleared i d h =>
    have ha := Coil.Shaped.armed (hr i) (Coil.live_of_stage (by rw [h]; simp))
    refine fansStand_put (finishStepDown_coils s i) ?_ ?_ rfl ?_ hs
    · exact markDirty_power _ _
    · exact markDirty_units _ _
    · rw [holdsFan_armed (c := s.coils[i]) ha (by rw [h]; simp)]
      exact holdsFan_armed ha ⟨fun h => (by cases h), fun h => (by cases h)⟩
  | armed i h =>
    unfold State.enterArmed
    dsimp only
    split_ifs
    · exact setNotice_stands i (recompute_put_stands (t := s.changeCoil i (s.coils[i].enterArmed s.now))
        (c := s.coils[i].enterArmed s.now) rfl rfl (fun v => ⟨rfl, rfl⟩) rfl hs)
    · exact setNotice_stands i (recompute_put_stands
        (t := (s.changeCoil i (s.coils[i].enterArmed s.now)).addFault s.coils[i].unit .trip)
        (c := s.coils[i].enterArmed s.now) rfl rfl (fun v => addFault_outputs _ _ _ v) rfl hs)
  | overdue i => exact fansStand_put (c := { s.coils[i] with settleOverdue := true, settleTimer := none }) rfl rfl rfl rfl rfl hs

theorem stageMoves_safe (h : StageMoves s t) (hs : s.FanSafe) : t.FanSafe := by
  induction h with
  | refl => exact hs
  | tail _ hm ih => exact ⟨stageMove_shaped hm ih.1, stageMove_stands hm ih.1 ih.2⟩

/-! ### Requests -/

/-- A unit that changes in other fields than its contact and output leaves every output standing. -/
theorem setUnit_stands (e : UnitEntry) (hf : e.fso = s.units[u].fso) (hc : e.contact = s.units[u].contact) (hs : s.FansStand) :
    (s.setUnit u e).FansStand := by
  have hunit (v : UnitNo) : (s.setUnit u e).units[v].fso = s.units[v].fso
      ∧ (s.setUnit u e).units[v].contact = s.units[v].contact := by
    have hget : (s.setUnit u e).units[v] = if v = u then e else s.units[v] := tablePut_get _ _ _ _
    rw [hget]
    split_ifs with h
    · subst h; exact ⟨hf, hc⟩
    · exact ⟨rfl, rfl⟩
  exact fansStand_of (s := s) rfl hunit (fun v => mustStop_congr v (hunit v).2 rfl) hs

theorem request_stands (h : Request f s t) (hr : s.RecordsShaped) (hs : s.FansStand) : t.FansStand := by
  cases h with
  | faultsRead v => exact setUnit_stands _ rfl rfl hs
  | reported i e d r v w he hd hm hu =>
    obtain ⟨_, _, rfl⟩ := hu
    have hv : v.FansStand := (stageMoves_safe hm ⟨hr, hs⟩).2
    exact endEvent_stands hv
  | statusTaken v fan timer w hm =>
    have hunit : (s.setUnit v { s.units[v] with fan := fan, statusTimer := timer }).FansStand := setUnit_stands _ rfl rfl hs
    have hw : w.FansStand := (stageMoves_safe hm ⟨hr, hunit⟩).2
    exact endEvent_stands hw
  | created tag v kind i hv =>
    refine lifecycleChanged_stands i (fansStand_of (s := s) rfl (fun _ => ⟨rfl, rfl⟩)
      (fun w => mustStop_of_put (setCoil_coils s i _) rfl ?_) hs)
    rw [holdsFan_outside (c := Coil.draft tag v kind) (by simp [Coil.draft]) (by simp [Coil.draft]),
      holdsFan_outside (c := s.coils[i]) (by rw [hv]; decide) (by rw [hv]; decide)]
    simp
  | armed i hl =>
    have hlatch := Coil.Shaped.latch (hr i) hl
    have hn : s.coils[i].holdsFan = false := by
      refine holdsFan_outside (fun h => ?_) (fun h => ?_) <;> rcases hl with hl | hl <;> rw [hl] at h <;> cases h
    refine fansStand_put (lifecycleChanged_coils _ i) (lifecycleChanged_power _ i) (lifecycleChanged_units _ i) rfl ?_ hs
    rw [hn]
    exact holdsFan_false (fun h => by cases h) fun _ => hlatch
  | suspended i h =>
    have hn : s.coils[i].holdsFan = false := by
      rcases maySuspend_iff.1 h with ⟨ha, hst⟩ | ⟨hl, hlt⟩
      · refine holdsFan_armed ha ?_
        rcases hst with h | h <;> rw [h] <;> decide
      · exact holdsFan_false (fun h => by rw [hl] at h; cases h) fun _ => hlt
    refine fansStand_put (lifecycleChanged_coils _ i) (lifecycleChanged_power _ i) (lifecycleChanged_units _ i) rfl ?_ hs
    rw [hn]
    exact holdsFan_outside (fun h => by cases h) fun h => by cases h
  | retired i hl =>
    have hn : s.coils[i].holdsFan = false := by
      refine holdsFan_outside (fun h => ?_) (fun h => ?_) <;> rcases hl with hl | hl <;> rw [hl] at h <;> cases h
    refine fansStand_put (retire_coils s i) ?_ ?_ rfl ?_ hs
    · simp [State.retire, State.cancelClaim]
    · simp [State.retire, State.cancelClaim]
    · rw [hn]
      exact holdsFan_outside (fun h => by cases h) fun h => by cases h
  | restarted i =>
    have hc := recompute_put_stands (t := s.changeCoil i { s.coils[i] with stage := .recovery .fanRestart, cause := .restart })
      (c := { s.coils[i] with stage := .recovery .fanRestart, cause := .restart }) rfl rfl (fun _ => ⟨rfl, rfl⟩) rfl hs
    exact endEvent_stands (setNotice_stands i hc)
  | released i hl hst =>
    have hc : (s.changeCoil i { s.coils[i] with
        stage := .trip, tripCount := 0, latch := .trip 0, cause := .lockoutReleased }).FansStand := by
      refine fansStand_put (changeCoil_coils s i _) rfl rfl rfl ?_ hs
      rw [holdsFan_tripped (c := s.coils[i]) hl (.inr hst)]
      exact holdsFan_tripped hl (.inl rfl)
    exact endEvent_stands (setNotice_stands i (markDirty_stands _ hc))
  | committed n cl =>
    refine fansStand_put (commit_coils s n cl _ _) ?_ ?_ rfl rfl hs <;> simp [State.commit]
  | unitDefined v controller zone =>
    have hd : (s.setUnit v (s.units[v].define controller zone)).FansStand := by
      refine setUnit_stands _ ?_ ?_ hs <;>
      · unfold UnitEntry.define
        split_ifs <;> rfl
    exact markDirty_stands _ hd
  | partSet k on off =>
    refine fansStand_of_fields ?_ ?_ (setPart_coils s k on off) hs <;>
    · unfold State.setPart State.rebindOutdoor
      split_ifs <;> simp
  | supervisorsSet l =>
    have hl : ({ s with supervisors := l } : State).FansStand := hs
    exact markDirty_stands _ hl
  | _ => exact hs

/-! ### Loads -/

theorem slotLoad_power (h : SlotLoad s i t) : t.power = s.power := by cases h <;> rfl

theorem slotLoad_units (h : SlotLoad s i t) : t.units = s.units := by cases h <;> rfl

/-- A load leaves the power, and the output and contact of every unit (R191, R194). -/
theorem load_outputs (s : State) : s.load.power = s.power ∧ ∀ u : UnitNo,
    s.load.units[u].fso = s.units[u].fso ∧ s.load.units[u].contact = s.units[u].contact := by
  have hb : s.load.power = s.beforeSlots.power ∧ s.load.units = s.beforeSlots.units := by
    refine load_keeps (P := fun t => t.power = s.beforeSlots.power ∧ t.units = s.beforeSlots.units) ⟨rfl, rfl⟩
      (fun _ t v h ht => ⟨(slotLoad_power h).trans ht.1, (slotLoad_units h).trans ht.2⟩) fun t ht => ?_
    rw [endEvent_power, endEvent_units]
    exact ht
  refine ⟨hb.1.trans (beforeSlots_power s), fun u => ?_⟩
  rw [hb.2, beforeSlots_units, loadUnits_units, withItem_fields]
  exact ⟨rfl, rfl⟩

/-- Every output stands at STOP without supply, in reset and in a start-up load (R132, R191). -/
theorem fansStand_stopped (hp : s.power = .off ∨ s.power = .held ∨ s.power = .startLoad)
    (hu : ∀ u : UnitNo, s.units[u].fso = .stop) : s.FansStand := by
  intro u
  rcases hp with h | h | h <;> rw [h] <;> exact hu u

theorem breakOff_fso (s : State) (p : Power) (cut : BrokenWrite) (u : UnitNo) : (s.breakOff p cut).units[u].fso = .stop := by
  have h : (s.breakOff p cut).units[u] = UnitEntry.blank s.units[u].level := tableMap_get _ _ _
  rw [h]
  rfl

theorem startState_fso (s : State) (strap : Strap) (cut : BrokenWrite) (u : UnitNo) :
    (s.startState strap cut).units[u].fso = .stop := by
  have h : (s.startState strap cut).units[u] = UnitEntry.startFilter s.now (s.breakOff .startLoad cut).units[u] := tableMap_get _ _ _
  rw [h]
  exact breakOff_fso s .startLoad cut u

theorem restartState_unit (s : State) (strap : Strap) (u : UnitNo) :
    (s.clearedForRestart.readStrap strap).units[u] = s.units[u].keepHardwired := tableMap_get _ _ _

theorem startUp_stands (s : State) (strap : Strap) (cut : BrokenWrite) : (s.startUp strap cut).FansStand := by
  obtain ⟨hp, hu⟩ := load_outputs (s.startState strap cut)
  have hp : (s.startState strap cut).load.power = .startLoad := hp
  intro u
  rw [startUp_eq, hp, (hu u).1, startState_fso]

/-- A PART_RESTART load finds every output standing as R130 says, and keeps it (R130, R194). -/
theorem restart_stands (s : State) (strap : Strap) (hp : s.power = .running) (hs : s.FansStand) :
    (s.clearedForRestart.readStrap strap).load.FansStand := by
  obtain ⟨hpl, hu⟩ := load_outputs (s.clearedForRestart.readStrap strap)
  have hpl : (s.clearedForRestart.readStrap strap).load.power = .restartLoad := hpl
  intro u
  have h := hs u
  rw [hp] at h
  rw [hpl, (hu u).1, (hu u).2, restartState_unit]
  exact fun hc => h.2 (.inl hc)

/-! ### Every event -/

/-- A contact that closes or opens has its unit's output recomputed (R130, R131). -/
theorem contact_stands (e : UnitEntry) (hs : s.FansStand) : ((s.setUnit u e).recomputeFso u).FansStand := by
  have hunit (v : UnitNo) (hv : v ≠ u) : (s.setUnit u e).units[v] = s.units[v] :=
    (tablePut_get s.units u v e).trans (if_neg hv)
  refine recompute_stands (s := s) rfl (fun v hv => ?_) (fun v hv => mustStop_congr v (by rw [hunit v hv]) rfl) hs
  rw [hunit v hv]
  exact ⟨rfl, rfl⟩

theorem event_stands (h : Event s t) (hr : s.RecordsShaped) (hs : s.FansStand) : t.FansStand := by
  cases h with
  | taken f rest v hrx hq => exact request_stands hq hr hs
  | answered f rest a v hrx hready hq =>
    have hv : v.FansStand := request_stands hq hr hs
    exact hv
  | noticeLeft flags => exact fansStand_of_fields (chooseNotice_power _) (chooseNotice_units _) (chooseNotice_coils _) hs
  | completed d e g v hd he hg hm =>
    have hv : v.FansStand := (stageMoves_safe hm ⟨hr, hs⟩).2
    exact endEvent_stands hv
  | moved v hm => exact endEvent_stands (stageMoves_safe hm ⟨hr, hs⟩).2
  | contactClosed v => exact contact_stands _ hs
  | contactOpened v w hm =>
    have hc : (((s.setUnit v { s.units[v] with contact := .opened, filter := .steady }).addFault v .contactOpen).recomputeFso
        v).FansStand := by
      have hunit (x : UnitNo) (hx : x ≠ v) :
          ((s.setUnit v { s.units[v] with contact := .opened, filter := .steady }).addFault v .contactOpen).units[x] = s.units[x] := by
        rw [addFault_unit, if_neg hx]
        exact (tablePut_get s.units v x _).trans (if_neg hx)
      refine recompute_stands (s := s) rfl (fun x hx => ?_) (fun x hx => mustStop_congr x (by rw [hunit x hx]) rfl) hs
      rw [hunit x hx]
      exact ⟨rfl, rfl⟩
    have hw : w.FansStand := (stageMoves_safe hm ⟨hr, hc⟩).2
    exact endEvent_stands hw
  | refreshed k => exact endEvent_stands hs
  | retried k => exact endEvent_stands hs
  | fanUnproved v => exact setUnit_stands _ rfl rfl hs
  | levelChanged v level filter => exact setUnit_stands _ rfl rfl hs
  | cleaned i h =>
    have ha := Coil.Shaped.armed (hr i) (Coil.live_of_cleanTimer h)
    refine fansStand_put (cleanExpired_coils s i) ?_ ?_ rfl ?_ hs
    · unfold State.cleanExpired
      dsimp only
      split_ifs <;> simp
    · unfold State.cleanExpired
      dsimp only
      split_ifs <;> simp
    · have hst : s.coils[i].stage = .clear := (hr i).2.2.2.2.2.1 h
      rw [holdsFan_armed (c := s.coils[i]) ha (by rw [hst]; decide)]
      exact holdsFan_armed ha (by rw [hst]; decide)
  | writeCompleted w success hw =>
    obtain ⟨coils, _, _, _, _, _, he, hc, -⟩ := writeCompleted_fields s w success
    rw [he]
    refine fansStand_of (s := s) rfl (fun _ => ⟨rfl, rfl⟩) (fun v => mustStop_of_records v rfl fun j => ?_) hs
    simp only [hc j]
    split_ifs <;> exact .rfl
  | brokenOff p cut hp =>
    exact fansStand_stopped (hp.imp id .inl) fun v => breakOff_fso s p cut v
  | startUp strap cut => exact @startUp_stands s strap cut
  | restartBegun strap hp => exact @restart_stands s strap hp hs
  | loaded =>
    obtain ⟨units, he, hfso⟩ := completeLoad_fields s
    rw [he]
    intro v
    obtain ⟨fso, hunit, hstop⟩ := hfso v
    show units[v].fso = .stop ↔ _
    have hcontact : units[v].contact = s.units[v].contact := by rw [hunit]
    rw [hunit]
    refine hstop.trans (Iff.symm ?_)
    refine mustStop_congr (s := { s with coils := s.startSettling.coils }) v ?_ rfl
    exact hcontact
  | _ => exact hs

/-- Settles O56: a step is one event, and every event keeps the shapes of the records and the standing of the outputs. -/
theorem stepKeepsFansSafe : Obligations.StepKeepsFansSafe := by
  intro s t hs h
  obtain ⟨now, pending, he⟩ := step_event h
  obtain ⟨hr, hf⟩ := hs
  exact ⟨event_shaped he hr, event_stands he hr hf⟩

end Sys2Proof.Machine
end

