-- ==== Sys2Proof/Proofs/DemandTables.lean ====
section
/-! The demand table as a table of counts: each of its operations keeps it sound, and says what becomes of the counts. -/

namespace Sys2Proof.Machine

variable {s t : State} {f : RxFrame} {i : Slot} {c : Coil} {ds ds' : List DemandEntry} {disp : Option Dispatch}
  {refs refs' dems dems' : DemandKey → Nat}

/-! ### Entries by their key -/

theorem demandOf_of_mem (hd : (ds.map (·.key)).Nodup) {e : DemandEntry} (he : e ∈ ds) : demandOf ds e.key = some e := by
  have hs : (demandOf ds e.key).isSome := demandOf_isSome.2 (List.mem_map_of_mem he)
  obtain ⟨d, hd'⟩ := Option.isSome_iff_exists.1 hs
  rw [hd', List.inj_on_of_nodup_map hd (demandOf_mem hd') he (demandOf_key hd')]

/-- A key finds an entry exactly where the table holds one. -/
theorem demandOf_eq_none_iff {k : DemandKey} : demandOf ds k = none ↔ ∀ e ∈ ds, e.key ≠ k := by
  simp [demandOf]

/-- An entry changed and then tested for removal (R101). -/
theorem demandOf_updateSweep {g : DemandEntry → DemandEntry} (hd : (ds.map (·.key)).Nodup) (hf : ∀ e, (g e).key = e.key)
    (k j : DemandKey) : demandOf (sweepDemand k (updateDemand k g ds)) j =
      if j = k then (demandOf ds k).bind fun e => if (g e).Unneeded then none else some (g e) else demandOf ds j := by
  unfold sweepDemand updateDemand
  rw [demandOf_mapFilter hd fun e => by split_ifs <;> simp [hf]]
  cases hj : demandOf ds j with
  | none =>
    split_ifs with h
    · rw [← h, hj]; rfl
    · rfl
  | some e =>
    obtain rfl := demandOf_key hj
    split_ifs with h
    · subst h
      rw [hj]
      simp only [Option.map_some, if_true, Option.bind_some, Option.filter, hf, beq_self_eq_true, Bool.true_and]
      by_cases hu : (g e).Unneeded
      · rw [if_pos hu, removable_iff.2 hu]; rfl
      · rw [if_neg hu, Bool.eq_false_iff.2 fun h => hu (removable_iff.1 h)]; rfl
    · simp [h, Option.filter]

/-! ### A safe table -/

/-- A demand table that is sound, holds no needless entry and no more than 64, agrees with the dispatcher, and counts `refs` and
`dems` truly (R96 to R98, R101, R107). -/
structure TableSafe (ds : List DemandEntry) (disp : Option Dispatch) (refs dems : DemandKey → Nat) : Prop where
  sound : Sound ds
  room : ds.length ≤ 64
  flight : ∀ k e, demandOf ds k = some e → e.inFlight.isSome → disp.map (·.key) = some k
  held : ∀ d, disp = some d → ∃ e, demandOf ds d.key = some e ∧ e.inFlight = some d.polarity
  needed : ∀ k e, demandOf ds k = some e → ¬ e.Unneeded
  counted : ∀ k e, demandOf ds k = some e → e.mapRefs = refs k ∧ e.demand = dems k
  covered : ∀ k, demandOf ds k = none → refs k = 0

theorem TableSafe.congr (h : TableSafe ds disp refs dems) (hr : ∀ k, refs' k = refs k) (hd : ∀ k, dems' k = dems k) :
    TableSafe ds disp refs' dems' := by
  rwa [funext hr, funext hd]

theorem tableSafe_nil : TableSafe [] none (fun _ => 0) (fun _ => 0) where
  sound := ⟨List.nodup_nil, fun _ h => by cases h⟩
  room := Nat.zero_le _
  flight _ _ h := by cases h
  held _ h := by cases h
  needed _ _ h := by cases h
  counted _ _ h := by cases h
  covered _ _ := rfl

/-- Every key of the second table is one of the first, or its entry is new there (R99). -/
def Grown (ds ds' : List DemandEntry) : Prop := ∀ e ∈ ds', (∀ d ∈ ds, d.key ≠ e.key) → e.Fresh

/-- No key is new. -/
theorem grown_of_keys (h : ∀ k, demandOf ds k = none → demandOf ds' k = none) : Grown ds ds' := by
  intro e he hn
  exact absurd rfl (demandOf_eq_none_iff.1 (h e.key (demandOf_eq_none_iff.2 hn)) e he)

theorem grown_refl (ds : List DemandEntry) : Grown ds ds := grown_of_keys fun _ h => h

/-! ### Contributions (R98) -/

theorem withDemand_inFlight (e : DemandEntry) (n stamp : Nat) : (e.withDemand n stamp).inFlight = e.inFlight := by
  unfold DemandEntry.withDemand; split_ifs <;> rfl

theorem contributeAll_length (stamp : Nat) (removed added : List DemandKey) (ds : List DemandEntry) :
    (contributeAll stamp removed added ds).length ≤ ds.length :=
  le_trans (List.length_filter_le _ _) (List.length_map _).le

/-- Contributions keep a table safe, with its demand counts changed by what they add and remove. -/
theorem TableSafe.contributeAll (h : TableSafe ds disp refs dems) (stamp : Nat) {removed added : List DemandKey}
    (hd : ∀ k, dems' k = if k ∈ added then dems k + 1 else if k ∈ removed then dems k - 1 else dems k) :
    TableSafe (contributeAll stamp removed added ds) disp refs dems' := by
  have find := demandOf_contributed h.sound.1 stamp removed added
  have entry (k : DemandKey) (e' : DemandEntry) (he : demandOf (Machine.contributeAll stamp removed added ds) k = some e') :
      ∃ e, demandOf ds k = some e ∧ e'.mapRefs = e.mapRefs ∧ e'.inFlight = e.inFlight
        ∧ e'.demand = (if k ∈ added then e.demand + 1 else if k ∈ removed then e.demand - 1 else e.demand) ∧ ¬ e'.Unneeded := by
    rw [find k] at he
    obtain ⟨e, he0, he⟩ := Option.bind_eq_some_iff.1 he
    refine ⟨e, he0, ?_⟩
    split_ifs at he ⊢ with ha hr hu
    · obtain rfl := Option.some.inj he
      exact ⟨withDemand_mapRefs _ _ _, withDemand_inFlight _ _ _, withDemand_demand _ _ _,
        fun hu => by simpa [withDemand_demand] using hu.2.1⟩
    · obtain rfl := Option.some.inj he
      exact ⟨withDemand_mapRefs _ _ _, withDemand_inFlight _ _ _, withDemand_demand _ _ _, hu⟩
    · obtain rfl := Option.some.inj he
      exact ⟨rfl, rfl, rfl, h.needed k e he0⟩
  refine ⟨h.sound.contributeAll stamp removed added, le_trans (contributeAll_length stamp removed added ds) h.room,
    fun k e' he hi => ?_, fun d hdisp => ?_, fun k e' he => ?_, fun k e' he => ?_, fun k hk => ?_⟩
  · obtain ⟨e, he0, -, hfl, -⟩ := entry k e' he
    exact h.flight k e he0 (hfl ▸ hi)
  · obtain ⟨e, he0, hp⟩ := h.held d hdisp
    have hi (n : Nat) : (e.withDemand n stamp).inFlight = some d.polarity := by rw [withDemand_inFlight, hp]
    rw [find d.key, he0, Option.bind_some]
    split_ifs with ha hr hu
    · exact ⟨_, rfl, hi _⟩
    · have := hu.2.2.2.2
      rw [hi] at this
      cases this
    · exact ⟨_, rfl, hi _⟩
    · exact ⟨e, rfl, hp⟩
  · obtain ⟨-, -, -, -, -, hu⟩ := entry k e' he
    exact hu
  · obtain ⟨e, he0, hm, -, hdm, -⟩ := entry k e' he
    obtain ⟨h1, h2⟩ := h.counted k e he0
    exact ⟨hm.trans h1, by rw [hdm, hd k, h2]⟩
  · rw [find k] at hk
    rcases hk0 : demandOf ds k with _ | e
    · exact h.covered k hk0
    · rw [hk0, Option.bind_some] at hk
      split_ifs at hk with ha hr hu
      rw [← (h.counted k e hk0).1, ← withDemand_mapRefs stamp (e.demand - 1) e]
      exact hu.1

/-! ### Map references (R97, R99) -/

/-- Map references added to distinct keys keep a table safe, where their new entries find room. -/
theorem TableSafe.addMapRefs (h : TableSafe ds disp refs dems) (stamp : Nat) {ks : List DemandKey} (hk : ks.Nodup)
    (hle : ∀ k, dems k ≤ refs k) (hr : ∀ k, refs' k = if k ∈ ks then refs k + 1 else refs k)
    (hroom : (addMapRefs stamp ks ds).length ≤ 64) : TableSafe (addMapRefs stamp ks ds) disp refs' dems := by
  have find := demandOf_addMapRefs (ds := ds) stamp hk
  have entry (k : DemandKey) (e' : DemandEntry) (he : demandOf (Machine.addMapRefs stamp ks ds) k = some e') :
      (∃ e, demandOf ds k = some e ∧ e'.mapRefs = (if k ∈ ks then e.mapRefs + 1 else e.mapRefs) ∧ e'.inFlight = e.inFlight
        ∧ e'.demand = e.demand ∧ ¬ e'.Unneeded)
      ∨ (demandOf ds k = none ∧ k ∈ ks ∧ e' = .new stamp k) := by
    rw [find k] at he
    split_ifs at he ⊢ with hm
    · have he := Option.some.inj he
      cases hk0 : demandOf ds k with
      | none =>
        rw [hk0] at he
        exact .inr ⟨rfl, hm, he.symm⟩
      | some e =>
        rw [hk0] at he
        subst he
        exact .inl ⟨e, rfl, rfl, rfl, rfl, fun hu => absurd hu.1 (Nat.succ_ne_zero _)⟩
    · exact .inl ⟨e', he, rfl, rfl, rfl, h.needed k e' he⟩
  refine ⟨h.sound.addMapRefs stamp ks, hroom, fun k e' he hi => ?_, fun d hdisp => ?_, fun k e' he => ?_, fun k e' he => ?_,
    fun k hn => ?_⟩
  · rcases entry k e' he with ⟨e, he0, -, hfl, -⟩ | ⟨-, -, rfl⟩
    · exact h.flight k e he0 (hfl ▸ hi)
    · cases hi
  · obtain ⟨e, he0, hp⟩ := h.held d hdisp
    rw [find d.key, he0]
    split_ifs
    · exact ⟨_, rfl, hp⟩
    · exact ⟨e, rfl, hp⟩
  · rcases entry k e' he with ⟨e, -, -, -, -, hu⟩ | ⟨-, -, rfl⟩
    · exact hu
    · exact fun hu => absurd hu.1 (by simp [DemandEntry.new])
  · rcases entry k e' he with ⟨e, he0, hm, -, hdm, -⟩ | ⟨hn, hm, rfl⟩
    · obtain ⟨h1, h2⟩ := h.counted k e he0
      exact ⟨by rw [hm, hr k, h1], hdm.trans h2⟩
    · have h0 := h.covered k hn
      have hd0 : dems k = 0 := Nat.le_zero.1 (h0 ▸ hle k)
      exact ⟨by rw [hr k, if_pos hm, h0]; rfl, hd0.symm⟩
  · rw [find k] at hn
    split_ifs at hn with hm
    rw [hr k, if_neg hm]
    exact h.covered k hn

theorem addMapRefs_grown (stamp : Nat) {ks : List DemandKey} (hk : ks.Nodup) (hs : Sound (addMapRefs stamp ks ds)) :
    Grown ds (addMapRefs stamp ks ds) := by
  intro e he hn
  have hf := demandOf_of_mem hs.1 he
  rw [demandOf_addMapRefs stamp hk, demandOf_eq_none_iff.2 hn] at hf
  split_ifs at hf
  rw [← Option.some.inj hf]
  exact DemandEntry.new_fresh stamp _

theorem addMapRef_length (stamp : Nat) (ds : List DemandEntry) (k : DemandKey) :
    (addMapRef stamp ds k).length = ds.length + if (demandOf ds k).isNone then 1 else 0 := by
  unfold addMapRef
  cases h : demandOf ds k with
  | none => simp
  | some e => simp [updateDemand]

/-- The table grows by the new pairs (R14, R100). -/
theorem addMapRefs_length (stamp : Nat) {ks : List DemandKey} (hk : ks.Nodup) (ds : List DemandEntry) :
    (addMapRefs stamp ks ds).length = ds.length + (newPairs ks ds).length := by
  induction ks generalizing ds with
  | nil => rfl
  | cons k ks ih =>
    obtain ⟨hn, hk⟩ := List.nodup_cons.1 hk
    have hrest : newPairs ks (addMapRef stamp ds k) = newPairs ks ds := by
      refine List.filter_congr fun j hj => ?_
      rw [demandOf_addMapRef, if_neg (by rintro rfl; exact hn hj)]
    have hstep : (addMapRefs stamp (k :: ks) ds).length = (addMapRefs stamp ks (addMapRef stamp ds k)).length := rfl
    rw [hstep, ih hk, addMapRef_length, hrest, newPairs, newPairs, List.filter_cons]
    split_ifs
    · rw [List.length_cons]; omega
    · omega

/-- Map references given up on distinct keys keep a table safe. -/
theorem TableSafe.dropMapRefs (h : TableSafe ds disp refs dems) {ks : List DemandKey} (hk : ks.Nodup)
    (hr : ∀ k, refs' k = if k ∈ ks then refs k - 1 else refs k) (hlen : (dropMapRefs ks ds).length ≤ ds.length) :
    TableSafe (dropMapRefs ks ds) disp refs' dems := by
  have find := demandOf_dropMapRefs hk h.sound.1
  have entry (k : DemandKey) (e' : DemandEntry) (he : demandOf (Machine.dropMapRefs ks ds) k = some e') :
      ∃ e, demandOf ds k = some e ∧ e'.mapRefs = (if k ∈ ks then e.mapRefs - 1 else e.mapRefs) ∧ e'.inFlight = e.inFlight
        ∧ e'.demand = e.demand ∧ ¬ e'.Unneeded := by
    rw [find k] at he
    split_ifs at he ⊢ with hm
    · obtain ⟨e, he0, he⟩ := Option.bind_eq_some_iff.1 he
      refine ⟨e, he0, ?_⟩
      dsimp only at he
      split_ifs at he with hu
      obtain rfl := Option.some.inj he
      exact ⟨rfl, rfl, rfl, hu⟩
    · exact ⟨e', he, rfl, rfl, rfl, h.needed k e' he⟩
  refine ⟨h.sound.dropMapRefs ks, le_trans hlen h.room, fun k e' he hi => ?_, fun d hdisp => ?_, fun k e' he => ?_,
    fun k e' he => ?_, fun k hn => ?_⟩
  · obtain ⟨e, he0, -, hfl, -⟩ := entry k e' he
    exact h.flight k e he0 (hfl ▸ hi)
  · obtain ⟨e, he0, hp⟩ := h.held d hdisp
    rw [find d.key, he0, Option.bind_some]
    dsimp only
    split_ifs with hm hu
    · have := hu.2.2.2.2
      rw [show ({ e with mapRefs := e.mapRefs - 1 } : DemandEntry).inFlight = some d.polarity from hp] at this
      cases this
    · exact ⟨_, rfl, hp⟩
    · exact ⟨e, rfl, hp⟩
  · obtain ⟨-, -, -, -, -, hu⟩ := entry k e' he
    exact hu
  · obtain ⟨e, he0, hm, -, hdm, -⟩ := entry k e' he
    obtain ⟨h1, h2⟩ := h.counted k e he0
    exact ⟨by rw [hm, hr k, h1], hdm.trans h2⟩
  · rw [find k] at hn
    split_ifs at hn with hm
    · rw [hr k, if_pos hm]
      rcases hk0 : demandOf ds k with _ | e
      · rw [h.covered k hk0]
      · rw [hk0, Option.bind_some] at hn
        dsimp only at hn
        split_ifs at hn with hu
        have h0 : e.mapRefs - 1 = 0 := hu.1
        rw [← (h.counted k e hk0).1]
        exact h0
    · rw [hr k, if_neg hm]
      exact h.covered k hn

theorem dropMapRefs_length (ks : List DemandKey) (ds : List DemandEntry) : (dropMapRefs ks ds).length ≤ ds.length := by
  induction ks generalizing ds with
  | nil => exact le_rfl
  | cons k ks ih =>
    refine le_trans (ih _) (le_trans (List.length_filter_le _ _) ?_)
    rw [updateDemand, List.length_map]

theorem removedAtOnce_congr {k : DemandKey} (h : demandOf ds' k = demandOf ds k) : removedAtOnce ds' k = removedAtOnce ds k := by
  unfold removedAtOnce
  rw [h]

theorem length_filter_remove {p : DemandEntry → Bool} {e : DemandEntry} (he : e ∈ ds) (hp : p e = false) :
    (ds.filter p).length + 1 ≤ ds.length := by
  refine Nat.lt_of_le_of_ne (List.length_filter_le _ _) fun h => ?_
  rw [List.filter_eq_self.1 (List.filter_sublist.eq_of_length h) e he] at hp
  cases hp

/-- An entry that losing its last reference removes at once is gone (R100, R101). -/
theorem dropMapRef_length (ds : List DemandEntry) (k : DemandKey) :
    (dropMapRef ds k).length + (removedAtOnce ds k).toNat ≤ ds.length := by
  have hlen : (Machine.updateDemand k (fun e => { e with mapRefs := e.mapRefs - 1 }) ds).length = ds.length := List.length_map _
  unfold dropMapRef
  cases hr : removedAtOnce ds k with
  | false => exact le_trans (List.length_filter_le _ _) hlen.le
  | true =>
    obtain ⟨e, he, hrem⟩ := (Option.any_eq_true _ _).1 hr
    rw [Bool.and_eq_true, decide_eq_true_iff] at hrem
    obtain ⟨h1, hrest⟩ := hrem
    rw [← hlen]
    refine length_filter_remove (e := { e with mapRefs := e.mapRefs - 1 })
      (List.mem_map.2 ⟨e, demandOf_mem he, if_pos (demandOf_key he)⟩) ?_
    have h0 : e.mapRefs - 1 = 0 := by omega
    have hgone : ({ e with mapRefs := e.mapRefs - 1 } : DemandEntry).removable = true := by
      unfold DemandEntry.removable
      rw [h0]
      exact hrest
    rw [hgone, demandOf_key he, beq_self_eq_true]
    rfl

/-- The table shrinks by the entries that a map change removes at once (R100). -/
theorem dropMapRefs_length_removed {ks : List DemandKey} (hk : ks.Nodup) (hd : (ds.map (·.key)).Nodup) :
    (dropMapRefs ks ds).length + ks.countP (removedAtOnce ds) ≤ ds.length := by
  induction ks generalizing ds with
  | nil => exact le_rfl
  | cons k ks ih =>
    obtain ⟨hn, hk⟩ := List.nodup_cons.1 hk
    have hrest : ks.countP (removedAtOnce (dropMapRef ds k)) = ks.countP (removedAtOnce ds) := by
      refine List.countP_congr fun j hj => ?_
      rw [removedAtOnce_congr (ds := ds) (by rw [demandOf_dropMapRef hd, if_neg (by rintro rfl; exact hn hj)])]
    have hd' : ((dropMapRef ds k).map (·.key)).Nodup := by
      refine List.Nodup.sublist (List.filter_sublist.map _) ?_
      rw [updateDemand_keys (f := fun e => { e with mapRefs := e.mapRefs - 1 }) fun _ => rfl]
      exact hd
    have h1 := ih hk hd'
    have h2 := dropMapRef_length ds k
    rw [hrest] at h1
    rw [List.countP_cons]
    have hstep : (dropMapRefs (k :: ks) ds).length = (dropMapRefs ks (dropMapRef ds k)).length := rfl
    rw [hstep]
    cases hr : removedAtOnce ds k with
    | false =>
      rw [hr, Bool.toNat_false] at h2
      rw [if_neg Bool.false_ne_true]
      omega
    | true =>
      rw [hr, Bool.toNat_true] at h2
      rw [if_pos rfl]
      omega

/-! ### One entry that changes (R107, R109 to R111, R114, R115) -/

/-- An entry that changes in neither count nor flight, and stays well formed and needed, keeps its table safe. -/
theorem TableSafe.updateDemand (h : TableSafe ds disp refs dems) {k : DemandKey} {g : DemandEntry → DemandEntry}
    (hf : ∀ e, (g e).key = e.key) (hm : ∀ e, (g e).mapRefs = e.mapRefs ∧ (g e).demand = e.demand ∧ (g e).inFlight = e.inFlight)
    (hw : ∀ e, demandOf ds k = some e → (g e).WellFormed ∧ ¬ (g e).Unneeded) :
    TableSafe (updateDemand k g ds) disp refs dems := by
  have find := demandOf_updateDemand (ds := ds) (k := k) hf
  have entry (j : DemandKey) (e' : DemandEntry) (he : demandOf (Machine.updateDemand k g ds) j = some e') :
      ∃ e, demandOf ds j = some e ∧ e'.mapRefs = e.mapRefs ∧ e'.demand = e.demand ∧ e'.inFlight = e.inFlight ∧ ¬ e'.Unneeded := by
    rw [find j] at he
    split_ifs at he with hj
    · obtain ⟨e, he0, rfl⟩ := Option.map_eq_some_iff.1 he
      obtain ⟨h1, h2, h3⟩ := hm e
      exact ⟨e, hj ▸ he0, h1, h2, h3, (hw e he0).2⟩
    · exact ⟨e', he, rfl, rfl, rfl, h.needed j e' he⟩
  refine ⟨h.sound.updateDemand hf fun e he hk => (hw e (hk ▸ demandOf_of_mem h.sound.1 he)).1, ?_, fun j e' he hi => ?_,
    fun d hdisp => ?_, fun j e' he => ?_, fun j e' he => ?_, fun j hn => ?_⟩
  · rw [Machine.updateDemand, List.length_map]; exact h.room
  · obtain ⟨e, he0, -, -, hfl, -⟩ := entry j e' he
    exact h.flight j e he0 (hfl ▸ hi)
  · obtain ⟨e, he0, hp⟩ := h.held d hdisp
    rw [find d.key]
    split_ifs with hj
    · rw [hj] at he0
      rw [he0]
      exact ⟨g e, rfl, (hm e).2.2.trans hp⟩
    · exact ⟨e, he0, hp⟩
  · obtain ⟨-, -, -, -, -, hu⟩ := entry j e' he
    exact hu
  · obtain ⟨e, he0, h1, h2, -⟩ := entry j e' he
    obtain ⟨h3, h4⟩ := h.counted j e he0
    exact ⟨h1.trans h3, h2.trans h4⟩
  · rw [find j] at hn
    split_ifs at hn with hj
    · exact h.covered j (hj ▸ Option.map_eq_none_iff.1 hn)
    · exact h.covered j hn

/-- An entry that the dispatcher takes is the one in flight (R107). -/
theorem TableSafe.takeEntry (h : TableSafe ds none refs dems) {e : DemandEntry} (he : e ∈ ds) (hq : e.queued.isSome) (p : Polarity) :
    TableSafe (Machine.updateDemand e.key (fun e => { e with queued := none, inFlight := some p, refreshDue := false }) ds)
      (some { key := e.key, polarity := p }) refs dems := by
  have he0 := demandOf_of_mem h.sound.1 he
  have find := demandOf_updateDemand (ds := ds) (k := e.key)
    (f := fun e => { e with queued := none, inFlight := some p, refreshDue := false }) fun _ => rfl
  have idle (j : DemandKey) (d : DemandEntry) (hd : demandOf ds j = some d) : ¬ d.inFlight.isSome := fun hi => by
    have := h.flight j d hd hi
    cases this
  refine ⟨h.sound.updateDemand (fun _ => rfl) fun d hd hk => ?_, ?_, fun j e' hj hi => ?_, fun d hdisp => ?_, fun j e' hj => ?_,
    fun j e' hj => ?_, fun j hn => ?_⟩
  · have hde : d = e := List.inj_on_of_nodup_map h.sound.1 hd he hk
    subst hde
    obtain ⟨-, hfault, hretry, -, -⟩ := h.sound.2 d hd
    refine ⟨fun h => (by cases h.1), fun hf => ?_, hretry, fun _ => rfl, fun hi => (by cases hi)⟩
    have := (hfault hf).1
    rw [this] at hq
    cases hq
  · rw [Machine.updateDemand, List.length_map]; exact h.room
  · rw [find j] at hj
    split_ifs at hj with hje
    · rw [hje]; rfl
    · exact absurd hi (idle j e' hj)
  · obtain rfl := Option.some.inj hdisp
    rw [find e.key, if_pos rfl, he0]
    exact ⟨_, rfl, rfl⟩
  · rw [find j] at hj
    split_ifs at hj with hje
    · obtain ⟨d, -, rfl⟩ := Option.map_eq_some_iff.1 hj
      exact fun hu => by cases hu.2.2.2.2
    · exact h.needed j e' hj
  · rw [find j] at hj
    split_ifs at hj with hje
    · obtain ⟨d, hd, rfl⟩ := Option.map_eq_some_iff.1 hj
      exact h.counted j d (hje ▸ hd)
    · exact h.counted j e' hj
  · rw [find j] at hn
    split_ifs at hn with hje
    · exact h.covered j (hje ▸ Option.map_eq_none_iff.1 hn)
    · exact h.covered j hn

/-- The frame in flight completes: its entry changes, and is gone where it then meets the conditions of removal (R109 to R111). -/
theorem TableSafe.complete {d : Dispatch} (h : TableSafe ds (some d) refs dems) {g : DemandEntry → DemandEntry}
    (hf : ∀ e, (g e).key = e.key) (hm : ∀ e, (g e).mapRefs = e.mapRefs ∧ (g e).demand = e.demand ∧ (g e).inFlight = none)
    (hw : ∀ e, e.WellFormed → e.inFlight.isSome → (g e).WellFormed) :
    TableSafe (sweepDemand d.key (Machine.updateDemand d.key g ds)) none refs dems := by
  have find := demandOf_updateSweep h.sound.1 hf d.key
  obtain ⟨e0, he0, hp0⟩ := h.held d rfl
  have entry (j : DemandKey) (e' : DemandEntry) (he : demandOf (sweepDemand d.key (Machine.updateDemand d.key g ds)) j = some e') :
      ∃ e, demandOf ds j = some e ∧ e'.mapRefs = e.mapRefs ∧ e'.demand = e.demand ∧ e'.inFlight = none ∧ ¬ e'.Unneeded := by
    rw [find j] at he
    split_ifs at he with hj
    · obtain ⟨e, he1, he⟩ := Option.bind_eq_some_iff.1 he
      split_ifs at he with hu
      obtain rfl := Option.some.inj he
      obtain ⟨h1, h2, h3⟩ := hm e
      exact ⟨e, hj ▸ he1, h1, h2, h3, hu⟩
    · refine ⟨e', he, rfl, rfl, ?_, h.needed j e' he⟩
      by_contra hn
      have := h.flight j e' he (Option.isSome_iff_ne_none.2 hn)
      exact hj (Option.some.inj this).symm
  refine ⟨(h.sound.updateDemand hf fun e he hk => ?_).sweepDemand, ?_, fun j e' he hi => ?_, fun _ hd => (by cases hd),
    fun j e' he => ?_, fun j e' he => ?_, fun j hn => ?_⟩
  · have hee : e = e0 := Option.some.inj ((demandOf_of_mem h.sound.1 he).symm.trans (hk ▸ he0))
    exact hw e (h.sound.2 e he) (by rw [hee, hp0]; rfl)
  · refine le_trans (List.length_filter_le _ _) ?_
    rw [Machine.updateDemand, List.length_map]; exact h.room
  · obtain ⟨e, -, -, -, h3, -⟩ := entry j e' he
    rw [h3] at hi
    cases hi
  · obtain ⟨-, -, -, -, -, hu⟩ := entry j e' he
    exact hu
  · obtain ⟨e, he1, h1, h2, -⟩ := entry j e' he
    obtain ⟨h3, h4⟩ := h.counted j e he1
    exact ⟨h1.trans h3, h2.trans h4⟩
  · rw [find j] at hn
    split_ifs at hn with hj
    · subst hj
      rw [he0, Option.bind_some] at hn
      split_ifs at hn with hu
      rw [← (h.counted d.key e0 he0).1, ← (hm e0).1]
      exact hu.1
    · exact h.covered j hn

theorem Grown.after {ds'' : List DemandEntry} (h : Grown ds' ds'') (hk : ∀ k, demandOf ds k = none → demandOf ds' k = none) :
    Grown ds ds'' := fun e he hn => h e he (demandOf_eq_none_iff.1 (hk e.key (demandOf_eq_none_iff.2 hn)))

theorem updateSweep_grown {g : DemandEntry → DemandEntry} (hd : (ds.map (·.key)).Nodup) (hf : ∀ e, (g e).key = e.key) (k : DemandKey) :
    Grown ds (sweepDemand k (updateDemand k g ds)) :=
  grown_of_keys fun j hj => by
    rw [demandOf_updateSweep hd hf]
    split_ifs with h
    · rw [← h, hj]; rfl
    · exact hj

theorem updateDemand_grown {g : DemandEntry → DemandEntry} (hf : ∀ e, (g e).key = e.key) (k : DemandKey) :
    Grown ds (updateDemand k g ds) :=
  grown_of_keys fun j hj => by
    rw [demandOf_updateDemand hf]
    split_ifs with h
    · rw [← h, hj]; rfl
    · exact hj

theorem contributeAll_grown (hd : (ds.map (·.key)).Nodup) (stamp : Nat) (removed added : List DemandKey) :
    Grown ds (contributeAll stamp removed added ds) :=
  grown_of_keys fun j hj => by rw [demandOf_contributed hd, hj]; rfl

theorem dropMapRefs_grown (hd : (ds.map (·.key)).Nodup) {ks : List DemandKey} (hk : ks.Nodup) : Grown ds (dropMapRefs ks ds) :=
  grown_of_keys fun j hj => by
    rw [demandOf_dropMapRefs hk hd, hj]
    split_ifs <;> rfl

end Sys2Proof.Machine
end

