-- ==== Sys2Proof/Proofs/DemandCounts.lean ====
section
/-! How many records refer to a key of the demand table and how many demand it, and how a change of one record moves these counts. -/

namespace Sys2Proof.Machine

variable {s t : State} {i : Slot} {c d : Coil} {k : DemandKey}

/-! ### Counts of records -/

/-- Where a predicate changes at one member of a list alone, the count of the members that have it changes by that one. -/
theorem filter_length_change {α : Type} {l : List α} (hl : l.Nodup) {a : α} (ha : a ∈ l) {p q : α → Bool}
    (h : ∀ b, b ≠ a → q b = p b) : (l.filter q).length + (p a).toNat = (l.filter p).length + (q a).toNat := by
  induction l with
  | nil => cases ha
  | cons b l ih =>
    obtain ⟨hb, hl⟩ := List.nodup_cons.1 hl
    rw [List.filter_cons, List.filter_cons]
    rcases List.mem_cons.1 ha with rfl | hm
    · have hrest : l.filter q = l.filter p := List.filter_congr fun x hx => h x (by rintro rfl; exact hb hx)
      rw [hrest]
      cases p a <;> cases q a <;> simp
    · have hne : b ≠ a := by rintro rfl; exact hb hm
      rw [h b hne]
      have := ih hl hm
      split_ifs
      · rw [List.length_cons, List.length_cons]; omega
      · exact this

/-- A record holds a reference on a key (R97). -/
def State.refersTo (s : State) (c : Coil) (k : DemandKey) : Bool := c.holdsReferences && (s.targetPairs c).contains k

/-- The references on a key (R97). -/
def State.refs (s : State) (k : DemandKey) : Nat := (s.referrers k).length

/-- The demand for a key (R98). -/
def State.dems (s : State) (k : DemandKey) : Nat := (s.demanders k).length

theorem mem_referrers : i ∈ s.referrers k ↔ s.refersTo s.coils[i] k = true := by
  unfold State.referrers
  rw [List.mem_filter]
  exact ⟨fun h => h.2, fun h => ⟨List.mem_finRange i, h⟩⟩

theorem refs_congr (h : ∀ j : Slot, t.refersTo t.coils[j] k = s.refersTo s.coils[j] k) : t.refs k = s.refs k :=
  congrArg List.length (List.filter_congr fun j _ => h j)

theorem dems_congr (h : ∀ j : Slot, t.demandedPairs t.coils[j] = s.demandedPairs s.coils[j]) : t.dems k = s.dems k :=
  congrArg List.length (List.filter_congr fun j _ => by rw [h j])

theorem demandedPairs_of_target (h : t.targetPairs = s.targetPairs) : t.demandedPairs = s.demandedPairs := by
  funext c
  unfold State.demandedPairs
  rw [h]

theorem refersTo_of_target (h : t.targetPairs = s.targetPairs) : t.refersTo = s.refersTo := by
  funext c k
  unfold State.refersTo
  rw [h]

theorem targetPairs_of_controllers (h : ∀ u : UnitNo, t.units[u].controller = s.units[u].controller) :
    t.targetPairs = s.targetPairs := by
  funext c
  unfold State.targetPairs
  rw [h]

/-- The references on a key after one record has changed. -/
theorem refs_put (hc : t.coils = tablePut s.coils i c) (hu : t.targetPairs = s.targetPairs) (k : DemandKey) :
    t.refs k + (s.refersTo s.coils[i] k).toNat = s.refs k + (s.refersTo c k).toNat := by
  have h := filter_length_change (List.nodup_finRange 48) (List.mem_finRange i)
    (p := fun j => s.refersTo s.coils[j] k) (q := fun j => t.refersTo t.coils[j] k)
    fun j hj => by rw [hc, tablePut_get_other _ _ hj, refersTo_of_target hu]
  have hi : t.refersTo t.coils[i] k = s.refersTo c k := by rw [hc, tablePut_get_same, refersTo_of_target hu]
  rw [hi] at h
  exact h

/-- The demand for a key after one record has changed. -/
theorem dems_put (hc : t.coils = tablePut s.coils i c) (hu : t.targetPairs = s.targetPairs) (k : DemandKey) :
    t.dems k + ((s.demandedPairs s.coils[i]).contains k).toNat = s.dems k + ((s.demandedPairs c).contains k).toNat := by
  have h := filter_length_change (List.nodup_finRange 48) (List.mem_finRange i)
    (p := fun j => (s.demandedPairs s.coils[j]).contains k) (q := fun j => (t.demandedPairs t.coils[j]).contains k)
    fun j hj => by rw [hc, tablePut_get_other _ _ hj, demandedPairs_of_target hu]
  have hi : (t.demandedPairs t.coils[i]).contains k = (s.demandedPairs c).contains k := by
    rw [hc, tablePut_get_same, demandedPairs_of_target hu]
  rw [hi] at h
  exact h

theorem mem_demandedPairs : k ∈ s.demandedPairs c ↔ c.lifecycle = .armed ∧ k ∈ s.targetPairs c ∧ c.stage.demands k.kind = true := by
  unfold State.demandedPairs
  split_ifs with h
  · rw [List.mem_filter]
    exact ⟨fun hm => ⟨h, hm⟩, fun hm => hm.2⟩
  · exact ⟨fun hm => (by cases hm), fun hm => absurd hm.1 h⟩

theorem refersTo_of_demanded (h : (s.demandedPairs c).contains k = true) : s.refersTo c k = true := by
  obtain ⟨ha, hk, -⟩ := mem_demandedPairs.1 (List.contains_iff_mem.1 h)
  simp [State.refersTo, Coil.holdsReferences, ha, hk]

/-- A key is demanded by no more records than refer to it. -/
theorem dems_le_refs (s : State) (k : DemandKey) : s.dems k ≤ s.refs k := by
  have h : s.demanders k = (s.referrers k).filter fun i => (s.demandedPairs s.coils[i]).contains k := by
    unfold State.demanders State.referrers
    rw [List.filter_filter]
    refine List.filter_congr fun i _ => ?_
    rw [Bool.eq_iff_iff, Bool.and_eq_true]
    exact ⟨fun h => ⟨h, refersTo_of_demanded h⟩, fun h => h.1⟩
  rw [State.dems, h]
  exact List.length_filter_le _ _

/-! ### Target pairs -/

/-- No pair of a definition occurs twice (R5). -/
theorem pairsOf_nodup (a : Option Nat) (kind : Option CoilKind) (m : Option ActionMap) : (pairsOf a kind m).Nodup := by
  rcases m with _ | ⟨v, p, b⟩
  · cases a <;> simp [pairsOf]
  · by_cases hs : kind = some .steam <;> cases a <;> cases v <;> cases p <;> cases b <;> simp [pairsOf, hs]

theorem targetPairs_nodup (s : State) (c : Coil) : (s.targetPairs c).Nodup := pairsOf_nodup _ _ _

/-- The pairs of a record follow from its unit, its kind and its profile (R5). -/
theorem targetPairs_congr (hunit : d.unit = c.unit) (hkind : d.kind = c.kind) (hprofile : d.profile = c.profile) :
    s.targetPairs d = s.targetPairs c := by
  have hc : s.units[d.unit].controller = s.units[c.unit].controller := congrArg (fun u : UnitNo => s.units[u].controller) hunit
  unfold State.targetPairs
  rw [hc, hkind, hprofile]

theorem demandedPairs_congr (hp : s.targetPairs d = s.targetPairs c) (hl : d.lifecycle = c.lifecycle)
    (hst : d.stage.demands = c.stage.demands) : s.demandedPairs d = s.demandedPairs c := by
  unfold State.demandedPairs
  rw [hp, hl, hst]

/-- A record outside ARMED demands nothing (R90). -/
theorem demandedPairs_rest (h : c.lifecycle ≠ .armed) : s.demandedPairs c = [] := if_neg h

/-- A record in CLEAR or WATCH demands nothing (R90). -/
theorem demandedPairs_calm (h : c.stage = .clear ∨ c.stage = .watch) : s.demandedPairs c = [] := by
  unfold State.demandedPairs
  rcases h with h | h <;> rw [h] <;> split_ifs
  · exact List.filter_eq_nil_iff.2 fun _ _ => Bool.false_ne_true
  · rfl
  · exact List.filter_eq_nil_iff.2 fun _ _ => Bool.false_ne_true
  · rfl

/-! ### A sound table with true counts -/

/-- The demand table of a state is safe with the counts of its records. -/
def State.Tabled (s : State) : Prop := TableSafe s.demands s.dispatch s.refs s.dems

theorem demandSafe_iff : s.DemandSafe ↔ s.RecordsShaped ∧ s.Tabled := by
  constructor
  · rintro ⟨hs, ⟨hroom, hwf, ⟨hflight, hheld⟩, hneeded⟩, hcount, hcover⟩
    refine ⟨hs, hwf, hroom, fun k e he hi => ?_, fun d hd => ?_, fun k e he => hneeded e (demandOf_mem he), fun k e he => ?_,
      fun k hn => ?_⟩
    · rw [hflight e (demandOf_mem he) hi, demandOf_key he]
    · obtain ⟨e, he, hk, hp⟩ := hheld d hd
      exact ⟨e, hk ▸ demandOf_of_mem hwf.1 he, hp⟩
    · have h := hcount e (demandOf_mem he)
      rw [demandOf_key he] at h
      exact h
    · refine List.length_eq_zero_iff.2 (List.eq_nil_iff_forall_not_mem.2 fun i hi => ?_)
      obtain ⟨e, he, hk⟩ := hcover i k hi
      exact demandOf_eq_none_iff.1 hn e he hk
  · rintro ⟨hs, h⟩
    have of (e : DemandEntry) (he : e ∈ s.demands) := demandOf_of_mem h.sound.1 he
    refine ⟨hs, ⟨h.room, h.sound, ⟨fun e he => h.flight e.key e (of e he), fun d hd => ?_⟩, fun e he => h.needed e.key e (of e he)⟩,
      fun e he => h.counted e.key e (of e he), fun i k hi => ?_⟩
    · obtain ⟨e, he, hp⟩ := h.held d hd
      exact ⟨e, demandOf_mem he, demandOf_key he, hp⟩
    · by_contra hn
      have h0 := h.covered k (demandOf_eq_none_iff.2 fun e he hk => hn ⟨e, he, hk⟩)
      rw [List.length_eq_zero_iff.1 h0] at hi
      cases hi

/-- Records that refer and demand as before leave a table safe. -/
theorem tabled_congr (hd : t.demands = s.demands) (hp : t.dispatch = s.dispatch)
    (hr : ∀ (j : Slot) k, t.refersTo t.coils[j] k = s.refersTo s.coils[j] k)
    (hm : ∀ j : Slot, t.demandedPairs t.coils[j] = s.demandedPairs s.coils[j]) (hs : s.Tabled) : t.Tabled := by
  unfold State.Tabled
  rw [hd, hp]
  exact hs.congr (fun k => refs_congr fun j => hr j k) fun k => dems_congr hm

theorem tabled_of_fields (hd : t.demands = s.demands) (hp : t.dispatch = s.dispatch) (hc : t.coils = s.coils)
    (hu : t.targetPairs = s.targetPairs) (hs : s.Tabled) : t.Tabled :=
  tabled_congr hd hp (fun j k => by rw [hc, refersTo_of_target hu]) (fun j => by rw [hc, demandedPairs_of_target hu]) hs

/-- The references on a key, where one record changes. -/
theorem refs_moved (hc : t.coils = tablePut s.coils i c) (hu : t.targetPairs = s.targetPairs)
    (hr : ∀ k, s.refersTo c k = s.refersTo s.coils[i] k) (k : DemandKey) : t.refs k = s.refs k := by
  have h := refs_put hc hu k
  rw [hr k] at h
  omega

theorem dems_moved (hc : t.coils = tablePut s.coils i c) (hu : t.targetPairs = s.targetPairs)
    (hm : s.demandedPairs c = s.demandedPairs s.coils[i]) (k : DemandKey) : t.dems k = s.dems k := by
  have h := dems_put hc hu k
  rw [hm] at h
  omega

/-- A record that changes what it demands, and hands its contributions to the table, keeps the table safe (R91, R98). -/
theorem tabled_changed (hc : t.coils = tablePut s.coils i c) (hu : t.targetPairs = s.targetPairs)
    (hd : t.demands = (s.changeCoil i c).demands) (hp : t.dispatch = s.dispatch)
    (hr : ∀ k, s.refersTo c k = s.refersTo s.coils[i] k) (hs : s.Tabled) : t.Tabled := by
  unfold State.Tabled
  rw [hd, hp]
  refine TableSafe.congr (TableSafe.contributeAll (dems' := t.dems) hs s.joinStamp fun k => ?_) (refs_moved hc hu hr) fun _ => rfl
  have h := dems_put hc hu k
  simp only [List.mem_filter, decide_eq_true_eq]
  by_cases ha : k ∈ s.demandedPairs c <;> by_cases hb : k ∈ s.demandedPairs s.coils[i] <;>
    simp only [ha, hb, Bool.toNat_true, Bool.toNat_false, List.contains_eq_mem, decide_true, decide_false,
      not_true_eq_false, not_false_eq_true, and_true, and_false, if_true, if_false] at h ⊢ <;> omega

/-- A record that changes in nothing that it refers to or demands keeps the table safe. -/
theorem tabled_put (hc : t.coils = tablePut s.coils i c) (hu : t.targetPairs = s.targetPairs) (hd : t.demands = s.demands)
    (hp : t.dispatch = s.dispatch) (hr : ∀ k, s.refersTo c k = s.refersTo s.coils[i] k)
    (hm : s.demandedPairs c = s.demandedPairs s.coils[i]) (hs : s.Tabled) : t.Tabled := by
  unfold State.Tabled
  rw [hd, hp]
  exact TableSafe.congr hs (refs_moved hc hu hr) (dems_moved hc hu hm)

end Sys2Proof.Machine
end

