-- ==== Sys2Proof/Proofs/DemandMoves.lean ====
section
/-! The moves of the Stage Machine keep the demand table safe and make no entry. -/

namespace Sys2Proof.Machine

variable {s t u : State} {i : Slot} {c d : Coil} {k : DemandKey}

/-! ### Changes that make no entry -/

/-- A change keeps a safe table safe and makes no entry in it. -/
structure State.TableKept (s t : State) : Prop where
  tabled : s.Tabled → t.Tabled
  keys : s.Tabled → ∀ k, demandOf s.demands k = none → demandOf t.demands k = none

theorem State.TableKept.refl (s : State) : s.TableKept s := ⟨id, fun _ _ h => h⟩

theorem State.TableKept.trans (h : s.TableKept t) (h' : t.TableKept u) : s.TableKept u :=
  ⟨fun hs => h'.tabled (h.tabled hs), fun hs k hk => h'.keys (h.tabled hs) k (h.keys hs k hk)⟩

/-- What the demand table and its counts depend on is as it was. -/
structure State.TableSame (s t : State) : Prop where
  demands : t.demands = s.demands
  dispatch : t.dispatch = s.dispatch
  coils : t.coils = s.coils
  pairs : t.targetPairs = s.targetPairs

theorem State.TableSame.trans (h : s.TableSame t) (h' : t.TableSame u) : s.TableSame u :=
  ⟨h'.demands.trans h.demands, h'.dispatch.trans h.dispatch, h'.coils.trans h.coils, h'.pairs.trans h.pairs⟩

theorem State.TableSame.kept (h : s.TableSame t) : s.TableKept t :=
  ⟨tabled_of_fields h.demands h.dispatch h.coils h.pairs, fun _ _ hk => h.demands ▸ hk⟩

theorem markDirty_tableSame (s : State) (it : Item) : s.TableSame (s.markDirty it) :=
  ⟨markDirty_demands it, markDirty_dispatch s it, markDirty_coils s it,
    targetPairs_of_controllers fun u => by rw [markDirty_units]⟩

theorem setNotice_tableSame (s : State) (i : Slot) : s.TableSame (s.setNotice i) := ⟨rfl, rfl, rfl, rfl⟩

theorem endEvent_tableSame (s : State) : s.TableSame s.endEvent :=
  ⟨endEvent_demands s, endEvent_dispatch s, endEvent_coils s, targetPairs_of_controllers fun u => by rw [endEvent_units]⟩

/-- A unit entry that keeps its controller station leaves every target pair (R5). -/
theorem setUnit_tableSame (s : State) (u : UnitNo) {e : UnitEntry} (h : e.controller = s.units[u].controller) :
    s.TableSame (s.setUnit u e) :=
  ⟨rfl, rfl, rfl, targetPairs_of_controllers fun v => by
    rw [setUnit_units, tablePut_get]
    split_ifs with hv
    · subst hv; exact h
    · rfl⟩

theorem addFault_tableSame (s : State) (u : UnitNo) (k : FaultKind) : s.TableSame (s.addFault u k) := setUnit_tableSame s u rfl

theorem recomputeFso_tableSame (s : State) (u : UnitNo) : s.TableSame (s.recomputeFso u) := setUnit_tableSame s u rfl

theorem refersTo_congr (hp : s.targetPairs d = s.targetPairs c) (hh : d.holdsReferences = c.holdsReferences) (k : DemandKey) :
    s.refersTo d k = s.refersTo c k := by
  unfold State.refersTo
  rw [hp, hh]

/-- A record that changes with its contributions handed over, and refers to the keys it did, makes no entry (R91). -/
theorem changeCoil_tableKept (hr : ∀ k, s.refersTo c k = s.refersTo s.coils[i] k) : s.TableKept (s.changeCoil i c) :=
  ⟨tabled_changed (changeCoil_coils s i c) rfl rfl rfl hr, fun hs k hk => by rw [changeCoil_demandOf hs.sound.1, hk]; rfl⟩

theorem tableKept_of_changeCoil (h : (s.changeCoil i c).TableSame t) (hr : ∀ k, s.refersTo c k = s.refersTo s.coils[i] k) :
    s.TableKept t :=
  (changeCoil_tableKept hr).trans h.kept

theorem setCoil_tableKept (hr : ∀ k, s.refersTo c k = s.refersTo s.coils[i] k)
    (hm : s.demandedPairs c = s.demandedPairs s.coils[i]) : s.TableKept (s.setCoil i c) :=
  ⟨tabled_put (setCoil_coils s i c) rfl rfl rfl hr hm, fun _ _ hk => hk⟩

theorem tableKept_of_setCoil (h : (s.setCoil i c).TableSame t) (hr : ∀ k, s.refersTo c k = s.refersTo s.coils[i] k)
    (hm : s.demandedPairs c = s.demandedPairs s.coils[i]) : s.TableKept t :=
  (setCoil_tableKept hr hm).trans h.kept

/-! ### Moves -/

/-- PROVE demands what FAN_RESTART does (R84, R90). -/
theorem prove_demands : Stage.demands (.recovery .prove) = Stage.demands (.recovery .fanRestart) := rfl

/-- STEP_DOWN begins with what PROVE demands (R86, R90). -/
theorem stepDown_demands : Stage.demands (.recovery (.stepDown .empty)) = Stage.demands (.recovery .prove) := by
  funext k
  cases k <;> rfl

theorem trip_tableKept (s : State) (i : Slot) (cause : Cause) : s.TableKept (s.trip i cause) := by
  have hc : s.TableKept (s.changeCoil i (s.coils[i].trip cause)) := changeCoil_tableKept fun _ => rfl
  exact hc.trans ((addFault_tableSame _ _ _).trans ((recomputeFso_tableSame _ _).trans
    ((markDirty_tableSame _ _).trans (setNotice_tableSame _ i)))).kept

theorem enterArmed_tableKept (h : s.coils[i].lifecycle = .settling) : s.TableKept (s.enterArmed i) := by
  have hh : (s.coils[i].enterArmed s.now).holdsReferences = s.coils[i].holdsReferences := by
    simp [Coil.holdsReferences, Coil.enterArmed, h, -Fin.getElem_fin]
  have hc : s.TableKept (s.changeCoil i (s.coils[i].enterArmed s.now)) := changeCoil_tableKept (refersTo_congr rfl hh)
  refine hc.trans (State.TableKept.trans ?_ ((recomputeFso_tableSame _ _).trans (setNotice_tableSame _ i)).kept)
  split_ifs
  · exact .refl _
  · exact (addFault_tableSame _ _ _).kept

theorem finishStepDown_tableKept (s : State) (i : Slot) : s.TableKept (s.finishStepDown i) :=
  tableKept_of_changeCoil ((markDirty_tableSame _ _).trans (setNotice_tableSame _ i)) fun _ => rfl

theorem stageMove_tableKept (h : StageMove s t) (hs : s.RecordsShaped) : s.TableKept t := by
  cases h with
  | evaluated i dose r next => exact setCoil_tableKept (fun _ => rfl) rfl
  | evalRestarted i next => exact setCoil_tableKept (fun _ => rfl) rfl
  | faulted u k => exact (addFault_tableSame s u k).kept
  | tripped i cause => exact trip_tableKept s i cause
  | staged i st cause => exact tableKept_of_changeCoil (setNotice_tableSame _ i) fun _ => rfl
  | proved i h =>
    exact tableKept_of_setCoil (setNotice_tableSame _ i) (fun _ => rfl) (demandedPairs_congr rfl rfl (by rw [h]; exact prove_demands))
  | held i next => exact setCoil_tableKept (fun _ => rfl) rfl
  | steppedDown i h =>
    have hp := Coil.Shaped.prove (hs i) h
    exact tableKept_of_setCoil (setNotice_tableSame _ i) (fun _ => rfl)
      (demandedPairs_congr rfl rfl (by rw [hp]; exact stepDown_demands))
  | dropped i d k => exact changeCoil_tableKept fun _ => rfl
  | cleared i d => exact finishStepDown_tableKept s i
  | armed i h => exact enterArmed_tableKept h
  | overdue i => exact tableKept_of_setCoil (setNotice_tableSame _ i) (fun _ => rfl) rfl

theorem stageMoves_tableKept (h : StageMoves s t) (hs : s.RecordsShaped) : s.TableKept t := by
  induction h with
  | refl => exact .refl s
  | tail hst hm ih => exact ih.trans (stageMove_tableKept hm (stageMoves_shaped hst hs))

end Sys2Proof.Machine
end

