-- ==== Sys2Proof/Proofs/DemandRequests.lean ====
section
/-! The requests that a step takes keep the demand table safe; its new entries are those of ARM and of a commit's map change. -/

namespace Sys2Proof.Machine

variable {s t u : State} {f : RxFrame} {i : Slot} {c d : Coil} {k : DemandKey}

/-! ### Arming and suspending -/

theorem refersTo_outside (h : c.holdsReferences = false) (k : DemandKey) : s.refersTo c k = false := by
  rw [State.refersTo, h, Bool.false_and]

theorem holdsReferences_outside (h : c.lifecycle = .draft ∨ c.lifecycle = .suspended ∨ c.lifecycle = .vacant) :
    c.holdsReferences = false := by
  unfold Coil.holdsReferences
  rcases h with h | h | h <;> rw [h] <;> rfl

theorem refersTo_holding (h : c.holdsReferences = true) (k : DemandKey) : s.refersTo c k = (s.targetPairs c).contains k := by
  rw [State.refersTo, h, Bool.true_and]

theorem demandedPairs_outside (h : c.holdsReferences = false) : s.demandedPairs c = [] :=
  demandedPairs_rest fun ha => by simp [Coil.holdsReferences, ha] at h

/-- A safe table stays safe, and an entry that it then holds and did not hold is as R99 creates it. -/
structure State.TableGrows (s t : State) : Prop where
  tabled : s.Tabled → t.Tabled
  grown : s.Tabled → Grown s.demands t.demands

theorem State.TableKept.grows (h : s.TableKept t) : s.TableGrows t := ⟨h.tabled, fun hs => grown_of_keys (h.keys hs)⟩

theorem State.TableGrows.same (h : s.TableGrows t) (h' : t.TableSame u) : s.TableGrows u :=
  ⟨fun hs => h'.kept.tabled (h.tabled hs), fun hs => h'.demands ▸ h.grown hs⟩

/-- A record takes a reference on each of its pairs, where their new entries find room (R14, R15). -/
theorem settle_tableGrows (hc : t.coils = tablePut s.coils i c) (hu : t.targetPairs = s.targetPairs)
    (hd : t.demands = addMapRefs s.joinStamp (s.targetPairs c) s.demands) (hp : t.dispatch = s.dispatch)
    (hold : s.coils[i].holdsReferences = false) (hnew : c.lifecycle = .settling)
    (hroom : (newPairs (s.targetPairs c) s.demands).length ≤ 64 - s.demands.length) : s.TableGrows t := by
  have hnd := targetPairs_nodup s c
  have hquiet : s.coils[i].lifecycle ≠ .armed := fun h => by simp [Coil.holdsReferences, h, -Fin.getElem_fin] at hold
  refine ⟨fun hs => ?_, fun hs => hd ▸ addMapRefs_grown _ hnd (hs.sound.addMapRefs _ _)⟩
  unfold State.Tabled
  rw [hd, hp]
  refine TableSafe.congr (TableSafe.addMapRefs (refs' := t.refs) hs s.joinStamp hnd (dems_le_refs s) (fun k => ?_) ?_)
    (fun _ => rfl) (dems_moved hc hu ?_)
  · have h := refs_put hc hu k
    rw [refersTo_outside hold, refersTo_holding (by simp [Coil.holdsReferences, hnew])] at h
    by_cases hk : k ∈ s.targetPairs c <;> simp [hk] at h ⊢ <;> exact h
  · rw [addMapRefs_length _ hnd]
    have := hs.room
    omega
  · rw [demandedPairs_rest hquiet, demandedPairs_rest (by rw [hnew]; decide)]

theorem arm_tableGrows (hl : s.coils[i].lifecycle = .draft ∨ s.coils[i].lifecycle = .suspended)
    (hf : s.pairsFit s.coils[i] = true) : s.TableGrows (s.arm i) := by
  have hp : s.targetPairs (s.coils[i].startsSettling s.now) = s.targetPairs s.coils[i] := targetPairs_congr rfl rfl rfl
  let t : State := ({ s with demands := addMapRefs s.joinStamp (s.targetPairs s.coils[i]) s.demands } : State).setCoil i
    (s.coils[i].startsSettling s.now)
  have ht : s.TableGrows t := settle_tableGrows (i := i) (c := s.coils[i].startsSettling s.now) rfl rfl (by rw [hp]; rfl) rfl
    (holdsReferences_outside (hl.imp_right .inl)) rfl (by rw [hp]; exact of_decide_eq_true hf)
  exact ht.same ((setNotice_tableSame _ i).trans ((markDirty_tableSame _ _).trans (endEvent_tableSame _)))

/-- A record gives up its reference on each of its pairs; it demands nothing (R20, R21). -/
theorem suspend_tableKept (h : s.coils[i].maySuspend = true) : s.TableKept (s.suspend i) := by
  have hnd := targetPairs_nodup s s.coils[i]
  have hold : s.coils[i].holdsReferences = true := by
    rcases maySuspend_iff.1 h with ⟨h, -⟩ | ⟨h, -⟩ <;> simp [Coil.holdsReferences, h, -Fin.getElem_fin]
  have hquiet : s.demandedPairs s.coils[i] = [] := by
    rcases maySuspend_iff.1 h with ⟨-, h⟩ | ⟨h, -⟩
    · exact demandedPairs_calm h
    · exact demandedPairs_rest (by rw [h]; decide)
  let t : State := ({ s with demands := dropMapRefs (s.targetPairs s.coils[i]) s.demands } : State).setCoil i s.coils[i].suspended
  have hc : t.coils = tablePut s.coils i s.coils[i].suspended := rfl
  have ht : s.TableKept t := by
    refine ⟨fun hs => ?_, fun hs k hk => ?_⟩
    · refine TableSafe.congr (TableSafe.dropMapRefs (refs' := t.refs) hs hnd (fun k => ?_) (dropMapRefs_length _ _))
        (fun _ => rfl) (dems_moved hc rfl ?_)
      · have h := refs_put hc rfl k
        rw [refersTo_outside (c := s.coils[i].suspended) rfl, refersTo_holding hold] at h
        by_cases hk : k ∈ s.targetPairs s.coils[i] <;> simp [hk, -Fin.getElem_fin] at h ⊢ <;> omega
      · rw [hquiet, demandedPairs_rest (c := s.coils[i].suspended) (by simp [Coil.suspended])]
    · show demandOf (dropMapRefs (s.targetPairs s.coils[i]) s.demands) k = none
      rw [demandOf_dropMapRefs hnd hs.sound.1, hk]
      split_ifs <;> rfl
  exact ht.trans ((setNotice_tableSame _ i).trans ((markDirty_tableSame _ _).trans (endEvent_tableSame _))).kept

/-! ### Records outside SETTLING and ARMED -/

/-- A record that holds no reference before or after a change makes none in the table. -/
theorem outside_tableKept (hc : t.coils = tablePut s.coils i c) (hu : t.targetPairs = s.targetPairs) (hd : t.demands = s.demands)
    (hp : t.dispatch = s.dispatch) (hold : s.coils[i].holdsReferences = false) (hnew : c.holdsReferences = false) : s.TableKept t := by
  refine ⟨tabled_put hc hu hd hp (fun k => ?_) ?_, fun _ _ hk => hd ▸ hk⟩
  · rw [refersTo_outside hold, refersTo_outside hnew]
  · rw [demandedPairs_outside hold, demandedPairs_outside hnew]

/-! ### Commits -/

theorem lostPairs_nodup (s : State) (c d : Coil) : (s.lostPairs c d).Nodup := (targetPairs_nodup s c).filter _

theorem mem_lostPairs : k ∈ s.lostPairs c d ↔ k ∈ s.targetPairs c ∧ k ∉ s.targetPairs d := by
  unfold State.lostPairs
  rw [List.mem_filter, decide_eq_true_eq]

theorem lostPairs_same (h : s.targetPairs d = s.targetPairs c) : s.lostPairs c d = [] :=
  List.eq_nil_iff_forall_not_mem.2 fun k hk => by
    obtain ⟨h1, h2⟩ := mem_lostPairs.1 hk
    exact h2 (h ▸ h1)

/-- A commit that stages no map leaves the target pairs (R147, R149, R152). -/
theorem targetPairs_into (st : Staging) (hp : st.CompleteFor c) (hm : st.map = none) :
    s.targetPairs ((st.over c).into c) = s.targetPairs c := by
  have hmap : ((st.over c).into c).profile.map (·.map) = c.profile.map (·.map) := by
    show (st.over c).profile.map (·.map) = c.profile.map (·.map)
    cases hc : c.profile with
    | some p =>
      cases hl : st.limits <;> cases hd : st.dose <;> cases ht : st.timing <;>
        simp [Staging.over, Candidate.profile, hc, hm, hl, hd, ht]
    | none =>
      have hl : st.limits = none := by
        rcases hp with h | h | ⟨-, -, -, h⟩
        · rw [hc] at h; cases h
        · exact Option.not_isSome_iff_eq_none.1 fun hs => h (.inl hs)
        · rw [hm] at h; cases h
      simp [Staging.over, Candidate.profile, hc, hl]
  unfold State.targetPairs
  exact congrArg (pairsOf _ _) hmap

/-- A map change of a record that demands nothing it did not, and holds its references: the pairs it loses are given up before the
pairs it gains are taken (R97, R100, R152). -/
theorem remap_tableGrows (hc : t.coils = tablePut s.coils i c) (hu : t.targetPairs = s.targetPairs)
    (hd : t.demands = addMapRefs s.joinStamp (s.gainedPairs s.coils[i] c) (dropMapRefs (s.lostPairs s.coils[i] c) s.demands))
    (hp : t.dispatch = s.dispatch) (hold : s.coils[i].holdsReferences = true) (hnew : c.holdsReferences = true)
    (hm : s.demandedPairs c = s.demandedPairs s.coils[i]) (hf : s.mapFits s.coils[i] c = true) : s.TableGrows t := by
  have hlost := lostPairs_nodup s s.coils[i] c
  have hgained : (s.gainedPairs s.coils[i] c).Nodup := lostPairs_nodup s c s.coils[i]
  have disjoint (k : DemandKey) (hk : k ∈ s.gainedPairs s.coils[i] c) : k ∉ s.lostPairs s.coils[i] c := fun hl =>
    (mem_lostPairs.1 hl).2 (mem_lostPairs.1 hk).1
  have hdems := dems_moved hc hu hm
  have hrefs (k : DemandKey) : t.refs k = if k ∈ s.gainedPairs s.coils[i] c then
      (if k ∈ s.lostPairs s.coils[i] c then s.refs k - 1 else s.refs k) + 1
      else if k ∈ s.lostPairs s.coils[i] c then s.refs k - 1 else s.refs k := by
    have h := refs_put hc hu k
    rw [refersTo_holding hold, refersTo_holding hnew] at h
    simp only [State.gainedPairs, mem_lostPairs]
    by_cases h1 : k ∈ s.targetPairs s.coils[i] <;> by_cases h2 : k ∈ s.targetPairs c <;>
      simp [h1, h2, -Fin.getElem_fin] at h ⊢ <;> omega
  have find (hs : s.Tabled) := demandOf_dropMapRefs hlost hs.sound.1
  have hnone (hs : s.Tabled) (k : DemandKey) (hk : demandOf s.demands k = none) :
      demandOf (dropMapRefs (s.lostPairs s.coils[i] c) s.demands) k = none := by
    rw [find hs, hk]
    split_ifs <;> rfl
  refine ⟨fun hs => ?_, fun hs => hd ▸ (addMapRefs_grown _ hgained ((hs.sound.dropMapRefs _).addMapRefs _ _)).after (hnone hs)⟩
  have hdrop := TableSafe.dropMapRefs (refs' := fun k => if k ∈ s.lostPairs s.coils[i] c then s.refs k - 1 else s.refs k) hs hlost
    (fun _ => rfl) (dropMapRefs_length _ _)
  unfold State.Tabled
  rw [hd, hp]
  refine TableSafe.congr (TableSafe.addMapRefs (refs' := t.refs) hdrop s.joinStamp hgained (fun k => ?_) hrefs ?_)
    (fun _ => rfl) hdems
  · have hle := dems_le_refs t k
    have hle' := dems_le_refs s k
    rw [hdems k, hrefs k] at hle
    by_cases hg : k ∈ s.gainedPairs s.coils[i] c
    · rw [if_neg (disjoint k hg)]
      exact hle'
    · rw [if_neg hg] at hle
      exact hle
  · have hnew : newPairs (s.gainedPairs s.coils[i] c) (dropMapRefs (s.lostPairs s.coils[i] c) s.demands) =
        newPairs (s.gainedPairs s.coils[i] c) s.demands :=
      List.filter_congr fun k hk => by rw [find hs, if_neg (disjoint k hk)]
    have hshrink := dropMapRefs_length_removed hlost hs.sound.1
    have hfit : (newPairs (s.gainedPairs s.coils[i] c) s.demands).length
        ≤ 64 - s.demands.length + (s.lostPairs s.coils[i] c).countP (removedAtOnce s.demands) := of_decide_eq_true hf
    have hroom := hs.room
    rw [addMapRefs_length _ hgained, hnew]
    omega

theorem commit_demands (s : State) (n : ClaimNo) (cl : Claim) (d : Coil) (clamped : Bool) :
    (s.commit n cl d clamped).demands =
      if d.lifecycle = .armed then
        addMapRefs s.joinStamp (s.gainedPairs s.coils[cl.slot] d) (dropMapRefs (s.lostPairs s.coils[cl.slot] d) s.demands)
      else s.demands := by
  unfold State.commit
  rw [endEvent_demands, markDirty_demands, setClaim_demands, setCoil_demands]
  unfold State.changeMapRefs
  rw [changeRefs_eq]
  split_ifs <;> rfl

theorem commit_dispatch (s : State) (n : ClaimNo) (cl : Claim) (d : Coil) (clamped : Bool) :
    (s.commit n cl d clamped).dispatch = s.dispatch := by
  simp [State.commit]

theorem commit_targetPairs (s : State) (n : ClaimNo) (cl : Claim) (d : Coil) (clamped : Bool) :
    (s.commit n cl d clamped).targetPairs = s.targetPairs :=
  targetPairs_of_controllers fun u => by
    unfold State.commit
    rw [endEvent_units, markDirty_units, setClaim_units, setCoil_units, changeMapRefs_units, changeRefs_units]

/-- A record whose definition a commit changes keeps the table safe where its pairs stay, where it refers to none, or where it is in
CLEAR and the map change finds room. -/
theorem edited_tableGrows (hc : t.coils = tablePut s.coils i c) (hu : t.targetPairs = s.targetPairs)
    (hd : t.demands = if c.lifecycle = .armed then
      addMapRefs s.joinStamp (s.gainedPairs s.coils[i] c) (dropMapRefs (s.lostPairs s.coils[i] c) s.demands) else s.demands)
    (hp : t.dispatch = s.dispatch) (hl : c.lifecycle = s.coils[i].lifecycle) (hst : c.stage = s.coils[i].stage)
    (h : s.targetPairs c = s.targetPairs s.coils[i] ∨ (s.coils[i].lifecycle = .draft ∨ s.coils[i].lifecycle = .suspended)
      ∨ (s.coils[i].lifecycle = .armed ∧ s.coils[i].stage = .clear ∧ s.mapFits s.coils[i] c = true)) : s.TableGrows t := by
  have hh : c.holdsReferences = s.coils[i].holdsReferences := by rw [Coil.holdsReferences, hl]; rfl
  rcases h with h | h | ⟨ha, hclear, hf⟩
  · have hd : t.demands = s.demands := by
      rw [hd, State.gainedPairs, lostPairs_same h, lostPairs_same h.symm]
      exact ite_self _
    exact State.TableKept.grows ⟨tabled_put hc hu hd hp (refersTo_congr h hh) (demandedPairs_congr h hl (by rw [hst])),
      fun _ _ hk => hd ▸ hk⟩
  · have hold := holdsReferences_outside (h.imp_right .inl)
    rw [if_neg (by rw [hl]; rcases h with h | h <;> rw [h] <;> decide)] at hd
    exact (outside_tableKept hc hu hd hp hold (hh.trans hold)).grows
  · have hold : s.coils[i].holdsReferences = true := by rw [Coil.holdsReferences, ha]; rfl
    rw [if_pos (hl.trans ha)] at hd
    refine remap_tableGrows hc hu hd hp hold (hh.trans hold) ?_ hf
    rw [demandedPairs_calm (.inl (hst.trans hclear)), demandedPairs_calm (.inl hclear)]

/-- A commit that passes its checks keeps the table safe: an ARMED record changes its map in CLEAR alone, and a SETTLING one not at
all (R100, R150, R152). -/
theorem commit_tableGrows (n : ClaimNo) (cl : Claim) (st : Staging) (clamped : Bool) (hp : st.CompleteFor s.coils[cl.slot])
    (hg : st.GateOpen s.coils[cl.slot])
    (hf : s.coils[cl.slot].holdsReferences = true → st.map.isSome = true →
      s.mapFits s.coils[cl.slot] ((st.over s.coils[cl.slot]).into s.coils[cl.slot]) = true) :
    s.TableGrows (s.commit n cl ((st.over s.coils[cl.slot]).into s.coils[cl.slot]) clamped) := by
  refine edited_tableGrows (commit_coils s n cl _ clamped) (commit_targetPairs s n cl _ clamped) (commit_demands s n cl _ clamped)
    (commit_dispatch s n cl _ clamped) rfl rfl ?_
  have same (hn : st.map = none) := targetPairs_into (s := s) st hp hn
  rcases hg with h | h | ⟨-, h | ⟨ha, hclear⟩⟩
  · exact .inr (.inl (.inl h))
  · exact .inr (.inl (.inr h))
  · exact .inl (same (Option.not_isSome_iff_eq_none.1 fun hs => h (.inr (.inr (.inr hs)))))
  · cases hm : st.map with
    | none => exact .inl (same hm)
    | some m => exact .inr (.inr ⟨ha, hclear, hf (by rw [Coil.holdsReferences, ha]; rfl) (by rw [hm]; rfl)⟩)

/-! ### Requests -/

theorem create_tableKept (tag : Nat) (u : UnitNo) (kind : CoilKind) (hv : s.coils[i].lifecycle = .vacant) :
    s.TableKept ((s.setCoil i (.draft tag u kind)).lifecycleChanged i) :=
  (outside_tableKept (t := s.setCoil i (.draft tag u kind)) rfl rfl rfl rfl (holdsReferences_outside (.inr (.inr hv))) rfl).trans
    ((setNotice_tableSame _ i).trans ((markDirty_tableSame _ _).trans (endEvent_tableSame _))).kept

theorem retire_tableKept (hl : s.coils[i].lifecycle = .draft ∨ s.coils[i].lifecycle = .suspended) : s.TableKept (s.retire i) := by
  refine outside_tableKept (retire_coils s i) ?_ ?_ ?_ (holdsReferences_outside (hl.imp_right .inl)) rfl
  · refine targetPairs_of_controllers fun u => ?_
    rw [retire_eq, lifecycleChanged_units, setCoil_units, changeRefs_units]
    rfl
  · rw [retire_eq, lifecycleChanged_demands, setCoil_demands, changeRefs_demands]
    rfl
  · rw [retire_eq, lifecycleChanged_dispatch, setCoil_dispatch, changeRefs_dispatch]
    rfl

/-- A unit that changes its controller station has no record that refers to a key (R121, R122). -/
theorem defineUnit_tableKept (u : UnitNo) (controller : Option Nat) (zone : Fin 16) (h : s.unitInUse u = false) :
    s.TableKept (s.defineUnit u controller zone) := by
  let t : State := s.setUnit u (s.units[u].define controller zone)
  have hother (c : Coil) (hc : c.unit ≠ u) : t.targetPairs c = s.targetPairs c := by
    have hu : t.units[c.unit] = s.units[c.unit] := (tablePut_get _ _ _ _).trans (if_neg hc)
    unfold State.targetPairs
    rw [hu]
  have hunused (j : Slot) (hj : s.coils[j].unit = u) : s.coils[j].holdsReferences = false := by
    by_contra hh
    refine Bool.false_ne_true (h.symm.trans (List.any_eq_true.2 ⟨s.coils[j], ?_, ?_⟩))
    · exact Vector.mem_toList_iff.2 (Vector.getElem_mem j.isLt)
    · rw [hj, beq_self_eq_true, Bool.true_and]
      exact Bool.not_eq_false _ ▸ hh
  have ht : s.TableKept t := by
    refine ⟨tabled_congr rfl rfl (fun j k => ?_) fun j => ?_, fun _ _ hk => hk⟩
    · by_cases hj : s.coils[j].unit = u
      · exact (refersTo_outside (s := t) (hunused j hj) k).trans (refersTo_outside (hunused j hj) k).symm
      · show (s.coils[j].holdsReferences && (t.targetPairs s.coils[j]).contains k) = _
        rw [hother s.coils[j] hj]
        rfl
    · by_cases hj : s.coils[j].unit = u
      · exact (demandedPairs_outside (s := t) (hunused j hj)).trans (demandedPairs_outside (hunused j hj)).symm
      · show (if s.coils[j].lifecycle = .armed then (t.targetPairs s.coils[j]).filter _ else []) = _
        rw [hother s.coils[j] hj]
        rfl
  exact ht.trans (markDirty_tableSame _ _).kept

end Sys2Proof.Machine
end

