-- ==== Sys2Proof/Proofs/DemandEvents.lean ====
section
/-! Every step keeps the demand table safe, and creates entries as R99 says (O57). -/

namespace Sys2Proof.Machine

variable {s t u : State} {f : RxFrame} {i : Slot} {c d : Coil} {k : DemandKey} {e : DemandEntry}

/-! ### Requests -/

theorem State.TableSame.then_grows (h : s.TableSame t) (h' : t.TableGrows u) : s.TableGrows u :=
  ⟨fun hs => h'.tabled (h.kept.tabled hs), fun hs => h.demands ▸ h'.grown (h.kept.tabled hs)⟩

theorem State.TableSame.grows (h : s.TableSame t) : s.TableGrows t := h.kept.grows

theorem changeRefs_tableSame (s : State) (ch : RefChange) : s.TableSame (s.changeRefs ch) :=
  ⟨changeRefs_demands s ch, changeRefs_dispatch s ch, changeRefs_coils s ch,
    targetPairs_of_controllers fun u => by rw [changeRefs_units]⟩

theorem setPart_tableSame (s : State) (k : Option PointKey) (on off : Int) : s.TableSame (s.setPart k on off) := by
  refine State.TableSame.trans ?_ (markDirty_tableSame _ _)
  unfold State.rebindOutdoor
  split_ifs
  · exact ⟨rfl, rfl, rfl, rfl⟩
  · have h := changeRefs_tableSame { s with regimeOn := on, regimeOff := off }
      (State.outdoorChange { s with regimeOn := on, regimeOff := off } k)
    exact ⟨h.demands, h.dispatch, h.coils, h.pairs⟩

theorem restart_tableKept (s : State) (i : Slot) : s.TableKept (s.restart i) :=
  tableKept_of_changeCoil ((recomputeFso_tableSame _ _).trans ((setNotice_tableSame _ i).trans (endEvent_tableSame _))) fun _ => rfl

theorem releaseLockout_tableKept (s : State) (i : Slot) : s.TableKept (s.releaseLockout i) :=
  tableKept_of_changeCoil ((markDirty_tableSame _ _).trans ((setNotice_tableSame _ i).trans (endEvent_tableSame _))) fun _ => rfl

/-- A chain of moves from a state that agrees with a shaped one in the records and the table. -/
theorem moves_tableKept (h : s.TableSame t) (hm : StageMoves t u) (hs : s.RecordsShaped) : s.TableKept u :=
  h.kept.trans (stageMoves_tableKept hm (recordsShaped_of h.coils hs))

theorem request_tableGrows (h : Request f s t) (hs : s.RecordsShaped) : s.TableGrows t := by
  cases h with
  | faultsRead u => exact (setUnit_tableSame s u (e := { s.units[u] with faults := .empty }) rfl).grows
  | reported i e d r u v he hd hm hu =>
    obtain ⟨average, regime, rfl⟩ := hu
    have hu : u.TableSame { u with average := average, regime := regime } := ⟨rfl, rfl, rfl, rfl⟩
    have h0 : s.TableSame { s with points := tablePut s.points i (some d) } := ⟨rfl, rfl, rfl, rfl⟩
    exact ((moves_tableKept h0 hm hs).trans (hu.trans (endEvent_tableSame _)).kept).grows
  | statusTaken u fan timer v hm =>
    have hu := setUnit_tableSame s u (e := { s.units[u] with fan := fan, statusTimer := timer }) rfl
    exact ((moves_tableKept hu hm hs).trans (endEvent_tableSame v).kept).grows
  | created tag u kind i hv => exact (create_tableKept tag u kind hv).grows
  | armed i hl hf => exact arm_tableGrows hl hf
  | suspended i h => exact (suspend_tableKept h).grows
  | retired i hl => exact (retire_tableKept hl).grows
  | restarted i => exact (restart_tableKept s i).grows
  | released i => exact (releaseLockout_tableKept s i).grows
  | committed n cl hc hr hd hp hg hf => exact commit_tableGrows n cl cl.staging.clamped _ hp hg hf
  | unitDefined u controller zone h => exact (defineUnit_tableKept u controller zone h).grows
  | partSet k on off => exact (setPart_tableSame s k on off).grows
  | supervisorsSet l =>
    have hl : s.TableSame { s with supervisors := l } := ⟨rfl, rfl, rfl, rfl⟩
    exact (hl.trans (markDirty_tableSame _ _)).grows
  | _ => exact State.TableSame.grows ⟨rfl, rfl, rfl, rfl⟩

/-! ### Frames to the actuators -/

/-- A completed frame's entry keeps its key and its counts, and is out of flight (R109 to R111). -/
def Completes (g : DemandEntry → DemandEntry) : Prop :=
  (∀ e, (g e).key = e.key) ∧ (∀ e, (g e).mapRefs = e.mapRefs ∧ (g e).demand = e.demand ∧ (g e).inFlight = none)
    ∧ ∀ e, e.WellFormed → e.inFlight.isSome → (g e).WellFormed

theorem accepted_completes (now stamp : Nat) (p : Polarity) : Completes (DemandEntry.accepted now stamp p) :=
  ⟨fun _ => compare_key _ _, fun _ => ⟨compare_mapRefs _ _, compare_demand _ _, compare_inFlight _ _⟩,
    fun _ h hi => accepted_wellFormed now stamp p h hi⟩

theorem failed_completes (now stamp : Nat) (p : Polarity) : Completes (DemandEntry.failed now stamp p) := by
  refine ⟨fun e => ?_, fun e => ?_, fun _ h hi => failed_wellFormed now stamp p h hi⟩
  · unfold DemandEntry.failed
    dsimp only
    split_ifs <;> rfl
  · unfold DemandEntry.failed
    dsimp only
    split_ifs <;> exact ⟨rfl, rfl, rfl⟩

/-- The frame in flight completes, and its entry is swept (R109 to R111). -/
theorem complete_tableKept {d : Dispatch} (hd : s.dispatch = some d) {g : DemandEntry → DemandEntry} (hg : Completes g)
    (line : Option LineFrame) : s.TableKept
      { s with line := line, dispatch := none, demands := sweepDemand d.key (updateDemand d.key g s.demands) } := by
  obtain ⟨hf, hm, hw⟩ := hg
  refine ⟨fun hs => ?_, fun hs k hk => ?_⟩
  · have hs : TableSafe s.demands s.dispatch s.refs s.dems := hs
    rw [hd] at hs
    exact hs.complete hf hm hw
  · show demandOf (sweepDemand d.key (updateDemand d.key g s.demands)) k = none
    rw [demandOf_updateSweep hs.sound.1 hf]
    split_ifs with h
    · rw [← h, hk]; rfl
    · exact hk

theorem takeEntry_tableKept (hd : s.dispatch = none) (he : e ∈ s.demands) (hq : e.queued.isSome) (p : Polarity) :
    s.TableKept (s.takeEntry { key := e.key, polarity := p }) := by
  refine ⟨fun hs => ?_, fun hs k hk => ?_⟩
  · have hs : TableSafe s.demands s.dispatch s.refs s.dems := hs
    rw [hd] at hs
    exact hs.takeEntry he hq p
  · exact (demandOf_updateDemand (f := fun e => { e with queued := none, inFlight := some p, refreshDue := false })
      (fun _ => rfl) k).trans (by
        split_ifs with h
        · rw [← h, hk]; rfl
        · exact hk)

/-! ### Refreshes and retries -/

/-- An entry that changes in neither count nor flight, and stays well formed and needed. -/
theorem updateDemand_tableKept {g : DemandEntry → DemandEntry} (hf : ∀ e, (g e).key = e.key)
    (hm : ∀ e, (g e).mapRefs = e.mapRefs ∧ (g e).demand = e.demand ∧ (g e).inFlight = e.inFlight)
    (hw : s.Tabled → ∀ e, demandOf s.demands k = some e → (g e).WellFormed ∧ ¬ (g e).Unneeded) :
    s.TableKept { s with demands := updateDemand k g s.demands } :=
  ⟨fun hs => TableSafe.updateDemand hs hf hm (hw hs), fun _ j hj => by
    show demandOf (updateDemand k g s.demands) j = none
    rw [demandOf_updateDemand hf]
    split_ifs with h
    · rw [← h, hj]; rfl
    · exact hj⟩

theorem refreshExpired_wellFormed (stamp : Nat) (h : e.WellFormed) (hn : ¬ e.Unneeded) :
    (e.refreshExpired stamp).WellFormed ∧ ¬ (e.refreshExpired stamp).Unneeded := by
  unfold DemandEntry.refreshExpired
  split_ifs with hr
  · simp only [DemandEntry.refreshes, Bool.and_eq_true, decide_eq_true_eq, beq_iff_eq, Option.isNone_iff_eq_none,
      Bool.not_eq_true'] at hr
    obtain ⟨⟨⟨⟨hd, hc⟩, hq⟩, hi⟩, hfault⟩ := hr
    obtain ⟨-, -, h3, -, -⟩ := h
    have hidle : ¬ e.inFlight.isSome := by rw [hi]; exact Bool.false_ne_true
    have hsound : ¬ (e.faulted = true) := by rw [hfault]; exact Bool.false_ne_true
    exact ⟨⟨fun hb => hidle hb.2, fun hb => absurd hb hsound, h3, fun hb => absurd hb hidle,
      fun _ _ => ⟨fun _ => .inr rfl, fun _ => rfl⟩⟩, fun hu => Option.some_ne_none _ hu.2.2.2.1⟩
  · exact ⟨h, hn⟩

theorem refreshExpired_counts (stamp : Nat) (e : DemandEntry) : (e.refreshExpired stamp).mapRefs = e.mapRefs
    ∧ (e.refreshExpired stamp).demand = e.demand ∧ (e.refreshExpired stamp).inFlight = e.inFlight
    ∧ (e.refreshExpired stamp).key = e.key := by
  unfold DemandEntry.refreshExpired
  split_ifs <;> exact ⟨rfl, rfl, rfl, rfl⟩

/-- A faulted entry's commanded state is UNKNOWN, so it rejoins the queue (R111, R114). -/
theorem retryExpired_wellFormed (stamp : Nat) (h : e.WellFormed) (hr : e.retryTimer.isSome) :
    (e.retryExpired stamp).WellFormed ∧ ¬ (e.retryExpired stamp).Unneeded := by
  obtain ⟨-, h2, h3, h4, -⟩ := h
  obtain ⟨-, hi, hc, -⟩ := h2 (h3 hr)
  have hidle : ¬ e.inFlight.isSome := by rw [hi]; exact Bool.false_ne_true
  refine ⟨⟨fun hb => hidle hb.2, fun hb => (by cases hb), fun hb => (by cases hb), h4,
    fun _ _ => ⟨fun _ => .inl ?_, fun _ => rfl⟩⟩, fun hu => Option.some_ne_none _ hu.2.2.2.1⟩
  · have hcmd : (e.retryExpired stamp).commanded = .unknown := hc
    unfold DemandEntry.Differs
    rw [hcmd]
    split_ifs <;> simp

end Sys2Proof.Machine
end

