-- ==== Sys2Proof/Proofs/DemandsKept.lean ====
section
/-! Loads and events keep the demand table safe (O57). -/

namespace Sys2Proof.Machine

variable {s t u : State} {f : RxFrame} {i : Slot} {c d : Coil} {k : DemandKey} {e : DemandEntry}

/-! ### Loads -/

theorem tabled_of_empty (hc : ∀ i : Slot, s.coils[i].lifecycle = .vacant) (hd : s.demands = []) (hp : s.dispatch = none) :
    s.Tabled := by
  have rest (i : Slot) : s.coils[i].holdsReferences = false := holdsReferences_outside (.inr (.inr (hc i)))
  have hr (k : DemandKey) : s.refs k = 0 := by
    refine List.length_eq_zero_iff.2 (List.eq_nil_iff_forall_not_mem.2 fun i hi => ?_)
    rw [mem_referrers, refersTo_outside (rest i)] at hi
    cases hi
  unfold State.Tabled
  rw [hd, hp]
  exact tableSafe_nil.congr hr fun k => Nat.le_zero.1 (hr k ▸ dems_le_refs s k)

theorem State.Swept.vacant (h : s.Swept) (i : Slot) : s.coils[i].lifecycle = .vacant := by rw [h.coil]; rfl

/-- A load that finds a slot VACANT keeps the table safe (R25, R50). -/
theorem slotLoad_tableGrows (h : SlotLoad s i t) (hv : s.coils[i].lifecycle = .vacant) : s.TableGrows t := by
  have hold := holdsReferences_outside (.inr (.inr hv))
  cases h with
  | stays => exact (State.TableKept.refl s).grows
  | lost => exact State.TableSame.grows ⟨rfl, rfl, rfl, rfl⟩
  | placed d points l hd ht hp hl =>
    have hnew : (d.toCoil l .none).holdsReferences = false := holdsReferences_outside (by
      rcases hl with ⟨-, rfl⟩ | ⟨-, rfl⟩
      · exact .inl rfl
      · exact .inr (.inl rfl))
    exact State.TableKept.grows (outside_tableKept (i := i) (c := d.toCoil l .none) rfl rfl rfl rfl hold hnew)
  | settles d points hd ht hp hl hr =>
    exact settle_tableGrows (i := i) (c := d.toCoil .settling d.latch) rfl rfl rfl rfl hold rfl hr.2
  | fellBack d points =>
    exact State.TableKept.grows (outside_tableKept (i := i) (c := d.toCoil .suspended .none) rfl rfl rfl rfl hold rfl)

/-- A reference more leaves an entry as R99 creates it. -/
theorem addMapRefs_fresh {ds : List DemandEntry} (stamp : Nat) (ks : List DemandKey) (h : ∀ e ∈ ds, e.Fresh) :
    ∀ e ∈ addMapRefs stamp ks ds, e.Fresh := by
  induction ks generalizing ds with
  | nil => exact h
  | cons k ks ih =>
    refine ih fun e he => ?_
    unfold addMapRef at he
    split_ifs at he
    · obtain ⟨d, hd, rfl⟩ := List.mem_map.1 he
      split_ifs
      · exact h d hd
      · exact h d hd
    · rcases List.mem_append.1 he with he | he
      · exact h e he
      · rw [List.mem_singleton.1 he]
        exact DemandEntry.new_fresh stamp k

theorem slotLoad_fresh (h : SlotLoad s i t) (hs : ∀ e ∈ s.demands, e.Fresh) : ∀ e ∈ t.demands, e.Fresh := by
  cases h with
  | settles d => exact addMapRefs_fresh _ _ hs
  | _ => exact hs

/-- A load places a record in its own slot alone. -/
theorem slotLoad_other {j : Slot} (h : SlotLoad s i t) (hj : j ≠ i) : t.coils[j] = s.coils[j] := by
  cases h with
  | stays => rfl
  | lost => rfl
  | placed => exact tablePut_get_other _ _ hj
  | settles => exact tablePut_get_other _ _ hj
  | fellBack => exact tablePut_get_other _ _ hj

/-- The slots from `n` on stand VACANT, and the table is safe and holds entries as R99 creates them alone. -/
structure State.LoadedBelow (n : Nat) (s : State) : Prop where
  vacant : ∀ j : Slot, n ≤ j.val → s.coils[j].lifecycle = .vacant
  tabled : s.Tabled
  fresh : ∀ e ∈ s.demands, e.Fresh

theorem loadCoil_loadedBelow (i : Slot) (s : State) (h : s.LoadedBelow i.val) : (s.loadCoil i).LoadedBelow (i.val + 1) := by
  have hl := loadCoil_slotLoad s i
  refine ⟨fun j hj => ?_, (slotLoad_tableGrows hl (h.vacant i le_rfl)).tabled h.tabled, slotLoad_fresh hl h.fresh⟩
  rw [slotLoad_other hl (by rintro rfl; omega)]
  exact h.vacant j (by omega)

/-- A load from cleared live state leaves a safe table, whose entries are all as R99 creates them. -/
theorem load_tableGrows (h : t.Swept) : s.TableGrows t.load := by
  have hv (j : Slot) : t.beforeSlots.coils[j].lifecycle = .vacant := by
    rw [beforeSlots_coils]
    exact h.vacant j
  have hd : t.beforeSlots.demands = [] := (beforeSlots_demands t).trans h.demands
  have hp : t.beforeSlots.dispatch = none := by
    rw [beforeSlots_eq]
    exact h.dispatch
  have hb : t.beforeSlots.LoadedBelow 0 :=
    ⟨fun j _ => hv j, tabled_of_empty hv hd hp, fun e he => by rw [hd] at he; cases he⟩
  obtain ⟨-, hl, hf⟩ := forSlots_upTo (P := fun n s => s.LoadedBelow n) loadCoil_loadedBelow hb
  have he := endEvent_tableSame (forSlots (fun i s => s.loadCoil i) t.beforeSlots)
  rw [load_eq]
  exact ⟨fun _ => he.kept.tabled hl, fun _ e hm _ => hf e (he.demands ▸ hm)⟩

/-! ### Every event -/

theorem cleanExpired_tableKept (s : State) (i : Slot) : s.TableKept (s.cleanExpired i) := by
  have hc : s.TableKept (s.setCoil i { s.coils[i] with tripCount := 0, latch := .none, cleanTimer := none }) :=
    setCoil_tableKept (fun _ => rfl) rfl
  unfold State.cleanExpired
  dsimp only
  split_ifs
  · exact hc
  · exact hc.trans (markDirty_tableSame _ _).kept

/-- Records that change in their store marks and settle timers alone leave the table safe. -/
theorem marked_tableKept (hd : t.demands = s.demands) (hp : t.dispatch = s.dispatch) (hu : t.targetPairs = s.targetPairs)
    (hc : ∀ j : Slot, ∃ stale flight timer,
      t.coils[j] = { s.coils[j] with storeStale := stale, writeInFlight := flight, settleTimer := timer }) : s.TableKept t := by
  refine ⟨tabled_congr hd hp (fun j k => ?_) fun j => ?_, fun _ _ hk => hd ▸ hk⟩
  · obtain ⟨stale, flight, timer, hj⟩ := hc j
    rw [refersTo_of_target hu, hj]
    rfl
  · obtain ⟨stale, flight, timer, hj⟩ := hc j
    rw [demandedPairs_of_target hu, hj]
    rfl

theorem event_tableGrows (h : Event s t) (hs : s.RecordsShaped) : s.TableGrows t := by
  cases h with
  | stays => exact (State.TableKept.refl s).grows
  | taken f rest u hrx hq =>
    have h0 : s.TableSame { s with rx := rest } := ⟨rfl, rfl, rfl, rfl⟩
    exact h0.then_grows (request_tableGrows hq hs)
  | answered f rest a u hrx hr hq =>
    have h0 : s.TableSame { s with rx := rest } := ⟨rfl, rfl, rfl, rfl⟩
    have h1 : u.TableSame (u.pushAnswer a) := ⟨rfl, rfl, rfl, rfl⟩
    exact (h0.then_grows (request_tableGrows hq hs)).same h1
  | dispatched e l hd he hq =>
    have h1 : (s.takeEntry { key := e.key, polarity := e.polarity }).TableSame
      { s.takeEntry { key := e.key, polarity := e.polarity } with line := l } := ⟨rfl, rfl, rfl, rfl⟩
    exact ((takeEntry_tableKept hd he hq e.polarity).trans h1.kept).grows
  | noticeLeft flags =>
    exact State.TableSame.grows ⟨chooseNotice_demands _, chooseNotice_dispatch _, chooseNotice_coils _,
      targetPairs_of_controllers fun u => by rw [chooseNotice_units]⟩
  | completed d e g u hd he hg hm =>
    have hcompletes : Completes g := by
      rcases hg with rfl | rfl
      · exact accepted_completes _ _ _
      · exact failed_completes _ _ _
    have h0 := complete_tableKept hd hcompletes none
    have h1 := stageMoves_tableKept hm hs
    exact (h0.trans (h1.trans (endEvent_tableSame u).kept)).grows
  | uncompleted d hd he =>
    have none_held (hs : s.Tabled) : False := by
      obtain ⟨e, he', -⟩ := hs.held d hd
      rw [he] at he'
      cases he'
    exact ⟨fun hs => (none_held hs).elim, fun hs => (none_held hs).elim⟩
  | moved u hm => exact ((stageMoves_tableKept hm hs).trans (endEvent_tableSame u).kept).grows
  | cleaned i => exact (cleanExpired_tableKept s i).grows
  | fanUnproved u => exact (setUnit_tableSame s u (e := { s.units[u] with fan := .unknown, statusTimer := none }) rfl).grows
  | refreshed k =>
    have h0 := updateDemand_tableKept (s := s) (k := k) (g := DemandEntry.refreshExpired s.joinStamp)
      (fun e => (refreshExpired_counts s.joinStamp e).2.2.2)
      (fun e => ⟨(refreshExpired_counts s.joinStamp e).1, (refreshExpired_counts s.joinStamp e).2.1,
        (refreshExpired_counts s.joinStamp e).2.2.1⟩)
      fun hs e he => refreshExpired_wellFormed s.joinStamp (hs.sound.2 e (demandOf_mem he)) (hs.needed k e he)
    exact (h0.trans (endEvent_tableSame _).kept).grows
  | retried k e he hr =>
    have h0 := updateDemand_tableKept (s := s) (k := k) (g := DemandEntry.retryExpired s.joinStamp) (fun _ => rfl)
      (fun _ => ⟨rfl, rfl, rfl⟩) fun hs e' he' => by
        obtain rfl := Option.some.inj (he.symm.trans he')
        exact retryExpired_wellFormed s.joinStamp (hs.sound.2 e (demandOf_mem he)) hr
    exact (h0.trans (endEvent_tableSame _).kept).grows
  | levelChanged u level filter =>
    exact (setUnit_tableSame s u (e := { s.units[u] with level := level, filter := filter }) rfl).grows
  | contactClosed u =>
    have h0 := setUnit_tableSame s u (e := { s.units[u] with contact := .closed, filter := .steady }) rfl
    exact (h0.trans (recomputeFso_tableSame _ u)).grows
  | contactOpened u v hm =>
    have h0 := setUnit_tableSame s u (e := { s.units[u] with contact := .opened, filter := .steady }) rfl
    have h1 := h0.trans ((addFault_tableSame _ u .contactOpen).trans (recomputeFso_tableSame _ u))
    exact ((moves_tableKept h1 hm hs).trans (endEvent_tableSame v).kept).grows
  | writeCompleted w success hw =>
    obtain ⟨coils, _, _, _, _, _, he, hc, -⟩ := writeCompleted_fields s w success
    rw [he]
    refine State.TableKept.grows (marked_tableKept rfl rfl rfl fun j => ?_)
    show ∃ stale flight timer, coils[j] = _
    rw [hc j]
    split_ifs
    · exact ⟨_, _, s.coils[j].settleTimer, rfl⟩
    · exact ⟨s.coils[j].storeStale, s.coils[j].writeInFlight, s.coils[j].settleTimer, rfl⟩
  | brokenOff p cut =>
    have h := breakOff_swept s p cut
    exact ⟨fun _ => tabled_of_empty h.vacant h.demands h.dispatch, fun _ e he => by rw [h.demands] at he; cases he⟩
  | startUp strap cut => exact load_tableGrows (startState_swept s strap cut)
  | restartBegun strap => exact load_tableGrows (restartState_swept s strap)
  | loaded =>
    obtain ⟨units, he, hu⟩ := completeLoad_fields s
    rw [he]
    have hsettle (j : Slot) : ∃ timer, s.startSettling.coils[j] = { s.coils[j] with settleTimer := timer } := by
      rw [startSettling_coil]
      split_ifs
      · exact ⟨_, rfl⟩
      · exact ⟨s.coils[j].settleTimer, rfl⟩
    refine State.TableKept.grows (marked_tableKept rfl rfl (targetPairs_of_controllers fun u => ?_) fun j => ?_)
    · obtain ⟨fso, hu, -⟩ := hu u
      show units[u].controller = _
      rw [hu]
    · obtain ⟨timer, ht⟩ := hsettle j
      refine ⟨s.coils[j].storeStale, s.coils[j].writeInFlight, timer, ?_⟩
      exact ht
  | _ => exact State.TableSame.grows ⟨rfl, rfl, rfl, rfl⟩

/-- Settles O57: every event keeps the table safe, and makes entries as R99 says. -/
theorem stepKeepsDemandsSafe : Obligations.StepKeepsDemandsSafe := by
  intro s t hs ht
  obtain ⟨hr, hd⟩ := demandSafe_iff.1 hs
  obtain ⟨now, pending, he⟩ := step_event ht
  have h := event_tableGrows he hr
  exact ⟨demandSafe_iff.2 ⟨event_shaped he hr, h.tabled hd⟩, h.grown hd⟩

end Sys2Proof.Machine
end

