-- ==== Sys2Proof/Proofs/PointTables.lean ====
section
/-! The Point Table as a table of keys: what finds an entry, and what a creation and a reference change do to the entries. -/

namespace Sys2Proof.Machine

variable {points points' : Table (Option PointEntry) 96} {s t : State} {k : PointKey} {i j : Fin 96} {d e : PointEntry}

/-! ### Finding an entry (R27) -/

/-- No two entries hold the same key (R27). -/
def KeysDistinct (points : Table (Option PointEntry) 96) : Prop :=
  ∀ (i j : Fin 96) (d e : PointEntry), points[i] = some d → points[j] = some e → d.key = e.key → i = j

/-- No entry holds the key. -/
def KeyFree (points : Table (Option PointEntry) 96) (k : PointKey) : Prop :=
  ∀ (i : Fin 96) (e : PointEntry), points[i] = some e → e.key ≠ k

theorem indexOf_some (h : indexOf points k = some i) : ∃ e, points[i] = some e ∧ e.key = k := by
  have hi : (points[i].any fun e => e.key == k) = true :=
    List.find?_some (p := fun i : Fin 96 => points[i].any fun e : PointEntry => e.key == k) h
  obtain ⟨e, he, hk⟩ := (Option.any_eq_true _ _).1 hi
  exact ⟨e, he, by simpa using hk⟩

theorem indexOf_of_entry (hd : KeysDistinct points) (h : points[i] = some e) : indexOf points e.key = some i := by
  cases hf : indexOf points e.key with
  | none =>
    have hn := List.find?_eq_none.1 hf i (List.mem_finRange i)
    rw [h] at hn
    simp at hn
  | some j =>
    obtain ⟨d, hj, hk⟩ := indexOf_some hf
    rw [hd j i d e hj h hk]

theorem refsOf_of_entry (hd : KeysDistinct points) (h : points[i] = some e) : refsOf points e.key = e.refs := by
  unfold refsOf entryOf
  rw [indexOf_of_entry hd h, Option.bind_some, h]
  rfl

theorem refsOf_free (h : KeyFree points k) : refsOf points k = 0 := by
  unfold refsOf entryOf
  rw [indexOf_eq_none h]
  rfl

/-- A key is free, or one entry holds it. -/
theorem keyFree_or (points : Table (Option PointEntry) 96) (k : PointKey) :
    KeyFree points k ∨ ∃ (i : Fin 96) (e : PointEntry), points[i] = some e ∧ e.key = k := by
  by_cases h : ∃ (i : Fin 96) (e : PointEntry), points[i] = some e ∧ e.key = k
  · exact .inr h
  · exact .inl fun i e he hk => h ⟨i, e, he, hk⟩

/-! ### Creating entries (R30) -/

/-- Below the first index found, no index has the property. -/
theorem lower_of_find {n : Nat} {p : Fin n → Bool} {i j : Fin n} (h : (List.finRange n).find? p = some i) (hj : j < i) :
    p j = false := by
  induction j using WellFoundedLT.induction with
  | ind j ih =>
    by_contra hp
    have hfirst := find_finRange_lowest (Bool.eq_true_of_not_eq_false hp) fun m hm => ih m hm (hm.trans hj)
    rw [h] at hfirst
    exact hj.ne' (Option.some.inj hfirst)

/-- The places that no entry uses. -/
def unused (points : Table (Option PointEntry) 96) : List (Fin 96) := (List.finRange 96).filter fun i => points[i].isNone

theorem mem_unused : i ∈ unused points ↔ points[i] = none := by
  unfold unused
  rw [List.mem_filter, Option.isNone_iff_eq_none]
  exact ⟨fun h => h.2, fun h => ⟨List.mem_finRange i, h⟩⟩

theorem lowestUnused_none (h : lowestUnused points = none) (i : Fin 96) : points[i].isSome := by
  rw [Option.isSome_iff_ne_none]
  exact fun hn => List.find?_eq_none.1 h i (List.mem_finRange i) (Option.isNone_iff_eq_none.2 hn)

/-- An entry is created at the lowest unused place, where there is one. -/
theorem createEntry_unused (h : unused points ≠ []) (k : PointKey) (refs : Nat) : ∃ i : Fin 96,
    points[i] = none ∧ (∀ j, j < i → points[j].isSome) ∧ createEntry points k refs = tablePut points i (some (.new k refs)) := by
  unfold createEntry
  cases hl : lowestUnused points with
  | none =>
    obtain ⟨i, hi⟩ := List.exists_mem_of_ne_nil _ h
    have := lowestUnused_none hl i
    rw [mem_unused.1 hi] at this
    cases this
  | some i =>
    have hi : points[i].isNone = true := List.find?_some (p := fun i : Fin 96 => points[i].isNone) hl
    refine ⟨i, Option.isNone_iff_eq_none.1 hi, fun j hj => ?_, rfl⟩
    have hj : points[j].isNone = false := lower_of_find (p := fun i : Fin 96 => points[i].isNone) hl hj
    simpa using hj

theorem unused_length (points : Table (Option PointEntry) 96) : (unused points).length = 96 - pointsInUse points := by
  have hl : points.toList = (List.finRange 96).map fun i => points[i] := by
    apply List.ext_getElem <;> simp
  have hn : (fun i : Fin 96 => !points[i].isSome) = fun i : Fin 96 => points[i].isNone := by
    funext i
    cases points[i] <;> rfl
  have hsum := List.length_eq_countP_add_countP (fun i : Fin 96 => points[i].isSome) (l := List.finRange 96)
  rw [List.length_finRange] at hsum
  rw [unused, pointsInUse, hl, List.countP_map, ← List.countP_eq_length_filter, ← hn]
  simp only [Function.comp_def, Bool.not_eq_true, Bool.decide_eq_false] at hsum ⊢
  omega

/-- A used place is one unused place less. -/
theorem unused_put (hi : points[i] = none) (e : PointEntry) : (unused (tablePut points i (some e))).length + 1 = (unused points).length := by
  have h := filter_length_change (List.nodup_finRange 96) (List.mem_finRange i) (p := fun j => points[j].isNone)
    (q := fun j => (tablePut points i (some e))[j].isNone) fun j hj => by rw [tablePut_get_other _ _ hj]
  rw [hi, tablePut_get_same] at h
  exact h

/-- The table `points'` is `points` with new entries for the keys `ks`, made one after another, each at the lowest unused place. -/
structure Created (f : PointKey → Nat) (ks : List PointKey) (points points' : Table (Option PointEntry) 96) : Prop where
  kept : ∀ (i : Fin 96) (e : PointEntry), points[i] = some e → points'[i] = some e
  placed : ∀ k ∈ ks, ∃ i : Fin 96, points[i] = none ∧ points'[i] = some (.new k (f k))
  fresh : ∀ (i : Fin 96) (e : PointEntry), points[i] = none → points'[i] = some e →
    (∃ k ∈ ks, e = .new k (f k)) ∧ ∀ j, j < i → points'[j].isSome
  ordered : ∀ r : PointKey → PointKey → Prop, ks.Pairwise r → ∀ (i j : Fin 96) (d e : PointEntry), points[i] = none → points[j] = none →
    points'[i] = some d → points'[j] = some e → i < j → r d.key e.key

theorem created_foldl (f : PointKey → Nat) {ks : List PointKey} (hr : ks.length ≤ (unused points).length) :
    Created f ks points (ks.foldl (fun t k => createEntry t k (f k)) points) := by
  induction ks generalizing points with
  | nil =>
    refine ⟨fun _ _ h => h, fun k hk => (by cases hk), fun i e hn he => ?_, fun _ _ i j d e hn _ hd => ?_⟩
    · rw [List.foldl_nil, hn] at he; cases he
    · rw [List.foldl_nil, hn] at hd; cases hd
  | cons k ks ih =>
    have hne : unused points ≠ [] := fun h => by rw [h] at hr; simp at hr
    obtain ⟨m, hm, hlow, hput⟩ := createEntry_unused hne k (f k)
    have hlen := unused_put hm (.new k (f k))
    rw [List.length_cons] at hr
    rw [List.foldl_cons, hput]
    obtain ⟨kept, placed, fresh, ordered⟩ := ih (points := tablePut points m (some (.new k (f k)))) (by omega)
    have hnew := kept m _ (tablePut_get_same _ _ _)
    have other {i : Fin 96} (h : i ≠ m) : (tablePut points m (some (.new k (f k))))[i] = points[i] := tablePut_get_other _ _ h
    have kept' (i : Fin 96) (e : PointEntry) (he : points[i] = some e) :
        (ks.foldl (fun t k => createEntry t k (f k)) (tablePut points m (some (.new k (f k)))))[i] = some e :=
      kept i e ((other (by rintro rfl; rw [hm] at he; cases he)).trans he)
    refine ⟨kept', fun k' hk' => ?_, fun i e hn he => ?_, fun r hp i j d e hi hj hd he hij => ?_⟩
    · rcases List.mem_cons.1 hk' with rfl | hk'
      · exact ⟨m, hm, hnew⟩
      · obtain ⟨i, hi, hnew'⟩ := placed k' hk'
        have him : i ≠ m := by rintro rfl; rw [tablePut_get_same] at hi; cases hi
        exact ⟨i, (other him).symm.trans hi, hnew'⟩
    · by_cases him : i = m
      · subst him
        refine ⟨⟨k, List.mem_cons_self, Option.some.inj (he.symm.trans hnew)⟩, fun j hj => ?_⟩
        obtain ⟨d, hd⟩ := Option.isSome_iff_exists.1 (hlow j hj)
        rw [kept' j d hd]
        rfl
      · obtain ⟨⟨k', hk', rfl⟩, hl⟩ := fresh i e ((other him).trans hn) he
        exact ⟨⟨k', List.mem_cons_of_mem _ hk', rfl⟩, hl⟩
    · obtain ⟨hk, hp⟩ := List.pairwise_cons.1 hp
      by_cases hjm : j = m
      · subst hjm
        have := hlow i hij
        rw [hi] at this
        cases this
      obtain ⟨⟨k', hk', rfl⟩, -⟩ := fresh j e ((other hjm).trans hj) he
      by_cases him : i = m
      · subst him
        rw [← Option.some.inj (hnew.symm.trans hd)]
        exact hk k' hk'
      · exact ordered r hp i j d _ ((other him).trans hi) ((other hjm).trans hj) hd he hij

/-- Distinct values stand in the order of their first places. -/
theorem distinct_pairwise {α : Type} [DecidableEq α] (l : List α) : (distinct l).Pairwise fun a b => l.idxOf a < l.idxOf b := by
  induction l with
  | nil => exact .nil
  | cons x l ih =>
    unfold distinct
    refine List.pairwise_cons.2 ⟨fun b hb => ?_, (ih.filter _).imp_of_mem fun {a b} ha hb h => ?_⟩
    · have hbx : b ≠ x := by simpa using (List.mem_filter.1 hb).2
      rw [List.idxOf_cons_self, List.idxOf_cons_ne _ hbx.symm]
      exact Nat.succ_pos _
    · have hax : a ≠ x := by simpa using (List.mem_filter.1 ha).2
      have hbx : b ≠ x := by simpa using (List.mem_filter.1 hb).2
      rw [List.idxOf_cons_ne _ hax.symm, List.idxOf_cons_ne _ hbx.symm]
      exact Nat.succ_lt_succ h

/-! ### A reference change (R30) -/

theorem mem_placed {ch : RefChange} : k ∈ ch.placed points ↔ k ∈ ch.takes ∧ refsOf points k = 0 ∧ 0 < ch.count points k := by
  unfold RefChange.placed
  rw [List.mem_filter, distinct_mem, Bool.and_eq_true, beq_iff_eq, decide_eq_true_eq]

theorem placed_pairwise (ch : RefChange) (points : Table (Option PointEntry) 96) :
    (ch.placed points).Pairwise fun a b => ch.takes.idxOf a < ch.takes.idxOf b := (distinct_pairwise ch.takes).filter _

/-- The entries of a table with distinct keys, each with a reference at least, and of the table after a reference change that fits. -/
structure Recounted (ch : RefChange) (points : Table (Option PointEntry) 96) : Prop where
  distinct : KeysDistinct points
  counted : ∀ (i : Fin 96) (e : PointEntry), points[i] = some e → 1 ≤ e.refs
  room : (ch.placed points).length ≤ (unused (ch.recount points)).length

variable {ch : RefChange}

theorem Recounted.created (h : Recounted ch points) :
    Created (ch.count points) (ch.placed points) (ch.recount points) (ch.apply points) := created_foldl _ h.room

theorem Recounted.count (h : Recounted ch points) (he : points[i] = some e) :
    ch.count points e.key = e.refs + ch.takes.count e.key - ch.gives.count e.key := by
  unfold RefChange.count
  rw [refsOf_of_entry h.distinct he]

theorem recount_free (hk : KeyFree points k) : ch.count points k = ch.takes.count k - ch.gives.count k := by
  unfold RefChange.count
  rw [refsOf_free hk, Nat.zero_add]

/-- A key that a change newly places is free before it. -/
theorem Recounted.free (h : Recounted ch points) (hk : k ∈ ch.placed points) : KeyFree points k := by
  rintro i e he rfl
  have h0 := (mem_placed.1 hk).2.1
  rw [refsOf_of_entry h.distinct he] at h0
  have := h.counted i e he
  omega

/-- An entry after the change is an old one with its new count, or is new. -/
theorem Recounted.cases (h : Recounted ch points) (he : (ch.apply points)[i] = some e) :
    (∃ d, points[i] = some d ∧ ch.count points d.key ≠ 0 ∧ e = { d with refs := ch.count points d.key })
    ∨ (ch.recount points)[i] = none ∧ e.key ∈ ch.placed points ∧ e = .new e.key (ch.count points e.key)
        ∧ ∀ j, j < i → ((ch.apply points)[j]).isSome := by
  cases hr : (ch.recount points)[i] with
  | none =>
    obtain ⟨⟨k, hk, rfl⟩, hl⟩ := h.created.fresh i e hr he
    exact .inr ⟨rfl, hk, rfl, hl⟩
  | some d' =>
    have hde := (h.created.kept i d' hr).symm.trans he
    rw [recount_get, Option.bind_eq_some_iff] at hr
    obtain ⟨d, hd, hr⟩ := hr
    split_ifs at hr with h0
    exact .inl ⟨d, hd, h0, (Option.some.inj hde).symm.trans (Option.some.inj hr).symm⟩

/-- An entry whose new count is not 0 stands with it. -/
theorem Recounted.stays (h : Recounted ch points) (he : points[i] = some e) (hc : ch.count points e.key ≠ 0) :
    (ch.apply points)[i] = some { e with refs := ch.count points e.key } :=
  h.created.kept i _ (by rw [recount_get, he, Option.bind_some, if_neg hc])

/-- A key whose entry's new count is 0 is free after the change. -/
theorem Recounted.removed (h : Recounted ch points) (he : points[i] = some e) (hc : ch.count points e.key = 0) :
    KeyFree (ch.apply points) e.key := by
  intro j d hd hk
  rcases h.cases hd with ⟨d0, hd0, h0, rfl⟩ | ⟨-, hp, -⟩
  · have hk : d0.key = e.key := hk
    rw [hk] at h0
    exact h0 hc
  · exact h.free hp i e he hk.symm

/-- An entry after the change whose key was free is new (R28, R30). -/
theorem Recounted.isNew (h : Recounted ch points) (he : (ch.apply points)[i] = some e) (hk : KeyFree points e.key) :
    (ch.recount points)[i] = none ∧ e.key ∈ ch.placed points ∧ e = .new e.key (ch.takes.count e.key - ch.gives.count e.key)
      ∧ ∀ j, j < i → ((ch.apply points)[j]).isSome := by
  rcases h.cases he with ⟨d, hd, -, rfl⟩ | ⟨hn, hp, he, hl⟩
  · exact absurd rfl (hk i d hd)
  · exact ⟨hn, hp, by rw [← recount_free hk]; exact he, hl⟩

/-- A key that gains a reference has an entry after the change. -/
theorem Recounted.gained (h : Recounted ch points) (ht : k ∈ ch.takes) (hc : ch.gives.count k < ch.takes.count k) :
    ∃ (i : Fin 96) (e : PointEntry), (ch.apply points)[i] = some e ∧ e.key = k := by
  rcases keyFree_or points k with hf | ⟨i, e, he, rfl⟩
  · have hp : k ∈ ch.placed points := mem_placed.2 ⟨ht, refsOf_free hf, by rw [recount_free hf]; omega⟩
    obtain ⟨i, -, hi⟩ := h.created.placed k hp
    exact ⟨i, _, hi, rfl⟩
  · have hcount := h.count he
    exact ⟨i, _, h.stays he (by omega), rfl⟩

end Sys2Proof.Machine
end

