-- ==== Sys2Proof/Proofs/SharedOperations.lean ====
section
/-! What the shared operations do that the statements name (O44). -/

namespace Sys2Proof.Machine

variable {points : Table (Option PointEntry) 96} {s t : State} {k : PointKey} {i j : Fin 96} {d e : PointEntry}

/-! ### The candidate for polling (R44) -/

/-- An entry that is to be polled: missed once or more, and not yet polled in this period (R44). -/
def ToPoll (points : Table (Option PointEntry) 96) (i : Fin 96) (e : PointEntry) : Prop :=
  points[i] = some e ∧ 1 ≤ e.miss ∧ e.polled = false

/-- The choice among the places of a list: the highest miss count, and of equal ones the lowest index (R44). -/
inductive BestOf (points : Table (Option PointEntry) 96) (l : List (Fin 96)) : Option (Fin 96 × PointEntry) → Prop
  | empty (h : ∀ i ∈ l, ∀ e, ¬ ToPoll points i e) : BestOf points l none
  | chosen (i : Fin 96) (e : PointEntry) (hi : i ∈ l) (hc : ToPoll points i e)
      (h : ∀ j ∈ l, ∀ d, ToPoll points j d → d.miss < e.miss ∨ d.miss = e.miss ∧ i ≤ j) : BestOf points l (some (i, e))

theorem candidate_iff : e.candidate = true ↔ 1 ≤ e.miss ∧ e.polled = false := by
  simp [PointEntry.candidate]

/-- A place that is no candidate changes no choice. -/
theorem BestOf.skip {l : List (Fin 96)} {o : Option (Fin 96 × PointEntry)} (h : BestOf points l o)
    (hi : ∀ e, ¬ ToPoll points i e) : BestOf points (l ++ [i]) o := by
  have split {P : Fin 96 → Prop} (hl : ∀ j ∈ l, P j) (hp : P i) : ∀ j ∈ l ++ [i], P j := fun j hj =>
    (List.mem_append.1 hj).elim (hl j) fun hj => List.mem_singleton.1 hj ▸ hp
  cases h with
  | empty h => exact .empty (split h hi)
  | chosen m e hm hc h => exact .chosen m e (List.mem_append_left _ hm) hc (split h fun d hd => absurd hd (hi d))

/-- A later candidate is chosen where it has missed more. -/
theorem BestOf.extend {l : List (Fin 96)} {o : Option (Fin 96 × PointEntry)} (h : BestOf points l o) (hl : ∀ j ∈ l, j < i)
    (hi : ToPoll points i e) : BestOf points (l ++ [i]) (betterCandidate o i (some e)) := by
  have hsame {d : PointEntry} (hd : ToPoll points i d) : d = e := Option.some.inj (hd.1.symm.trans hi.1)
  have hmem : i ∈ l ++ [i] := List.mem_append_right _ List.mem_cons_self
  unfold betterCandidate
  dsimp only
  rw [if_pos (candidate_iff.2 hi.2)]
  cases h with
  | empty h =>
    refine .chosen i e hmem hi fun j hj d hd => ?_
    rcases List.mem_append.1 hj with hj | hj
    · exact absurd hd (h j hj d)
    · obtain rfl := List.mem_singleton.1 hj
      exact .inr ⟨congrArg _ (hsame hd), le_rfl⟩
  | chosen m b hm hc h =>
    dsimp only
    split_ifs with hlt
    · refine .chosen i e hmem hi fun j hj d hd => ?_
      rcases List.mem_append.1 hj with hj | hj
      · have := h j hj d hd
        omega
      · obtain rfl := List.mem_singleton.1 hj
        exact .inr ⟨congrArg _ (hsame hd), le_rfl⟩
    · refine .chosen m b (List.mem_append_left _ hm) hc fun j hj d hd => ?_
      rcases List.mem_append.1 hj with hj | hj
      · exact h j hj d hd
      · obtain rfl := List.mem_singleton.1 hj
        obtain rfl := hsame hd
        have := (hl m hm).le
        omega

theorem betterCandidate_best {l : List (Fin 96)} {o : Option (Fin 96 × PointEntry)} (h : BestOf points l o) (hl : ∀ j ∈ l, j < i) :
    BestOf points (l ++ [i]) (betterCandidate o i points[i]) := by
  cases hp : points[i] with
  | none => exact h.skip fun e he => by rw [he.1] at hp; cases hp
  | some e =>
    by_cases hc : e.candidate = true
    · exact h.extend hl ⟨hp, candidate_iff.1 hc⟩
    · have hskip : betterCandidate o i (some e) = o := if_neg hc
      rw [hskip]
      refine h.skip fun d hd => hc (candidate_iff.2 ?_)
      obtain rfl := Option.some.inj (hd.1.symm.trans hp)
      exact hd.2

theorem chooseCandidate_best (points : Table (Option PointEntry) 96) : BestOf points (List.finRange 96) (chooseCandidate points) := by
  have sorted (l : List (Fin 96)) (h : l.Pairwise (· < ·)) :
      BestOf points l (l.foldl (fun best i => betterCandidate best i points[i]) none) := by
    induction l using List.reverseRecOn with
    | nil => exact .empty fun i hi => by cases hi
    | append_singleton l i ih =>
      obtain ⟨hl, -, hlast⟩ := List.pairwise_append.1 h
      rw [List.foldl_append]
      exact betterCandidate_best (ih hl) fun j hj => hlast j hj i List.mem_cons_self
  exact sorted _ (List.pairwise_lt_finRange 96)

theorem choosePoll_stays (h : s.backlog = 0 ∨ s.poll ≠ none) : s.choosePoll = s :=
  if_pos (h.imp_right Option.isSome_iff_ne_none.2)

theorem choosePoll_none (hb : s.backlog ≠ 0) (hp : s.poll = none) (h : ∀ i e, ¬ ToPoll s.points i e) :
    s.choosePoll = { s with backlog := 0 } := by
  have hc : chooseCandidate s.points = none := by
    have hbest := chooseCandidate_best s.points
    cases hr : chooseCandidate s.points with
    | none => rfl
    | some p =>
      rw [hr] at hbest
      cases hbest with
      | chosen i e hi hc => exact absurd hc (h i e)
  unfold State.choosePoll
  rw [if_neg (by simp [hb, hp]), hc]

theorem choosePoll_some (hb : s.backlog ≠ 0) (hp : s.poll = none) (hc : ToPoll s.points i e)
    (h : ∀ j d, ToPoll s.points j d → d.miss < e.miss ∨ d.miss = e.miss ∧ i ≤ j) : s.choosePoll =
      { s with poll := some { key := e.key, entry := some i, cls := if s.backlog = 3 then .urgent else .routine, losses := 0 } } := by
  have hchosen : chooseCandidate s.points = some (i, e) := by
    have hbest := chooseCandidate_best s.points
    cases hr : chooseCandidate s.points with
    | none =>
      rw [hr] at hbest
      cases hbest with
      | empty hn => exact absurd hc (hn i (List.mem_finRange i) e)
    | some p =>
      rw [hr] at hbest
      cases hbest with
      | chosen m d hm hd hmax =>
        have h1 := h m d hd
        have h2 := hmax i (List.mem_finRange i) e hc
        have hmi : m = i := le_antisymm (by omega) (by omega)
        subst hmi
        rw [Option.some.inj (hd.1.symm.trans hc.1)]
  unfold State.choosePoll
  rw [if_neg (by simp [hb, hp]), hchosen]
  rfl

/-! ### The notice source and the store write queue (R171, R173, R188) -/

theorem chooseNotice_stays (h : s.notice ≠ none) : s.chooseNotice = s := by
  unfold State.chooseNotice
  cases hn : s.notice with
  | none => exact absurd hn h
  | some n => rfl

theorem chooseNotice_none (hn : s.notice = none) (h : ∀ i : Slot, s.noticeFlags[i] = false) : s.chooseNotice = s := by
  have hl : s.lowestFlag = none := List.find?_eq_none.2 fun i _ => by rw [h i]; exact Bool.false_ne_true
  unfold State.chooseNotice
  rw [hn, hl]
  exact congrArg (fun n => { s with notice := n }) hn.symm

theorem chooseNotice_lowest {i : Slot} (hn : s.notice = none) (hi : s.noticeFlags[i] = true)
    (h : ∀ j, j < i → s.noticeFlags[j] = false) : s.chooseNotice = { s with notice := some ⟨i, 0, false⟩ } := by
  have hl : s.lowestFlag = some i := find_finRange_lowest hi h
  unfold State.chooseNotice
  rw [hn, hl]
  rfl

theorem isWriting_iff {it : Item} : s.isWriting it = true ↔ ∃ w, s.writing = some w ∧ w.content.item = it := by
  unfold State.isWriting
  rw [Option.any_eq_true]
  simp

theorem markDirty_writing {w : Write} (hw : s.writing = some w) :
    s.markDirty w.content.item = { s with writing := some { w with requeue := true } } := by
  unfold State.markDirty
  rw [if_pos (isWriting_iff.2 ⟨w, hw, rfl⟩), hw]
  rfl

theorem markDirty_waiting {it : Item} (h : ∀ w, s.writing = some w → w.content.item ≠ it) :
    s.markDirty it = if it ∈ s.storeQueue then s else { s with storeQueue := s.storeQueue ++ [it] } := by
  unfold State.markDirty
  rw [if_neg fun hw => by
    obtain ⟨w, hw, hi⟩ := isWriting_iff.1 hw
    exact h w hw hi]
  simp only [List.contains_iff_mem]

/-! ### Target pairs and demanded pairs (R5, R90) -/

theorem mem_targetPairs {c : Coil} {k : DemandKey} : k ∈ s.targetPairs c ↔
    (s.units[c.unit].controller = some k.station ∧ (k.kind = .fs ∨ k.kind = .oac))
    ∨ ∃ p, c.profile = some p
        ∧ (k.kind = .vfo ∧ p.map.vfo = some k.station
          ∨ k.kind = .pms ∧ c.kind ≠ some .steam ∧ p.map.pms = some k.station
          ∨ k.kind = .fbf ∧ p.map.fbf = some k.station) := by
  obtain ⟨a, x⟩ := k
  unfold State.targetPairs pairsOf
  rw [List.mem_append]
  refine or_congr ?_ ?_
  · cases s.units[c.unit].controller with
    | none => simp
    | some b => simp [eq_comm, and_or_left]
  · cases c.profile with
    | none => simp
    | some p => by_cases hs : c.kind = some .steam <;> simp [hs, and_comm, eq_comm (a := x)]

theorem demands_iff (st : Stage) (k : ActionKind) : st.demands k = true ↔
    match st with
    | .clear | .watch => False
    | .trip | .lockout => True
    | .guard | .recovery .fanRestart | .recovery .prove => k ≠ .fs
    | .recovery (.stepDown d) => k ≠ .fs ∧ d.has k = false := by
  cases st with
  | recovery p => cases p <;> simp [Stage.demands]
  | _ => simp [Stage.demands]

/-! ### Reference changes (R30, R49) -/

theorem pollOnLine_iff : s.pollOnLine = true ↔ ∃ l, s.line = some l ∧ l.source = .poll ∧ l.orphan = false := by
  unfold State.pollOnLine
  rw [Option.any_eq_true]
  simp

/-- A reference change removes the entry of the offer (R49). -/
def State.OfferGone (s : State) (ch : RefChange) : Prop :=
  ∃ p i e, s.poll = some p ∧ p.entry = some i ∧ s.points[i] = some e ∧ ch.count s.points e.key = 0

theorem offerGone_iff {ch : RefChange} :
    ((s.poll.bind (·.entry)).any fun i => s.points[i].isSome && (ch.recount s.points)[i].isNone) = true ↔ s.OfferGone ch := by
  rw [Option.any_eq_true]
  constructor
  · rintro ⟨i, hi, hb⟩
    obtain ⟨p, hp, hpi⟩ := Option.bind_eq_some_iff.1 hi
    obtain ⟨hsome, hnone⟩ := Bool.and_eq_true_iff.1 hb
    obtain ⟨e, he⟩ := Option.isSome_iff_exists.1 hsome
    rw [recount_get, he, Option.bind_some] at hnone
    split_ifs at hnone with h0
    · exact ⟨p, i, e, hp, hpi, he, h0⟩
    · cases hnone
  · rintro ⟨p, i, e, hp, hpi, he, h0⟩
    refine ⟨i, Option.bind_eq_some_iff.2 ⟨p, hp, hpi⟩, ?_⟩
    rw [recount_get, he, Option.bind_some, if_pos h0]
    rfl

theorem changeRefs_offerStays {ch : RefChange} (h : ¬ s.OfferGone ch) : s.changeRefs ch = { s with points := ch.apply s.points } :=
  if_neg fun hg => h (offerGone_iff.1 hg)

theorem changeRefs_offerGone {ch : RefChange} (h : s.OfferGone ch) :
    s.changeRefs ch = ({ s with points := ch.apply s.points } : State).pollEntryRemoved := if_pos (offerGone_iff.2 h)

theorem recounted_of (hs : s.PointsCounted) {gives takes : List PointKey} (hr : s.RoomForPoints gives takes) :
    Recounted ⟨gives, takes⟩ s.points := by
  obtain ⟨hcount, hdist, -⟩ := hs
  have hfit : RefChange.fits ⟨gives, takes⟩ s.points = true := fits_iff.2 hr
  refine ⟨hdist, fun i e he => (hcount i e he).2, ?_⟩
  rw [unused_length]
  exact of_decide_eq_true hfit

theorem setNotice_sets (s : State) (i : Slot) : s.NoticeSet (s.setNotice i) i ∧ (∀ j, j ≠ i → s.NoticeKept (s.setNotice i) j)
    ∧ (s.notice = none → (s.setNotice i).notice = none)
    ∧ s.setNotice i = { s with noticeFlags := (s.setNotice i).noticeFlags, notice := (s.setNotice i).notice } := by
  refine ⟨setNotice_noticeSet s i, fun j hj => (setNotice_slotKept hj).kept, fun hn => ?_, rfl⟩
  show s.notice.map _ = none
  rw [hn]
  rfl

/-! ### Demand entries (R91, R97 to R99, R101) -/

theorem addMapRefs_get (hd : (s.demands.map (·.key)).Nodup) {ks : List DemandKey} (hks : ks.Nodup) (k : DemandKey) :
    let added := addMapRefs s.joinStamp ks s.demands
    let dropped := dropMapRefs ks s.demands
    (k ∉ ks → demandOf added k = demandOf s.demands k ∧ demandOf dropped k = demandOf s.demands k)
    ∧ (k ∈ ks → demandOf s.demands k = none →
      demandOf dropped k = none
      ∧ ∃ e : DemandEntry, demandOf added k = some e ∧ e.key = k ∧ e.mapRefs = 1 ∧ e.Fresh ∧ e.queued = some s.joinStamp)
    ∧ ∀ e, k ∈ ks → demandOf s.demands k = some e →
      let left : DemandEntry := { e with mapRefs := e.mapRefs - 1 }
      demandOf added k = some { e with mapRefs := e.mapRefs + 1 }
      ∧ demandOf dropped k = if left.Unneeded then none else some left := by
  have ha := demandOf_addMapRefs (ds := s.demands) s.joinStamp hks k
  have hr := demandOf_dropMapRefs hks hd k
  refine ⟨fun hn => ⟨ha.trans (if_neg hn), hr.trans (if_neg hn)⟩, fun hm hn => ⟨?_, ?_⟩, fun e hm he => ⟨?_, ?_⟩⟩
  · rw [hr, if_pos hm, hn]; rfl
  · rw [ha, if_pos hm, hn]
    exact ⟨_, rfl, rfl, rfl, DemandEntry.new_fresh _ _, rfl⟩
  · rw [ha, if_pos hm, he]
  · rw [hr, if_pos hm, he]; rfl

theorem changeCoil_get (hd : (s.demands.map (·.key)).Nodup) (i : Slot) (c : Coil) (k : DemandKey) :
    let before (k : DemandKey) : Prop := k ∈ s.demandedPairs s.coils[i]
    let after (k : DemandKey) : Prop := k ∈ s.demandedPairs c
    ((before k ↔ after k) → demandOf (s.changeCoil i c).demands k = demandOf s.demands k)
    ∧ (demandOf s.demands k = none → demandOf (s.changeCoil i c).demands k = none)
    ∧ ∀ e, demandOf s.demands k = some e →
      let left := e.withDemand (e.demand - 1) s.joinStamp
      (¬ before k → after k → demandOf (s.changeCoil i c).demands k = some (e.withDemand (e.demand + 1) s.joinStamp))
      ∧ (before k → ¬ after k → demandOf (s.changeCoil i c).demands k = if left.Unneeded then none else some left) := by
  have h := changeCoil_demandOf hd i c k
  refine ⟨fun hb => ?_, fun hn => by rw [h, hn]; rfl, fun e he => ⟨fun hb ha => ?_, fun hb ha => ?_⟩⟩
  · rw [h]
    cases demandOf s.demands k with
    | none => rfl
    | some e => rw [Option.bind_some, if_neg fun hc => hc.2 (hb.2 hc.1), if_neg fun hc => hc.2 (hb.1 hc.1)]
  · rw [h, he, Option.bind_some, if_pos ⟨ha, hb⟩]
  · rw [h, he, Option.bind_some, if_neg fun hc => ha hc.1, if_pos ⟨hb, ha⟩]

/-- Settles O44: each shared operation by its own lemma. -/
theorem sourcesChooseAndItemsAreMarked : Obligations.SourcesChooseAndItemsAreMarked := by
  intro s
  refine ⟨choosePoll_stays, fun hb hp h => choosePoll_none hb hp h, fun i e hb hp hc h => choosePoll_some hb hp hc h,
    chooseNotice_stays, chooseNotice_none, fun i hn hi h => chooseNotice_lowest hn hi h, fun w hw => markDirty_writing hw,
    fun it h => markDirty_waiting h, setNotice_sets s, rfl, fun u hp => ⟨s.fsoFor u, fsoFor_running s hp u, rfl⟩,
    fun c => ⟨targetPairs_nodup s c, fun k => ⟨mem_targetPairs, ?_⟩⟩,
    fun hd => ⟨fun ks k hks => addMapRefs_get hd hks k, fun i c => ⟨rfl, changeCoil_get hd i c⟩⟩, fun gives takes hs hr => ?_⟩
  · exact mem_demandedPairs.trans (and_congr_right fun _ => and_congr_right fun _ => demands_iff c.stage k.kind)
  have h := recounted_of hs hr
  have hpoints : (s.changeRefs ⟨gives, takes⟩).points = RefChange.apply ⟨gives, takes⟩ s.points := changeRefs_points s _
  have hgone : s.OfferGone ⟨gives, takes⟩ ↔
      ∃ p i e, s.poll = some p ∧ p.entry = some i ∧ s.points[i] = some e ∧ e.refs + takes.count e.key - gives.count e.key = 0 := by
    unfold State.OfferGone
    refine exists₃_congr fun p i e => and_congr_right fun _ => and_congr_right fun _ => and_congr_right fun he => ?_
    rw [h.count he]
  intro t count isNew gone onLine
  have hp : t.points = RefChange.apply ⟨gives, takes⟩ s.points := hpoints
  have hnew (i : Fin 96) (e : PointEntry) (hn : isNew i e) := h.isNew (hp ▸ hn.1) hn.2
  refine ⟨fun i e he => ⟨fun hc => ?_, fun hc => ?_⟩, fun i e hn => ?_, fun i j d e hd he hij => ?_, fun k hk hc => ?_, fun i e he => ?_,
    fun hg => ?_, fun hg hl => ?_, fun hg hl => ?_⟩
  · have hcount := h.count he
    rw [hp, h.stays he (by rw [hcount]; exact hc), hcount]
  · rw [hp]
    exact h.removed he (by rw [h.count he]; exact hc)
  · obtain ⟨-, hm, he, hl⟩ := hnew i e hn
    refine ⟨he, ?_, hp ▸ hl⟩
    have hpos := (mem_placed.1 hm).2.2
    rw [recount_free hn.2] at hpos
    rw [he]
    exact hpos
  · have hdn := hnew i d hd
    have hen := hnew j e he
    exact h.created.ordered _ (placed_pairwise _ _) i j d e hdn.1 hen.1 (hp ▸ hd.1) (hp ▸ he.1) hij
  · rw [hp]
    exact h.gained hk hc
  · rcases h.cases (hp ▸ he) with ⟨d, hd, -, rfl⟩ | ⟨-, hm, -⟩
    · exact .inr ⟨d, hd, rfl⟩
    · exact .inl ⟨he, h.free hm⟩
  · rw [hp]
    exact changeRefs_offerStays fun hc => hg (hgone.1 hc)
  · have hc : t = _ := changeRefs_offerGone (hgone.2 hg)
    have hline : s.pollOnLine = true := pollOnLine_iff.2 hl
    rw [hp, hc]
    exact if_pos hline
  · have hc : t = _ := changeRefs_offerGone (hgone.2 hg)
    have hline : ¬ s.pollOnLine = true := fun hb => hl (pollOnLine_iff.1 hb)
    rw [hp, hc]
    exact if_neg hline

end Sys2Proof.Machine
end

