-- ==== Sys2Proof/Proofs/LoadedPoints.lean ====
section
/-! What a load makes of the Point Table (R50): the keys it holds as it comes to each slot, and whether a definition finds room. -/

namespace Sys2Proof.Machine

variable {points points' : Table (Option PointEntry) 96} {s t : State} {k : PointKey} {i j : Fin 96} {d e : PointEntry}

/-! ### The keys that a table holds -/

/-- The keys that entries hold, in the order of their places. -/
def keysOf (points : Table (Option PointEntry) 96) : List PointKey := (List.finRange 96).filterMap fun i => points[i].map (·.key)

theorem mem_keysOf : k ∈ keysOf points ↔ ∃ (i : Fin 96) (e : PointEntry), points[i] = some e ∧ e.key = k := by
  unfold keysOf
  rw [List.mem_filterMap]
  constructor
  · rintro ⟨i, -, h⟩
    obtain ⟨e, he, hk⟩ := Option.map_eq_some_iff.1 h
    exact ⟨i, e, he, hk⟩
  · rintro ⟨i, e, he, hk⟩
    exact ⟨i, List.mem_finRange i, Option.map_eq_some_iff.2 ⟨e, he, hk⟩⟩

theorem keysOf_nodup (h : KeysDistinct points) : (keysOf points).Nodup := by
  refine List.Nodup.filterMap (fun i j k hi hj => ?_) (List.nodup_finRange 96)
  obtain ⟨d, hd, hdk⟩ := Option.map_eq_some_iff.1 hi
  obtain ⟨e, he, hek⟩ := Option.map_eq_some_iff.1 hj
  exact h i j d e hd he (hdk.trans hek.symm)

theorem keysOf_length_le (points : Table (Option PointEntry) 96) : (keysOf points).length ≤ 96 := by
  refine le_trans (List.length_filterMap_le _ _) ?_
  rw [List.length_finRange]

/-- Where no place is unused, 96 keys are held. -/
theorem keysOf_full (h : lowestUnused points = none) : (keysOf points).length = 96 := by
  have hall : (keysOf points).length = (List.finRange 96).length := List.filterMap_length_eq_length.2 fun i _ => by
    rw [Option.isSome_map]
    exact lowestUnused_none h i
  rw [hall, List.length_finRange]

theorem keyFree_iff : KeyFree points k ↔ k ∉ keysOf points := by
  rw [mem_keysOf]
  exact ⟨fun h ⟨i, e, he, hk⟩ => h i e he hk, fun h i e he hk => h ⟨i, e, he, hk⟩⟩

/-- Distinct values of a list that a list holds are no more than its members. -/
theorem dedup_length_le {α : Type} [DecidableEq α] {l m : List α} (h : ∀ x ∈ l, x ∈ m) : l.dedup.length ≤ m.length :=
  ((List.nodup_dedup l).subperm fun x hx => h x (List.mem_dedup.1 hx)).length_le

/-- Distinct values of a list are no fewer than those of a list without repetition that it holds. -/
theorem le_dedup_length {α : Type} [DecidableEq α] {l m : List α} (hn : l.Nodup) (h : ∀ x ∈ l, x ∈ m) : l.length ≤ m.dedup.length :=
  (hn.subperm fun x hx => List.mem_dedup.2 (h x hx)).length_le

/-! ### One reference more (R50) -/

/-- A key is added to a table that a load makes: its entry counts one more, or a new one is created at the lowest unused place. -/
inductive KeyAdded (points : Table (Option PointEntry) 96) (k : PointKey) : Table (Option PointEntry) 96 → Prop
  | counted (i : Fin 96) (e : PointEntry) (he : points[i] = some e) (hk : e.key = k) :
      KeyAdded points k (tablePut points i (some { e with refs := e.refs + 1 }))
  | created (i : Fin 96) (hi : points[i] = none) (hk : KeyFree points k) (hl : ∀ j, j < i → points[j].isSome) :
      KeyAdded points k (tablePut points i (some (.new k 1)))

theorem createEntry_keyAdded (hk : KeyFree points k) (hu : lowestUnused points ≠ none) : KeyAdded points k (createEntry points k 1) := by
  have hne : unused points ≠ [] := by
    obtain ⟨i, hi⟩ := Option.ne_none_iff_exists'.1 hu
    refine List.ne_nil_of_mem (a := i) (mem_unused.2 ?_)
    exact Option.isNone_iff_eq_none.1 (List.find?_some (p := fun i : Fin 96 => points[i].isNone) hi)
  obtain ⟨i, hi, hl, he⟩ := createEntry_unused hne k 1
  rw [he]
  exact .created i hi hk hl

theorem keyFree_of_indexOf (h : indexOf points k = none) : KeyFree points k := by
  intro i e he hk
  refine List.find?_eq_none.1 h i (List.mem_finRange i) ?_
  rw [he]
  exact beq_iff_eq.2 hk

theorem addPointRef_some (h : addPointRef points k = some points') : KeyAdded points k points' := by
  unfold addPointRef at h
  split at h
  next i hi =>
    obtain ⟨e, he, hk⟩ := indexOf_some hi
    obtain rfl := Option.some.inj h
    rw [he]
    exact .counted i e he hk
  next hi =>
    split_ifs at h with hu
    obtain rfl := Option.some.inj h
    exact createEntry_keyAdded (keyFree_of_indexOf hi) (Option.isSome_iff_ne_none.1 hu)

/-- A key finds no entry where it is free and 96 others are held. -/
theorem addPointRef_none (h : addPointRef points k = none) : KeyFree points k ∧ (keysOf points).length = 96 := by
  unfold addPointRef at h
  split at h
  · cases h
  next hi =>
    split_ifs at h with hu
    exact ⟨keyFree_of_indexOf hi, keysOf_full (Option.not_isSome_iff_eq_none.1 hu)⟩

/-- Every entry keeps its place and its key. -/
theorem KeyAdded.kept (h : KeyAdded points k points') (he : points[i] = some e) : ∃ d, points'[i] = some d ∧ d.key = e.key := by
  cases h with
  | counted m d hd hk =>
    rw [tablePut_get]
    split_ifs with hi
    · subst hi
      have hde : d.key = e.key := congrArg PointEntry.key (Option.some.inj (hd.symm.trans he))
      exact ⟨_, rfl, hde⟩
    · exact ⟨e, he, rfl⟩
  | created m hm hk hl =>
    rw [tablePut_get, if_neg (by rintro rfl; rw [hm] at he; cases he)]
    exact ⟨e, he, rfl⟩

/-- An entry of the new table stood in its place with its key, and as fresh, or is the new one of the key. -/
theorem KeyAdded.cases (h : KeyAdded points k points') (he : points'[i] = some e) :
    (∃ d, points[i] = some d ∧ d.key = e.key ∧ (d.Fresh → e.Fresh)) ∨ points[i] = none ∧ e = .new k 1 ∧ KeyFree points k := by
  cases h with
  | counted m d hd hk =>
    rw [tablePut_get] at he
    split_ifs at he with hi
    · subst hi
      obtain rfl := Option.some.inj he
      exact .inl ⟨d, hd, rfl, id⟩
    · exact .inl ⟨e, he, rfl, id⟩
  | created m hm hk hl =>
    rw [tablePut_get] at he
    split_ifs at he with hi
    · subst hi
      exact .inr ⟨hm, (Option.some.inj he).symm, hk⟩
    · exact .inl ⟨e, he, rfl, id⟩

theorem KeyAdded.mem (h : KeyAdded points k points') : k ∈ keysOf points' := by
  rw [mem_keysOf]
  cases h with
  | counted m d hd hk => exact ⟨m, _, tablePut_get_same _ _ _, hk⟩
  | created m hm hk hl => exact ⟨m, _, tablePut_get_same _ _ _, rfl⟩

theorem KeyAdded.mem_iff (h : KeyAdded points k points') (x : PointKey) : x ∈ keysOf points' ↔ x ∈ keysOf points ∨ x = k := by
  constructor
  · intro hx
    obtain ⟨i, e, he, rfl⟩ := mem_keysOf.1 hx
    rcases h.cases he with ⟨d, hd, hk, -⟩ | ⟨-, rfl, -⟩
    · exact .inl (mem_keysOf.2 ⟨i, d, hd, hk⟩)
    · exact .inr rfl
  · rintro (hx | rfl)
    · obtain ⟨i, e, he, rfl⟩ := mem_keysOf.1 hx
      obtain ⟨d, hd, hk⟩ := h.kept he
      exact mem_keysOf.2 ⟨i, d, hd, hk⟩
    · exact h.mem

/-- A key is newly created at one place alone. -/
theorem KeyAdded.new_unique (h : KeyAdded points k points') (hf : KeyFree points k) (hi : points[i] = none) (hj : points[j] = none)
    (hi' : (points'[i]).isSome) (hj' : (points'[j]).isSome) : i = j := by
  cases h with
  | counted m e he hk => exact absurd hk (hf m e he)
  | created m hm =>
    have at_new {x : Fin 96} (hx : points[x] = none) (hx' : ((tablePut points m (some (.new k 1)))[x]).isSome) : x = m := by
      by_contra hne
      rw [tablePut_get_other _ _ hne, hx] at hx'
      cases hx'
    rw [at_new hi hi', at_new hj hj']

/-- A table that a load makes: distinct keys, and every entry as R28 creates it. -/
structure FreshTable (points : Table (Option PointEntry) 96) : Prop where
  distinct : KeysDistinct points
  fresh : ∀ (i : Fin 96) (e : PointEntry), points[i] = some e → e.Fresh

theorem KeyAdded.freshTable (h : KeyAdded points k points') (hp : FreshTable points) : FreshTable points' := by
  refine ⟨fun i j d e hd he hk => ?_, fun i e he => ?_⟩
  · rcases h.cases hd with ⟨d', hd', hdk, -⟩ | ⟨hi, rfl, hfree⟩ <;> rcases h.cases he with ⟨e', he', hek, -⟩ | ⟨hj, rfl, hfree'⟩
    · exact hp.distinct i j d' e' hd' he' (hdk.trans (hk.trans hek.symm))
    · exact absurd (hdk.trans hk) (hfree' i d' hd')
    · exact absurd (hek.trans hk.symm) (hfree j e' he')
    · exact h.new_unique hfree hi hj (by rw [hd]; rfl) (by rw [he]; rfl)
  · rcases h.cases he with ⟨d, hd, -, hf⟩ | ⟨-, rfl, -⟩
    · exact hf (hp.fresh i d hd)
    · exact ⟨rfl, rfl, rfl, rfl, rfl, rfl, rfl, rfl⟩

/-! ### The bindings of a definition (R50) -/

/-- The keys of a definition's bindings. -/
def CoilDefinition.keys (d : CoilDefinition) : List PointKey := (d.lat.map (·.key)).toList ++ (d.ft.map (·.key)).toList

variable {def₀ : CoilDefinition} {b : Option Binding}

theorem placeBinding_some (hp : FreshTable points) (h : placeBinding points b = some points') :
    FreshTable points' ∧ (∀ x, x ∈ keysOf points' ↔ x ∈ keysOf points ∨ x ∈ (b.map (·.key)).toList)
      ∧ ∀ (i : Fin 96) (e : PointEntry), points[i] = some e → ∃ d, points'[i] = some d ∧ d.key = e.key := by
  cases b with
  | none =>
    obtain rfl := Option.some.inj h
    exact ⟨hp, fun x => by simp, fun i e he => ⟨e, he, rfl⟩⟩
  | some b =>
    have ha := addPointRef_some h
    exact ⟨ha.freshTable hp, fun x => by rw [ha.mem_iff]; simp, fun i e he => ha.kept he⟩

theorem placeBindings_some (hp : FreshTable points) (h : placeBindings points def₀ = some points') :
    FreshTable points' ∧ (∀ x, x ∈ keysOf points' ↔ x ∈ keysOf points ∨ x ∈ def₀.keys)
      ∧ ∀ (i : Fin 96) (e : PointEntry), points[i] = some e → ∃ d, points'[i] = some d ∧ d.key = e.key := by
  obtain ⟨p, h1, h2⟩ := Option.bind_eq_some_iff.1 h
  obtain ⟨hp1, hm1, hk1⟩ := placeBinding_some hp h1
  obtain ⟨hp2, hm2, hk2⟩ := placeBinding_some hp1 h2
  refine ⟨hp2, fun x => ?_, fun i e he => ?_⟩
  · rw [hm2, hm1, CoilDefinition.keys, List.mem_append, or_assoc]
  · obtain ⟨d, hd, hdk⟩ := hk1 i e he
    obtain ⟨d', hd', hdk'⟩ := hk2 i d hd
    exact ⟨d', hd', hdk'.trans hdk⟩

theorem placeBinding_none (hp : FreshTable points) (h : placeBinding points b = none) :
    ∃ k ∈ (b.map (·.key)).toList, (k :: keysOf points).Nodup ∧ (keysOf points).length = 96 := by
  cases b with
  | none => cases h
  | some b =>
    obtain ⟨hfree, hlen⟩ := addPointRef_none h
    exact ⟨b.key, List.mem_cons_self, List.nodup_cons.2 ⟨keyFree_iff.1 hfree, keysOf_nodup hp.distinct⟩, hlen⟩

/-- A definition's bindings find room unless they would make more than 96 keys (R50). -/
theorem placeBindings_none_iff (hp : FreshTable points) {l : List PointKey} (hl : ∀ x, x ∈ l ↔ x ∈ keysOf points ∨ x ∈ def₀.keys) :
    placeBindings points def₀ = none ↔ 96 < l.dedup.length := by
  have overfull {p : Table (Option PointEntry) 96} {k : PointKey} (hk : (k :: keysOf p).Nodup) (hlen : (keysOf p).length = 96)
      (hsub : ∀ x ∈ k :: keysOf p, x ∈ l) : 96 < l.dedup.length := by
    have := le_dedup_length hk hsub
    rw [List.length_cons, hlen] at this
    exact this
  constructor
  · intro h
    rcases h1 : placeBinding points def₀.lat with _ | p
    · obtain ⟨k, hk, hn, hlen⟩ := placeBinding_none hp h1
      refine overfull hn hlen fun x hx => (hl x).2 ?_
      rcases List.mem_cons.1 hx with rfl | hx
      · exact .inr (List.mem_append_left _ hk)
      · exact .inl hx
    · obtain ⟨hp1, hm1, -⟩ := placeBinding_some hp h1
      have h2 : placeBinding p def₀.ft = none := by rwa [placeBindings, h1, Option.bind_some] at h
      obtain ⟨k, hk, hn, hlen⟩ := placeBinding_none hp1 h2
      refine overfull hn hlen fun x hx => (hl x).2 ?_
      rcases List.mem_cons.1 hx with rfl | hx
      · exact .inr (List.mem_append_right _ hk)
      · exact ((hm1 x).1 hx).imp_right (List.mem_append_left _)
  · intro h
    by_contra hn
    obtain ⟨p, hs⟩ := Option.ne_none_iff_exists'.1 hn
    obtain ⟨-, hm, -⟩ := placeBindings_some hp hs
    have hle := dedup_length_le (l := l) (m := keysOf p) fun x hx => (hm x).2 ((hl x).1 hx)
    have := keysOf_length_le p
    omega

end Sys2Proof.Machine
end

