-- ==== Sys2Proof/Proofs/LoadedSlots.lean ====
section
/-! What a load leaves in each slot (R25, R50, R191, R192): slot by slot, the record that `State.loadsAs` names. -/

namespace Sys2Proof.Machine

variable {b s t u : State} {i j : Slot} {c : Coil} {k : DemandKey} {n : Nat}

/-! ### What a slot's outcome depends on -/

/-- Where the retained memory, the outdoor binding, the unit definitions and the lower slots agree, a slot loads alike. -/
theorem loadsAs_congr (hr : u.retained = t.retained) (ho : u.outdoor = t.outdoor) (hu : u.units = t.units)
    (hc : ∀ j, j < i → u.coils[j] = t.coils[j]) : u.loadsAs i = t.loadsAs i := by
  have hpairs : u.targetPairs = t.targetPairs := targetPairs_of_controllers fun v => by rw [hu]
  have below {β : Type} {f g : Slot → List β} (h : ∀ j, j < i → f j = g j) :
      ((List.finRange 48).filter fun j => j < i).flatMap f = ((List.finRange 48).filter fun j => j < i).flatMap g :=
    List.flatMap_congr fun j hj => h j (of_decide_eq_true (List.mem_filter.1 hj).2)
  have hkb : u.keysBelow i = t.keysBelow i := by
    unfold State.keysBelow
    rw [ho, below fun j hj => by rw [hc j hj]]
  have hpb : u.pairsBelow i = t.pairsBelow i := by
    unfold State.pairsBelow
    rw [hpairs]
    exact below fun j hj => by rw [hc j hj]
  have htag (tag : Nat) : ((List.finRange 48).any fun j => j < i && u.coils[j].lifecycle != .vacant && u.coils[j].tag == tag)
      = (List.finRange 48).any fun j => j < i && t.coils[j].lifecycle != .vacant && t.coils[j].tag == tag := by
    refine congrArg (fun p => (List.finRange 48).any p) (funext fun j => ?_)
    by_cases hj : j < i
    · rw [hc j hj]
    · rw [decide_eq_false hj, Bool.false_and, Bool.false_and, Bool.false_and, Bool.false_and]
  unfold State.loadsAs
  rw [hr, hkb, hpb, hpairs, hu]
  simp only [htag]

/-! ### What the table and the records hold as a load comes to a slot -/

/-- A key is named by the outdoor binding or by a record (R29). -/
def State.Names (s : State) (k : PointKey) : Prop :=
  s.outdoor = some k ∨ ∃ j : Slot, s.coils[j].lifecycle ≠ .vacant ∧ k ∈ s.coils[j].keys

/-- A pair is one of a SETTLING record. -/
def State.HoldsPair (s : State) (k : DemandKey) : Prop :=
  ∃ j : Slot, s.coils[j].lifecycle = .settling ∧ k ∈ s.targetPairs s.coils[j]

/-- A load from `b` has settled the slots below `n`: those from `n` on stand VACANT, the point entries are those of the keys named, the
demand entries those of the pairs of SETTLING records, and each slot below `n` holds what it loads as. -/
structure State.SettledTo (b : State) (n : Nat) (t : State) : Prop where
  rest : t = { b with coils := t.coils, points := t.points, demands := t.demands, lostSlots := t.lostSlots }
  ahead : ∀ j : Slot, n ≤ j.val → t.coils[j] = Coil.vacant 0
  table : FreshTable t.points
  keys : ∀ k, k ∈ keysOf t.points ↔ t.Names k
  first : ∀ k, t.outdoor = some k → ∃ e, t.points[(0 : Fin 96)] = some e ∧ e.key = k
  tabled : t.Tabled
  fresh : ∀ e ∈ t.demands, e.Fresh
  pairs : ∀ k, (demandOf t.demands k).isSome ↔ t.HoldsPair k
  slots : ∀ j : Slot, j.val < n → t.coils[j] = (t.loadsAs j).1
  lost : b.lostSlots ≤ 255 →
    t.lostSlots = min 255 (b.lostSlots + ((List.finRange 48).filter fun j => j.val < n && (t.loadsAs j).2).length)

/-! ### The checks of a slot -/

theorem mem_below {α : Type} {f : Slot → List α} {x : α} :
    x ∈ ((List.finRange 48).filter fun j => j < i).flatMap f ↔ ∃ j, j < i ∧ x ∈ f j := by
  rw [List.mem_flatMap]
  exact ⟨fun ⟨j, hj, hx⟩ => ⟨j, of_decide_eq_true (List.mem_filter.1 hj).2, hx⟩,
    fun ⟨j, hj, hx⟩ => ⟨j, List.mem_filter.2 ⟨List.mem_finRange j, decide_eq_true hj⟩, hx⟩⟩

/-- A slot that is not VACANT is one that the load has settled. -/
theorem lt_of_settled (ha : ∀ j : Slot, i.val ≤ j.val → t.coils[j] = Coil.vacant 0) (h : t.coils[j].lifecycle ≠ .vacant) : j < i := by
  by_contra hn
  rw [ha j (not_lt.1 hn)] at h
  exact h rfl

theorem mem_keysBelow (ha : ∀ j : Slot, i.val ≤ j.val → t.coils[j] = Coil.vacant 0) (k : PointKey) : k ∈ t.keysBelow i ↔ t.Names k := by
  unfold State.keysBelow State.Names
  rw [List.mem_append, mem_below]
  refine or_congr Option.mem_toList ⟨fun ⟨j, _, hk⟩ => ?_, fun ⟨j, hv, hk⟩ => ⟨j, lt_of_settled ha hv, ?_⟩⟩
  · split_ifs at hk with hv
    · cases hk
    · exact ⟨j, hv, hk⟩
  · rw [if_neg hv]
    exact hk

theorem mem_pairsBelow (ha : ∀ j : Slot, i.val ≤ j.val → t.coils[j] = Coil.vacant 0) (k : DemandKey) :
    k ∈ t.pairsBelow i ↔ t.HoldsPair k := by
  unfold State.pairsBelow State.HoldsPair
  rw [mem_below]
  refine ⟨fun ⟨j, _, hk⟩ => ?_, fun ⟨j, hs, hk⟩ => ⟨j, lt_of_settled ha (by rw [hs]; decide), ?_⟩⟩
  · split_ifs at hk with hs
    · exact ⟨j, hs, hk⟩
    · cases hk
  · rw [if_pos hs]
    exact hk

theorem tagHeld_below (ha : ∀ j : Slot, i.val ≤ j.val → t.coils[j] = Coil.vacant 0) (tag : Nat) :
    ((List.finRange 48).any fun j => j < i && t.coils[j].lifecycle != .vacant && t.coils[j].tag == tag) = t.tagHeld tag := by
  rw [Bool.eq_iff_iff, List.any_eq_true, State.tagHeld, List.any_eq_true]
  constructor
  · rintro ⟨j, -, hj⟩
    rw [Bool.and_assoc, Bool.and_eq_true] at hj
    exact ⟨t.coils[j], Vector.mem_toList_iff.2 (Vector.getElem_mem j.isLt), hj.2⟩
  · rintro ⟨c, hc, hj⟩
    obtain ⟨m, hm, rfl⟩ := Vector.getElem_of_mem (Vector.mem_toList_iff.1 hc)
    have hv : t.coils[(⟨m, hm⟩ : Slot)].lifecycle ≠ .vacant := by simpa using (Bool.and_eq_true_iff.1 hj).1
    refine ⟨⟨m, hm⟩, List.mem_finRange _, ?_⟩
    rw [Bool.and_assoc, Bool.and_eq_true]
    exact ⟨decide_eq_true (lt_of_settled ha hv), hj⟩

/-- The pairs of a definition find room in the demand table where they and those placed are no more than 64 (R25, R118). -/
theorem pairs_room {ds : List DemandEntry} {ks l : List DemandKey} (hd : (ds.map (·.key)).Nodup) (hroom : ds.length ≤ 64) (hk : ks.Nodup)
    (hl : ∀ k, k ∈ l ↔ (demandOf ds k).isSome ∨ k ∈ ks) : (newPairs ks ds).length ≤ 64 - ds.length ↔ l.dedup.length ≤ 64 := by
  have hnew (k : DemandKey) : k ∈ newPairs ks ds ↔ k ∈ ks ∧ ¬ (demandOf ds k).isSome := by
    rw [newPairs, List.mem_filter, Option.isNone_iff_eq_none, Option.not_isSome_iff_eq_none]
  have hperm : l.dedup.Perm (ds.map (·.key) ++ newPairs ks ds) := by
    refine (List.perm_ext_iff_of_nodup (List.nodup_dedup l) ?_).2 fun k => ?_
    · refine List.nodup_append.2 ⟨hd, hk.filter _, fun a ha b hb hab => ?_⟩
      subst hab
      exact ((hnew a).1 hb).2 (demandOf_isSome.2 ha)
    · rw [List.mem_dedup, hl, List.mem_append, hnew, ← demandOf_isSome]
      by_cases h : (demandOf ds k).isSome <;> simp [h]
  rw [hperm.length_eq, List.length_append, List.length_map]
  omega

end Sys2Proof.Machine
end

