-- ==== Sys2Proof/Proofs/LoadSteps.lean ====
section
/-! A load goes through the slots and leaves in each what `State.loadsAs` names (R25, R50, R191, R192). -/

namespace Sys2Proof.Machine

variable {b s t u : State} {i j : Slot} {c : Coil} {k : DemandKey} {n : Nat} {def₀ : CoilDefinition}

/-! ### What a slot loads as -/

theorem loadsAs_empty (h : t.retained.coils[i] = .blank ∨ t.retained.coils[i] = .valid .erased) :
    t.loadsAs i = (Coil.vacant 0, false) := by
  unfold State.loadsAs
  rcases h with h | h <;> rw [h]

theorem loadsAs_invalid (h : t.retained.coils[i] = .invalid) : t.loadsAs i = (Coil.vacant 0, true) := by
  unfold State.loadsAs
  rw [h]

/-- An item's tag or its keys lose its slot (R50, R191). -/
theorem State.SettledTo.loses_iff (h : b.SettledTo i.val t) (d : CoilDefinition) :
    (((List.finRange 48).any fun j => j < i && t.coils[j].lifecycle != .vacant && t.coils[j].tag == d.tag)
      || decide (96 < (t.keysBelow i ++ (d.toCoil .settling d.latch).keys).dedup.length)) = true
    ↔ t.tagHeld d.tag = true ∨ placeBindings t.points d = none := by
  rw [tagHeld_below h.ahead, Bool.or_eq_true, decide_eq_true_eq]
  refine or_congr_right (placeBindings_none_iff h.table fun x => ?_).symm
  rw [List.mem_append, mem_keysBelow h.ahead, h.keys]
  rfl

theorem State.SettledTo.loadsAs_lost (h : b.SettledTo i.val t) (hd : t.retained.coils[i] = .valid (.record def₀))
    (hl : t.tagHeld def₀.tag = true ∨ placeBindings t.points def₀ = none) : t.loadsAs i = (Coil.vacant 0, true) := by
  unfold State.loadsAs
  rw [hd]
  exact if_pos ((h.loses_iff def₀).2 hl)

theorem State.SettledTo.loadsAs_placed (h : b.SettledTo i.val t) (hd : t.retained.coils[i] = .valid (.record def₀))
    (hk : ¬ (t.tagHeld def₀.tag = true ∨ placeBindings t.points def₀ = none)) {l : Lifecycle}
    (hl : def₀.lifecycle = .draft ∧ l = .draft ∨ def₀.lifecycle = .suspended ∧ l = .suspended) :
    t.loadsAs i = (def₀.toCoil l .none, false) := by
  unfold State.loadsAs
  rw [hd]
  refine (if_neg fun hc => hk ((h.loses_iff def₀).1 hc)).trans ?_
  rcases hl with ⟨hl, rfl⟩ | ⟨hl, rfl⟩ <;> rw [hl] <;> rfl

/-- The pairs of an ARMED item find room (R25, R118). -/
theorem State.SettledTo.room_iff (h : b.SettledTo i.val t) (d : CoilDefinition) :
    (t.units[d.unit].controller.isSome
      && decide ((t.pairsBelow i ++ t.targetPairs (d.toCoil .settling d.latch)).dedup.length ≤ 64)) = true ↔ t.roomForArmed d := by
  rw [Bool.and_eq_true, decide_eq_true_eq, State.roomForArmed]
  refine and_congr_right fun _ => (pairs_room h.tabled.sound.1 h.tabled.room (targetPairs_nodup _ _) fun k => ?_).symm
  rw [List.mem_append, mem_pairsBelow h.ahead, h.pairs]

theorem State.SettledTo.loadsAs_armed (h : b.SettledTo i.val t) (hd : t.retained.coils[i] = .valid (.record def₀))
    (hk : ¬ (t.tagHeld def₀.tag = true ∨ placeBindings t.points def₀ = none)) (hl : def₀.lifecycle = .armed) :
    (t.roomForArmed def₀ → t.loadsAs i = (def₀.toCoil .settling def₀.latch, false))
    ∧ (¬ t.roomForArmed def₀ → t.loadsAs i = (def₀.toCoil .suspended .none, true)) := by
  unfold State.loadsAs
  rw [hd]
  have hpass := fun hc => hk ((h.loses_iff def₀).1 hc)
  refine ⟨fun hr => (if_neg hpass).trans ?_, fun hr => (if_neg hpass).trans ?_⟩
  · rw [hl]
    exact if_pos ((h.room_iff def₀).2 hr)
  · rw [hl]
    exact if_neg fun hc => hr ((h.room_iff def₀).1 hc)

/-- A slot is left as it loads, and counted where it loads otherwise than as stored. -/
theorem slotLoad_outcome (h : b.SettledTo i.val t) (hl : SlotLoad t i u) : u.coils[i] = (t.loadsAs i).1
    ∧ u.lostSlots = if (t.loadsAs i).2 then min 255 (t.lostSlots + 1) else t.lostSlots := by
  have passes {d : CoilDefinition} {points} (ht : t.tagHeld d.tag = false) (hp : placeBindings t.points d = some points) :
      ¬ (t.tagHeld d.tag = true ∨ placeBindings t.points d = none) := by
    rintro (h | h)
    · rw [ht] at h; cases h
    · rw [hp] at h; cases h
  have hv := h.ahead i le_rfl
  cases hl with
  | stays hr =>
    rw [loadsAs_empty hr]
    exact ⟨hv, rfl⟩
  | lost hr =>
    have hlost : t.loadsAs i = (Coil.vacant 0, true) := by
      rcases hr with hr | ⟨d, hd, hr⟩
      · exact loadsAs_invalid hr
      · exact h.loadsAs_lost hd hr
    rw [hlost]
    exact ⟨hv, rfl⟩
  | placed d points l hd ht hp hl =>
    rw [h.loadsAs_placed hd (passes ht hp) hl]
    exact ⟨tablePut_get_same _ _ _, rfl⟩
  | settles d points hd ht hp hl hr =>
    rw [(h.loadsAs_armed hd (passes ht hp) hl).1 hr]
    exact ⟨tablePut_get_same _ _ _, rfl⟩
  | fellBack d points hd ht hp hl hr =>
    rw [(h.loadsAs_armed hd (passes ht hp) hl).2 hr]
    exact ⟨tablePut_get_same _ _ _, rfl⟩

/-! ### One slot more -/

theorem slotLoad_rest (h : SlotLoad t i u) :
    u = { t with coils := u.coils, points := u.points, demands := u.demands, lostSlots := u.lostSlots } := by
  cases h <;> rfl

/-- A load leaves the point entries and the records, or places the record of an item whose keys find room. -/
theorem slotLoad_places (h : SlotLoad t i u) : (u.points = t.points ∧ u.coils = t.coils)
    ∨ ∃ d l latch, placeBindings t.points d = some u.points ∧ u.coils = tablePut t.coils i (d.toCoil l latch) ∧ l ≠ .vacant := by
  cases h with
  | stays => exact .inl ⟨rfl, rfl⟩
  | lost => exact .inl ⟨rfl, rfl⟩
  | placed d points l hd ht hp hl =>
    refine .inr ⟨d, l, .none, hp, rfl, ?_⟩
    rcases hl with ⟨-, rfl⟩ | ⟨-, rfl⟩ <;> decide
  | settles d points hd ht hp => exact .inr ⟨d, .settling, d.latch, hp, rfl, by decide⟩
  | fellBack d points hd ht hp => exact .inr ⟨d, .suspended, .none, hp, rfl, by decide⟩

theorem names_put (hv : t.coils[i].lifecycle = .vacant) (hc : u.coils = tablePut t.coils i c) (ho : u.outdoor = t.outdoor)
    (hn : c.lifecycle ≠ .vacant) (k : PointKey) : u.Names k ↔ t.Names k ∨ k ∈ c.keys := by
  unfold State.Names
  rw [ho, or_assoc, hc]
  refine or_congr_right ⟨fun ⟨j, hj, hk⟩ => ?_, fun h => ?_⟩
  · rw [tablePut_get] at hj hk
    split_ifs at hj hk with hji
    · exact .inr hk
    · exact .inl ⟨j, hj, hk⟩
  · rcases h with ⟨j, hj, hk⟩ | hk
    · have hji : j ≠ i := by rintro rfl; exact hj hv
      exact ⟨j, by rw [tablePut_get_other _ _ hji]; exact hj, by rw [tablePut_get_other _ _ hji]; exact hk⟩
    · exact ⟨i, by rw [tablePut_get_same]; exact hn, by rw [tablePut_get_same]; exact hk⟩

theorem holdsPair_put (hv : t.coils[i].lifecycle = .vacant) (hc : u.coils = tablePut t.coils i c) (hu : u.targetPairs = t.targetPairs)
    (k : DemandKey) : u.HoldsPair k ↔ t.HoldsPair k ∨ c.lifecycle = .settling ∧ k ∈ t.targetPairs c := by
  unfold State.HoldsPair
  rw [hu, hc]
  refine ⟨fun ⟨j, hj, hk⟩ => ?_, fun h => ?_⟩
  · rw [tablePut_get] at hj hk
    split_ifs at hj hk with hji
    · exact .inr ⟨hj, hk⟩
    · exact .inl ⟨j, hj, hk⟩
  · rcases h with ⟨j, hj, hk⟩ | ⟨hl, hk⟩
    · have hji : j ≠ i := by rintro rfl; rw [hv] at hj; cases hj
      exact ⟨j, by rw [tablePut_get_other _ _ hji]; exact hj, by rw [tablePut_get_other _ _ hji]; exact hk⟩
    · exact ⟨i, by rw [tablePut_get_same]; exact hl, by rw [tablePut_get_same]; exact hk⟩

theorem slotLoad_pairs (hl : SlotLoad t i u) (hv : t.coils[i].lifecycle = .vacant)
    (h : ∀ k, (demandOf t.demands k).isSome ↔ t.HoldsPair k) (k : DemandKey) : (demandOf u.demands k).isSome ↔ u.HoldsPair k := by
  have outside {c : Coil} (hc : u.coils = tablePut t.coils i c) (hp : u.targetPairs = t.targetPairs) (hd : u.demands = t.demands)
      (hn : c.lifecycle ≠ .settling) : (demandOf u.demands k).isSome ↔ u.HoldsPair k := by
    rw [holdsPair_put hv hc hp, hd, h]
    exact ⟨.inl, fun h => h.elim id fun h => absurd h.1 hn⟩
  cases hl with
  | stays => exact h k
  | lost => exact h k
  | placed d points l hd ht hp hl =>
    refine outside (c := d.toCoil l .none) rfl rfl rfl ?_
    show l ≠ .settling
    rcases hl with ⟨-, rfl⟩ | ⟨-, rfl⟩ <;> decide
  | fellBack d points => exact outside (c := d.toCoil .suspended .none) rfl rfl rfl (by show Lifecycle.suspended ≠ .settling; decide)
  | settles d points =>
    have hput := holdsPair_put (u := { ({ t with points := points } : State).setCoil i (d.toCoil .settling d.latch) with
      demands := addMapRefs t.joinStamp (t.targetPairs (d.toCoil .settling d.latch)) t.demands }) hv rfl rfl k
    refine Iff.trans ?_ hput.symm
    rw [← h k]
    show (demandOf (addMapRefs t.joinStamp (t.targetPairs (d.toCoil .settling d.latch)) t.demands) k).isSome ↔ _
    rw [demandOf_addMapRefs _ (targetPairs_nodup _ _)]
    split_ifs with hk
    · exact ⟨fun _ => .inr ⟨rfl, hk⟩, fun _ => rfl⟩
    · exact ⟨.inl, fun h => h.elim id fun h => absurd h.2 hk⟩

theorem loadCoil_settledTo (i : Slot) (t : State) (h : b.SettledTo i.val t) : b.SettledTo (i.val + 1) (t.loadCoil i) := by
  have hl := loadCoil_slotLoad t i
  generalize t.loadCoil i = u at hl
  have hv : t.coils[i].lifecycle = .vacant := by rw [h.ahead i le_rfl]; rfl
  have hrest := slotLoad_rest hl
  have ho : u.outdoor = t.outdoor := by rw [hrest]
  have hother {j : Slot} (hj : j ≠ i) := slotLoad_other hl hj
  have hsame (j : Slot) (hj : j.val ≤ i.val) : u.loadsAs j = t.loadsAs j :=
    loadsAs_congr (slotLoad_retained hl) ho (slotLoad_units hl) fun m hm => hother (lt_of_lt_of_le hm hj).ne
  obtain ⟨hcoil, hlost⟩ := slotLoad_outcome h hl
  have hkeys : FreshTable u.points ∧ (∀ k, k ∈ keysOf u.points ↔ u.Names k)
      ∧ ∀ (m : Fin 96) (e : PointEntry), t.points[m] = some e → ∃ d, u.points[m] = some d ∧ d.key = e.key := by
    rcases slotLoad_places hl with ⟨hp, hc⟩ | ⟨d, l, latch, hp, hc, hn⟩
    · refine ⟨hp ▸ h.table, fun k => ?_, fun m e he => ⟨e, hp ▸ he, rfl⟩⟩
      rw [hp, h.keys, State.Names, State.Names, ho, hc]
    · obtain ⟨ht, hm, hk⟩ := placeBindings_some h.table hp
      exact ⟨ht, fun k => by rw [hm, h.keys, names_put hv hc ho hn]; rfl, hk⟩
  obtain ⟨htable, hnames, hkept⟩ := hkeys
  refine ⟨?_, fun j hj => ?_, htable, hnames, fun k hk => ?_, (slotLoad_tableGrows hl hv).tabled h.tabled,
    slotLoad_fresh hl h.fresh, slotLoad_pairs hl hv h.pairs, fun j hj => ?_, fun hb => ?_⟩
  · rw [h.rest] at hrest
    exact hrest
  · rw [hother (by rintro rfl; omega)]
    exact h.ahead j (by omega)
  · obtain ⟨e, he, hek⟩ := h.first k (ho ▸ hk)
    obtain ⟨d, hd, hdk⟩ := hkept 0 e he
    exact ⟨d, hd, hdk.trans hek⟩
  · rw [hsame j (by omega)]
    by_cases hji : j = i
    · subst hji
      exact hcoil
    · rw [hother hji]
      exact h.slots j (by have : j.val ≠ i.val := fun hv => hji (Fin.ext hv); omega)
  · have hcount := filter_length_change (List.nodup_finRange 48) (List.mem_finRange i)
      (p := fun j : Slot => decide (j.val < i.val) && (t.loadsAs j).2)
      (q := fun j : Slot => decide (j.val < i.val + 1) && (u.loadsAs j).2)
      fun j hj => by
        have hne : j.val ≠ i.val := fun hv => hj (Fin.ext hv)
        by_cases hlt : j.val < i.val
        · rw [hsame j hlt.le, decide_eq_true hlt, decide_eq_true (Nat.lt_succ_of_lt hlt)]
        · rw [decide_eq_false hlt, decide_eq_false (by omega)]
          rfl
    rw [decide_eq_false (lt_irrefl _), decide_eq_true (Nat.lt_succ_self _), Bool.true_and, hsame i le_rfl] at hcount
    have hprev := h.lost hb
    rw [hlost]
    cases hq : (t.loadsAs i).2 with
    | false =>
      rw [hq] at hcount
      simp only [Bool.false_and, Bool.toNat_false, Nat.add_zero] at hcount
      rw [if_neg Bool.false_ne_true, hprev, hcount]
    | true =>
      rw [hq] at hcount
      simp only [Bool.false_and, Bool.toNat_false, Bool.toNat_true, Nat.add_zero] at hcount
      rw [if_pos rfl, hprev, hcount]
      omega

end Sys2Proof.Machine
end

