-- ==== Sys2Proof/Proofs/WholeLoads.lean ====
section
/-! Losses of power and loads (O54). -/

namespace Sys2Proof.Machine

variable {s t : State} {strap : Strap} {cut : BrokenWrite} {w : Write}

/-! ### A whole load -/

/-- The first entry of an empty table is created at place 0 (R50). -/
theorem createEntry_first {points : Table (Option PointEntry) 96} (h : ∀ i : Fin 96, points[i] = none) (k : PointKey) :
    KeyAdded points k (createEntry points k 1) ∧ (createEntry points k 1)[(0 : Fin 96)] = some (.new k 1) := by
  have hne : unused points ≠ [] := List.ne_nil_of_mem (mem_unused.2 (h 0))
  obtain ⟨i, hi, hl, he⟩ := createEntry_unused hne k 1
  have hi0 : i = 0 := by
    by_contra hn
    have := hl 0 (Fin.pos_iff_ne_zero.2 hn)
    rw [h] at this
    cases this
  subst hi0
  rw [he]
  exact ⟨.created 0 hi (fun i e he => by rw [h] at he; cases he) hl, tablePut_get_same _ _ _⟩

/-- The point entries that a load finds at its first slot: that of the outdoor binding, at place 0. -/
theorem beforeSlots_table (h : s.Swept) : FreshTable s.beforeSlots.points
    ∧ (∀ k, k ∈ keysOf s.beforeSlots.points ↔ s.loadSettings.outdoor = some k)
    ∧ ∀ k, s.loadSettings.outdoor = some k → ∃ e, s.beforeSlots.points[(0 : Fin 96)] = some e ∧ e.key = k := by
  have hempty : FreshTable s.points :=
    ⟨fun i j d e hi => (by rw [h.point] at hi; cases hi), fun i e he => (by rw [h.point] at he; cases he)⟩
  have hnone (k : PointKey) : k ∉ keysOf s.points := keyFree_iff.1 fun i e he => by rw [h.point] at he; cases he
  rw [beforeSlots_points]
  cases s.loadSettings.outdoor with
  | none => exact ⟨hempty, fun k => ⟨fun hk => absurd hk (hnone k), fun hk => (by cases hk)⟩, fun k hk => (by cases hk)⟩
  | some k =>
    obtain ⟨ha, h0⟩ := createEntry_first h.point k
    refine ⟨ha.freshTable hempty, fun x => ?_, fun x hx => ⟨.new k 1, h0, Option.some.inj hx⟩⟩
    rw [ha.mem_iff, Option.some.injEq, eq_comm (a := k)]
    exact ⟨fun hx => hx.elim (fun hx => absurd hx (hnone x)) id, .inr⟩

/-- A load that has settled no slot. -/
theorem settledTo_zero (hv : ∀ j : Slot, t.coils[j] = Coil.vacant 0) (hd : t.demands = []) (hp : t.dispatch = none)
    (htable : FreshTable t.points) (hkeys : ∀ k, k ∈ keysOf t.points ↔ t.outdoor = some k)
    (hfirst : ∀ k, t.outdoor = some k → ∃ e, t.points[(0 : Fin 96)] = some e ∧ e.key = k) : t.SettledTo 0 t := by
  have hnames (k : PointKey) : t.Names k ↔ t.outdoor = some k :=
    ⟨fun hk => hk.elim id fun ⟨j, hj, _⟩ => absurd (congrArg Coil.lifecycle (hv j)) hj, .inl⟩
  refine ⟨rfl, fun j _ => hv j, htable, fun k => (hkeys k).trans (hnames k).symm, hfirst,
    tabled_of_empty (fun j => by rw [hv j]; rfl) hd hp, fun e he => ?_, fun k => ?_, fun j hj => absurd hj (Nat.not_lt_zero _),
    fun hb => ?_⟩
  · rw [hd] at he; cases he
  · rw [hd]
    refine ⟨fun hk => (by cases hk), fun ⟨j, hj, _⟩ => ?_⟩
    rw [hv j] at hj
    cases hj
  · have hnil : ((List.finRange 48).filter fun j => decide (j.val < 0) && (t.loadsAs j).2) = [] :=
      List.filter_eq_nil_iff.2 fun j _ => by simp
    rw [hnil]
    exact (Nat.min_eq_right hb).symm

theorem beforeSlots_settledTo (h : s.Swept) : s.beforeSlots.SettledTo 0 s.beforeSlots := by
  obtain ⟨htable, hkeys, hfirst⟩ := beforeSlots_table h
  rw [← beforeSlots_outdoor] at hkeys hfirst
  exact settledTo_zero (fun j => by rw [beforeSlots_coils]; exact h.coil j) ((beforeSlots_demands s).trans h.demands)
    (by rw [beforeSlots_eq]; exact h.dispatch) htable hkeys hfirst

/-- What a load from cleared live state leaves: the settings and units of their items, and in each slot what it loads as. -/
theorem load_fields (h : s.Swept) : ∃ coils points demands lostSlots,
    s.load = { s with
      outdoor := s.loadSettings.outdoor, regimeOn := s.loadSettings.regimeOn, regimeOff := s.loadSettings.regimeOff
      supervisors := s.loadSettings.supervisors, units := s.loadUnits.units, coils := coils, points := points
      demands := demands, lostSlots := lostSlots, joinStamp := s.joinStamp + 1 }
    ∧ (∀ i : Slot, s.load.coils[i] = (s.load.loadsAs i).1)
    ∧ (s.lostSlots ≤ 255 → s.load.lostSlots = min 255 (s.lostSlots + s.load.slotsLost))
    ∧ (∀ k, s.load.outdoor = some k → ∃ e, s.load.points[(0 : Fin 96)] = some e ∧ e.key = k)
    ∧ (∀ (i : Fin 96) (e : PointEntry), s.load.points[i] = some e → e.Fresh) ∧ ∀ e ∈ s.load.demands, e.Fresh := by
  have hload := forSlots_upTo (P := fun n t => s.beforeSlots.SettledTo n t) loadCoil_settledTo (beforeSlots_settledTo h)
  rw [load_eq]
  generalize forSlots (fun i s => s.loadCoil i) s.beforeSlots = t at hload
  have hrest := hload.rest
  have hnotice : t.chooseNotice = t := by
    refine chooseNotice_none ?_ fun i => ?_
    · rw [hrest, beforeSlots_eq]
      exact h.notice
    · rw [hrest, beforeSlots_eq]
      exact h.flag i
  have hend : t.endEvent = { t with joinStamp := t.joinStamp + 1 } := by
    unfold State.endEvent
    rw [hnotice]
  have hsame (i : Slot) : t.endEvent.loadsAs i = t.loadsAs i := by
    rw [hend]
    exact loadsAs_congr rfl rfl rfl fun _ _ => rfl
  refine ⟨t.coils, t.points, t.demands, t.lostSlots, ?_, fun i => ?_, fun hl => ?_, fun k hk => ?_, fun i e he => ?_, fun e he => ?_⟩
  · rw [hend, hrest, beforeSlots_eq]
  · rw [hsame, endEvent_coils]
    exact hload.slots i i.isLt
  · have hlost := hload.lost (by rw [beforeSlots_lostSlots]; exact hl)
    rw [endEvent_lostSlots, hlost, beforeSlots_lostSlots, State.slotsLost]
    simp only [hsame, Fin.is_lt, decide_true, Bool.true_and]
  · rw [endEvent_points]
    exact hload.first k (by rw [hend] at hk; exact hk)
  · rw [endEvent_points] at he
    exact hload.table.fresh i e he
  · rw [endEvent_demands] at he
    exact hload.fresh e he

/-! ### The retained memory, the strap and the units -/

theorem retainedAfterCut_stands (h : s.writing = none ∨ cut = .asBefore) : s.retainedAfterCut cut = s.retained := by
  unfold State.retainedAfterCut
  rcases h with h | rfl
  · rw [h]
  · cases s.writing <;> rfl

theorem retainedAfterCut_fails (h : s.writing = some w) : s.retainedAfterCut .failsCheck = s.retained.spoil w.content.item := by
  unfold State.retainedAfterCut
  rw [h]

/-- A write broken off leaves its item as it was, or failing its check (R187). -/
theorem retainedAfterCut_brokenOff (s : State) (cut : BrokenWrite) :
    (s.writing = none ∨ cut = .asBefore → s.retainedAfterCut cut = s.retained)
    ∧ ∀ w, s.writing = some w → cut = .failsCheck →
      (w.content.item = .settings → s.retainedAfterCut cut = { s.retained with settings := .invalid })
      ∧ (∀ n, w.content.item = .unit n → s.retainedAfterCut cut = { s.retained with units := tablePut s.retained.units n .invalid })
      ∧ (∀ n, w.content.item = .coil n → s.retainedAfterCut cut = { s.retained with coils := tablePut s.retained.coils n .invalid }) := by
  refine ⟨retainedAfterCut_stands, fun w hw hc => ?_⟩
  subst hc
  rw [retainedAfterCut_fails hw]
  exact ⟨fun h => by rw [h]; rfl, fun n h => by rw [h]; rfl, fun n h => by rw [h]; rfl⟩

/-- The strap pins give an address from 1 to 223, or else 223 and no validity (R191). -/
theorem readStrap_address (s : State) (strap : Strap) :
    (1 ≤ strap.address.toNat ∧ strap.address.toNat ≤ 223 →
      (s.readStrap strap).address = strap.address.toNat ∧ (s.readStrap strap).strapValid = true)
    ∧ (¬ (1 ≤ strap.address.toNat ∧ strap.address.toNat ≤ 223) →
      (s.readStrap strap).address = 223 ∧ (s.readStrap strap).strapValid = false) := by
  refine ⟨fun h => ⟨if_pos (isStation_iff.2 h), isStation_iff.2 h⟩, fun h => ?_⟩
  have hn : isStation strap.address.toNat = false := Bool.eq_false_iff.2 fun hs => h (isStation_iff.1 hs)
  exact ⟨if_neg (by rw [hn]; exact Bool.false_ne_true), hn⟩

theorem withItem_valid (e : UnitEntry) {item : Stored UnitItem} {c : UnitItem} (h : item = .valid c) :
    (e.withItem item).controller = c.controller ∧ (e.withItem item).zone = c.zone := by
  rw [h]
  exact ⟨rfl, rfl⟩

theorem withItem_default (e : UnitEntry) {item : Stored UnitItem} (h : ∀ c, item ≠ .valid c) :
    (e.withItem item).controller = none ∧ (e.withItem item).zone = 0 := by
  cases item with
  | valid c => exact absurd rfl (h c)
  | blank => exact ⟨rfl, rfl⟩
  | invalid => exact ⟨rfl, rfl⟩

theorem breakOff_unit (s : State) (p : Power) (cut : BrokenWrite) (u : UnitNo) :
    (s.breakOff p cut).units[u] = UnitEntry.blank s.units[u].level := tableMap_get _ _ _

/-- A unit as a start-up load finds it: its input's level, and a filter that starts (R127, R132). -/
theorem startState_unit (s : State) (strap : Strap) (cut : BrokenWrite) (u : UnitNo) : (s.startState strap cut).units[u] =
    { UnitEntry.blank s.units[u].level with
      filter := if s.units[u].level = .closedLevel then .pending (s.now + 200) else .steady } := by
  have h1 : (s.startState strap cut).units[u] = UnitEntry.startFilter s.now (s.breakOff .startLoad cut).units[u] :=
    tableMap_get _ _ _
  rw [h1, breakOff_unit]
  cases s.units[u].level <;> rfl

/-- What the settings and unit items give a load, and what it makes of points, demands and slots (R25, R50, R119, R191). -/
theorem load_gives (h : s.Swept) (hu : ∀ u : UnitNo, s.units[u].fan = .unknown ∧ s.units[u].statusTimer = none
      ∧ s.units[u].faults = ⟨false, false, false, false, false⟩) :
    (∀ c, s.load.retained.settings = .valid c →
      s.load.outdoor = c.outdoor ∧ s.load.regimeOn = c.regimeOn ∧ s.load.regimeOff = c.regimeOff ∧ s.load.supervisors = c.supervisors)
    ∧ ((∀ c, s.load.retained.settings ≠ .valid c) →
      s.load.outdoor = none ∧ s.load.regimeOn = 20 ∧ s.load.regimeOff = 50 ∧ s.load.supervisors = [])
    ∧ (∀ u : UnitNo, s.load.units[u].fan = .unknown ∧ s.load.units[u].statusTimer = none
        ∧ s.load.units[u].faults = ⟨false, false, false, false, false⟩
        ∧ (∀ c, s.load.retained.units[u] = .valid c → s.load.units[u].controller = c.controller ∧ s.load.units[u].zone = c.zone)
        ∧ ((∀ c, s.load.retained.units[u] ≠ .valid c) → s.load.units[u].controller = none ∧ s.load.units[u].zone = 0))
    ∧ (∀ k, s.load.outdoor = some k → ∃ e, s.load.points[(0 : Fin 96)] = some e ∧ e.key = k)
    ∧ (∀ (i : Fin 96) (e : PointEntry), s.load.points[i] = some e → e.Fresh) ∧ (∀ e ∈ s.load.demands, e.Fresh)
    ∧ ∀ i : Slot, s.load.coils[i] = (s.load.loadsAs i).1 := by
  obtain ⟨coils, points, demands, lostSlots, he, hslots, -, hfirst, hpoints, hdemands⟩ := load_fields h
  have hret : s.load.retained = s.retained := by rw [he]
  have hunits : s.load.units = s.loadUnits.units := by rw [he]
  have hout : s.load.outdoor = s.loadSettings.outdoor := by rw [he]
  have hon : s.load.regimeOn = s.loadSettings.regimeOn := by rw [he]
  have hoff : s.load.regimeOff = s.loadSettings.regimeOff := by rw [he]
  have hsup : s.load.supervisors = s.loadSettings.supervisors := by rw [he]
  refine ⟨fun c hc => ?_, fun hn => ?_, fun u => ?_, hfirst, hpoints, hdemands, hslots⟩
  · rw [hout, hon, hoff, hsup, loadSettings_valid (hret ▸ hc)]
    exact ⟨rfl, rfl, rfl, rfl⟩
  · rw [hret] at hn
    rw [hout, hon, hoff, hsup, loadSettings_default hn]
    exact ⟨rfl, rfl, rfl, rfl⟩
  · have hunit : s.load.units[u] = s.units[u].withItem s.retained.units[u] := by rw [hunits, loadUnits_units]
    obtain ⟨hfan, htimer, hfaults⟩ := hu u
    rw [hunit, hret]
    refine ⟨?_, ?_, ?_, fun c hc => withItem_valid _ hc, withItem_default _⟩
    · rw [withItem_fields]; exact hfan
    · rw [withItem_fields]; exact htimer
    · rw [withItem_fields]; exact hfaults

end Sys2Proof.Machine
end

