-- ==== Sys2Proof/Proofs/PowerAndLoads.lean ====
section
/-! What a loss of power, the reset pin and the beginning of a load leave (O54). -/

namespace Sys2Proof.Machine

variable {s t : State} {strap : Strap} {cut : BrokenWrite}

/-- A load counts the slots that load otherwise than as stored (R191). -/
theorem load_lostSlots (h : s.Swept) (hl : s.lostSlots ≤ 255) : s.load.lostSlots = min 255 (s.lostSlots + s.load.slotsLost) := by
  obtain ⟨-, -, -, -, -, -, hlost, -⟩ := load_fields h
  exact hlost hl

theorem slotsLost_le (t : State) : t.slotsLost ≤ 48 := by
  refine le_trans (List.length_filter_le _ _) ?_
  rw [List.length_finRange]

/-- No queue, offer, claim, timer or mark of live state is left, at the same moment (R174, R187, R191). -/
def State.SweptFrom (s t : State) : Prop :=
  t.now = s.now ∧ t.pending = s.pending ∧ t.rx = [] ∧ t.answers = [] ∧ t.deferred = [] ∧ t.notice = none
    ∧ (∀ i : Slot, t.noticeFlags[i] = false) ∧ t.dispatch = none ∧ t.poll = none ∧ t.backlog = 0 ∧ t.pollTimer = none
    ∧ t.average = none ∧ t.regime = .cold ∧ (∀ n : ClaimNo, t.claims[n] = none) ∧ t.storeQueue = [] ∧ t.writing = none
    ∧ t.storeRetry = none ∧ t.settingsStale = false ∧ (∀ n : UnitNo, t.unitStale[n] = false) ∧ t.restartPending = false

theorem load_sweptFrom (h : t.Swept) (hs : s.SweptFrom t) : s.SweptFrom t.load := by
  obtain ⟨_, _, _, _, he, -⟩ := load_fields h
  rw [he]
  exact hs

theorem breakOff_sweptFrom (s : State) (p : Power) (cut : BrokenWrite) : s.SweptFrom (s.breakOff p cut) :=
  ⟨rfl, rfl, rfl, rfl, rfl, rfl, Table.replicate_get _, rfl, rfl, rfl, rfl, rfl, rfl, Table.replicate_get _, rfl, rfl, rfl, rfl,
    Table.replicate_get _, rfl⟩

theorem startState_sweptFrom (s : State) (strap : Strap) (cut : BrokenWrite) : s.SweptFrom (s.startState strap cut) :=
  breakOff_sweptFrom s .startLoad cut

theorem restartState_sweptFrom (s : State) (strap : Strap) : s.SweptFrom (s.clearedForRestart.readStrap strap) :=
  breakOff_sweptFrom s .restartLoad .asBefore

/-- A load leaves the strap, the address and zone read from it, the line, the power and the retained memory. -/
theorem load_kept_strap (h : s.Swept) : s.load.strap = s.strap ∧ s.load.address = s.address ∧ s.load.zone = s.zone
    ∧ s.load.strapValid = s.strapValid ∧ s.load.line = s.line ∧ s.load.power = s.power ∧ s.load.retained = s.retained := by
  obtain ⟨_, _, _, _, he, -⟩ := load_fields h
  rw [he]
  exact ⟨rfl, rfl, rfl, rfl, rfl, rfl, rfl⟩

theorem load_unit (h : s.Swept) (u : UnitNo) : s.load.units[u] = s.units[u].withItem s.retained.units[u] := by
  obtain ⟨_, _, _, _, he, -⟩ := load_fields h
  have hunits : s.load.units = s.loadUnits.units := by rw [he]
  rw [hunits, loadUnits_units]

/-- A load that has read the strap pins (R191). -/
theorem load_strap (h : (s.readStrap strap).Swept) : (s.readStrap strap).load.strap = strap
    ∧ (s.readStrap strap).load.zone.val = strap.zone.toNat
    ∧ (1 ≤ strap.address.toNat ∧ strap.address.toNat ≤ 223 →
      (s.readStrap strap).load.address = strap.address.toNat ∧ (s.readStrap strap).load.strapValid = true)
    ∧ (¬ (1 ≤ strap.address.toNat ∧ strap.address.toNat ≤ 223) →
      (s.readStrap strap).load.address = 223 ∧ (s.readStrap strap).load.strapValid = false) := by
  obtain ⟨hstrap, haddress, hzone, hvalid, -⟩ := load_kept_strap h
  obtain ⟨hin, hout⟩ := readStrap_address s strap
  rw [hstrap, haddress, hzone, hvalid]
  exact ⟨rfl, rfl, hin, hout⟩

/-- Settles O54: a break-off sweeps the live state, and a load goes on from swept state. -/
theorem lossOfPowerAndLoads : Obligations.LossOfPowerAndLoads := by
  intro s cut strap brokenOff swept emptied loaded
  have hemptied (p : Power) : emptied (s.breakOff p cut) :=
    ⟨breakOff_sweptFrom s p cut, rfl, Table.replicate_get _, Table.replicate_get _, rfl, breakOff_unit s p cut⟩
  have hcut : brokenOff (s.retainedAfterCut cut) := retainedAfterCut_brokenOff s cut
  have hloaded (t b : State) (ht : t = b.readStrap strap) (h : t.Swept) (hu : ∀ u : UnitNo, t.units[u].fan = .unknown
      ∧ t.units[u].statusTimer = none ∧ t.units[u].faults = ⟨false, false, false, false, false⟩) : loaded t.load := by
    subst ht
    obtain ⟨hstrap, hzone, hin, hout⟩ := load_strap h
    exact ⟨hstrap, hzone, hin, hout, load_gives h hu⟩
  refine ⟨⟨s.breakOff .off cut, rfl, rfl, hemptied .off, hcut⟩, fun hp => ?_,
    fun hp => ⟨s.breakOff .held cut, ?_, rfl, hemptied .held, hcut⟩,
    ⟨s.startUp strap cut, rfl, ?_⟩, fun hn => ?_, fun hp hr hw => ⟨(s.clearedForRestart.readStrap strap).load, ?_, ?_⟩⟩
  · exact congrArg Host.Outcome.next (if_pos hp)
  · exact congrArg Host.Outcome.next (if_neg hp)
  · have h := startState_swept s strap cut
    obtain ⟨-, -, -, -, hline, hpower, hret⟩ := load_kept_strap h
    have hlost := load_lostSlots h (Nat.zero_le 255)
    rw [startUp_eq]
    refine ⟨hpower, load_sweptFrom h (startState_sweptFrom s strap cut), hline,
      hloaded (s.startState strap cut) (s.breakOff .startLoad cut).startFilters rfl h fun u => ?_, ?_, ?_, fun u => ?_⟩
    · rw [startState_unit]
      exact ⟨rfl, rfl, rfl⟩
    · rw [hret]
      exact hcut
    · rw [hlost]
      have := slotsLost_le (s.startState strap cut).load
      have h0 : (s.startState strap cut).lostSlots = 0 := rfl
      omega
    · rw [load_unit h, startState_unit, withItem_fields]
      exact ⟨rfl, rfl, rfl, rfl⟩
  · exact congrArg Host.Outcome.next (if_neg fun hc => hn ⟨hc.1, hc.2.1, Option.isNone_iff_eq_none.1 hc.2.2⟩)
  · exact congrArg Host.Outcome.next (if_pos ⟨hp, hr, Option.isNone_iff_eq_none.2 hw⟩)
  · have h := restartState_swept s strap
    obtain ⟨-, -, -, -, hline, hpower, hret⟩ := load_kept_strap h
    have hcount : (s.clearedForRestart.readStrap strap).lostSlots = s.lostSlots := rfl
    have hlost := load_lostSlots h
    rw [hcount] at hlost
    refine ⟨hpower, load_sweptFrom h (restartState_sweptFrom s strap),
      hloaded (s.clearedForRestart.readStrap strap) s.clearedForRestart rfl h fun u => ?_, hline, hret, hlost, fun u => ?_⟩
    · rw [restartState_unit]
      exact ⟨rfl, rfl, rfl⟩
    · rw [load_unit h, restartState_unit, withItem_fields]
      exact ⟨rfl, rfl, rfl, rfl⟩

end Sys2Proof.Machine
end

