-- ==== Sys2Proof/Proofs/PointCounts.lean ====
section
/-! The reference counts of the point entries (R29): what leaves them, and what a reference change makes of them. -/

namespace Sys2Proof.Machine

variable {s t u : State} {k : PointKey} {i : Slot} {c : Coil}

/-! ### Names (R29) -/

/-- The keys that a record counts for: those of its bindings, unless its slot is VACANT (R29). -/
def Coil.named (c : Coil) : List PointKey := if c.lifecycle = .vacant then [] else c.keys

theorem Coil.named_vacant (h : c.lifecycle = .vacant) : c.named = [] := if_pos h

theorem Coil.named_keys (h : c.lifecycle ≠ .vacant) : c.named = c.keys := if_neg h

theorem keys_congr {d : Coil} (hlat : d.lat = c.lat) (hft : d.ft = c.ft) : d.keys = c.keys := by
  unfold Coil.keys
  rw [hlat, hft]

theorem named_congr {d : Coil} (hlat : d.lat = c.lat) (hft : d.ft = c.ft) (hl : d.lifecycle = .vacant ↔ c.lifecycle = .vacant) :
    d.named = c.named := by
  unfold Coil.named
  rw [keys_congr hlat hft]
  exact if_congr hl rfl rfl

theorem Coil.SameDefinition.named {d : Coil} (h : c.SameDefinition d) : d.named = c.named := named_congr h.lat h.ft h.vacant

theorem bindingCount_eq (s : State) (k : PointKey) :
    s.bindingCount k = (∑ j : Slot, s.coils[j].named.count k) + s.outdoor.toList.count k := by
  have hcoil (j : Slot) : (if s.coils[j].lifecycle = .vacant then 0 else s.coils[j].keys.count k) = s.coils[j].named.count k := by
    unfold Coil.named
    split_ifs <;> rfl
  have hout : (if s.outdoor = some k then 1 else 0) = s.outdoor.toList.count k := by
    cases s.outdoor with
    | none => rfl
    | some o => simp [List.count_singleton]
  unfold State.bindingCount
  rw [Fin.sum_univ_def, hout]
  simp only [hcoil]

/-- A record put in a slot counts for its names, where the old record counted for its own. -/
theorem bindingCount_put (hc : t.coils = tablePut s.coils i c) (ho : t.outdoor = s.outdoor) (k : PointKey) :
    t.bindingCount k + s.coils[i].named.count k = s.bindingCount k + c.named.count k := by
  have hi := Finset.mem_univ i
  have hrest : ∑ j ∈ Finset.univ.erase i, t.coils[j].named.count k = ∑ j ∈ Finset.univ.erase i, s.coils[j].named.count k :=
    Finset.sum_congr rfl fun j hj => by rw [hc, tablePut_get_other _ _ (Finset.ne_of_mem_erase hj)]
  have hcoil : t.coils[i] = c := by rw [hc, tablePut_get_same]
  rw [bindingCount_eq, bindingCount_eq, ho, ← Finset.add_sum_erase _ _ hi, ← Finset.add_sum_erase (s := Finset.univ) (a := i) _ hi,
    hrest, hcoil]
  omega

/-- A new outdoor binding counts for its key, where the old one counted for its own. -/
theorem bindingCount_outdoor (hc : t.coils = s.coils) (k : PointKey) :
    t.bindingCount k + s.outdoor.toList.count k = s.bindingCount k + t.outdoor.toList.count k := by
  rw [bindingCount_eq, bindingCount_eq, hc]
  omega

/-! ### What leaves the counts -/

/-- Every point entry keeps its key and its count, and every record and the outdoor binding their names. -/
structure State.CountsKept (s t : State) : Prop where
  points : ∀ j : Fin 96, t.points[j].map (fun e => (e.key, e.refs)) = s.points[j].map fun e => (e.key, e.refs)
  outdoor : t.outdoor = s.outdoor
  named : ∀ j : Slot, t.coils[j].named = s.coils[j].named

theorem countsKept_of (hp : t.points = s.points) (ho : t.outdoor = s.outdoor) (hc : t.coils = s.coils) : s.CountsKept t :=
  ⟨fun _ => by rw [hp], ho, fun _ => by rw [hc]⟩

theorem State.CountsKept.refl (s : State) : s.CountsKept s := countsKept_of rfl rfl rfl

theorem State.CountsKept.trans (h : s.CountsKept t) (h' : t.CountsKept u) : s.CountsKept u :=
  ⟨fun j => (h'.points j).trans (h.points j), h'.outdoor.trans h.outdoor, fun j => (h'.named j).trans (h.named j)⟩

/-- An entry stands before as after, with its key and its count. -/
theorem State.CountsKept.entry (h : s.CountsKept t) {j : Fin 96} {e : PointEntry} (he : t.points[j] = some e) :
    ∃ d, s.points[j] = some d ∧ d.key = e.key ∧ d.refs = e.refs := by
  have hj := h.points j
  rw [he, Option.map_some] at hj
  obtain ⟨d, hd, hde⟩ := Option.map_eq_some_iff.1 hj.symm
  exact ⟨d, hd, congrArg Prod.fst hde, congrArg Prod.snd hde⟩

theorem State.CountsKept.symm (h : s.CountsKept t) : t.CountsKept s :=
  ⟨fun j => (h.points j).symm, h.outdoor.symm, fun j => (h.named j).symm⟩

theorem State.CountsKept.bindingCount (h : s.CountsKept t) (k : PointKey) : t.bindingCount k = s.bindingCount k := by
  rw [bindingCount_eq, bindingCount_eq, h.outdoor]
  simp only [h.named]

theorem State.CountsKept.pointsCounted (h : s.CountsKept t) (hs : s.PointsCounted) : t.PointsCounted := by
  obtain ⟨hcount, hdist, hheld⟩ := hs
  refine ⟨fun j e he => ?_, fun i j d e hd he hk => ?_, fun k hk => ?_⟩
  · obtain ⟨d, hd, hkey, hrefs⟩ := h.entry he
    rw [h.bindingCount, ← hkey, ← hrefs]
    exact hcount j d hd
  · obtain ⟨d', hd', hdk, -⟩ := h.entry hd
    obtain ⟨e', he', hek, -⟩ := h.entry he
    exact hdist i j d' e' hd' he' (hdk.trans (hk.trans hek.symm))
  · obtain ⟨j, e, he, hek⟩ := hheld k (h.bindingCount k ▸ hk)
    obtain ⟨d, hd, hdk, -⟩ := h.symm.entry he
    exact ⟨j, d, hd, hdk.trans hek⟩

theorem setCoil_countsKept (h : c.named = s.coils[i].named) : s.CountsKept (s.setCoil i c) := by
  refine ⟨fun _ => rfl, rfl, fun j => ?_⟩
  rw [setCoil_coils, tablePut_get]
  split_ifs with hj
  · rw [h, hj]
  · rfl

theorem touch_countsKept (h : Touch s t) : s.CountsKept t := by
  cases h with
  | coil i c hd => exact setCoil_countsKept hd.named
  | dirty it => exact countsKept_of (markDirty_points s it) (markDirty_outdoor s it) (markDirty_coils s it)
  | _ => exact countsKept_of rfl rfl rfl

theorem touches_countsKept (h : Touches s t) : s.CountsKept t :=
  h.keep (P := s.CountsKept) (fun _ _ hu ht => ht.trans (touch_countsKept hu)) (.refl s)

theorem moves_countsKept (h : StageMoves s t) : s.CountsKept t :=
  h.keep (P := s.CountsKept) (fun _ _ hu ht => ht.trans (touch_countsKept hu)) (.refl s)

theorem State.CountsKept.endEvent (h : s.CountsKept t) : s.CountsKept t.endEvent :=
  h.trans (countsKept_of (endEvent_points t) (endEvent_outdoor t) (endEvent_coils t))

theorem State.CountsKept.markDirty (h : s.CountsKept t) (it : Item) : s.CountsKept (t.markDirty it) :=
  h.trans (touch_countsKept (.dirty it))

theorem State.CountsKept.lifecycleChanged (h : s.CountsKept t) (i : Slot) : s.CountsKept (t.lifecycleChanged i) :=
  h.trans (countsKept_of (lifecycleChanged_points t i) (lifecycleChanged_outdoor t i) (lifecycleChanged_coils t i))

/-- An entry that keeps its key and its count in its place. -/
theorem putPoint_countsKept {j : Fin 96} {d e : PointEntry} (he : s.points[j] = some e) (hk : d.key = e.key) (hr : d.refs = e.refs) :
    s.CountsKept { s with points := tablePut s.points j (some d) } := by
  refine ⟨fun m => ?_, rfl, fun _ => rfl⟩
  simp only [tablePut_get]
  split_ifs with hm
  · rw [hm, he, Option.map_some, Option.map_some, hk, hr]
  · rfl

/-! ### Reference changes (R29, R30) -/

theorem bindingCount_free (hs : s.PointsCounted) (hk : KeyFree s.points k) : s.bindingCount k = 0 := by
  by_contra hn
  obtain ⟨j, e, he, hek⟩ := hs.2.2 k (Nat.pos_of_ne_zero hn)
  exact hk j e he hek

/-- The keys are distinct after a change as before it. -/
theorem Recounted.keysDistinct {ch : RefChange} {points : Table (Option PointEntry) 96} (h : Recounted ch points) :
    KeysDistinct (ch.apply points) := by
  have hnew {i j : Fin 96} {d e : PointEntry} (hi : (ch.recount points)[i] = none) (hj : (ch.recount points)[j] = none)
      (hd : (ch.apply points)[i] = some d) (he : (ch.apply points)[j] = some e) (hij : i < j) : d.key ≠ e.key :=
    h.created.ordered (fun a b => a ≠ b) ((distinct_nodup ch.takes).filter _) i j d e hi hj hd he hij
  intro i j d e hd he hk
  rcases h.cases hd with ⟨d', hd', -, rfl⟩ | ⟨hi, hdp, -⟩ <;> rcases h.cases he with ⟨e', he', -, rfl⟩ | ⟨hj, hep, -⟩
  · exact h.distinct i j d' e' hd' he' hk
  · exact absurd hk (h.free hep i d' hd')
  · exact absurd hk.symm (h.free hdp j e' he')
  · rcases lt_trichotomy i j with hij | hij | hij
    · exact absurd hk (hnew hi hj hd he hij)
    · exact hij
    · exact absurd hk.symm (hnew hj hi he hd hij)

/-- A reference change that fits leaves true counts for the names that its gives and takes make of the old ones (R29 to R31). -/
theorem changed_pointsCounted (hs : s.PointsCounted) {gives takes : List PointKey} (hr : s.RoomForPoints gives takes)
    (hp : t.points = RefChange.apply ⟨gives, takes⟩ s.points)
    (hn : ∀ k, t.bindingCount k + gives.count k = s.bindingCount k + takes.count k) : t.PointsCounted := by
  have h := recounted_of hs hr
  have hold {j : Fin 96} {e : PointEntry} (he : s.points[j] = some e) :
      RefChange.count ⟨gives, takes⟩ s.points e.key = t.bindingCount e.key := by
    have hcount := h.count he
    have hrefs := (hs.1 j e he).1
    have hname := hn e.key
    rw [hcount, hrefs]
    dsimp only
    omega
  have hfree {k : PointKey} (hk : KeyFree s.points k) : RefChange.count ⟨gives, takes⟩ s.points k = t.bindingCount k := by
    have hname := hn k
    rw [bindingCount_free hs hk] at hname
    rw [recount_free hk]
    dsimp only
    omega
  refine ⟨fun j e he => ?_, hp ▸ h.keysDistinct, fun k hk => ?_⟩
  · rcases h.cases (hp ▸ he) with ⟨d, hd, h0, rfl⟩ | ⟨-, hm, he, -⟩
    · exact ⟨hold hd, Nat.one_le_iff_ne_zero.2 h0⟩
    · have hrefs : e.refs = RefChange.count ⟨gives, takes⟩ s.points e.key := by
        have := congrArg PointEntry.refs he
        exact this
      rw [hrefs]
      exact ⟨hfree (h.free hm), (mem_placed.1 hm).2.2⟩
  · rw [hp]
    rcases keyFree_or s.points k with hf | ⟨j, e, he, rfl⟩
    · have hname := hn k
      rw [bindingCount_free hs hf] at hname
      have hmore : gives.count k < takes.count k := by omega
      exact h.gained (List.count_pos_iff.1 (Nat.zero_lt_of_lt hmore)) hmore
    · exact ⟨j, _, h.stays he (by rw [hold he]; exact hk.ne'), rfl⟩

end Sys2Proof.Machine
end

