-- ==== Sys2Proof/Proofs/PointRequests.lean ====
section
/-! Every request keeps the reference counts of the point entries true (R29): most leave them, and a RETIRE, a COMMIT and a PART_SET
make a reference change that fits. -/

namespace Sys2Proof.Machine

variable {s t u : State} {f : RxFrame} {i : Slot}

/-! ### The shared checks -/

/-- A request that names a slot keeps what it keeps where it is refused, and on every non-vacant record. -/
theorem withRecord_keeps {P : State → Prop} {n : Nat} {k : Slot → Handled} (hs : P s)
    (h : ∀ i : Slot, s.coils[i].lifecycle ≠ .vacant → P (k i).1) : P (withRecord s n k).1 := by
  unfold withRecord
  split
  · exact hs
  · split_ifs with hv
    · exact hs
    · exact h _ hv

/-- A claimed edit keeps what it keeps where it is refused, and on the sender's own claim. -/
theorem withClaim_keeps {P : State → Prop} {k : ClaimNo → Claim → Handled} (hs : P s)
    (h : ∀ n c, P (k n c).1) : P (withClaim f s k).1 := by
  unfold withClaim
  split
  · exact hs
  · split_ifs
    · exact hs
    · exact hs
    · exact h _ _

/-! ### Requests that leave the counts -/

theorem setClaim_countsKept (s : State) (n : ClaimNo) (c : Option Claim) : s.CountsKept (s.setClaim n c) := countsKept_of rfl rfl rfl

theorem setUnit_countsKept (s : State) (u : UnitNo) (e : UnitEntry) : s.CountsKept (s.setUnit u e) := countsKept_of rfl rfl rfl

theorem queryCoilOwner_countsKept : s.CountsKept (queryCoilOwner f s).1 := by
  have view (v : CoilView) (i : Slot) : s.CountsKept (s.answerView v i).1 := by cases v <;> exact countsKept_of rfl rfl rfl
  unfold queryCoilOwner
  dsimp only
  split
  · exact .refl s
  · exact withRecord_keeps (.refl s) fun i _ => view _ i
  · split
    · exact .refl s
    · exact view _ _

theorem queryPointOwner_countsKept : s.CountsKept (queryPointOwner f s).1 := by
  unfold queryPointOwner
  dsimp only
  split_ifs
  · exact .refl s
  · split
    · exact .refl s
    · split <;> exact .refl s

theorem queryUnitOwner_countsKept : s.CountsKept (queryUnitOwner f s).1 := by
  unfold queryUnitOwner
  split <;> exact .refl s

theorem readFaultsOwner_countsKept : s.CountsKept (readFaultsOwner f s).1 := by
  unfold readFaultsOwner
  split
  · exact .refl s
  · exact setUnit_countsKept s _ _

theorem queryDemandOwner_countsKept : s.CountsKept (queryDemandOwner f s).1 := by
  unfold queryDemandOwner
  dsimp only
  split
  · exact .refl s
  · split_ifs
    · exact .refl s
    · split
      · exact .refl s
      · exact countsKept_of rfl rfl rfl

/-- A new DRAFT record has no binding (R12). -/
theorem createOwner_countsKept : s.CountsKept (createOwner f s).1 := by
  unfold createOwner
  dsimp only
  split
  · exact .refl s
  split
  next u kind _ _ =>
    split_ifs
    · exact .refl s
    · exact .refl s
    split
    · exact .refl s
    next i hi =>
      have hv : s.coils[i].lifecycle = .vacant := by simpa using List.find?_some hi
      refine (setCoil_countsKept ?_).lifecycleChanged i
      rw [Coil.named_vacant hv]
      rfl
  · exact .refl s

/-- A record that stays in its slot with its bindings keeps its names. -/
theorem putRecord_countsKept {c : Coil} {ds : List DemandEntry} (hv : s.coils[i].lifecycle ≠ .vacant) (hl : c.lifecycle ≠ .vacant)
    (hlat : c.lat = s.coils[i].lat) (hft : c.ft = s.coils[i].ft) :
    s.CountsKept ((({ s with demands := ds } : State).setCoil i c).lifecycleChanged i) :=
  have h : s.CountsKept (({ s with demands := ds } : State).setCoil i c) :=
    setCoil_countsKept (s := s) (named_congr hlat hft ⟨fun h => absurd h hl, fun h => absurd h hv⟩) |>.trans
      (countsKept_of rfl rfl rfl)
  h.lifecycleChanged i

theorem armOwner_countsKept : s.CountsKept (armOwner f s).1 :=
  withRecord_keeps (.refl s) fun i hv => by
    split_ifs
    · exact .refl s
    · exact .refl s
    · exact .refl s
    · exact .refl s
    · exact putRecord_countsKept hv (by simp [Coil.startsSettling]) rfl rfl

theorem suspendOwner_countsKept : s.CountsKept (suspendOwner f s).1 :=
  withRecord_keeps (.refl s) fun i hv => by
    split_ifs
    · exact .refl s
    · exact .refl s
    · exact putRecord_countsKept hv (by simp [Coil.suspended]) rfl rfl

theorem restartOwner_countsKept : s.CountsKept (restartOwner f s).1 :=
  withRecord_keeps (.refl s) fun i _ => by
    obtain ⟨t, ht, he⟩ := restart_touches s i
    split_ifs
    · exact .refl s
    · exact .refl s
    · exact .refl s
    · exact he ▸ (touches_countsKept ht).endEvent

theorem releaseLockoutOwner_countsKept : s.CountsKept (releaseLockoutOwner f s).1 := by
  unfold releaseLockoutOwner
  split_ifs
  · exact .refl s
  refine withRecord_keeps (.refl s) fun i _ => ?_
  obtain ⟨t, ht, he⟩ := releaseLockout_touches s i
  split_ifs
  · exact .refl s
  · exact he ▸ (touches_countsKept ht).endEvent

theorem claimOwner_countsKept : s.CountsKept (claimOwner f s).1 :=
  withRecord_keeps (.refl s) fun i _ => by
    split_ifs
    · exact .refl s
    · exact .refl s
    · exact .refl s
    split
    · exact .refl s
    · exact setClaim_countsKept s _ _

theorem stageLimitsOwner_countsKept : s.CountsKept (stageLimitsOwner f s).1 :=
  withClaim_keeps (.refl s) fun n _ => setClaim_countsKept s n _

theorem stageDoseOwner_countsKept : s.CountsKept (stageDoseOwner f s).1 :=
  withClaim_keeps (.refl s) fun n _ => setClaim_countsKept s n _

theorem stageTimingOwner_countsKept : s.CountsKept (stageTimingOwner f s).1 :=
  withClaim_keeps (.refl s) fun n _ => setClaim_countsKept s n _

theorem stageMapOwner_countsKept : s.CountsKept (stageMapOwner f s).1 :=
  withClaim_keeps (.refl s) fun n _ => setClaim_countsKept s n _

theorem stageBindOwner_countsKept : s.CountsKept (stageBindOwner f s).1 :=
  withClaim_keeps (.refl s) fun n c => by
    split
    · exact setClaim_countsKept s n _
    · exact setClaim_countsKept s n _
    · exact .refl s

theorem abandonOwner_countsKept : s.CountsKept (abandonOwner f s).1 :=
  withClaim_keeps (.refl s) fun n _ => setClaim_countsKept s n none

theorem unitSetOwner_countsKept : s.CountsKept (unitSetOwner f s).1 := by
  unfold unitSetOwner
  dsimp only
  split
  · exact .refl s
  split
  next u zone _ _ =>
    split_ifs
    · exact .refl s
    · exact .refl s
    · exact (setUnit_countsKept s u _).markDirty _
  · exact .refl s

theorem supervisorSetOwner_countsKept : s.CountsKept (supervisorSetOwner f s).1 := by
  unfold supervisorSetOwner
  dsimp only
  split_ifs
  · exact .refl s
  · exact .refl s
  · have h : s.CountsKept { s with supervisors := distinct (supervisorFields f.payload) } := countsKept_of rfl rfl rfl
    exact h.markDirty _

theorem partRestartOwner_countsKept : s.CountsKept (partRestartOwner f s).1 := by
  unfold partRestartOwner
  split_ifs <;> exact countsKept_of rfl rfl rfl

theorem takeUnitStatus_countsKept : s.CountsKept (s.takeUnitStatus f) := by
  unfold State.takeUnitStatus
  split_ifs
  · exact .refl s
  split
  next u fan _ _ =>
    split_ifs
    · unfold State.takeStatus
      dsimp only
      have hu := setUnit_countsKept s u { s.units[u] with fan := fan, statusTimer := some (s.now + Config.statusTime) }
      split_ifs
      · exact (hu.trans (moves_countsKept (fansProved_moves _ u))).endEvent
      · exact hu.endEvent
    · exact .refl s
  · exact .refl s

/-- What a report hands to the Regime Monitor leaves the counts. -/
theorem monitor_countsKept (h : s.CountsKept t) (hu : ∃ average regime, u = { t with average := average, regime := regime }) :
    s.CountsKept u := by
  obtain ⟨_, _, rfl⟩ := hu
  exact h.trans (countsKept_of rfl rfl rfl)

theorem takeFaultReport_countsKept {j : Fin 96} {e : PointEntry} (he : s.points[j] = some e) (r : Reading) :
    s.CountsKept (s.takeFaultReport j e r) := by
  have hp : s.CountsKept { s with points := tablePut s.points j (some (e.takeFault r)) } := putPoint_countsKept he rfl rfl
  unfold State.takeFaultReport
  dsimp only
  generalize ({ s with points := tablePut s.points j (some (e.takeFault r)) } : State) = t at hp
  exact monitor_countsKept (hp.trans (moves_countsKept (settlingTests_moves t e.key))) (fallBack_if _ _)

theorem takeGoodReport_countsKept {j : Fin 96} {e : PointEntry} (he : s.points[j] = some e) (r : Reading) :
    s.CountsKept (s.takeGoodReport j e r) := by
  have hp : s.CountsKept { s with points := tablePut s.points j (some (e.takeGood r)) } := putPoint_countsKept he rfl rfl
  unfold State.takeGoodReport
  dsimp only
  generalize ({ s with points := tablePut s.points j (some (e.takeGood r)) } : State) = t at hp
  have hg : s.CountsKept (if e.inStep r.seq then t else t.addFaultWhere .sequenceGap (t.unitBinds e.key)) := by
    split
    · exact hp
    · exact hp.trans (moves_countsKept (addFaultWhere_moves _ _ _))
  exact monitor_countsKept (hg.trans (moves_countsKept (settlingTests_moves _ e.key))) (outdoorReport_if _ _ _)

/-- A report leaves its entry's key and count (R35 to R37). -/
theorem takeReport_countsKept : s.CountsKept (s.takeReport f) := by
  unfold State.takeReport
  split_ifs
  · exact .refl s
  split
  · exact .refl s
  · split
    · exact .refl s
    next e he =>
      unfold State.takeReading
      split_ifs
      · exact .refl s
      · exact (takeFaultReport_countsKept he _).endEvent
      · exact (takeGoodReport_countsKept he _).endEvent

/-! ### Requests that make a reference change -/

/-- A RETIRE gives up the references of its record (R23). -/
theorem retireOwner_pointsCounted (hs : s.PointsCounted) : (retireOwner f s).1.PointsCounted := by
  unfold retireOwner
  split_ifs
  · exact hs
  refine withRecord_keeps (P := State.PointsCounted) hs fun i hv => ?_
  split_ifs
  · exact hs
  · exact hs
  have hroom : s.RoomForPoints s.coils[i].keys [] := Nat.zero_le _
  have hc := retire_coils s i
  refine changed_pointsCounted hs hroom ?_ fun k => ?_
  · rw [retire_eq, lifecycleChanged_points, setCoil_points, changeRefs_points]
    rfl
  · have ho : (s.retire i).outdoor = s.outdoor := by
      rw [retire_eq, lifecycleChanged_outdoor, setCoil_outdoor, changeRefs_outdoor]
      rfl
    have hput := bindingCount_put hc ho k
    rw [Coil.named_keys hv] at hput
    exact hput

/-- A staging without a binding group leaves the record's bindings (R147). -/
theorem into_keys {st : Staging} {c : Coil} (h : ¬ (st.lat.isSome ∨ st.ft.isSome)) : ((st.over c).into c).keys = c.keys := by
  obtain ⟨hlat, hft⟩ := not_or.1 h
  have hlat := Option.not_isSome_iff_eq_none.1 hlat
  have hft := Option.not_isSome_iff_eq_none.1 hft
  refine keys_congr ?_ ?_
  · show mergeBinding st.lat c.lat = c.lat
    rw [hlat]
    rfl
  · show mergeBinding st.ft c.ft = c.ft
    rw [hft]
    rfl

/-- What a commit gives up and takes makes its record's new names of the old ones; on a VACANT slot no commit changes a binding
(R150, R152). -/
theorem bindingChange_counts {st : Staging} {c : Coil} (hg : st.GateOpen c) (k : PointKey) :
    ((st.over c).into c).named.count k + c.keys.count k = c.named.count k + ((st.over c).into c).keys.count k := by
  by_cases hv : c.lifecycle = .vacant
  · have hbind : ¬ (st.lat.isSome ∨ st.ft.isSome) := by
      rcases hg with h | h | ⟨h, -⟩
      · rw [hv] at h; cases h
      · rw [hv] at h; cases h
      · exact h
    rw [into_keys hbind, Coil.named_vacant hv, Coil.named_vacant (c := (st.over c).into c) hv]
  · rw [Coil.named_keys hv, Coil.named_keys (c := (st.over c).into c) hv, Nat.add_comm]

theorem commit_pointsCounted (n : ClaimNo) (c : Claim) {st : Staging} (clamped : Bool) (hs : s.PointsCounted)
    (hg : st.GateOpen s.coils[c.slot])
    (hf : (bindingChange s.coils[c.slot] ((st.over s.coils[c.slot]).into s.coils[c.slot])).fits s.points = true) :
    (s.commit n c ((st.over s.coils[c.slot]).into s.coils[c.slot]) clamped).PointsCounted := by
  have hc := commit_coils s n c ((st.over s.coils[c.slot]).into s.coils[c.slot]) clamped
  refine changed_pointsCounted hs (fits_iff.1 hf) ?_ fun k => ?_
  · simp [State.commit, bindingChange]
  · have ho : (s.commit n c ((st.over s.coils[c.slot]).into s.coils[c.slot]) clamped).outdoor = s.outdoor := by simp [State.commit]
    have hput := bindingCount_put hc ho k
    have hcount := bindingChange_counts hg k
    have hflag : Coil.named { (st.over s.coils[c.slot]).into s.coils[c.slot] with writeInFlight := true }
        = ((st.over s.coils[c.slot]).into s.coils[c.slot]).named := rfl
    rw [hflag] at hput
    unfold bindingChange
    dsimp only
    omega

theorem commitOwner_pointsCounted (hs : s.PointsCounted) : (commitOwner f s).1.PointsCounted :=
  withClaim_keeps (P := State.PointsCounted) hs fun n c => by
    unfold State.tryCommit
    dsimp only
    split_ifs with _ _ _ hg hf
    · exact hs
    · exact hs
    · exact hs
    · exact hs
    · exact hs
    · exact hs
    · exact commit_pointsCounted n c _ hs (passesGate_iff.1 (by simpa using hg)) (by simpa using hf)

/-- A PART_SET gives up the reference of the old outdoor binding and takes that of the new one (R53). -/
theorem setPart_pointsCounted (k : Option PointKey) (on off : Int) (hs : s.PointsCounted) (hf : (s.outdoorChange k).fits s.points = true) :
    (s.setPart k on off).PointsCounted := by
  have marked {t : State} (ht : t.PointsCounted) : (t.markDirty .settings).PointsCounted :=
    (touch_countsKept (.dirty .settings)).pointsCounted ht
  refine marked ?_
  unfold State.rebindOutdoor
  split_ifs with hk
  · exact hs
  · refine changed_pointsCounted hs (fits_iff.1 hf) ?_ fun x => ?_
    · exact changeRefs_points _ _
    · refine bindingCount_outdoor (s := s) ?_ x
      exact changeRefs_coils _ _

theorem partSetOwner_pointsCounted (hs : s.PointsCounted) : (partSetOwner f s).1.PointsCounted := by
  unfold partSetOwner
  dsimp only
  split_ifs with _ _ _ hf
  · exact hs
  · exact hs
  · exact hs
  · exact hs
  · exact setPart_pointsCounted _ _ _ hs (by simpa using hf)

end Sys2Proof.Machine
end

