-- ==== Sys2Proof/Proofs/PointSteps.lean ====
section
/-! Every step keeps the reference counts of the point entries true (O58): the events of the line, the timers, the contacts and the
store leave them, and a load makes them anew (R29, R50). -/

namespace Sys2Proof.Machine

variable {s t u : State} {i : Slot} {points points' : Table (Option PointEntry) 96} {k : PointKey} {n : PointKey → Nat}

/-! ### Loads (R50) -/

/-- A table's entries count the names of each key, as the table of a state counts its bindings (R29). -/
def CountsNames (n : PointKey → Nat) (points : Table (Option PointEntry) 96) : Prop :=
  (∀ (j : Fin 96) (e : PointEntry), points[j] = some e → e.refs = n e.key ∧ 1 ≤ e.refs)
  ∧ KeysDistinct points
  ∧ ∀ k, 0 < n k → ∃ (j : Fin 96) (e : PointEntry), points[j] = some e ∧ e.key = k

theorem pointsCounted_iff : s.PointsCounted ↔ CountsNames s.bindingCount s.points := .rfl

theorem countsNames_congr {m : PointKey → Nat} (h : ∀ k, m k = n k) (hp : CountsNames n points) : CountsNames m points :=
  funext h ▸ hp

/-- A key that a load adds is counted once more. -/
theorem KeyAdded.countsNames (h : KeyAdded points k points') (hp : CountsNames n points) :
    CountsNames (fun x => n x + [k].count x) points' := by
  obtain ⟨hcount, hdist, hheld⟩ := hp
  have hone : [k].count k = 1 := List.count_singleton_self
  have hother {x : PointKey} (hx : x ≠ k) : [k].count x = 0 := List.count_eq_zero_of_not_mem (by simpa using hx)
  refine ⟨fun j e he => ?_, fun i j d e hd he hk => ?_, fun x hx => ?_⟩
  · cases h with
    | counted m d hd hk =>
      rw [tablePut_get] at he
      split_ifs at he with hj
      · obtain rfl := Option.some.inj he
        have hm := hcount m d hd
        dsimp only
        rw [hk, hone]
        rw [hk] at hm
        omega
      · have hne : e.key ≠ k := fun hek => hj (hdist j m e d he hd (hek.trans hk.symm))
        dsimp only
        rw [hother hne]
        exact hcount j e he
    | created m hm hk =>
      rw [tablePut_get] at he
      split_ifs at he with hj
      · obtain rfl := Option.some.inj he
        have hzero : n k = 0 := by
          by_contra hn
          obtain ⟨j, e, he, hek⟩ := hheld k (Nat.pos_of_ne_zero hn)
          exact hk j e he hek
        dsimp only [PointEntry.new]
        rw [hone, hzero]
        exact ⟨rfl, le_rfl⟩
      · dsimp only
        rw [hother (hk j e he)]
        exact hcount j e he
  · rcases h.cases hd with ⟨d', hd', hdk, -⟩ | ⟨hi, rfl, hfree⟩ <;>
      rcases h.cases he with ⟨e', he', hek, -⟩ | ⟨hj, rfl, hfree'⟩
    · exact hdist i j d' e' hd' he' (hdk.trans (hk.trans hek.symm))
    · exact absurd (hdk.trans hk) (hfree' i d' hd')
    · exact absurd (hek.trans hk.symm) (hfree j e' he')
    · exact h.new_unique hfree hi hj (by rw [hd]; rfl) (by rw [he]; rfl)
  · refine mem_keysOf.1 ((h.mem_iff x).2 ?_)
    by_cases hxk : x = k
    · exact .inr hxk
    · have hpos : 0 < n x + [k].count x := hx
      rw [hother hxk] at hpos
      exact .inl (mem_keysOf.2 (hheld x hpos))

theorem placeBinding_countsNames {b : Option Binding} (h : placeBinding points b = some points') (hp : CountsNames n points) :
    CountsNames (fun x => n x + (b.map (·.key)).toList.count x) points' := by
  cases b with
  | none =>
    obtain rfl := Option.some.inj h
    exact hp
  | some b => exact (addPointRef_some h).countsNames hp

theorem placeBindings_countsNames {d : CoilDefinition} (h : placeBindings points d = some points') (hp : CountsNames n points) :
    CountsNames (fun x => n x + d.keys.count x) points' := by
  obtain ⟨p, h1, h2⟩ := Option.bind_eq_some_iff.1 h
  refine countsNames_congr (fun x => ?_) (placeBinding_countsNames h2 (placeBinding_countsNames h1 hp))
  rw [CoilDefinition.keys, List.count_append]
  omega

/-- One slot's record is placed with its references (R25, R50). -/
theorem slotLoad_pointsCounted (h : SlotLoad s i t) (hv : s.coils[i].lifecycle = .vacant) (hs : s.PointsCounted) :
    t.PointsCounted := by
  have ho : t.outdoor = s.outdoor := by rw [slotLoad_rest h]
  rcases slotLoad_places h with ⟨hp, hc⟩ | ⟨d, l, latch, hp, hc, hl⟩
  · exact (countsKept_of hp ho hc).pointsCounted hs
  · refine pointsCounted_iff.2 (countsNames_congr (fun x => ?_) (placeBindings_countsNames hp hs))
    have hput := bindingCount_put hc ho x
    have hnamed : (d.toCoil l latch).named = d.keys := Coil.named_keys hl
    have hzero : ([] : List PointKey).count x = 0 := List.count_nil
    rw [Coil.named_vacant hv, hnamed, hzero, Nat.add_zero] at hput
    exact hput

theorem countsNames_nothing (h : s.Swept) : CountsNames (fun _ => 0) s.points :=
  ⟨fun j e he => (by rw [h.point] at he; cases he), fun i j d e hd => (by rw [h.point] at hd; cases hd),
    fun k hk => absurd hk (lt_irrefl 0)⟩

/-- The state that a load's slots are settled from counts the outdoor binding alone. -/
theorem beforeSlots_pointsCounted (h : s.Swept) : s.beforeSlots.PointsCounted := by
  have hnames (x : PointKey) : s.beforeSlots.bindingCount x = 0 + s.loadSettings.outdoor.toList.count x := by
    rw [bindingCount_eq, beforeSlots_outdoor, Finset.sum_eq_zero fun j _ => ?_]
    rw [beforeSlots_coils, h.coil]
    rfl
  refine pointsCounted_iff.2 (countsNames_congr hnames ?_)
  rw [beforeSlots_points]
  cases s.loadSettings.outdoor with
  | none => exact countsNames_nothing h
  | some k => exact (createEntry_first h.point k).1.countsNames (countsNames_nothing h)

theorem load_pointsCounted (h : s.Swept) : s.load.PointsCounted := by
  have hload := forSlots_upTo (f := fun i s => s.loadCoil i) (s := s.beforeSlots)
    (P := fun m t => t.PointsCounted ∧ ∀ j : Slot, m ≤ j.val → t.coils[j].lifecycle = .vacant)
    (fun i t ht => ?_) ⟨beforeSlots_pointsCounted h, fun j _ => by rw [beforeSlots_coils]; exact h.vacant j⟩
  · exact (State.CountsKept.refl _).endEvent.pointsCounted hload.1
  · have hl := loadCoil_slotLoad t i
    refine ⟨slotLoad_pointsCounted hl (ht.2 i le_rfl) ht.1, fun j hj => ?_⟩
    rw [slotLoad_other hl (by rintro rfl; omega)]
    exact ht.2 j (by omega)

theorem breakOff_pointsCounted (s : State) (p : Power) (cut : BrokenWrite) : (s.breakOff p cut).PointsCounted := by
  have h := breakOff_swept s p cut
  have hnames (x : PointKey) : (s.breakOff p cut).bindingCount x = 0 := by
    rw [bindingCount_eq, Finset.sum_eq_zero fun j _ => ?_]
    · rfl
    · rw [h.coil]
      rfl
  exact pointsCounted_iff.2 (countsNames_congr hnames (countsNames_nothing h))

/-! ### The plant line -/

theorem receive_countsKept (s : State) (levels : List LineLevel) : s.CountsKept (s.receive levels) := by
  unfold State.receive
  split_ifs
  · exact .refl s
  split
  · exact countsKept_of rfl rfl rfl
  · split_ifs <;> exact countsKept_of rfl rfl rfl

theorem choosePoll_countsKept (s : State) : s.CountsKept s.choosePoll := by
  obtain ⟨_, _, he, -⟩ := choosePoll_fields s
  rw [he]
  exact countsKept_of rfl rfl rfl

theorem chooseNotice_countsKept (s : State) : s.CountsKept s.chooseNotice :=
  countsKept_of (chooseNotice_points s) (chooseNotice_outdoor s) (chooseNotice_coils s)

theorem freeAnswer_countsKept (s : State) : s.CountsKept s.freeAnswer := by
  unfold State.freeAnswer
  split <;> exact countsKept_of rfl rfl rfl

theorem grant_countsKept (s : State) : s.CountsKept s.grant := by
  unfold State.grant
  split_ifs
  · exact .refl s
  split
  · exact .refl s
  · unfold State.grantAction
    split
    · exact .refl s
    · split_ifs <;> exact countsKept_of rfl rfl rfl
  · unfold State.grantPoll
    split <;> exact countsKept_of rfl rfl rfl
  · unfold State.grantAnswer
    split <;> exact countsKept_of rfl rfl rfl
  · unfold State.grantNotice
    split <;> exact countsKept_of rfl rfl rfl

theorem offLine_countsKept (s : State) : s.CountsKept s.offLine := countsKept_of rfl rfl rfl

theorem loseLine_countsKept (s : State) : s.CountsKept s.loseLine := by
  unfold State.loseLine
  split
  · exact .refl s
  split_ifs
  · exact offLine_countsKept s
  split
  · exact offLine_countsKept s
  · unfold State.loseAnswer
    split
    · exact offLine_countsKept s
    · split_ifs
      · exact (offLine_countsKept s).trans (freeAnswer_countsKept _)
      · exact countsKept_of rfl rfl rfl
  · unfold State.losePoll
    split
    · exact offLine_countsKept s
    · split_ifs
      · exact State.CountsKept.trans (t := { s.offLine with poll := none }) (countsKept_of rfl rfl rfl) (choosePoll_countsKept _)
      · exact countsKept_of rfl rfl rfl
  · unfold State.loseNotice
    split
    · exact offLine_countsKept s
    · split_ifs
      · exact State.CountsKept.trans (t := { s.offLine with notice := none }) (countsKept_of rfl rfl rfl) (chooseNotice_countsKept _)
      · exact countsKept_of rfl rfl rfl

theorem completeLine_countsKept {src : Source} {effect : State → State} (h : ∀ s : State, s.CountsKept (effect s)) :
    s.CountsKept (s.completeLine src effect) := by
  unfold State.completeLine
  split
  · exact .refl s
  split_ifs
  · exact .refl s
  · exact offLine_countsKept s
  · exact (offLine_countsKept s).trans (h _)

theorem applyOutcome_countsKept (s : State) (d : Dispatch) (e : DemandEntry) (o : Ack) : s.CountsKept (s.applyOutcome d e o) := by
  have demanded (ds : List DemandEntry) : s.CountsKept { s with demands := ds } := countsKept_of rfl rfl rfl
  unfold State.applyOutcome
  split_ifs
  · exact demanded _
  · exact (demanded _).trans (moves_countsKept (handFault_moves _ d))
  · exact demanded _

theorem completeAction_countsKept (ack : AckBits) (s : State) : s.CountsKept (s.completeAction ack) := by
  unfold State.completeAction
  split
  · exact .refl s
  next d _ =>
    have freed : s.CountsKept { s with dispatch := none } := countsKept_of rfl rfl rfl
    dsimp only
    split
    · exact freed
    next e _ =>
      exact (freed.trans ((applyOutcome_countsKept _ d e _).trans (moves_countsKept (stepDownTests_moves _ _)))).endEvent

theorem markPolled_countsKept (s : State) (i : Option (Fin 96)) : s.CountsKept (s.markPolled i) := by
  unfold State.markPolled
  split
  next j =>
    refine ⟨fun m => ?_, rfl, fun _ => rfl⟩
    simp only [tablePut_get]
    split_ifs with hm
    · rw [hm, Option.map_map]
      rfl
    · rfl
  · exact .refl s

theorem completePoll_countsKept (s : State) : s.CountsKept s.completePoll := by
  unfold State.completePoll
  split
  · exact .refl s
  · have spent : s.CountsKept { s with backlog := s.backlog - 1, poll := none } := countsKept_of rfl rfl rfl
    exact (spent.trans (markPolled_countsKept _ _)).trans (choosePoll_countsKept _)

theorem completeNotice_countsKept (s : State) : s.CountsKept s.completeNotice := by
  unfold State.completeNotice
  split
  · exact .refl s
  next n _ =>
    have cleared : s.CountsKept
        { s with
          notice := none
          noticeFlags := if n.setAgain then s.noticeFlags else tablePut s.noticeFlags n.slot false } := countsKept_of rfl rfl rfl
    exact cleared.trans (chooseNotice_countsKept _)

/-! ### Timers, contacts and the store -/

/-- The clock of an expiry counts nothing. -/
theorem expire_countsKept {timer : Option Nat} {effect : State → State}
    (h : ∀ t, timer = some t → (s.atExpiry t).CountsKept (effect (s.atExpiry t))) : s.CountsKept (s.expire timer effect) := by
  unfold State.expire
  split
  · exact .refl s
  next t =>
    have timed : s.CountsKept (s.atExpiry t) := countsKept_of rfl rfl rfl
    exact timed.trans (h t rfl)

theorem endPeriod_counts (e : PointEntry) : (e.endPeriod.key, e.endPeriod.refs) = (e.key, e.refs) := by
  unfold PointEntry.endPeriod
  split_ifs <;> rfl

theorem endMissPeriod_countsKept (s : State) : s.CountsKept s.endMissPeriod := by
  have ended : s.CountsKept { s with points := tableMap (fun o => o.map PointEntry.endPeriod) s.points } := by
    refine ⟨fun j => ?_, rfl, fun _ => rfl⟩
    simp only [tableMap_get, Option.map_map]
    exact congrArg (Option.map · _) (funext endPeriod_counts)
  unfold State.endMissPeriod
  dsimp only
  split_ifs
  · exact ended.trans (countsKept_of rfl rfl rfl)
  · exact ended

theorem periodExpired_countsKept (s : State) : s.CountsKept s.periodExpired := by
  have withdrawn : s.CountsKept s.withdrawPoll := by
    unfold State.withdrawPoll
    split_ifs
    · exact .refl s
    · exact countsKept_of rfl rfl rfl
  have owed (t : State) (n : Nat) : t.CountsKept { t with backlog := n } := countsKept_of rfl rfl rfl
  have started (t : State) : t.CountsKept t.startPeriod := countsKept_of rfl rfl rfl
  exact (withdrawn.trans (endMissPeriod_countsKept _)).trans ((owed _ _).trans ((choosePoll_countsKept _).trans (started _)))

theorem changeLevel_countsKept (s : State) (u : UnitNo) (level : ContactLevel) : s.CountsKept (s.changeLevel u level) := by
  unfold State.changeLevel
  split_ifs
  · exact .refl s
  · exact setUnit_countsKept s _ _
  · exact setUnit_countsKept s _ _

theorem filterExpired_countsKept (s : State) (u : UnitNo) : s.CountsKept (s.filterExpired u) := by
  have recomputed (t : State) : t.CountsKept (t.recomputeFso u) := setUnit_countsKept t _ _
  unfold State.filterExpired
  dsimp only
  refine State.CountsKept.trans (setUnit_countsKept s u
    { s.units[u] with contact := contactOf s.units[u].level, filter := .steady }) ?_
  split
  · unfold State.contactOpens
    have faulted (t : State) : t.CountsKept (t.addFault u .contactOpen) := moves_countsKept (StageMove.faulted u _).moves
    refine State.CountsKept.endEvent (((faulted _).trans (recomputed _)).trans ?_)
    split_ifs
    · exact moves_countsKept (contactTrips_moves _ u)
    · exact .refl _
  · exact recomputed _

theorem settleExpired_countsKept (s : State) (i : Slot) : s.CountsKept (s.settleExpired i) :=
  (moves_countsKept (.tail (StageMove.overdue i).moves (.faulted _ _))).endEvent

theorem beginWrite_countsKept (s : State) : s.CountsKept s.beginWrite := by
  unfold State.beginWrite
  split
  · exact .refl s
  · split_ifs
    · exact countsKept_of rfl rfl rfl
    · exact .refl s

theorem completeWrite_countsKept (s : State) (success : Bool) : s.CountsKept (s.completeWrite success) := by
  unfold State.completeWrite
  split
  · exact .refl s
  next w _ =>
    obtain ⟨coils, _, _, _, _, _, he, hc, -⟩ := writeCompleted_fields (s := s) w success
    rw [he]
    refine ⟨fun _ => rfl, rfl, fun j => ?_⟩
    have hj := hc j
    dsimp only
    rw [hj]
    split_ifs <;> rfl

/-- The completion of a load starts settle timers and sets no name. -/
theorem completeLoad_countsKept (s : State) : s.CountsKept s.completeLoad := by
  obtain ⟨units, he, -⟩ := completeLoad_fields s
  rw [he]
  refine ⟨fun _ => rfl, rfl, fun j => ?_⟩
  have hj := startSettling_coil s j
  dsimp only
  rw [hj]
  split_ifs <;> rfl

end Sys2Proof.Machine
end

