-- ==== Sys2Proof/Proofs/PointsCounted.lean ====
section
/-! Every command keeps the reference counts of the point entries true, and so every step does (O58). -/

namespace Sys2Proof.Machine

variable {s t : State}

/-- The frame that leaves the receive queue counts nothing. -/
theorem takeFrame_pointsCounted {p : RxFrame → Bool} {effect : RxFrame → State → State} (hs : s.PointsCounted)
    (h : ∀ (f : RxFrame) (s : State), s.PointsCounted → (effect f s).PointsCounted) : (takeFrame p effect s).PointsCounted :=
  takeFrame_cases hs fun f _ _ _ => h f _ hs

theorem pushAnswer_countsKept (s : State) (a : Answer) : s.CountsKept (s.pushAnswer a) := countsKept_of rfl rfl rfl

theorem demandChange_countsKept (s : State) (ds : List DemandEntry) : s.CountsKept ({ s with demands := ds } : State).endEvent := by
  have demanded : s.CountsKept { s with demands := ds } := countsKept_of rfl rfl rfl
  exact demanded.endEvent

/-- A request counts what its owner makes of it. -/
theorem takeRequest_pointsCounted {fn : Func} {owner : RxFrame → State → Handled} (hs : s.PointsCounted)
    (h : ∀ (f : RxFrame) (s : State), s.PointsCounted → (owner f s).1.PointsCounted) : (takeRequest fn owner s).PointsCounted := by
  refine takeFrame_pointsCounted hs fun f s hs => ?_
  split_ifs
  · exact hs
  · exact (pushAnswer_countsKept s _).pointsCounted hs
  · have ho := h f s hs
    split
    next t r heq =>
      rw [heq] at ho
      exact (pushAnswer_countsKept t _).pointsCounted ho
    next t heq =>
      rw [heq] at ho
      exact ho

theorem takeRequest_countsKept {fn : Func} {owner : RxFrame → State → Handled} (hs : s.PointsCounted)
    (h : ∀ (f : RxFrame) (s : State), s.CountsKept (owner f s).1) : (takeRequest fn owner s).PointsCounted :=
  takeRequest_pointsCounted hs fun f s => (h f s).pointsCounted

/-- Every command keeps the counts true (R29). -/
theorem exec_pointsCounted (c : Instr) (hs : s.PointsCounted) (h : exec c s = .next t) : t.PointsCounted := by
  have next {u : State} (hu : u.PointsCounted) (h : (Host.Outcome.next u : Step) = .next t) : t.PointsCounted := by
    obtain rfl := Host.Outcome.next.inj h
    exact hu
  have kept {u : State} (hu : s.CountsKept u) (h : (Host.Outcome.next u : Step) = .next t) : t.PointsCounted :=
    next (hu.pointsCounted hs) h
  cases c with
  | report => exact next (takeFrame_pointsCounted hs fun _ _ => takeReport_countsKept.pointsCounted) h
  | unitStatus => exact next (takeFrame_pointsCounted hs fun _ _ => takeUnitStatus_countsKept.pointsCounted) h
  | queryCoil => exact next (takeRequest_countsKept hs fun _ _ => queryCoilOwner_countsKept) h
  | queryPoint => exact next (takeRequest_countsKept hs fun _ _ => queryPointOwner_countsKept) h
  | queryUnit => exact next (takeRequest_countsKept hs fun _ _ => queryUnitOwner_countsKept) h
  | queryDemand => exact next (takeRequest_countsKept hs fun _ _ => queryDemandOwner_countsKept) h
  | partStatus => exact next (takeRequest_countsKept hs fun _ _ => countsKept_of rfl rfl rfl) h
  | readFaults => exact next (takeRequest_countsKept hs fun _ _ => readFaultsOwner_countsKept) h
  | create => exact next (takeRequest_countsKept hs fun _ _ => createOwner_countsKept) h
  | arm => exact next (takeRequest_countsKept hs fun _ _ => armOwner_countsKept) h
  | suspend => exact next (takeRequest_countsKept hs fun _ _ => suspendOwner_countsKept) h
  | retire => exact next (takeRequest_pointsCounted hs fun _ _ => retireOwner_pointsCounted) h
  | restart => exact next (takeRequest_countsKept hs fun _ _ => restartOwner_countsKept) h
  | releaseLockout => exact next (takeRequest_countsKept hs fun _ _ => releaseLockoutOwner_countsKept) h
  | claim => exact next (takeRequest_countsKept hs fun _ _ => claimOwner_countsKept) h
  | stageLimits => exact next (takeRequest_countsKept hs fun _ _ => stageLimitsOwner_countsKept) h
  | stageDose => exact next (takeRequest_countsKept hs fun _ _ => stageDoseOwner_countsKept) h
  | stageTiming => exact next (takeRequest_countsKept hs fun _ _ => stageTimingOwner_countsKept) h
  | stageMap => exact next (takeRequest_countsKept hs fun _ _ => stageMapOwner_countsKept) h
  | stageBind => exact next (takeRequest_countsKept hs fun _ _ => stageBindOwner_countsKept) h
  | commit => exact next (takeRequest_pointsCounted hs fun _ _ => commitOwner_pointsCounted) h
  | abandon => exact next (takeRequest_countsKept hs fun _ _ => abandonOwner_countsKept) h
  | unitSet => exact next (takeRequest_countsKept hs fun _ _ => unitSetOwner_countsKept) h
  | partSet => exact next (takeRequest_pointsCounted hs fun _ _ => partSetOwner_pointsCounted) h
  | supervisorSet => exact next (takeRequest_countsKept hs fun _ _ => supervisorSetOwner_countsKept) h
  | partRestart => exact next (takeRequest_countsKept hs fun _ _ => partRestartOwner_countsKept) h
  | unknownFunction =>
    refine next (takeFrame_pointsCounted hs fun f s hs => ?_) h
    split_ifs
    · exact (pushAnswer_countsKept s _).pointsCounted hs
    · exact hs
  | discardedFunctionFrame => exact next (takeFrame_pointsCounted hs fun _ _ => id) h
  | frameReception levels => exact kept (receive_countsKept s levels) h
  | lineGrant => exact kept (grant_countsKept s) h
  | lostArbitration => exact kept (loseLine_countsKept s) h
  | transmitError => exact kept (loseLine_countsKept s) h
  | actionCompletion ack => exact kept (completeLine_countsKept (completeAction_countsKept ack)) h
  | pollCompletion ack => exact kept (completeLine_countsKept completePoll_countsKept) h
  | answerCompletion ack => exact kept (completeLine_countsKept freeAnswer_countsKept) h
  | stageNoticeCompletion ack => exact kept (completeLine_countsKept completeNotice_countsKept) h
  | evaluationExpiry i =>
    refine kept (u := s.expire s.coils[i].evalTimer fun s => (s.evaluation i).endEvent) (expire_countsKept fun t ht => ?_) h
    have hrun : (s.atExpiry t).coils[i].evalTimer.isSome := by rw [atExpiry_coils, ht]; rfl
    exact (moves_countsKept (evaluation_moves _ i hrun)).endEvent
  | restartHoldExpiry i =>
    refine kept (u := s.expire s.coils[i].holdTimer fun s => (s.holdExpired i).endEvent) (expire_countsKept fun t ht => ?_) h
    have hrun : (s.atExpiry t).coils[i].holdTimer.isSome := by rw [atExpiry_coils, ht]; rfl
    exact (moves_countsKept (holdExpired_moves _ i hrun)).endEvent
  | cleanTimerExpiry i => exact kept (expire_countsKept fun _ _ => touches_countsKept (cleanExpired_touches _ i)) h
  | settleTimerExpiry i => exact kept (expire_countsKept fun _ _ => settleExpired_countsKept _ i) h
  | pollPeriodExpiry => exact kept (expire_countsKept fun _ _ => periodExpired_countsKept _) h
  | claimTimerExpiry n => exact kept (expire_countsKept fun _ _ => setClaim_countsKept _ n none) h
  | statusTimerExpiry u => exact kept (expire_countsKept fun _ _ => setUnit_countsKept _ u _) h
  | llLevelChange u level => exact kept (changeLevel_countsKept s u level) h
  | contactFilterExpiry u => exact kept (expire_countsKept fun _ _ => filterExpired_countsKept _ u) h
  | holdOffExpiry k => exact kept (expire_countsKept fun _ _ => .refl _) h
  | refreshTimerExpiry k =>
    refine kept ?_ h
    exact expire_countsKept fun _ _ => demandChange_countsKept _ _
  | faultRetryTimerExpiry k =>
    refine kept ?_ h
    exact expire_countsKept fun _ _ => demandChange_countsKept _ _
  | storeWriteBegin => exact kept (beginWrite_countsKept s) h
  | storeWriteCompletion success => exact kept (completeWrite_countsKept s success) h
  | storeRetryTimerExpiry => exact kept (expire_countsKept fun _ _ => countsKept_of rfl rfl rfl) h
  | resetPinHold cut =>
    refine next ?_ h
    unfold State.holdReset
    split_ifs
    · exact hs
    · exact breakOff_pointsCounted s .held cut
  | startUpLoad strap cut => exact next (load_pointsCounted (startState_swept s strap cut)) h
  | partRestartLoadBegin strap =>
    refine next ?_ h
    unfold State.beginRestart
    split_ifs
    · exact load_pointsCounted (restartState_swept s strap)
    · exact hs
  | loadCompletion =>
    refine next ?_ h
    split_ifs
    · exact (completeLoad_countsKept s).pointsCounted hs
    · exact hs
  | powerLoss cut => exact next (breakOff_pointsCounted s .off cut) h

/-- Settles O58: every command keeps the counts, and a step is a command or a millisecond. -/
theorem stepKeepsPointsCounted : Obligations.StepKeepsPointsCounted := by
  intro s t hs h
  unfold step at h
  split at h
  next c rest _ => exact exec_pointsCounted c (s := { s with pending := rest }) hs h
  · unfold State.idle at h
    split at h
    next c _ => exact exec_pointsCounted c hs h
    · obtain rfl := Host.Outcome.next.inj h
      exact hs

end Sys2Proof.Machine
end

