-- ==== Sys2Proof/Proofs/SensorReports.lean ====
section
/-! A REPORT at its entry (R33 to R37, R54 to R56): what it leaves of the entries, the Regime Monitor, the fault summaries and the
store; and the answer to a QUERY_POINT (R32). -/

namespace Sys2Proof.Machine

variable {s t u : State} {f : RxFrame} {rest : List RxFrame} {i : Fin 96} {e : PointEntry}

/-! ### Frames that change nothing (R33, R34, R123) -/

/-- A REPORT is taken by its entry, with the frame off the queue. -/
theorem exec_report_takes (ht : s.TakesFrame f rest) (hcode : f.code = 1) :
    exec .report s = .next (({ s with rx := rest } : State).takeReport f) :=
  congrArg Host.Outcome.next (takeFrame_takes ht (p := fun f => f.code == Func.report.code) (by rw [hcode]; rfl) fun f s => s.takeReport f)

theorem exec_unitStatus_takes (ht : s.TakesFrame f rest) (hcode : f.code = 2) :
    exec .unitStatus s = .next (({ s with rx := rest } : State).takeUnitStatus f) :=
  congrArg Host.Outcome.next
    (takeFrame_takes ht (p := fun f => f.code == Func.unitStatus.code) (by rw [hcode]; rfl) fun f s => s.takeUnitStatus f)

theorem exec_report_takeReading (ht : s.TakesFrame f rest) (hcode : f.code = 1) (hlen : f.payload.length = 5)
    (hi : indexOf s.points ⟨f.sender, byteAt f.payload 0⟩ = some i) (he : s.points[i] = some e) :
    exec .report s = .next (({ s with rx := rest } : State).takeReading i e (readingOf f.payload)) := by
  rw [exec_report_takes ht hcode, takeReport_takeReading (s := { s with rx := rest }) hlen hi he]

/-- A REPORT of the wrong length, or whose key no entry holds (R33, R165). -/
theorem takeReport_ignores
    (h : f.payload.length ≠ 5
      ∨ ∀ (i : Fin 96) (e : PointEntry), s.points[i] = some e → e.key ≠ ⟨f.sender, byteAt f.payload 0⟩) :
    s.takeReport f = s := by
  unfold State.takeReport
  split_ifs with hlen
  · rfl
  · have hkey : indexOf s.points f.reportKey = none := indexOf_eq_none (h.resolve_left hlen)
    rw [hkey]

theorem reportedFanOf_eq_none {n : Nat} (h1 : n ≠ 1) (h2 : n ≠ 2) : reportedFanOf n = none := by
  unfold reportedFanOf
  split
  · exact absurd rfl h1
  · exact absurd rfl h2
  · rfl

theorem val_of_unitOf {n : Nat} {v : UnitNo} (h : unitOf n = some v) : v.val = n := by
  unfold unitOf at h
  split_ifs at h
  exact (Fin.ext_iff.1 (Option.some.inj h)).symm

/-- A UNIT_STATUS that fails a condition of R123 (R123, R165). -/
theorem takeUnitStatus_ignores
    (h : f.payload.length ≠ 2 ∨ 15 < byteAt f.payload 0 ∨ (byteAt f.payload 1 ≠ 1 ∧ byteAt f.payload 1 ≠ 2)
      ∨ ∀ v : UnitNo, v.val = byteAt f.payload 0 → s.units[v].controller ≠ some f.sender) :
    s.takeUnitStatus f = s := by
  unfold State.takeUnitStatus
  split_ifs with hlen
  · rfl
  rcases h with h | h | ⟨h1, h2⟩ | h
  · exact absurd h hlen
  · rw [unitOf_eq_none h]
  · rw [reportedFanOf_eq_none h1 h2]
    cases unitOf (byteAt f.payload 0) <;> rfl
  · split
    next v fan hv _ => exact if_neg (h v (val_of_unitOf hv))
    · rfl

/-- Settles O7: each condition stops the frame before it reaches an entry or a unit. -/
theorem reportsForNoOwnerAreIgnored : Obligations.ReportsForNoOwnerAreIgnored := by
  intro s f rest ht
  refine ⟨fun hcode h => ?_, fun hcode h => ?_⟩
  · rw [exec_report_takes ht hcode, takeReport_ignores (s := { s with rx := rest }) h]
  · rw [exec_unitStatus_takes ht hcode, takeUnitStatus_ignores (s := { s with rx := rest }) h]

/-- Settles O8: the entry judges the sequence before it reads the value and the flag. -/
theorem duplicateReportIsIgnored : Obligations.DuplicateReportIsIgnored := by
  intro s f rest i e ht hcode hlen hi he hseq
  rw [exec_report_takeReading ht hcode hlen hi he]
  exact congrArg Host.Outcome.next (if_pos hseq)

/-! ### The settling tests and the Regime Monitor (R38) -/

/-- The store's queue and write, and the SEQUENCE_GAP bits, are as they were. -/
structure State.GapsKept (s t : State) : Prop where
  storeQueue : t.storeQueue = s.storeQueue
  writing : t.writing = s.writing
  gap : ∀ v : UnitNo, t.units[v].faults.sequenceGap = s.units[v].faults.sequenceGap

theorem State.GapsKept.refl (s : State) : s.GapsKept s := ⟨rfl, rfl, fun _ => rfl⟩

theorem State.GapsKept.trans (h : s.GapsKept t) (h' : t.GapsKept u) : s.GapsKept u :=
  ⟨h'.storeQueue.trans h.storeQueue, h'.writing.trans h.writing, fun v => (h'.gap v).trans (h.gap v)⟩

/-- Settling completion adds TRIP at most, and marks no item (R18). -/
theorem enterArmed_gapsKept (s : State) (i : Slot) : s.GapsKept (s.enterArmed i) := by
  have changed (t : State) (c : Coil) : t.GapsKept (t.changeCoil i c) := ⟨rfl, rfl, fun _ => rfl⟩
  have noticed (t : State) : t.GapsKept (t.setNotice i) := ⟨rfl, rfl, fun _ => rfl⟩
  have recomputed (t : State) (u : UnitNo) : t.GapsKept (t.recomputeFso u) := by
    refine ⟨rfl, rfl, fun v => ?_⟩
    rw [recomputeFso_units, tablePut_get]
    split_ifs with hv
    · rw [hv]
    · rfl
  have tripped (t : State) (u : UnitNo) : t.GapsKept (t.addFault u .trip) := by
    refine ⟨rfl, rfl, fun v => ?_⟩
    rw [addFault_unit]
    split_ifs <;> rfl
  unfold State.enterArmed
  dsimp only
  refine State.GapsKept.trans ?_ ((recomputed _ _).trans (noticed _))
  split_ifs
  · exact changed s _
  · exact (changed s _).trans (tripped _ _)

theorem settlingTests_gapsKept (s : State) (k : PointKey) : s.GapsKept (s.settlingTests k) :=
  forSlots_keeps_prop (P := s.GapsKept) (fun i t ht => by
    split_ifs
    · exact ht.trans (enterArmed_gapsKept t i)
    · exact ht) s (.refl s)

/-- What a report leaves that has been handed to the settling tests and the Regime Monitor. -/
theorem settled_monitored {k : PointKey} {a : Option Int} {r : Regime}
    (ht : t = { s.settlingTests k with average := a, regime := r }) :
    t.endEvent.points = s.points ∧ t.endEvent.apart = ({ s with average := a, regime := r } : State).apart ∧ s.GapsKept t.endEvent := by
  have hsettled := settlingTests_apart s k
  have hgaps := settlingTests_gapsKept s k
  generalize s.settlingTests k = x at ht hsettled hgaps
  have hapart : t.apart = ({ s with average := a, regime := r } : State).apart :=
    (congrArg State.apart ht).trans (congrArg (fun x : State => ({ x with average := a, regime := r } : State)) hsettled)
  have htx : x.GapsKept t := by
    rw [ht]
    exact ⟨rfl, rfl, fun _ => rfl⟩
  have hend : t.GapsKept t.endEvent := ⟨endEvent_storeQueue t, endEvent_writing t, fun v => by rw [endEvent_units]⟩
  have hxpoints := points_of_apart hsettled
  have hpoints : t.points = s.points := (congrArg State.points ht).trans hxpoints
  exact ⟨(endEvent_points t).trans hpoints, (endEvent_apart t).trans hapart, (hgaps.trans htx).trans hend⟩

/-- The Regime Monitor after a fault report (R56), by the fields that the settling tests leave. -/
theorem fallBack_monitored (h : t.apart = s.apart) (k : PointKey) : (if t.outdoor = some k then t.fallBack else t)
    = { t with average := s.average, regime := if s.outdoor = some k then .cold else s.regime } := by
  rw [← show t.outdoor = s.outdoor from field_of_apart State.outdoor h fun _ => rfl,
    ← show t.average = s.average from field_of_apart State.average h fun _ => rfl,
    ← show t.regime = s.regime from field_of_apart State.regime h fun _ => rfl]
  split_ifs <;> rfl

/-- The Regime Monitor after a good report (R54, R55), by the fields that the settling tests leave. -/
theorem outdoorReport_monitored (h : t.apart = s.apart) (k : PointKey) (x : Int) :
    (if t.outdoor = some k then t.outdoorReport x else t) =
      { t with
        average := if s.outdoor = some k then some (nextAverage s.average x) else s.average
        regime := if s.outdoor = some k then nextRegime s.regime (nextAverage s.average x) s.regimeOn s.regimeOff else s.regime } := by
  rw [← show t.outdoor = s.outdoor from field_of_apart State.outdoor h fun _ => rfl,
    ← show t.average = s.average from field_of_apart State.average h fun _ => rfl,
    ← show t.regime = s.regime from field_of_apart State.regime h fun _ => rfl,
    ← show t.regimeOn = s.regimeOn from field_of_apart State.regimeOn h fun _ => rfl,
    ← show t.regimeOff = s.regimeOff from field_of_apart State.regimeOff h fun _ => rfl]
  split_ifs <;> rfl

/-! ### Fault reports (R35) -/

theorem isFault_iff {r : Reading} : r.isFault = true ↔ r.faulty = true ∨ r.value < -400 ∨ 900 < r.value := by
  simp [Reading.isFault, or_assoc]

theorem takeReading_fault {r : Reading} (h : e.lastSeq ≠ some r.seq) (hf : r.isFault = true) :
    s.takeReading i e r = (s.takeFaultReport i e r).endEvent := by
  unfold State.takeReading
  rw [if_neg h, if_pos hf]

theorem takeReading_good {r : Reading} (h : e.lastSeq ≠ some r.seq) (hf : ¬ r.isFault = true) :
    s.takeReading i e r = (s.takeGoodReport i e r).endEvent := by
  unfold State.takeReading
  rw [if_neg h, if_neg hf]

/-- Settles O9: the entry is put, the settling tests and the monitor follow. -/
theorem faultReportMakesTheEntryFault : Obligations.FaultReportMakesTheEntryFault := by
  intro s f rest i e ht hcode hlen hi he hseq hfault
  let put : State := { s with rx := rest, points := tablePut s.points i (some (e.takeFault (readingOf f.payload))) }
  obtain ⟨hpoints, hapart, hq, hw, -⟩ :=
    settled_monitored (s := put) (fallBack_monitored (settlingTests_apart put e.key) e.key)
  refine ⟨_, exec_report_takeReading ht hcode hlen hi he, ?_⟩
  rw [takeReading_fault hseq (isFault_iff.2 hfault)]
  refine ⟨?_, fun j hj => ?_, ?_, hq, hw⟩
  · exact (congrArg (fun p : Table (Option PointEntry) 96 => p[i]) hpoints).trans (tablePut_get_same _ _ _)
  · exact (congrArg (fun p : Table (Option PointEntry) 96 => p[j]) hpoints).trans (tablePut_get_other _ _ hj)
  · exact hapart.trans (congrArg (fun p : Table (Option PointEntry) 96 =>
      ({ s with rx := rest, points := p, regime := if s.outdoor = some e.key then .cold else s.regime } : State).apart) hpoints.symm)

/-! ### Good reports (R36, R37) -/

/-- A sequence is out of step where a last sequence stands that it does not follow, modulo 256 (R36). -/
theorem inStep_eq (e : PointEntry) (seq : Byte) : e.inStep seq = !(e.lastSeq.any fun l => l + 1 != seq) := by
  unfold PointEntry.inStep
  cases e.lastSeq with
  | none => rfl
  | some l => exact (Bool.beq_comm ..).trans (Bool.not_not _).symm

theorem takeGood_eq (e : PointEntry) (r : Reading) : e.takeGood r =
    { e with
      held := some r.value, quality := .fresh, miss := 0, reported := true, lastSeq := some r.seq
      streak := if (e.lastSeq.any fun l => l + 1 != r.seq) then 1 else min 3 (e.streak + 1)
      gaps := if (e.lastSeq.any fun l => l + 1 != r.seq) then min 255 (e.gaps + 1) else e.gaps } := by
  unfold PointEntry.takeGood
  rw [inStep_eq]
  cases e.lastSeq.any fun l => l + 1 != r.seq <;> rfl

/-- A unit with a record that binds the point (R37). -/
theorem unitBinds_iff {k : PointKey} {v : UnitNo} : s.unitBinds k v = true ↔
    ∃ j : Slot, s.coils[j].unit = v ∧ s.coils[j].lifecycle ≠ .vacant
      ∧ (s.coils[j].lat.any (fun b => b.key == k) = true ∨ s.coils[j].ft.any (fun b => b.key == k) = true) := by
  have hmem (c : Coil) : c ∈ s.coils.toList ↔ ∃ j : Slot, s.coils[j] = c := by
    rw [Vector.mem_toList_iff, Vector.mem_iff_getElem]
    exact ⟨fun ⟨j, h, e⟩ => ⟨⟨j, h⟩, e⟩, fun ⟨j, e⟩ => ⟨j.val, j.isLt, e⟩⟩
  unfold State.unitBinds Coil.binds
  simp only [List.any_eq_true, hmem, Bool.and_eq_true, Bool.or_eq_true, beq_iff_eq, bne_iff_ne]
  exact ⟨fun ⟨_, ⟨j, hj⟩, h⟩ => ⟨j, hj ▸ h⟩, fun ⟨j, h⟩ => ⟨_, ⟨j, rfl⟩, h⟩⟩

/-- A gap reaches the fault summaries of the units it names, and nothing else (R37). -/
theorem addFaultWhere_gap (s : State) (q : UnitNo → Bool) : ∃ units, s.addFaultWhere .sequenceGap q = { s with units := units }
    ∧ ∀ v : UnitNo, units[v].faults.sequenceGap = (s.units[v].faults.sequenceGap || q v) := by
  refine ⟨(s.addFaultWhere .sequenceGap q).units, ?_, fun v => ?_⟩
  · refine forUnits_keeps_prop (P := fun t => t = { s with units := t.units }) (fun v t ht => ?_) s rfl
    split_ifs
    · exact congrArg (fun x : State => x.addFault v .sequenceGap) ht
    · exact ht
  · have hv := forUnits_units (P := fun _ => True) (s := s)
      (f := fun u t => if q u then t.addFault u .sequenceGap else t)
      (g := fun u e => if q u then { e with faults := e.faults.add .sequenceGap } else e)
      (fun _ _ _ => trivial) (fun u t _ w => ?_) trivial v
    · rw [State.addFaultWhere, hv]
      cases q v with
      | true => simp [FaultSummary.add]
      | false => simp
    · have hadd := addFault_unit t u w .sequenceGap
      by_cases hw : w = u
      · subst hw
        rw [if_pos rfl]
        cases q w with
        | true => exact hadd.trans (if_pos rfl)
        | false => rfl
      · rw [if_neg hw]
        cases q u with
        | true => exact hadd.trans (if_neg hw)
        | false => rfl

/-- What a good report makes of the state, once its entry stands: the gap, the settling tests and the monitor (R37, R38, R54). -/
theorem takeGoodReport_monitored (s : State) (i : Fin 96) (e : PointEntry) (r : Reading) :
    let t := (s.takeGoodReport i e r).endEvent
    let points := tablePut s.points i (some (e.takeGood r))
    t.points = points
    ∧ t.apart = ({ s with
        points := points
        average := if s.outdoor = some e.key then some (nextAverage s.average r.value) else s.average
        regime :=
          if s.outdoor = some e.key then nextRegime s.regime (nextAverage s.average r.value) s.regimeOn s.regimeOff
          else s.regime } : State).apart
    ∧ t.storeQueue = s.storeQueue ∧ t.writing = s.writing
    ∧ ∀ v : UnitNo, t.units[v].faults.sequenceGap =
        (s.units[v].faults.sequenceGap || (!e.inStep r.seq && s.unitBinds e.key v)) := by
  intro t points
  let put : State := { s with points := points }
  have hgap : ∃ units,
      (if e.inStep r.seq then put else put.addFaultWhere .sequenceGap (put.unitBinds e.key)) = { put with units := units }
      ∧ ∀ v : UnitNo, units[v].faults.sequenceGap =
        (put.units[v].faults.sequenceGap || (!e.inStep r.seq && put.unitBinds e.key v)) := by
    cases e.inStep r.seq with
    | true => exact ⟨put.units, rfl, fun v => (Bool.or_false _).symm⟩
    | false => exact addFaultWhere_gap put (put.unitBinds e.key)
  obtain ⟨units, hput, hunits⟩ := hgap
  obtain ⟨hpoints, hapart, hq, hw, hgaps⟩ := settled_monitored (s := { put with units := units })
    (outdoorReport_monitored (settlingTests_apart { put with units := units } e.key) e.key r.value)
  have ht : t = State.endEvent (if (({ put with units := units } : State).settlingTests e.key).outdoor = some e.key then
      (({ put with units := units } : State).settlingTests e.key).outdoorReport r.value
    else ({ put with units := units } : State).settlingTests e.key) := by
    rw [← hput]
    rfl
  rw [ht]
  exact ⟨hpoints, hapart, hq, hw, fun v => (hgaps v).trans (hunits v)⟩

/-- Settles O10: the entry is put, the gap is added, and the settling tests and the monitor follow. -/
theorem goodReportUpdatesTheEntry : Obligations.GoodReportUpdatesTheEntry := by
  intro s f rest i e ht hcode hlen hi he seq v hseq hgood hlow hhigh gap average
  have hfault : ¬ (readingOf f.payload).isFault = true := by
    rw [isFault_iff]
    rintro (h | h | h)
    · exact absurd (h.symm.trans hgood) (by decide)
    · exact absurd hlow (not_le.2 h)
    · exact absurd hhigh (not_le.2 h)
  obtain ⟨hpoints, hapart, hq, hw, hgaps⟩ := takeGoodReport_monitored { s with rx := rest } i e (readingOf f.payload)
  refine ⟨_, exec_report_takeReading ht hcode hlen hi he, ?_⟩
  rw [takeReading_good hseq hfault]
  refine ⟨?_, fun j hj => ?_, fun u => ?_, ?_, hq, hw⟩
  · exact ((congrArg (fun p : Table (Option PointEntry) 96 => p[i]) hpoints).trans (tablePut_get_same _ _ _)).trans
      (congrArg some (takeGood_eq e _))
  · exact (congrArg (fun p : Table (Option PointEntry) 96 => p[j]) hpoints).trans (tablePut_get_other _ _ hj)
  · rw [hgaps u, inStep_eq, Bool.not_not, Bool.or_eq_true, Bool.and_eq_true, unitBinds_iff]
    exact .rfl
  · exact hapart.trans (congrArg (fun p : Table (Option PointEntry) 96 =>
      ({ s with
        rx := rest, points := p
        average := if s.outdoor = some e.key then some (nextAverage s.average v) else s.average
        regime :=
          if s.outdoor = some e.key then nextRegime s.regime (nextAverage s.average v) s.regimeOn s.regimeOff
          else s.regime } : State).apart) hpoints.symm)

/-! ### QUERY_POINT (R32, R183) -/

/-- A key in its ranges that an entry holds is answered with the entry's fields. -/
theorem queryPointOwner_entry (h : 1 ≤ byteAt f.payload 0 ∧ byteAt f.payload 0 ≤ 223 ∧ byteAt f.payload 1 ≤ 63)
    (hi : indexOf s.points ⟨byteAt f.payload 0, byteAt f.payload 1⟩ = some i) (he : s.points[i] = some e) :
    queryPointOwner f s = (s, some (.done (pointView i e))) := by
  have hk : PointKey.inRange ⟨byteAt f.payload 0, byteAt f.payload 1⟩ = true := by
    simp only [PointKey.inRange, Bool.and_eq_true, decide_eq_true_eq, isStation_iff]
    exact ⟨⟨h.1, h.2.1⟩, h.2.2⟩
  unfold queryPointOwner
  dsimp only
  rw [hk, hi]
  dsimp only
  rw [he]
  rfl

/-- Settles O14: the key is in its ranges, and its entry gives the data. -/
theorem queryPointReportsTheEntry : Obligations.QueryPointReportsTheEntry := by
  intro s f rest i e ht h1 h223 h63 hi he
  exact takeRequest_done ht (queryPointOwner_entry (s := { s with rx := rest }) ⟨h1, h223, h63⟩ hi he)

end Sys2Proof.Machine
end

