-- ==== Sys2Proof/Proofs/Completions.lean ====
section
/-! The completions of the frames that are no ACTION frames (R47, R160, R166, R167, R173, R174), and the end of the poll period
(R41 to R46, R56, R57). -/

namespace Sys2Proof.Machine

variable {s t : State} {l : LineFrame} {src : Source} {effect : State → State}

/-! ### The line -/

/-- A frame of the source leaves the line, and takes its effect (R166). -/
theorem completeLine_takes (h : s.line = some l) (hsrc : l.source = src) (ho : l.orphan = false) :
    s.completeLine src effect = effect s.offLine := by
  unfold State.completeLine
  rw [h]
  dsimp only
  rw [if_neg (not_not.2 hsrc), if_neg (by rw [ho]; exact Bool.false_ne_true)]

/-- An orphaned frame only leaves the line (log 21). -/
theorem completeLine_orphan (h : s.line = some l) (hsrc : l.source = src) (ho : l.orphan = true) :
    s.completeLine src effect = s.offLine := by
  unfold State.completeLine
  rw [h]
  dsimp only
  rw [if_neg (not_not.2 hsrc), if_pos ho]

/-- No frame of the source is on the line (log 2). -/
theorem completeLine_stays (h : ∀ l, s.line = some l → l.source ≠ src) : s.completeLine src effect = s := by
  unfold State.completeLine
  split
  · rfl
  next l hl => exact if_pos (h l hl)

/-! ### The sources -/

/-- The polled flag that a completed POLL sets on its entry, if that still exists (R47). -/
theorem markPolled_eq (s : State) (o : Option (Fin 96)) {points : Table (Option PointEntry) 96}
    (h : ∀ j : Fin 96, points[j] = if o = some j then s.points[j].map fun e => { e with polled := true } else s.points[j]) :
    s.markPolled o = { s with points := points } := by
  cases o with
  | none =>
    have hp : points = s.points := table_ext fun j => (h j).trans (if_neg (Option.some_ne_none j).symm)
    rw [hp]
    rfl
  | some i =>
    have hp : points = tablePut s.points i (s.points[i].map fun e => { e with polled := true }) := by
      refine table_ext fun j => ?_
      rw [h j, tablePut_get]
      by_cases hj : j = i
      · rw [if_pos hj, hj, if_pos rfl]
      · rw [if_neg hj, if_neg fun he => hj (Option.some.inj he).symm]
    rw [hp]
    rfl

/-- The place of a completed answer goes to the oldest deferred one (R167). -/
theorem freeAnswer_nil (h : s.deferred = []) : s.freeAnswer = { s with answers := s.answers.tail } := by
  unfold State.freeAnswer
  rw [h]

theorem freeAnswer_cons {d : Answer} {ds : List Answer} (h : s.deferred = d :: ds) :
    s.freeAnswer = { s with answers := s.answers.tail ++ [d], deferred := ds } := by
  unfold State.freeAnswer
  rw [h]

theorem completePoll_eq {p : PollOffer} {points : Table (Option PointEntry) 96} (hp : s.poll = some p)
    (h : ∀ j : Fin 96, points[j] =
      if p.entry = some j then s.points[j].map fun e => { e with polled := true } else s.points[j]) :
    s.completePoll = ({ s with poll := none, backlog := s.backlog - 1, points := points } : State).choosePoll := by
  unfold State.completePoll
  rw [hp]
  exact congrArg State.choosePoll (markPolled_eq { s with backlog := s.backlog - 1, poll := none } p.entry h)

theorem tablePut_self {α : Type} {n : Nat} (x : Table α n) (i : Fin n) : tablePut x i x[i] = x := by
  refine table_ext fun j => ?_
  rw [tablePut_get]
  split_ifs with hj
  · rw [hj]
  · rfl

/-- A completed notice clears its flag unless it was set again since the build (R173). -/
theorem completeNotice_eq {n : NoticeOffer} (hn : s.notice = some n) : s.completeNotice =
    ({ s with
      notice := none
      noticeFlags := tablePut s.noticeFlags n.slot (n.setAgain && s.noticeFlags[n.slot]) } : State).chooseNotice := by
  have hflags : (if n.setAgain then s.noticeFlags else tablePut s.noticeFlags n.slot false)
      = tablePut s.noticeFlags n.slot (n.setAgain && s.noticeFlags[n.slot]) := by
    cases n.setAgain with
    | true => exact (tablePut_self _ _).symm
    | false => rfl
  unfold State.completeNotice
  rw [hn]
  dsimp only
  rw [hflags]

/-- Settles O43: the frame leaves the line, and its source takes the effect of the completion. -/
theorem completedFramesLeaveTheirSources : Obligations.CompletedFramesLeaveTheirSources := by
  intro s fr ack free completes
  have next {s t : State} (h : s = t) : (Host.Outcome.next s : Step) = .next t := congrArg _ h
  refine ⟨fun src hl => ?_, fun src hl => ?_, fun p points hl hp hpoints => ?_, fun a rest hl ha => ?_, fun n hl hn => ?_⟩
  · refine ⟨fun h => next ?_, fun h => next ?_, fun h => next ?_⟩ <;> exact completeLine_orphan hl h rfl
  · refine ⟨fun h => next ?_, fun h => next ?_, fun h => next ?_⟩ <;> subst h <;> exact completeLine_stays hl
  · exact next ((completeLine_takes hl rfl rfl).trans (completePoll_eq (s := s.offLine) hp hpoints))
  · have htail : s.answers.tail = rest := by rw [ha]; rfl
    refine ⟨fun hd => next ((completeLine_takes hl rfl rfl).trans ((freeAnswer_nil (s := s.offLine) hd).trans ?_)),
      fun d ds hd => next ((completeLine_takes hl rfl rfl).trans ((freeAnswer_cons (s := s.offLine) hd).trans ?_))⟩
    · rw [offLine_answers, htail]
      rfl
    · rw [offLine_answers, htail]
      rfl
  · exact next ((completeLine_takes hl rfl rfl).trans (completeNotice_eq (s := s.offLine) hn))

/-! ### The poll period -/

/-- The miss account of an entry at the end of the period (R42). -/
theorem endPeriod_eq (e : PointEntry) : e.endPeriod =
    if e.reported = true then { e with reported := false, polled := false }
    else
      { e with
        miss := min 3 (e.miss + 1)
        quality :=
          if e.quality = .fault then .fault
          else if 2 ≤ e.miss then .lost
          else if e.quality = .fresh ∨ e.quality = .stale then .stale
          else e.quality
        reported := false, polled := false } := by
  have hmiss : (min 3 (e.miss + 1) = 3) = (2 ≤ e.miss) := by
    apply propext
    omega
  have hquality : missedQuality e.quality (min 3 (e.miss + 1)) =
      if e.quality = .fault then .fault
      else if 2 ≤ e.miss then .lost
      else if e.quality = .fresh ∨ e.quality = .stale then .stale
      else e.quality := by
    cases e.quality <;> simp [missedQuality, hmiss]
  unfold PointEntry.endPeriod
  rw [hquality]

/-- The expiry takes the outdoor entry to LOST, where it was not (R42, R56). -/
theorem outdoorGoesLost_iff (s : State) : s.outdoorGoesLost = true ↔
    ∃ k e, s.outdoor = some k ∧ entryOf s.points k = some e ∧ e.quality ≠ .lost ∧ e.endPeriod.quality = .lost := by
  unfold State.outdoorGoesLost
  simp only [Option.any_eq_true, Bool.and_eq_true, bne_iff_ne, beq_iff_eq]
  exact ⟨fun ⟨k, hk, e, he, h⟩ => ⟨k, e, hk, he, h⟩, fun ⟨k, e, hk, he, h⟩ => ⟨k, hk, e, he, h⟩⟩

/-- The poll period's expiry, by what its three parts leave before the engine chooses (R42, R43, R46). -/
theorem periodExpired_eq (s : State) : s.periodExpired =
    (({ s with
      poll := if s.pollOnLine then s.poll else none
      points := tableMap (fun o => o.map PointEntry.endPeriod) s.points
      regime := if s.outdoorGoesLost then .cold else s.regime
      backlog := min 3 (s.backlog + 1) } : State).choosePoll).startPeriod := by
  have hwithdraw : s.withdrawPoll = { s with poll := if s.pollOnLine then s.poll else none } := by
    unfold State.withdrawPoll
    split_ifs <;> rfl
  unfold State.periodExpired State.endMissPeriod
  rw [hwithdraw]
  dsimp only
  change (State.choosePoll { (if s.outdoorGoesLost = true then _ else _ : State) with backlog := _ }).startPeriod = _
  split_ifs <;> rfl

/-- The next period has the length of the regime that the expiry left (R41, R57). -/
theorem startPeriod_choosePoll (s : State) : s.choosePoll.startPeriod =
    { s.choosePoll with pollPeriod := periodOf s.regime, pollTimer := some (s.now + periodOf s.regime) } := by
  obtain ⟨poll, backlog, he, -⟩ := choosePoll_fields s
  rw [he]
  rfl

theorem periodOf_eq (r : Regime) : periodOf r = if r = .cold then 10000 else 60000 := by cases r <;> rfl

/-- Settles O50: the expiry's parts, and the choice of the engine after them. -/
theorem pollPeriodEnds : Obligations.PollPeriodEnds := by
  intro s due
  refine ⟨fun h => congrArg Host.Outcome.next (expire_none h _), fun h => ?_⟩
  intro after outdoorLost regime length points hpoints
  have hafter : after = PointEntry.endPeriod := funext fun e => (endPeriod_eq e).symm
  have htable : points = tableMap (fun o => o.map PointEntry.endPeriod) s.points :=
    table_ext fun i => by rw [hpoints i, hafter, tableMap_get]
  have hlost : outdoorLost ↔ s.outdoorGoesLost = true := by
    rw [outdoorGoesLost_iff, ← hafter]
  have hregime : regime = if s.outdoorGoesLost then .cold else s.regime := by
    by_cases hl : outdoorLost
    · exact (if_pos hl).trans (if_pos (hlost.1 hl)).symm
    · exact (if_neg hl).trans (if_neg fun h => hl (hlost.2 h)).symm
  have hpoll : (if ∃ l, s.line = some l ∧ l.source = .poll ∧ l.orphan = false then s.poll else none)
      = if s.pollOnLine then s.poll else none := if_congr pollOnLine_iff.symm rfl rfl
  refine congrArg Host.Outcome.next ((expire_some h _).trans ?_)
  rw [hpoll, htable, show length = periodOf regime from (periodOf_eq regime).symm, hregime]
  rw [periodExpired_eq, startPeriod_choosePoll]
  rfl

end Sys2Proof.Machine
end

