-- ==== Sys2Proof/Proofs/PartSettings.lean ====
section
/-! PART_SET (R31, R52, R53): its refusals in their order, and the settings, the references and the mark that it makes. -/

namespace Sys2Proof.Machine

variable {s t : State} {f : RxFrame} {rest : List RxFrame}

/-! ### What a reference change reads (R49) -/

/-- The frame off the queue and the thresholds are nothing to the engine. -/
theorem choosePoll_settings (s : State) (rx : List RxFrame) (on off : Int) :
    ({ s with rx := rx, regimeOn := on, regimeOff := off } : State).choosePoll =
      { s.choosePoll with rx := rx, regimeOn := on, regimeOff := off } := by
  unfold State.choosePoll
  dsimp only
  split_ifs
  · rfl
  · cases chooseCandidate s.points <;> rfl

/-- The frame off the queue and the thresholds are nothing to a reference change. -/
theorem changeRefs_settings (s : State) (rx : List RxFrame) (on off : Int) (ch : RefChange) :
    ({ s with rx := rx, regimeOn := on, regimeOff := off } : State).changeRefs ch =
      { s.changeRefs ch with rx := rx, regimeOn := on, regimeOff := off } := by
  have hline : ({ s with rx := rx, regimeOn := on, regimeOff := off, points := ch.apply s.points } : State).pollOnLine
      = ({ s with points := ch.apply s.points } : State).pollOnLine := rfl
  unfold State.changeRefs State.pollEntryRemoved
  dsimp only
  rw [hline]
  split_ifs
  · rfl
  · exact choosePoll_settings { s with points := ch.apply s.points, poll := none } rx on off
  · rfl

/-! ### PART_SET (R52, R53) -/

theorem thresholdInRange_iff {x : Int} : thresholdInRange x = true ↔ -300 ≤ x ∧ x ≤ 300 := by simp [thresholdInRange]

/-- The ranges of R52: both thresholds, and a key where one is given. -/
theorem partSet_inRange_iff {p : List Byte} :
    (thresholdInRange (int16At p 2) && thresholdInRange (int16At p 4) && (outdoorField p).all PointKey.inRange) = true ↔
      -300 ≤ int16At p 2 ∧ int16At p 2 ≤ 300 ∧ -300 ≤ int16At p 4 ∧ int16At p 4 ≤ 300
        ∧ (byteAt p 0 ≠ 0 → byteAt p 0 ≤ 223 ∧ byteAt p 1 ≤ 63) := by
  have hkey : (outdoorField p).all PointKey.inRange = true ↔ (byteAt p 0 ≠ 0 → byteAt p 0 ≤ 223 ∧ byteAt p 1 ≤ 63) := by
    unfold outdoorField
    split_ifs with h0
    · exact ⟨fun _ h => absurd h0 h, fun _ => rfl⟩
    · simp only [Option.all_some, PointKey.inRange, Bool.and_eq_true, isStation_iff, decide_eq_true_eq]
      exact ⟨fun h _ => ⟨h.1.2, h.2⟩, fun h => ⟨⟨Nat.pos_of_ne_zero h0, (h h0).1⟩, (h h0).2⟩⟩
  rw [Bool.and_eq_true, Bool.and_eq_true, hkey, thresholdInRange_iff, thresholdInRange_iff]
  exact ⟨fun ⟨⟨⟨a, b⟩, c, d⟩, e⟩ => ⟨a, b, c, d, e⟩, fun ⟨a, b, c, d, e⟩ => ⟨⟨⟨a, b⟩, c, d⟩, e⟩⟩

theorem not_eq_true_iff {b : Bool} {p : Prop} (h : b = true ↔ p) : (!b) = true ↔ ¬ p := by
  rw [Bool.not_eq_true', Bool.eq_false_iff, ne_eq, h]

/-- A supervisor's PART_SET is judged on its ranges, its thresholds and its references, in this order (R52). -/
theorem partSetOwner_judged (hs : s.Supervisor f.sender) : partSetOwner f s =
    if !(thresholdInRange (int16At f.payload 2) && thresholdInRange (int16At f.payload 4)
        && (outdoorField f.payload).all PointKey.inRange) then refuse s .outOfRange
    else if int16At f.payload 4 ≤ int16At f.payload 2 then refuse s .inconsistent
    else if !(s.outdoorChange (outdoorField f.payload)).fits s.points then refuse s .pointTableFull
    else (s.setPart (outdoorField f.payload) (int16At f.payload 2) (int16At f.payload 4), some (.done [])) :=
  if_neg (isSupervisor_passes hs)

theorem setPart_same {k : Option PointKey} (h : s.outdoor = k) (on off : Int) :
    s.setPart k on off = ({ s with regimeOn := on, regimeOff := off } : State).markDirty .settings :=
  congrArg (State.markDirty · .settings) (if_pos h)

theorem setPart_rebinds {k : Option PointKey} (h : s.outdoor ≠ k) (rx : List RxFrame) (on off : Int) :
    ({ s with rx := rx } : State).setPart k on off =
      ({ s.changeRefs ⟨s.outdoor.toList, k.toList⟩ with
        rx := rx, outdoor := k, average := none, regime := .cold, regimeOn := on, regimeOff := off } : State).markDirty .settings :=
  congrArg (State.markDirty · .settings) ((if_neg h).trans
    (congrArg (fun x : State => ({ x with outdoor := k, average := none, regime := .cold } : State))
      (changeRefs_settings s rx on off ⟨s.outdoor.toList, k.toList⟩)))

/-- A mark that a request makes stays with the frame off the queue. -/
theorem markDirty_replied (s : State) (f : RxFrame) (rest : List RxFrame) (it : Item) :
    (({ s with rx := rest } : State).markDirty it).pushAnswer (f.answer (.done [])) = (s.markDirty it).replied f rest .done [] := by
  rw [markDirty_rx]
  rfl

/-- Settles O35: the owner's checks in their order, and the changes of a PART_SET that passes them. -/
theorem partSetReplacesTheSettings : Obligations.PartSetReplacesTheSettings := by
  intro s f rest ht key on off inRange change fits
  let t : State := { s with rx := rest }
  have hfits : (t.outdoorChange key).fits t.points = true ↔ fits := fits_iff
  refine ⟨fun hs => ?_, fun hs hr => ?_, fun hs hr hc => ?_, fun hs hr hc hf => ?_, fun hs hr hc hf => ?_⟩
  · exact takeRequest_refuses ht (if_pos (not_isSupervisor (s := t) hs))
  · exact takeRequest_refuses ht
      ((partSetOwner_judged (s := t) hs).trans (if_pos ((not_eq_true_iff partSet_inRange_iff).2 hr)))
  · exact takeRequest_refuses ht ((partSetOwner_judged (s := t) hs).trans
      ((if_neg fun h => (not_eq_true_iff partSet_inRange_iff).1 h hr).trans (if_pos hc)))
  · exact takeRequest_refuses ht ((partSetOwner_judged (s := t) hs).trans
      ((if_neg fun h => (not_eq_true_iff partSet_inRange_iff).1 h hr).trans ((if_neg (not_le.2 hc)).trans
        (if_pos ((not_eq_true_iff hfits).2 hf)))))
  · have howner : partSetOwner f t = (t.setPart key on off, some (.done [])) :=
      (partSetOwner_judged (s := t) hs).trans
        ((if_neg fun h => (not_eq_true_iff partSet_inRange_iff).1 h hr).trans ((if_neg (not_le.2 hc)).trans
          (if_neg fun h => (not_eq_true_iff hfits).1 h hf)))
    have hexec : exec .partSet s = .next ((t.setPart key on off).pushAnswer (f.answer (.done []))) :=
      congrArg Host.Outcome.next (takeRequest_answers ht howner)
    refine ⟨fun ho => hexec.trans (congrArg Host.Outcome.next ?_), fun ho => hexec.trans (congrArg Host.Outcome.next ?_)⟩
    · rw [setPart_same (s := t) ho]
      exact markDirty_replied { s with regimeOn := on, regimeOff := off } f rest .settings
    · rw [setPart_rebinds ho]
      exact markDirty_replied
        { s.changeRefs change with outdoor := key, average := none, regime := .cold, regimeOn := on, regimeOff := off } f rest .settings

end Sys2Proof.Machine
end

