-- ==== Sys2Proof/Proofs/Commits.lean ====
section
/-! COMMIT (R31, R49, R100, R147 to R152): its refusals in their order, and what one that passes its checks leaves. -/

namespace Sys2Proof.Machine

variable {s t : State} {f : RxFrame} {rest : List RxFrame} {n : ClaimNo} {c : Claim}

/-! ### What a commit leaves (R152) -/

section
variable (s : State) (n : ClaimNo) (c : Claim) (new : Coil) (clamped : Bool)

theorem commit_points : (s.commit n c new clamped).points = (s.changeRefs (bindingChange s.coils[c.slot] new)).points := by
  simp [State.commit]

theorem endEvent_poll : s.endEvent.poll = s.poll := by rw [endEvent_eq]

theorem markDirty_poll (it : Item) : (s.markDirty it).poll = s.poll := by rw [markDirty_eq]

theorem changeMapRefs_poll (old : Coil) : (s.changeMapRefs old new).poll = s.poll := by rw [changeMapRefs_eq]

theorem commit_poll : (s.commit n c new clamped).poll = (s.changeRefs (bindingChange s.coils[c.slot] new)).poll := by
  unfold State.commit
  rw [endEvent_poll, markDirty_poll]
  exact changeMapRefs_poll _ _ _

theorem commit_backlog : (s.commit n c new clamped).backlog = (s.changeRefs (bindingChange s.coils[c.slot] new)).backlog := by
  simp [State.commit]

theorem commit_claims : (s.commit n c new clamped).claims =
    tablePut s.claims n (some { c with timer := none, state := .committed clamped }) := by
  simp [State.commit]

theorem commit_units : (s.commit n c new clamped).units = s.units := by
  simp [State.commit]

theorem commit_noticeFlags : (s.commit n c new clamped).noticeFlags = s.noticeFlags := by
  simp [State.commit]

theorem commit_store :
    (s.commit n c new clamped).storeQueue = (s.markDirty (.coil c.slot)).storeQueue
      ∧ (s.commit n c new clamped).writing = (s.markDirty (.coil c.slot)).writing := by
  unfold State.commit
  rw [endEvent_storeQueue, endEvent_writing]
  refine markDirty_congr ?_ ?_ _
  · simp
  · simp

theorem changeMapRefs_apart (old : Coil) : (s.changeMapRefs old new).apart = s.apart := by
  unfold State.changeMapRefs
  split_ifs <;> rfl

/-- The fields that a commit leaves alone. -/
theorem commit_apart : (s.commit n c new clamped).apart =
    ({ s with
      points := (s.commit n c new clamped).points, claims := (s.commit n c new clamped).claims
      poll := (s.commit n c new clamped).poll, backlog := (s.commit n c new clamped).backlog } : State).apart := by
  rw [commit_points, commit_claims, commit_poll, commit_backlog, State.commit, endEvent_apart, markDirty_apart]
  have hx : ((s.changeRefs (bindingChange s.coils[c.slot] new)).changeMapRefs s.coils[c.slot] new).apart =
      ({ s with
        points := (s.changeRefs (bindingChange s.coils[c.slot] new)).points
        poll := (s.changeRefs (bindingChange s.coils[c.slot] new)).poll
        backlog := (s.changeRefs (bindingChange s.coils[c.slot] new)).backlog } : State).apart := by
    rw [changeRefs_points]
    exact (changeMapRefs_apart _ _ _).trans (congrArg State.apart (changeRefs_eq s _))
  generalize (s.changeRefs (bindingChange s.coils[c.slot] new)).changeMapRefs s.coils[c.slot] new = x at hx
  exact congrArg (fun y : State => ({ y with
    claims := tablePut y.claims n (some { c with timer := none, state := .committed clamped }) } : State)) hx

end

/-! ### The checks of a commit (R148 to R151) -/

/-- The record that a commit gives the slot. -/
def State.committed (s : State) (c : Claim) : Coil := (c.staging.clamped.over s.coils[c.slot]).into s.coils[c.slot]

/-- A permitted COMMIT of an open claim is judged on the claim. -/
theorem commitOwner_judged (hc : s.claimOf f.sender = some (n, c)) (hp : s.Permitted f.sender c.slot) (ho : c.state = .opened) :
    commitOwner f s = s.tryCommit n c := by
  have hopen : c.isCommitted = false := by
    unfold Claim.isCommitted
    rw [ho]
  exact withClaim_passes hc ((mayEdit_iff _ _ _).2 hp) hopen _

theorem holdsReferences_iff {c : Coil} : c.holdsReferences = true ↔ c.lifecycle = .settling ∨ c.lifecycle = .armed := by
  simp [Coil.holdsReferences]

/-- The map change of a commit that stages a map for a record that holds references finds room (R100, R151). -/
def State.PairsFit (s : State) (c : Claim) : Prop :=
  (s.coils[c.slot].lifecycle = .settling ∨ s.coils[c.slot].lifecycle = .armed) → c.staging.clamped.map.isSome = true →
    s.RoomForPairs (s.lostPairs s.coils[c.slot] (s.committed c)) (s.gainedPairs s.coils[c.slot] (s.committed c))

theorem not_pairsFit_iff {s : State} {c : Claim} :
    (s.coils[c.slot].holdsReferences && c.staging.clamped.map.isSome && !s.mapFits s.coils[c.slot] (s.committed c)) = true ↔
      ¬ s.PairsFit c := by
  rw [Bool.and_eq_true, Bool.and_eq_true, holdsReferences_iff, not_eq_true_iff mapFits_iff]
  unfold State.PairsFit
  tauto

open scoped Classical in
/-- The checks of a commit in their order, as the spec's conditions say them (R148 to R151). -/
theorem tryCommit_eq (s : State) (n : ClaimNo) (c : Claim) : s.tryCommit n c =
    if ¬ (c.staging.clamped.over s.coils[c.slot]).WithinRanges then refuse s .outOfRange
    else if ¬ (c.staging.clamped.over s.coils[c.slot]).DosesOrdered then refuse s .inconsistent
    else if ¬ c.staging.clamped.CompleteFor s.coils[c.slot] then refuse s .incomplete
    else if ¬ c.staging.clamped.GateOpen s.coils[c.slot] then refuse s .stageBusy
    else if ¬ s.RoomForPoints s.coils[c.slot].keys (s.committed c).keys then refuse s .pointTableFull
    else if ¬ s.PairsFit c then refuse s .demandTableFull
    else (s.commit n c (s.committed c) (c.staging.clamped != c.staging), none) := by
  have hincomplete : c.staging.clamped.incompleteFor s.coils[c.slot] = true ↔ ¬ c.staging.clamped.CompleteFor s.coils[c.slot] := by
    rw [← incompleteFor_iff, Bool.not_eq_false]
  exact if_congr (not_eq_true_iff candidate_inRange_iff) rfl (if_congr (not_eq_true_iff dose_consistent_iff) rfl
    (if_congr hincomplete rfl (if_congr (not_eq_true_iff passesGate_iff) rfl (if_congr (not_eq_true_iff fits_iff) rfl
      (if_congr not_pairsFit_iff rfl rfl)))))

/-- Settles O32: the checks in their order. -/
theorem commitIsRefusedInOrder : Obligations.CommitIsRefusedInOrder := by
  intro s f rest n c ht hc hp ho old st cd new refused lost gained inRange consistent complete gate pointsFit pairsFit
  have refuses {r : Result} (h : ({ s with rx := rest } : State).tryCommit n c = refuse { s with rx := rest } r) : refused r :=
    takeRequest_refuses ht ((commitOwner_judged (s := { s with rx := rest }) hc hp ho).trans h)
  have hchecks := tryCommit_eq { s with rx := rest } n c
  refine ⟨fun h1 => refuses ?_, fun h1 h2 => refuses ?_, fun h1 h2 h3 => refuses ?_, fun h1 h2 h3 h4 => refuses ?_,
    fun h1 h2 h3 h4 h5 => refuses ?_, fun h1 h2 h3 h4 h5 h6 => refuses ?_⟩
  · exact hchecks.trans (if_pos h1)
  · exact hchecks.trans ((if_neg (not_not.2 h1)).trans (if_pos h2))
  · exact hchecks.trans ((if_neg (not_not.2 h1)).trans ((if_neg (not_not.2 h2)).trans (if_pos h3)))
  · exact hchecks.trans ((if_neg (not_not.2 h1)).trans ((if_neg (not_not.2 h2)).trans ((if_neg (not_not.2 h3)).trans (if_pos h4))))
  · exact hchecks.trans ((if_neg (not_not.2 h1)).trans ((if_neg (not_not.2 h2)).trans ((if_neg (not_not.2 h3)).trans
      ((if_neg (not_not.2 h4)).trans (if_pos h5)))))
  · exact hchecks.trans ((if_neg (not_not.2 h1)).trans ((if_neg (not_not.2 h2)).trans ((if_neg (not_not.2 h3)).trans
      ((if_neg (not_not.2 h4)).trans ((if_neg (not_not.2 h5)).trans (if_pos h6))))))

/-- Settles O30: a COMMIT that passes its checks makes the changes of `State.commit`. -/
theorem commitTakesTheCandidate : Obligations.CommitTakesTheCandidate := by
  intro s f rest n c ht hc hp ho old st cd new lost gained moved h1 h2 h3 h4 h5 h6
  let t : State := { s with rx := rest }
  have hcommit : t.tryCommit n c = (t.commit n c new (st != c.staging), none) :=
    (tryCommit_eq t n c).trans ((if_neg (not_not.2 h1)).trans ((if_neg (not_not.2 h2)).trans ((if_neg (not_not.2 h3)).trans
      ((if_neg (not_not.2 h4)).trans ((if_neg (not_not.2 h5)).trans (if_neg (not_not.2 h6)))))))
  have hexec : exec .commit s = .next (t.commit n c new (st != c.staging)) :=
    congrArg Host.Outcome.next (takeRequest_defers ht ((commitOwner_judged (s := t) hc hp ho).trans hcommit))
  have hmoved : t.changeRefs ⟨old.keys, new.keys⟩ =
      { moved with rx := rest, regimeOn := s.regimeOn, regimeOff := s.regimeOff } :=
    changeRefs_settings s rest s.regimeOn s.regimeOff ⟨old.keys, new.keys⟩
  have hflag : (st != c.staging) = decide (st ≠ c.staging) := by
    rw [Bool.eq_iff_iff, bne_iff_ne, decide_eq_true_eq]
  have hstore := commit_store t n c new (st != c.staging)
  have hmark := markDirty_congr (t := t) (s := s) rfl rfl (.coil c.slot)
  refine ⟨_, hexec, commit_coils _ _ _ _ _, ?_, ?_, ?_, commit_demands _ _ _ _ _, ?_, hstore.1.trans hmark.1, hstore.2.trans hmark.2,
    commit_noticeFlags _ _ _ _ _, commit_units _ _ _ _ _, commit_apart _ _ _ _ _⟩
  · refine (commit_points _ _ _ _ _).trans ?_
    change (t.changeRefs ⟨old.keys, new.keys⟩).points = moved.points
    rw [hmoved]
  · refine (commit_poll _ _ _ _ _).trans ?_
    change (t.changeRefs ⟨old.keys, new.keys⟩).poll = moved.poll
    rw [hmoved]
  · refine (commit_backlog _ _ _ _ _).trans ?_
    change (t.changeRefs ⟨old.keys, new.keys⟩).backlog = moved.backlog
    rw [hmoved]
  · exact (commit_claims _ _ _ _ _).trans (by rw [hflag])

end Sys2Proof.Machine
end

