-- ==== Sys2Proof/Proofs/Evaluations.lean ====
section
/-! An evaluation (3.2, R39, R58 to R64): the values that it reads, the dose and the result that it writes, and what the checks of the
Stage Machine after it leave of the records. -/

namespace Sys2Proof.Machine

variable {s t u : State} {i j : Slot} {c d e : Coil}

/-! ### What the Stage Machine leaves of the records -/

/-- A record keeps its definition, its dose, its result and its evaluation timer: all but what the Stage Machine moves. -/
def Coil.Restaged (c d : Coil) : Prop :=
  { d with
    stage := c.stage, tripCount := c.tripCount, latch := c.latch, cause := c.cause, cleanTimer := c.cleanTimer
    holdTimer := c.holdTimer } = c

theorem Coil.Restaged.refl (c : Coil) : c.Restaged c := rfl

theorem Coil.Restaged.trans (h : c.Restaged d) (h' : d.Restaged e) : c.Restaged e := by
  unfold Coil.Restaged at h h' ⊢
  exact (congrArg (fun x : Coil =>
    { x with
      stage := c.stage, tripCount := c.tripCount, latch := c.latch, cause := c.cause, cleanTimer := c.cleanTimer
      holdTimer := c.holdTimer }) h').trans h

/-- The record of a slot is restaged, and every other stays. -/
structure State.StagesOnly (s t : State) (i : Slot) : Prop where
  coil : s.coils[i].Restaged t.coils[i]
  other : ∀ j : Slot, j ≠ i → t.coils[j] = s.coils[j]

theorem State.StagesOnly.trans (h : s.StagesOnly t i) (h' : t.StagesOnly u i) : s.StagesOnly u i :=
  ⟨h.coil.trans h'.coil, fun j hj => (h'.other j hj).trans (h.other j hj)⟩

theorem stagesOnly_of (h : t.coils = s.coils) : s.StagesOnly t i := ⟨by rw [h]; exact .refl _, fun j _ => by rw [h]⟩

theorem State.StagesOnly.refl (s : State) (i : Slot) : s.StagesOnly s i := stagesOnly_of rfl

theorem stagesOnly_put (h : t.coils = tablePut s.coils i c) (hc : s.coils[i].Restaged c) : s.StagesOnly t i :=
  ⟨by rw [h, tablePut_get_same]; exact hc, fun j hj => by rw [h, tablePut_get_other _ _ hj]⟩

theorem trip_stagesOnly (s : State) (i : Slot) (cause : Cause) : s.StagesOnly (s.trip i cause) i :=
  stagesOnly_put (trip_coils s i cause) rfl

theorem enterStage_stagesOnly (s : State) (i : Slot) (st : Stage) (cause : Cause) : s.StagesOnly (s.enterStage i st cause) i :=
  stagesOnly_put (enterStage_coils s i st cause) rfl

theorem enterProve_stagesOnly (s : State) (i : Slot) : s.StagesOnly (s.enterProve i) i :=
  stagesOnly_put (enterProve_coils s i) rfl

theorem dropLoop_stagesOnly (n : Nat) (s : State) (i : Slot) : s.StagesOnly (s.dropLoop n i) i := by
  induction n generalizing s with
  | zero => exact .refl s i
  | succ n ih =>
    unfold State.dropLoop
    split
    next p _ =>
      split_ifs
      · exact .refl s i
      · split
        · exact .refl s i
        next k _ =>
          have dropped : s.StagesOnly (s.dropKind i p k) i := stagesOnly_put (changeCoil_coils s i _) rfl
          dsimp only
          split_ifs
          · exact dropped.trans (stagesOnly_put (finishStepDown_coils _ i) rfl)
          · exact dropped.trans (ih _)
    · exact .refl s i

theorem laterChecks_stagesOnly (s : State) (i : Slot) (p : Profile) (r : EvalResult) : s.StagesOnly (s.laterChecks i p r) i := by
  unfold State.laterChecks
  dsimp only
  split
  · split_ifs
    · exact enterStage_stagesOnly s i _ _
    · exact enterStage_stagesOnly s i _ _
    · exact .refl s i
  · split_ifs
    · exact enterStage_stagesOnly s i _ _
    · exact enterStage_stagesOnly s i _ _
    · exact .refl s i
  · split_ifs
    · exact enterStage_stagesOnly s i _ _
    · exact .refl s i
  · split_ifs
    · exact enterProve_stagesOnly s i
    · exact .refl s i
  · split_ifs
    · exact stagesOnly_put (setCoil_coils s i _) rfl
    · exact .refl s i
  · split_ifs
    · exact enterStage_stagesOnly s i _ _
    · exact dropLoop_stagesOnly 4 s i
  · exact .refl s i
  · exact .refl s i

theorem stageChecks_stagesOnly (s : State) (i : Slot) (p : Profile) (r : EvalResult) : s.StagesOnly (s.stageChecks i p r) i := by
  unfold State.stageChecks
  split_ifs
  · exact .refl s i
  · exact trip_stagesOnly s i _
  · exact trip_stagesOnly s i _
  · unfold State.sensorLost
    split_ifs
    · exact .refl s i
    · exact enterStage_stagesOnly s i _ _
  · exact laterChecks_stagesOnly s i p r

theorem markUnavailable_coils (s : State) (i : Slot) (r : EvalResult) : (s.markUnavailable i r).coils = s.coils := by
  unfold State.markUnavailable
  split_ifs <;> rfl

/-! ### The record that an evaluation leaves (R59, R62, R64) -/

/-- The record with its new dose, its result and its next evaluation, before the checks. -/
def State.evaluated (s : State) (i : Slot) (p : Profile) : Coil :=
  { s.coils[i] with
    dose := doseStep p (weight s.units[s.coils[i].unit].fan s.regime) (s.evaluate s.coils[i] p) s.coils[i].dose
    last := some (s.evaluate s.coils[i] p)
    evalTimer := some (s.now + 2000) }

/-- What an evaluation leaves of the records: its own as evaluated and then restaged, and every other as it was. -/
theorem evaluation_leaves {p : Profile} (h : s.coils[i].profile = some p) :
    (s.evaluated i p).Restaged (s.evaluation i).coils[i] ∧ ∀ j : Slot, j ≠ i → (s.evaluation i).coils[j] = s.coils[j] := by
  have heval : s.evaluation i =
      ((s.setCoil i (s.evaluated i p)).markUnavailable i (s.evaluate s.coils[i] p)).stageChecks i p (s.evaluate s.coils[i] p) := by
    unfold State.evaluation
    dsimp only
    split
    next hn => exact absurd (h.symm.trans hn) (Option.some_ne_none p)
    next q hq =>
      obtain rfl := Option.some.inj (h.symm.trans hq)
      rfl
  have hput : ((s.setCoil i (s.evaluated i p)).markUnavailable i (s.evaluate s.coils[i] p)).coils =
      tablePut s.coils i (s.evaluated i p) := markUnavailable_coils _ _ _
  obtain ⟨hcoil, hother⟩ := stageChecks_stagesOnly
    ((s.setCoil i (s.evaluated i p)).markUnavailable i (s.evaluate s.coils[i] p)) i p (s.evaluate s.coils[i] p)
  rw [← heval] at hcoil hother
  rw [hput, tablePut_get_same] at hcoil
  refine ⟨hcoil, fun j hj => ?_⟩
  rw [hother j hj, hput, tablePut_get_other _ _ hj]

/-! ### What an evaluation reads (R39, R60 to R62) -/

/-- The value that a binding's consumers see (R39). -/
theorem effective_eq (s : State) (b : Binding) : s.effective b =
    match entryOf s.points b.key with
    | none => none
    | some e => if e.quality = .fresh ∨ e.quality = .stale then e.held.map fun v => v + b.offset else none := by
  unfold State.effective
  cases entryOf s.points b.key <;> rfl

theorem available_iff (s : State) (b : Binding) : s.available b = true ↔
    ∃ e, entryOf s.points b.key = some e ∧ (e.quality = .fresh ∨ e.quality = .stale) := by
  simp [State.available, Option.any_eq_true]

theorem requiredAvailable_iff (s : State) (c : Coil) : s.requiredAvailable c = true ↔
    (∃ b, c.lat = some b ∧ ∃ e, entryOf s.points b.key = some e ∧ (e.quality = .fresh ∨ e.quality = .stale))
      ∧ (c.kind = some .hotWater ∨ c.kind = some .steam →
        ∃ b, c.ft = some b ∧ ∃ e, entryOf s.points b.key = some e ∧ (e.quality = .fresh ∨ e.quality = .stale)) := by
  unfold State.requiredAvailable
  rw [everyRequired_iff]
  simp only [available_iff]

theorem clampMargin_eq (m : Int) : clampMargin m = if m < -500 then -500 else if 500 < m then 500 else m := by
  unfold clampMargin
  split_ifs <;> omega

/-- The margin, by the bindings that are present (R60). -/
theorem marginOf_eq (air fluid : Option Int) : marginOf air fluid =
    match air, fluid with
    | none, _ => none
    | some a, none => some (clampMargin a)
    | some a, some f => some (clampMargin (if f < a then f else a)) := by
  cases air with
  | none => rfl
  | some a =>
    cases fluid with
    | none => rfl
    | some f =>
      have hmin : min a f = if f < a then f else a := by
        split_ifs <;> omega
      exact congrArg (fun m => some (clampMargin m)) hmin

theorem weight_eq (fan : FanProof) (regime : Regime) :
    weight fan regime = (if regime = .cold then 3 else 2) - if fan = .stopped then 1 else 0 := by
  cases fan <;> cases regime <;> rfl

/-- The dose is frozen while a required binding is unavailable (R62). -/
theorem doseStep_frozen {p : Profile} {k : Nat} {r : EvalResult} {dose : Nat} (h : ¬ r.available = true) : doseStep p k r dose = dose :=
  if_neg h

theorem doseStep_margin {p : Profile} {k : Nat} {r : EvalResult} {dose : Nat} {m : Int} (h : r.available = true)
    (hm : r.margin = some m) : doseStep p k r dose =
      if m < p.limits.watchBand then min 60000 (dose + k * (p.limits.watchBand - m).toNat) else dose - p.limits.decay.toNat := by
  refine (if_pos h).trans ?_
  rw [hm]

/-- Settles O47: the record is evaluated, and the checks restage it. -/
theorem evaluationStepsTheDose : Obligations.EvaluationStepsTheDose := by
  intro s i p due c now htimer hprofile value available required air fluid clamp margin fan weight
  let t : State := s.atExpiry due
  let r : EvalResult := t.evaluate c p
  have hvalue : value = s.effective := funext fun b => (effective_eq s b).symm
  have hclamp : clamp = clampMargin := funext fun m => (clampMargin_eq m).symm
  have hair : r.airMargin = air := by
    change (c.lat.bind s.effective).map _ = (c.lat.bind value).map _
    rw [hvalue]
  have hfluid : t.fluidMargin c p = fluid := by
    change (c.ft.bind s.effective).map _ = (c.ft.bind value).map _
    rw [hvalue]
  have hmargin : r.margin = margin := by
    have hm := marginOf_eq air fluid
    rw [← hclamp] at hm
    exact (congrArg₂ marginOf hair hfluid).trans hm
  have hrequired : r.available = true ↔ required := requiredAvailable_iff s c
  have hweight : Machine.weight fan s.regime = weight := weight_eq fan s.regime
  obtain ⟨hcoil, hother⟩ := evaluation_leaves (s := t) (i := i) hprofile
  have hexec : exec (.evaluationExpiry i) s = .next (t.evaluation i).endEvent :=
    congrArg Host.Outcome.next (expire_some htimer _)
  refine ⟨_, r, hexec, ?_⟩
  rw [endEvent_coils, endEvent_apart, evaluation_apart]
  have hdose : (t.evaluation i).coils[i].dose = doseStep p weight r c.dose := by
    rw [← hweight]
    exact congrArg Coil.dose hcoil
  refine ⟨congrArg Coil.last hcoil, congrArg Coil.evalTimer hcoil, hmargin, hair, rfl, hrequired, fun hn => ?_, fun m hr hm hlt => ?_,
    fun m hr hm hle => ?_, ?_, hother, rfl⟩
  · exact hdose.trans (doseStep_frozen fun h => hn (hrequired.1 h))
  · exact (hdose.trans (doseStep_margin (hrequired.2 hr) (hmargin.trans hm))).trans (if_pos hlt)
  · exact (hdose.trans (doseStep_margin (hrequired.2 hr) (hmargin.trans hm))).trans (if_neg (not_lt.2 hle))
  · exact congrArg (fun x : Coil => { x with dose := c.dose, evalTimer := c.evalTimer, last := c.last }) hcoil

end Sys2Proof.Machine
end

