-- ==== Sys2Proof/Proofs/Recovery.lean ====
section
/-! The requests that let a record out of TRIP and LOCKOUT (3.8): RESTART and RELEASE_LOCKOUT, what they check and what they make. -/

namespace Sys2Proof.Machine

variable {s : State} {f : RxFrame} {rest : List RxFrame} {i : Slot}

theorem not_vacant_of_armed {c : Coil} (h : c.lifecycle = .armed) : c.lifecycle ≠ .vacant := by
  rw [h]
  decide

/-! ### RELEASE_LOCKOUT (R82) -/

theorem releaseLockoutOwner_releases (hn : byteAt f.payload 0 = i.val) (hs : s.Supervisor f.sender)
    (hl : s.coils[i].lifecycle = .armed) (hst : s.coils[i].stage = .lockout) :
    releaseLockoutOwner f s = (s.releaseLockout i, some (.done [])) := by
  have hstate : ¬ (s.coils[i].lifecycle ≠ .armed ∨ s.coils[i].stage ≠ .lockout) := not_or.2 ⟨not_not.2 hl, not_not.2 hst⟩
  exact (if_neg (isSupervisor_passes hs)).trans ((withRecord_named hn (not_vacant_of_armed hl) _).trans (if_neg hstate))

/-- Settles O25: a RELEASE_LOCKOUT that passes its checks makes its changes. -/
theorem lockoutReleaseReturnsToTrip : Obligations.LockoutReleaseReturnsToTrip := by
  intro s f rest i ht hn hs hl hst
  exact congrArg Host.Outcome.next
    (takeRequest_answers ht (releaseLockoutOwner_releases (s := { s with rx := rest }) hn hs hl hst))

/-! ### RESTART (R80, R81) -/

theorem mayRestart_iff (s : State) (c : Coil) : s.mayRestart c = true ↔
    s.units[c.unit].contact = .closed ∧ s.requiredAvailable c = true ∧ ∃ r a, c.last = some r ∧ r.airMargin = some a ∧ 0 < a := by
  have hair : ((c.last.bind (·.airMargin)).any fun a => decide (0 < a)) = true ↔
      ∃ r a, c.last = some r ∧ r.airMargin = some a ∧ 0 < a := by
    cases hlast : c.last with
    | none => simp
    | some r => cases ha : r.airMargin <;> simp [ha]
  rw [State.mayRestart, Bool.and_eq_true, Bool.and_eq_true, beq_iff_eq, hair, and_assoc]

/-- A RESTART of a record ARMED in TRIP is judged on its three conditions. -/
theorem restartOwner_judged (hn : byteAt f.payload 0 = i.val) (hp : s.Permitted f.sender i)
    (hl : s.coils[i].lifecycle = .armed) (hst : s.coils[i].stage = .trip) : restartOwner f s =
      if !s.mayRestart s.coils[i] then refuse s .refusedCondition else (s.restart i, some (.done [])) := by
  have hstate : ¬ (s.coils[i].lifecycle ≠ .armed ∨ s.coils[i].stage ≠ .trip) := not_or.2 ⟨not_not.2 hl, not_not.2 hst⟩
  exact (withRecord_named hn (not_vacant_of_armed hl) _).trans ((if_neg (mayEdit_passes hp)).trans (if_neg hstate))

/-- Settles O24: a RESTART is made where its three conditions hold, and refused where not. -/
theorem restartEntersFanRestart : Obligations.RestartEntersFanRestart := by
  intro s f rest i ht hn hp c available conditions hl hst
  let t : State := { s with rx := rest }
  have hjudged := restartOwner_judged (s := t) hn hp hl hst
  have hconditions : t.mayRestart c = true ↔ conditions := by
    rw [mayRestart_iff, requiredAvailable_iff, and_assoc]
  refine ⟨fun h => ?_, fun h => ?_⟩
  · have hmay : ¬ (!t.mayRestart t.coils[i]) = true := by
      rw [show t.mayRestart t.coils[i] = true from hconditions.2 h]
      decide
    exact congrArg Host.Outcome.next (takeRequest_answers ht (hjudged.trans (if_neg hmay)))
  · have hmay : (!t.mayRestart t.coils[i]) = true := by
      rw [Bool.not_eq_true', Bool.eq_false_iff]
      exact fun hm => h (hconditions.1 hm)
    exact takeRequest_refuses ht (hjudged.trans (if_pos hmay))

end Sys2Proof.Machine
end

