-- ==== Sys2Proof/Proofs/Trips.lean ====
section
/-! A trip (R74) as one step: what it leaves of its own record, and what it leaves of the others; and the loops over the slots, in
which each record is acted upon once. -/

namespace Sys2Proof.Machine

variable {s t u v : State} {i j : Slot} {cause : Cause}

/-! ### Dirty items (R188) -/

/-- An item waits in the store write queue, or is being written and marked for re-queue. -/
abbrev State.MarkedDirty (s : State) (it : Item) : Prop :=
  it ∈ s.storeQueue ∨ ∃ w, s.writing = some w ∧ w.content.item = it ∧ w.requeue = true

/-- An item that is dirty stays so when an item is marked. -/
theorem markDirty_keeps {it : Item} (h : s.MarkedDirty it) (it' : Item) : (s.markDirty it').MarkedDirty it := by
  rcases h with h | ⟨w, hw, hitem, hrequeue⟩
  · refine .inl ?_
    rcases markDirty_queue s it' with hq | hq <;> rw [hq]
    · exact h
    · exact List.mem_append_left _ h
  · refine .inr ?_
    unfold State.markDirty
    split_ifs
    · exact ⟨{ w with requeue := true }, by rw [hw]; rfl, hitem, rfl⟩
    · exact ⟨w, hw, hitem, hrequeue⟩
    · exact ⟨w, hw, hitem, hrequeue⟩

theorem setNotice_markedDirty {it : Item} (i : Slot) : (s.setNotice i).MarkedDirty it ↔ s.MarkedDirty it := Iff.rfl

/-! ### What leaves notices and the store aside -/

/-- The notice flags and the notice, the store's queue and its write are as they were. -/
structure State.Aside (s t : State) : Prop where
  flags : t.noticeFlags = s.noticeFlags
  notice : t.notice = s.notice
  storeQueue : t.storeQueue = s.storeQueue
  writing : t.writing = s.writing

theorem State.Aside.trans (h : s.Aside t) (h' : t.Aside u) : s.Aside u :=
  ⟨h'.flags.trans h.flags, h'.notice.trans h.notice, h'.storeQueue.trans h.storeQueue, h'.writing.trans h.writing⟩

theorem State.Aside.markedDirty {it : Item} (h : s.Aside t) (hd : s.MarkedDirty it) : t.MarkedDirty it := by
  rwa [State.MarkedDirty, h.storeQueue, h.writing]

theorem changeCoil_aside (s : State) (i : Slot) (c : Coil) : s.Aside (s.changeCoil i c) := ⟨rfl, rfl, rfl, rfl⟩

theorem setUnit_aside (s : State) (w : UnitNo) (e : UnitEntry) : s.Aside (s.setUnit w e) := ⟨rfl, rfl, rfl, rfl⟩

/-- A trip up to its marks. -/
theorem trip_aside (s : State) (i : Slot) (cause : Cause) :
    s.Aside (((s.changeCoil i (s.coils[i].trip cause)).addFault s.coils[i].unit .trip).recomputeFso s.coils[i].unit) :=
  ((changeCoil_aside s i _).trans (setUnit_aside _ _ _)).trans (setUnit_aside _ _ _)

/-! ### What passes a slot by -/

/-- What an action on other slots leaves of a slot: its record and its notice stay, its item stays dirty, and a TRIP and a STOP of a
unit stand. -/
structure State.PassedBy (s t : State) (j : Slot) : Prop where
  slot : s.SlotKept t j
  dirty : s.MarkedDirty (.coil j) → t.MarkedDirty (.coil j)
  fault : ∀ v : UnitNo, s.units[v].faults.trip = true → t.units[v].faults.trip = true
  stop : ∀ v : UnitNo, s.units[v].fso = .stop → t.units[v].fso = .stop

theorem State.PassedBy.refl (s : State) (j : Slot) : s.PassedBy s j := ⟨.refl s j, id, fun _ => id, fun _ => id⟩

theorem State.PassedBy.trans (h : s.PassedBy t j) (h' : t.PassedBy u j) : s.PassedBy u j :=
  ⟨h.slot.trans h'.slot, h'.dirty ∘ h.dirty, fun v => h'.fault v ∘ h.fault v, fun v => h'.stop v ∘ h.stop v⟩

theorem endEvent_passedBy (s : State) (j : Slot) : s.PassedBy s.endEvent j where
  slot := endEvent_slotKept
  dirty h := by rwa [State.MarkedDirty, endEvent_storeQueue, endEvent_writing]
  fault v h := by rwa [endEvent_units]
  stop v h := by rwa [endEvent_units]

theorem State.SlotKept.noticeSet (h : s.SlotKept t j) (h' : t.NoticeSet u j) : s.NoticeSet u j :=
  ⟨h'.1, fun n hn hj => h'.2 n (h.notice n hn hj) hj⟩

theorem noticeSet_slotKept (h : s.NoticeSet t j) (h' : t.SlotKept u j) : s.NoticeSet u j :=
  ⟨h'.flag.trans h.1, fun n hn hj => h'.notice _ (h.2 n hn hj) hj⟩

theorem noticeKept_slotKept (h : s.NoticeKept t j) (h' : t.SlotKept u j) : s.NoticeKept u j :=
  ⟨h'.flag.trans h.1, fun n hn hj => h'.notice _ (h.2 n hn hj) hj⟩

theorem setNotice_noticeSet_of (hnotice : t.notice = s.notice) : s.NoticeSet (t.setNotice i) i :=
  ⟨(setNotice_noticeSet t i).1, fun n hn => (setNotice_noticeSet t i).2 n (hnotice.trans hn)⟩

theorem recomputeFso_slotKept (v : UnitNo) : s.SlotKept (s.recomputeFso v) j := ⟨rfl, rfl, fun _ h _ => h⟩

/-! ### Loops over the slots -/

/-- A loop acts upon each slot once: its own pass comes to it with the others' passes before, and leaves it to the others' passes
after. What a pass may use of the state that it comes to is carried along, slot by slot. -/
theorem forSlots_slot {P : Nat → State → Prop} {R : State → State → Prop} {f : Slot → State → State} (j : Slot)
    (refl : ∀ t, R t t) (trans : ∀ {t u v}, R t u → R u v → R t v)
    (step : ∀ (i : Slot) t, P i.val t → P (i.val + 1) (f i t)) (other : ∀ (i : Slot) t, j ≠ i → P i.val t → R t (f i t))
    (hs : P 0 s) : ∃ t, P j.val t ∧ R s t ∧ R (f j t) (forSlots f s) := by
  obtain ⟨-, -, hall⟩ := forSlots_upTo (f := f) (s := s)
    (P := fun n t => P n t ∧ (n ≤ j.val → R s t) ∧ (j.val < n → ∃ t₀, P j.val t₀ ∧ R s t₀ ∧ R (f j t₀) t))
    (fun i t ⟨hP, hbefore, hafter⟩ => by
      refine ⟨step i t hP, fun hle => ?_, fun hlt => ?_⟩
      · exact trans (hbefore (by omega)) (other i t (by rintro rfl; omega) hP)
      · by_cases hji : j = i
        · subst hji
          exact ⟨t, hP, hbefore le_rfl, refl _⟩
        · have hne := Fin.val_ne_of_ne hji
          obtain ⟨t₀, hP₀, hbefore, hafter⟩ := hafter (by omega)
          exact ⟨t₀, hP₀, hbefore, trans hafter (other i t hji hP)⟩)
    ⟨hs, fun _ => refl s, fun h => absurd h (Nat.not_lt_zero _)⟩
  exact hall j.isLt

/-! ### One trip (R74) -/

/-- The record after a trip, with the latch that goes with its trip count. -/
theorem coil_trip_eq (c : Coil) (cause : Cause) : c.trip cause =
    { c with
      stage := if 2 ≤ c.tripCount then .lockout else .trip
      tripCount := min 3 (c.tripCount + 1)
      latch := if c.tripCount = 0 then .trip 1 else if c.tripCount = 1 then .trip 2 else .lockout
      cause := cause, holdTimer := none, cleanTimer := none } := by
  have hlatch (n : Nat) :
      tripLatch (n + 1) = if n = 0 then .trip 1 else if n = 1 then .trip 2 else .lockout := by
    match n with
    | 0 | 1 => rfl
    | n + 2 => exact ((if_neg (by omega)).trans (if_neg (by omega))).symm
  exact congrArg (fun l => { c.trip cause with latch := l }) (hlatch c.tripCount)

theorem coil_trip_stage (c : Coil) (cause : Cause) : (c.trip cause).stage = .trip ∨ (c.trip cause).stage = .lockout := by
  show (if 2 ≤ c.tripCount then Stage.lockout else .trip) = .trip ∨ (if 2 ≤ c.tripCount then Stage.lockout else .trip) = .lockout
  split_ifs
  · exact .inr rfl
  · exact .inl rfl

/-- The units after a trip: the record's own has TRIP and its output as it is then recomputed. -/
theorem trip_unit (s : State) (i : Slot) (cause : Cause) (w : UnitNo) : (s.trip i cause).units[w] =
    if w = s.coils[i].unit then
      { s.units[w] with
        faults := s.units[w].faults.add .trip
        fso := ((s.changeCoil i (s.coils[i].trip cause)).addFault s.coils[i].unit .trip).fsoFor s.coils[i].unit }
    else s.units[w] := by
  unfold State.trip
  rw [setNotice_units, markDirty_units, recomputeFso_units, tablePut_get]
  split_ifs with h
  · subst h
    rw [addFault_unit, if_pos rfl]
    rfl
  · rw [addFault_unit, if_neg h]
    rfl

/-- A trip of an ARMED record drives its unit's output to STOP in service, and never lets it go (R74, R130). -/
theorem trip_fso (ha : s.coils[i].lifecycle = .armed) (h : s.power = .running ∨ s.units[s.coils[i].unit].fso = .stop) :
    ((s.changeCoil i (s.coils[i].trip cause)).addFault s.coils[i].unit .trip).fsoFor s.coils[i].unit = .stop := by
  let x := (s.changeCoil i (s.coils[i].trip cause)).addFault s.coils[i].unit .trip
  have hpower : x.power = s.power := rfl
  have hfso : x.units[s.coils[i].unit].fso = s.units[s.coils[i].unit].fso := by
    rw [addFault_unit, if_pos rfl]
    rfl
  have hcoil : x.coils[i] = s.coils[i].trip cause := (congrArg (·[i]) (changeCoil_coils s i _)).trans (tablePut_get_same _ _ _)
  have hmust : x.MustStop s.coils[i].unit := .inr ⟨i, by rw [hcoil]; rfl, .inl ⟨by rw [hcoil]; exact ha, by
    rw [hcoil]
    exact coil_trip_stage _ _⟩⟩
  show x.fsoFor s.coils[i].unit = .stop
  cases hp : s.power with
  | running => exact (fsoFor_running x (hpower.trans hp) _).2 hmust
  | restartLoad =>
    have hstop := h.resolve_left (by rw [hp]; decide)
    unfold State.fsoFor
    rw [hpower, hp, hfso, hstop]
    exact ite_self _
  | off | held | startLoad =>
    unfold State.fsoFor
    rw [hpower, hp]

/-- What a trip leaves of its record, its notice, its item and its unit. -/
structure State.Tripped (s t : State) (i : Slot) (cause : Cause) : Prop where
  coil : t.coils[i] = s.coils[i].trip cause
  notice : s.NoticeSet t i
  dirty : t.MarkedDirty (.coil i)
  fault : t.units[s.coils[i].unit].faults.trip = true
  stop : s.power = .running → t.units[s.coils[i].unit].fso = .stop

theorem State.Tripped.fault_of {w : UnitNo} (h : s.Tripped t i cause) (hu : s.coils[i].unit = w) :
    t.units[w].faults.trip = true := by
  subst hu
  exact h.fault

theorem State.Tripped.stop_of {w : UnitNo} (h : s.Tripped t i cause) (hu : s.coils[i].unit = w) (hp : s.power = .running) :
    t.units[w].fso = .stop := by
  subst hu
  exact h.stop hp

theorem trip_tripped (cause : Cause) (ha : s.coils[i].lifecycle = .armed) : s.Tripped (s.trip i cause) i cause where
  coil := by rw [trip_coils, tablePut_get_same]
  notice := by
    unfold State.trip
    exact setNotice_noticeSet_of ((markDirty_notice _ _).trans (trip_aside s i cause).notice)
  dirty := by
    unfold State.trip
    exact (setNotice_markedDirty _).2 (markDirty_marks _ _)
  fault := by
    rw [trip_unit, if_pos rfl]
    rfl
  stop h := by
    rw [trip_unit, if_pos rfl]
    exact trip_fso ha (.inl h)

theorem trip_slotKept (cause : Cause) (hj : j ≠ i) : s.SlotKept (s.trip i cause) j := by
  unfold State.trip
  exact ((((changeCoil_slotKept _ hj).trans (addFault_slotKept _ _)).trans (recomputeFso_slotKept _)).trans
    (markDirty_slotKept _)).trans (setNotice_slotKept hj)

/-- A trip of an ARMED record passes every other by. -/
theorem trip_passedBy (cause : Cause) (ha : s.coils[i].lifecycle = .armed) (hj : j ≠ i) : s.PassedBy (s.trip i cause) j where
  slot := trip_slotKept cause hj
  dirty h := by
    unfold State.trip
    exact (setNotice_markedDirty _).2 (markDirty_keeps ((trip_aside s i cause).markedDirty h) _)
  fault w h := by
    rw [trip_unit]
    split_ifs
    · rfl
    · exact h
  stop w h := by
    rw [trip_unit]
    split_ifs with hw
    · exact trip_fso ha (.inr (hw ▸ h))
    · exact h

/-- A trip between actions on other slots. -/
theorem State.Tripped.between (hbefore : s.PassedBy t i) (hpower : t.power = s.power) (h : t.Tripped u i cause)
    (hafter : u.PassedBy v i) : s.Tripped v i cause where
  coil := by rw [hafter.slot.coil, h.coil, hbefore.slot.coil]
  notice := noticeSet_slotKept (hbefore.slot.noticeSet h.notice) hafter.slot
  dirty := hafter.dirty h.dirty
  fault := by
    have hfault := hafter.fault _ h.fault
    rwa [hbefore.slot.coil] at hfault
  stop hp := by
    have hstop := hafter.stop _ (h.stop (hpower.trans hp))
    rwa [hbefore.slot.coil] at hstop

/-! ### Trips of several records (R76, R77) -/

/-- A loop that trips the ARMED records that meet a condition, where no trip moves the condition: it trips each of those once, and
passes the others by. -/
theorem forSlots_trips {P : State → Prop} {meets : State → Coil → Prop} [∀ t c, Decidable (meets t c)] (cause : Cause)
    (harmed : ∀ t c, meets t c → c.lifecycle = .armed) (hsame : ∀ t, P t → ∀ c, meets t c ↔ meets s c)
    (hkeep : ∀ (i : Slot) t, P t → P (t.trip i cause)) (hs : P s) (j : Slot) :
    let after := forSlots (fun i t => if meets t t.coils[i] then t.trip i cause else t) s
    (meets s s.coils[j] → s.Tripped after j cause) ∧ (¬ meets s s.coils[j] → s.PassedBy after j) := by
  intro after
  obtain ⟨t, ⟨hP, hpower⟩, hbefore, hafter⟩ := forSlots_slot (s := s) (P := fun _ t => P t ∧ t.power = s.power)
    (R := fun s t => s.PassedBy t j) (f := fun i t => if meets t t.coils[i] then t.trip i cause else t) j (fun t => .refl t j) .trans
    (fun i t ⟨hP, hpower⟩ => by
      split_ifs
      · exact ⟨hkeep i t hP, (power_of_apart (trip_apart t i cause)).trans hpower⟩
      · exact ⟨hP, hpower⟩)
    (fun i t hj _ => by
      split_ifs with hm
      · exact trip_passedBy cause (harmed t _ hm) hj
      · exact .refl t j)
    ⟨hs, rfl⟩
  have hmeets : meets t t.coils[j] ↔ meets s s.coils[j] := by rw [hbefore.slot.coil, hsame t hP]
  refine ⟨fun h => ?_, fun h => ?_⟩
  · rw [if_pos (hmeets.2 h)] at hafter
    exact (trip_tripped cause (harmed t _ (hmeets.2 h))).between hbefore hpower hafter
  · rw [if_neg fun hm => h (hmeets.1 hm)] at hafter
    exact hbefore.trans hafter

/-! ### The test for drops (R87) -/

/-- What each drop keeps, and the completion of STEP_DOWN keeps, the test for drops keeps. -/
theorem dropLoop_keeps {P : State → Prop} (hdrop : ∀ t d k, P t → P (t.dropKind i d k))
    (hfinish : ∀ t, P t → P (t.finishStepDown i)) (n : Nat) (s : State) (hs : P s) : P (s.dropLoop n i) := by
  induction n generalizing s with
  | zero => exact hs
  | succ n ih =>
    unfold State.dropLoop
    split
    next d _ =>
      split_ifs
      · exact hs
      · split
        · exact hs
        next k _ =>
          dsimp only
          split_ifs
          · exact hfinish _ (hdrop s d k hs)
          · exact ih _ (hdrop s d k hs)
    · exact hs

theorem testDrops_units (s : State) (i : Slot) : (s.testDrops i).units = s.units :=
  dropLoop_keeps (P := fun t => t.units = s.units) (fun _ _ _ h => h)
    (fun t h => by
      unfold State.finishStepDown
      rw [setNotice_units, markDirty_units]
      exact h) 4 s rfl

theorem testDrops_joinStamp (s : State) (i : Slot) : (s.testDrops i).joinStamp = s.joinStamp :=
  dropLoop_keeps (P := fun t => t.joinStamp = s.joinStamp) (fun _ _ _ h => h)
    (fun t h => by
      unfold State.finishStepDown
      exact (markDirty_joinStamp _ _).trans h) 4 s rfl

theorem testDrops_markedDirty {it : Item} (h : s.MarkedDirty it) (i : Slot) : (s.testDrops i).MarkedDirty it :=
  dropLoop_keeps (P := fun t => t.MarkedDirty it) (fun _ _ _ h => h)
    (fun t h => by
      unfold State.finishStepDown
      exact (setNotice_markedDirty _).2 (markDirty_keeps ((changeCoil_aside t i _).markedDirty h) _)) 4 s h

/-- The test of one record passes every other by. -/
theorem testDrops_passedBy (h : j ≠ i) : s.PassedBy (s.testDrops i) j where
  slot := dropLoop_slotKept 4 h
  dirty hd := testDrops_markedDirty hd i
  fault v hv := by rwa [testDrops_units]
  stop v hv := by rwa [testDrops_units]

end Sys2Proof.Machine
end

