-- ==== Sys2Proof/Proofs/FanStatus.lean ====
section
/-! A UNIT_STATUS at its unit (R84, R123, R124): the fan proof it sets, and the records that a RUNNING takes to PROVE. -/

namespace Sys2Proof.Machine

variable {s t : State} {f : RxFrame} {i j : Slot} {u : UnitNo} {fan : FanProof}

/-! ### A fan that is proved (R84) -/

/-- A record that a RUNNING of its unit proves. -/
abbrev Coil.Proves (c : Coil) (u : UnitNo) : Prop := c.lifecycle = .armed ∧ c.unit = u ∧ c.stage = .recovery .fanRestart

theorem enterProve_notice (s : State) (i : Slot) : s.NoticeSet (s.enterProve i) i := by
  unfold State.enterProve
  exact setNotice_noticeSet_of rfl

theorem enterProve_slotKept (h : j ≠ i) : s.SlotKept (s.enterProve i) j :=
  (setCoil_slotKept _ h).trans (setNotice_slotKept h)

/-- The notice flags after a RUNNING: set for the records that it proves, and as they were for the others (R84, R171). -/
theorem fansProved_notices (s : State) (u : UnitNo) (j : Slot) :
    (s.coils[j].Proves u → s.NoticeSet (s.fansProved u) j) ∧ (¬ s.coils[j].Proves u → s.NoticeKept (s.fansProved u) j) := by
  obtain ⟨t, -, hbefore, hafter⟩ := forSlots_slot (s := s) (P := fun _ _ => True) (R := fun s t => s.SlotKept t j)
    (f := fun i s => if s.coils[i].Proves u then s.enterProve i else s) j (fun t => .refl t j) .trans
    (fun _ _ _ => trivial)
    (fun i t hj _ => by
      split_ifs
      · exact enterProve_slotKept hj
      · exact .refl t j)
    trivial
  rw [hbefore.coil] at hafter
  refine ⟨fun h => ?_, fun h => ?_⟩
  · rw [if_pos h] at hafter
    exact noticeSet_slotKept (hbefore.noticeSet (enterProve_notice t j)) hafter
  · rw [if_neg h] at hafter
    exact (hbefore.trans hafter).kept

/-- A RUNNING leaves the units, the demand entries and the store as they were. -/
theorem fansProved_keeps (s : State) (u : UnitNo) : (s.fansProved u).units = s.units
    ∧ (s.fansProved u).demands = s.demands ∧ (s.fansProved u).storeQueue = s.storeQueue ∧ (s.fansProved u).writing = s.writing :=
  forSlots_keeps_prop
    (P := fun t => t.units = s.units ∧ t.demands = s.demands ∧ t.storeQueue = s.storeQueue ∧ t.writing = s.writing)
    (fun i t ht => by
      split_ifs
      · exact ht
      · exact ht)
    s ⟨rfl, rfl, rfl, rfl⟩

/-! ### The frame (R123, R124) -/

theorem reportedFanOf_reported {n : Nat} (h : n = 1 ∧ fan = .running ∨ n = 2 ∧ fan = .stopped) : reportedFanOf n = some fan := by
  rcases h with ⟨rfl, rfl⟩ | ⟨rfl, rfl⟩ <;> rfl

/-- A UNIT_STATUS from the unit's controller is taken for the unit. -/
theorem takeUnitStatus_takes (hlen : f.payload.length = 2) (hu : byteAt f.payload 0 = u.val)
    (hfan : reportedFanOf (byteAt f.payload 1) = some fan) (hc : s.units[u].controller = some f.sender) :
    s.takeUnitStatus f = s.takeStatus u fan := by
  unfold State.takeUnitStatus
  rw [hu, unitOf_val, hfan]
  exact (if_neg (not_not.2 hlen)).trans (if_pos hc)

/-- The unit with a fan proof taken, and its status timer at 30 s. -/
def State.withStatus (s : State) (u : UnitNo) (fan : FanProof) : State :=
  s.setUnit u { s.units[u] with fan := fan, statusTimer := some (s.now + 30000) }

theorem takeStatus_eq (s : State) (u : UnitNo) (fan : FanProof) : s.takeStatus u fan =
    (if fan = .running then (s.withStatus u fan).fansProved u else s.withStatus u fan).endEvent := rfl

theorem withStatus_units (s : State) (u v : UnitNo) (fan : FanProof) : (s.withStatus u fan).units[v] =
    if v = u then { s.units[u] with fan := fan, statusTimer := some (s.now + 30000) } else s.units[v] := tablePut_get _ _ _ _

/-- What a fan proof leaves of the records and their notices: a RUNNING proves those of the unit in FAN_RESTART, and the rest stay. -/
theorem takeStatus_slot (s : State) (u : UnitNo) (fan : FanProof) (j : Slot) :
    (fan = .running ∧ s.coils[j].Proves u →
      (s.takeStatus u fan).coils[j] =
          { s.coils[j] with stage := .recovery .prove, holdTimer := some (s.now + s.coils[j].holdTime) }
        ∧ s.NoticeSet (s.takeStatus u fan) j)
    ∧ (¬ (fan = .running ∧ s.coils[j].Proves u) →
      (s.takeStatus u fan).coils[j] = s.coils[j] ∧ s.NoticeKept (s.takeStatus u fan) j) := by
  let x : State := s.withStatus u fan
  rw [takeStatus_eq, endEvent_coils]
  by_cases hrun : fan = .running
  · rw [if_pos hrun, fansProved_coils]
    refine ⟨fun h => ⟨if_pos h.2, ?_⟩, fun h => ⟨if_neg fun hp => h ⟨hrun, hp⟩, ?_⟩⟩
    · exact noticeSet_slotKept ((fansProved_notices x u j).1 h.2) endEvent_slotKept
    · have hkept : x.NoticeKept (x.fansProved u) j := (fansProved_notices x u j).2 fun hp => h ⟨hrun, hp⟩
      exact noticeKept_slotKept hkept endEvent_slotKept
  · rw [if_neg hrun]
    exact ⟨fun h => absurd h.1 hrun, fun _ => ⟨rfl, (endEvent_slotKept (s := x)).kept⟩⟩

/-- What a fan proof leaves of the units, the demand entries and the store: the unit takes it, and all else stays. -/
theorem takeStatus_keeps (s : State) (u : UnitNo) (fan : FanProof) : (s.takeStatus u fan).units = (s.withStatus u fan).units
    ∧ (s.takeStatus u fan).demands = s.demands ∧ (s.takeStatus u fan).storeQueue = s.storeQueue
    ∧ (s.takeStatus u fan).writing = s.writing ∧ (s.takeStatus u fan).apart = s.apart := by
  rw [takeStatus_eq, endEvent_units, endEvent_demands, endEvent_storeQueue, endEvent_writing, endEvent_apart]
  split_ifs
  · obtain ⟨hunits, hdemands, hqueue, hwriting⟩ := fansProved_keeps (s.withStatus u fan) u
    exact ⟨hunits, hdemands, hqueue, hwriting, fansProved_apart _ u⟩
  · exact ⟨rfl, rfl, rfl, rfl, rfl⟩

/-- Settles O12: the unit takes the fan proof, and a RUNNING takes its records in FAN_RESTART to PROVE. -/
theorem unitStatusSetsTheFanProof : Obligations.UnitStatusSetsTheFanProof := by
  intro s f rest u fan ht hcode hlen hu hfan hc
  let x : State := { s with rx := rest }
  have hexec : exec .unitStatus s = .next (x.takeStatus u fan) := (exec_unitStatus_takes ht hcode).trans
    (congrArg Host.Outcome.next (takeUnitStatus_takes (s := x) hlen hu (reportedFanOf_reported hfan) hc))
  obtain ⟨hunits, hdemands, hqueue, hwriting, hapart⟩ := takeStatus_keeps x u fan
  refine ⟨_, hexec, ?_, fun v hv => ?_, fun j => ?_, hapart, hdemands, hqueue, hwriting⟩
  · rw [hunits, withStatus_units, if_pos rfl]
  · rw [hunits, withStatus_units, if_neg hv]
  · obtain ⟨hproved, hstays⟩ := takeStatus_slot x u fan j
    dsimp only
    split_ifs with hp
    · exact hproved hp
    · exact hstays hp

end Sys2Proof.Machine
end

