-- ==== Sys2Proof/Proofs/ContactInputs.lean ====
section
/-! The low-limit contacts (6.3): a change of level at a unit's input, the filter's expiry, and the trips of an opening. -/

namespace Sys2Proof.Machine

variable {s t : State} {i j : Slot} {u v : UnitNo} {level : ContactLevel}

/-! ### Changes of level (R126, R127) -/

theorem contactOf_eq_iff (level : ContactLevel) (contact : Contact) :
    contactOf level = contact ↔ (contact = .closed ↔ level = .closedLevel) := by
  cases level <;> cases contact <;> decide

theorem filtersRun_iff (s : State) : s.filtersRun = true ↔ s.power ≠ .off ∧ s.power ≠ .held := by
  unfold State.filtersRun
  cases s.power <;> decide

open scoped Classical in
theorem filterFor_eq (contact : Contact) (level : ContactLevel) (now : Nat) : filterFor contact level now =
    if contact = .closed ↔ level = .closedLevel then .steady else .pending (now + 200) :=
  if_congr (contactOf_eq_iff level contact) rfl rfl

theorem changeLevel_same (h : s.units[u].level = level) : s.changeLevel u level = s := if_pos h

theorem changeLevel_stopped (h : s.units[u].level ≠ level) (hp : s.power = .off ∨ s.power = .held) :
    s.changeLevel u level = s.setUnit u { s.units[u] with level := level } := by
  have hrun : ¬ s.filtersRun = true := fun h => hp.elim ((filtersRun_iff s).1 h).1 ((filtersRun_iff s).1 h).2
  exact (if_neg h).trans (if_neg hrun)

theorem changeLevel_runs (h : s.units[u].level ≠ level) (hoff : s.power ≠ .off) (hheld : s.power ≠ .held) :
    s.changeLevel u level =
      s.setUnit u { s.units[u] with level := level, filter := filterFor s.units[u].contact level s.now } :=
  (if_neg h).trans (if_pos ((filtersRun_iff s).2 ⟨hoff, hheld⟩))

/-! ### A closing (R129) -/

/-- The unit with its filter at rest and the contact that its level stands for. -/
def State.filtered (s : State) (u : UnitNo) (contact : Contact) : State :=
  s.setUnit u { s.units[u] with contact := contact, filter := .steady }

theorem filterExpired_closed (h : s.units[u].level = .closedLevel) :
    s.filterExpired u = (s.filtered u .closed).recomputeFso u := by
  unfold State.filterExpired
  rw [h]
  rfl

theorem filterExpired_opened (h : s.units[u].level = .openLevel) :
    s.filterExpired u = (s.filtered u .opened).contactOpens u := by
  unfold State.filterExpired
  rw [h]
  rfl

theorem filtered_unit (s : State) (u v : UnitNo) (contact : Contact) : (s.filtered u contact).units[v] =
    if v = u then { s.units[u] with contact := contact, filter := .steady } else s.units[v] := tablePut_get _ _ _ _

/-- The output of a unit whose contact is OPEN is STOP, in service or not (R130). -/
theorem fsoFor_opened (h : s.units[u].contact = .opened) : s.fsoFor u = .stop := by
  unfold State.fsoFor
  cases s.power with
  | running => exact if_pos (.inl h)
  | restartLoad => exact if_pos h
  | off | held | startLoad => rfl

theorem fsoFor_restartLoad (hp : s.power = .restartLoad) (h : s.units[u].contact ≠ .opened) : s.fsoFor u = s.units[u].fso := by
  unfold State.fsoFor
  rw [hp]
  exact if_neg h

theorem fsoFor_outOfService (hrun : s.power ≠ .running) (hload : s.power ≠ .restartLoad) : s.fsoFor u = .stop := by
  unfold State.fsoFor
  cases hp : s.power with
  | running => exact absurd hp hrun
  | restartLoad => exact absurd hp hload
  | off | held | startLoad => rfl

/-! ### An opening (R76, R128) -/

/-- A record that an opening of its unit's contact trips (R76). -/
abbrev Coil.TripsOnContact (c : Coil) (u : UnitNo) : Prop :=
  c.lifecycle = .armed ∧ c.unit = u ∧ c.stage.tripsOnContact = true

theorem tripsOnContact_iff (st : Stage) : st.tripsOnContact = true ↔ st ≠ .trip ∧ st ≠ .lockout := by
  cases st <;> simp [Stage.tripsOnContact]

/-- An opening trips the records that it must, once each, and passes the others by. -/
theorem contactTrips_slot (s : State) (u : UnitNo) (j : Slot) :
    (s.coils[j].TripsOnContact u → s.Tripped (s.contactTrips u) j .contact)
    ∧ (¬ s.coils[j].TripsOnContact u → s.PassedBy (s.contactTrips u) j) :=
  forSlots_trips (P := fun _ => True) (meets := fun _ c => c.TripsOnContact u) .contact (fun _ _ h => h.1) (fun _ _ _ => .rfl)
    (fun _ _ _ => trivial) trivial j

/-- An opening that trips no record changes nothing. -/
theorem contactTrips_none (h : ∀ j : Slot, ¬ s.coils[j].TripsOnContact u) : s.contactTrips u = s :=
  forSlots_keeps_prop (P := fun t => t = s) (fun i t ht => by rw [ht]; exact if_neg (h i)) s rfl

/-- A unit with some summary bit for TRIP, and all else as in `e`. -/
def UnitEntry.withTrip (e : UnitEntry) (trip : Bool) : UnitEntry := { e with faults := { e.faults with trip := trip } }

/-- A trip of an ARMED record whose unit's output is at STOP adds TRIP to the unit's summary, and moves nothing else of the units. -/
theorem trip_units_withTrip {cause : Cause} (ha : s.coils[i].lifecycle = .armed) (hu : s.coils[i].unit = u)
    (h : s.units[u].fso = .stop) (w : UnitNo) :
    (s.trip i cause).units[w] = if w = u then s.units[w].withTrip true else s.units[w] := by
  subst hu
  rw [trip_unit, trip_fso ha (.inr h), ← h]
  split_ifs with hw
  · subst hw
    rfl
  · rfl

/-- What the trips of an opening leave of the units, where the output is at STOP: TRIP in the unit's own summary. -/
theorem contactTrips_units (h : s.units[u].fso = .stop) : (∀ v, v ≠ u → (s.contactTrips u).units[v] = s.units[v])
    ∧ ∃ trip, (s.contactTrips u).units[u] = s.units[u].withTrip trip := by
  refine forSlots_keeps_prop
    (P := fun t => (∀ v : UnitNo, v ≠ u → t.units[v] = s.units[v]) ∧ ∃ trip, t.units[u] = s.units[u].withTrip trip)
    (fun i t ⟨hother, trip, hunit⟩ => ?_) s ⟨fun _ _ => rfl, s.units[u].faults.trip, rfl⟩
  split_ifs with hm
  · obtain ⟨ha, hu, -⟩ := hm
    have hstop : t.units[u].fso = .stop := by rw [hunit]; exact h
    have hunits := trip_units_withTrip (cause := .contact) ha hu hstop
    refine ⟨fun v hv => ?_, true, ?_⟩
    · rw [hunits v, if_neg hv, hother v hv]
    · rw [hunits u, if_pos rfl, hunit]
      rfl
  · exact ⟨hother, trip, hunit⟩

/-- TRIP stands in the unit's summary after an opening where it stood before, or where a record has tripped. -/
theorem contactTrips_fault (s : State) (u : UnitNo) : (s.contactTrips u).units[u].faults.trip = true ↔
    s.units[u].faults.trip = true ∨ ∃ j : Slot, s.coils[j].TripsOnContact u := by
  by_cases h : ∃ j : Slot, s.coils[j].TripsOnContact u
  · obtain ⟨j, hj⟩ := h
    have htripped := (contactTrips_slot s u j).1 hj
    generalize s.contactTrips u = t at htripped ⊢
    exact iff_of_true (htripped.fault_of hj.2.1) (.inr ⟨j, hj⟩)
  · rw [contactTrips_none (not_exists.1 h)]
    exact ⟨.inl, fun hor => hor.resolve_right h⟩

/-- The unit as an opening leaves it before the trips: CONTACT_OPEN in its summary, and the output at STOP (R128). -/
def State.openedContact (s : State) (u : UnitNo) : State := ((s.filtered u .opened).addFault u .contactOpen).recomputeFso u

theorem openedContact_unit (s : State) (u v : UnitNo) : (s.openedContact u).units[v] =
    if v = u then
      { s.units[u] with
        contact := .opened, filter := .steady, fso := .stop, faults := { s.units[u].faults with contactOpen := true } }
    else s.units[v] := by
  have hadded : ((s.filtered u .opened).addFault u .contactOpen).units[u] =
      { s.units[u] with contact := .opened, filter := .steady, faults := { s.units[u].faults with contactOpen := true } } := by
    rw [addFault_unit, if_pos rfl, filtered_unit, if_pos rfl]
    rfl
  have hopened : ((s.filtered u .opened).addFault u .contactOpen).units[u].contact = .opened := by rw [hadded]
  unfold State.openedContact
  rw [recomputeFso_units, tablePut_get, fsoFor_opened hopened, hadded]
  split_ifs with hv
  · rfl
  · rw [addFault_unit, if_neg hv, filtered_unit, if_neg hv]

theorem openedContact_slotKept (s : State) (u : UnitNo) (j : Slot) : s.SlotKept (s.openedContact u) j :=
  ⟨rfl, rfl, fun _ h _ => h⟩

/-- The trips of an opening, which the part makes in service alone (R76, R128). -/
def State.openingTrips (s : State) (u : UnitNo) : State := if s.power = .running then s.contactTrips u else s

/-- A record that an opening trips: in service, and one that its stage lets trip. -/
abbrev State.TripsAtOpening (s : State) (c : Coil) (u : UnitNo) : Prop := s.power = .running ∧ c.TripsOnContact u

theorem openingTrips_slot (s : State) (u : UnitNo) (j : Slot) :
    (s.TripsAtOpening s.coils[j] u → s.Tripped (s.openingTrips u) j .contact)
    ∧ (¬ s.TripsAtOpening s.coils[j] u → s.PassedBy (s.openingTrips u) j) := by
  unfold State.openingTrips
  split_ifs with hp
  · exact ⟨fun h => (contactTrips_slot s u j).1 h.2, fun h => (contactTrips_slot s u j).2 fun ht => h ⟨hp, ht⟩⟩
  · exact ⟨fun h => absurd h.1 hp, fun _ => .refl s j⟩

theorem openingTrips_units (h : s.units[u].fso = .stop) : (∀ v, v ≠ u → (s.openingTrips u).units[v] = s.units[v])
    ∧ ∃ trip, (trip = true ↔ s.units[u].faults.trip = true ∨ ∃ j : Slot, s.TripsAtOpening s.coils[j] u)
      ∧ (s.openingTrips u).units[u] = s.units[u].withTrip trip := by
  unfold State.openingTrips
  split_ifs with hp
  · obtain ⟨hother, trip, hunit⟩ := contactTrips_units h
    have hfault := contactTrips_fault s u
    rw [hunit] at hfault
    exact ⟨hother, trip, hfault.trans (or_congr_right (exists_congr fun _ => (and_iff_right hp).symm)), hunit⟩
  · refine ⟨fun _ _ => rfl, s.units[u].faults.trip, ⟨.inl, fun hor => hor.resolve_right ?_⟩, rfl⟩
    exact fun ⟨_, h⟩ => hp h.1

theorem openingTrips_none (h : ∀ j : Slot, ¬ s.TripsAtOpening s.coils[j] u) : s.openingTrips u = s := by
  unfold State.openingTrips
  split_ifs with hp
  · exact contactTrips_none fun j ht => h j ⟨hp, ht⟩
  · rfl

theorem openingTrips_apart (s : State) (u : UnitNo) : (s.openingTrips u).apart = s.apart := by
  unfold State.openingTrips
  split_ifs
  · exact contactTrips_apart s u
  · rfl

theorem filterExpired_opens (h : s.units[u].level = .openLevel) :
    s.filterExpired u = ((s.openedContact u).openingTrips u).endEvent := filterExpired_opened h

/-! ### Both edges -/

theorem filterTimer_pending {filter : ContactFilter} {due : Nat} (h : filter = .pending due) : filter.timer = some due := by
  rw [h]
  rfl

/-- Settles O52: a level reaches the contact through its filter, and an opening trips the records that it must. -/
theorem contactsFollowTheirInputs : Obligations.ContactsFollowTheirInputs := by
  intro s u level e agrees
  refine ⟨fun h => congrArg Host.Outcome.next (changeLevel_same h),
    fun h hp => congrArg Host.Outcome.next (changeLevel_stopped h hp), fun h hoff hheld => ?_, fun h => ?_, fun due hdue => ?_⟩
  · refine congrArg Host.Outcome.next ((changeLevel_runs h hoff hheld).trans ?_)
    rw [filterFor_eq]
  · exact congrArg Host.Outcome.next (expire_none (by rw [h]; rfl) _)
  let x : State := s.atExpiry due
  have hexec : exec (.contactFilterExpiry u) s = .next (x.filterExpired u) :=
    congrArg Host.Outcome.next (expire_some (filterTimer_pending hdue) _)
  have hedge : e.level = .closedLevel ∨ e.level = .openLevel := by cases e.level <;> decide
  rcases hedge with hlevel | hlevel
  · have hx : x.filterExpired u = (x.filtered u .closed).recomputeFso u := filterExpired_closed hlevel
    have hunit : (x.filtered u .closed).units[u] = { e with contact := .closed, filter := .steady } := by
      rw [filtered_unit, if_pos rfl]
      rfl
    have hclosed : (x.filtered u .closed).units[u].contact ≠ .opened := by
      rw [hunit]
      exact fun h => Contact.noConfusion h
    refine ⟨_, hexec, by rw [hx]; rfl, fun v hv => ?_, fun _ => ?_, fun h => absurd (hlevel.symm.trans h) (by decide)⟩
    · rw [hx, recomputeFso_units, tablePut_get, if_neg hv, filtered_unit, if_neg hv]
      rfl
    rw [hx]
    refine ⟨⟨(x.filtered u .closed).fsoFor u, ?_, fun hp => ?_, fun hp => ?_, fun h1 h2 => fsoFor_outOfService h1 h2⟩,
      rfl, rfl, rfl, rfl, rfl⟩
    · rw [recomputeFso_units, tablePut_get, if_pos rfl, hunit]
    · exact (fsoFor_running _ (show (x.filtered u .closed).power = .running from hp) u).trans (or_iff_right hclosed)
    · rw [fsoFor_restartLoad (s := x.filtered u .closed) hp hclosed, hunit]
  · let y : State := x.openedContact u
    have hx : x.filterExpired u = (y.openingTrips u).endEvent := filterExpired_opens hlevel
    have hstop : y.units[u].fso = .stop := by rw [openedContact_unit, if_pos rfl]
    obtain ⟨hother, trip, htrip, hunit⟩ := openingTrips_units hstop
    have htrips (c : Coil) : y.TripsAtOpening c u ↔
        s.power = .running ∧ c.lifecycle = .armed ∧ c.unit = u ∧ c.stage ≠ .trip ∧ c.stage ≠ .lockout := by
      rw [State.TripsAtOpening, Coil.TripsOnContact, tripsOnContact_iff]
      exact .rfl
    refine ⟨_, hexec, ?_, fun v hv => ?_, fun h => absurd (hlevel.symm.trans h) (by decide),
      fun _ => ⟨⟨trip, ?_, ?_⟩, fun hnone => ?_, fun j => ?_⟩⟩
    · rw [hx, endEvent_apart, openingTrips_apart]
      rfl
    · rw [hx, endEvent_units, hother v hv, openedContact_unit, if_neg hv]
      rfl
    · rw [htrip, openedContact_unit, if_pos rfl]
      simp only [htrips]
      exact .rfl
    · rw [hx, endEvent_units, hunit, openedContact_unit, if_pos rfl]
      rfl
    · rw [hx, endEvent_demands, endEvent_storeQueue, endEvent_writing, openingTrips_none fun j hj => hnone j ((htrips _).1 hj)]
      exact ⟨rfl, rfl, rfl⟩
    · have hafter := endEvent_passedBy (y.openingTrips u) j
      obtain ⟨htripped, hpassed⟩ := openingTrips_slot y u j
      rw [hx]
      refine ⟨fun hn => ?_, fun ht => ?_⟩
      · have hkept := ((openedContact_slotKept x u j).trans ((hpassed fun hp => hn ((htrips _).1 hp)).trans hafter).slot)
        exact ⟨hkept.coil, hkept.kept⟩
      · obtain ⟨hcoil, hnotice, hdirty, -, -⟩ := (htripped ((htrips _).2 ht)).between (.refl y j) rfl hafter
        exact ⟨hcoil.trans (coil_trip_eq _ _), hnotice, hdirty⟩

end Sys2Proof.Machine
end

