-- ==== Sys2Proof/Proofs/StageChecks.lean ====
section
/-! The Stage Machine's checks at an evaluation (R70 to R75, R84 to R89): which check matches, and what each leaves of the record, of
its notice and of its unit. -/

namespace Sys2Proof.Machine

variable {s t y : State} {i j : Slot} {p : Profile} {r : EvalResult} {c : Coil}

/-! ### The conditions of the checks -/

theorem below_iff (r : EvalResult) (p : Profile) : r.below p = true ↔ ∃ m, r.margin = some m ∧ m < p.limits.watchBand := by
  simp [EvalResult.below, Option.any_eq_true]

theorem atOrAbove_iff (r : EvalResult) (p : Profile) :
    r.atOrAbove p = true ↔ ∃ m, r.margin = some m ∧ p.limits.watchBand ≤ m := by
  simp [EvalResult.atOrAbove, Option.any_eq_true]

theorem airLimit_iff (r : EvalResult) : r.airLimit = true ↔ ∃ a, r.airMargin = some a ∧ a ≤ 0 := by
  simp [EvalResult.airLimit, Option.any_eq_true]

/-! ### The first check that matches (R70 to R72) -/

theorem stageChecks_unchecked (h : ¬ (s.coils[i].stage ≠ .trip ∧ s.coils[i].stage ≠ .lockout)) : s.stageChecks i p r = s :=
  if_pos (by rwa [not_and_or, not_not, not_not] at h)

section
variable (hchecked : s.coils[i].stage ≠ .trip ∧ s.coils[i].stage ≠ .lockout)
include hchecked

theorem stageChecks_airLimit (hair : r.airLimit = true) : s.stageChecks i p r = s.trip i .airLimit :=
  (if_neg (not_or.2 hchecked)).trans (if_pos hair)

variable (hair : ¬ r.airLimit = true)
include hair

theorem stageChecks_doseTrip (hdose : p.dose.tripDose ≤ s.coils[i].dose) : s.stageChecks i p r = s.trip i .doseTrip :=
  (if_neg (not_or.2 hchecked)).trans ((if_neg hair).trans (if_pos hdose))

variable (hdose : ¬ p.dose.tripDose ≤ s.coils[i].dose)
include hdose

theorem stageChecks_sensorLost (h : r.available = false) : s.stageChecks i p r =
    if s.coils[i].stage = .guard then s else s.enterStage i .guard .sensorLost :=
  (if_neg (not_or.2 hchecked)).trans ((if_neg hair).trans ((if_neg hdose).trans (if_pos (by rw [h]; rfl))))

theorem stageChecks_later (h : r.available = true) : s.stageChecks i p r = s.laterChecks i p r :=
  (if_neg (not_or.2 hchecked)).trans ((if_neg hair).trans ((if_neg hdose).trans (if_neg (by rw [h]; decide))))

end

/-! ### The checks of the stages and phases (R73, R84, R85, R87, R89) -/

theorem laterChecks_clear (h : s.coils[i].stage = .clear) : s.laterChecks i p r =
    if p.dose.upper ≤ s.coils[i].dose then s.enterStage i .guard .doseGuard
    else if r.below p then s.enterStage i .watch .doseWatch else s := by
  unfold State.laterChecks
  rw [h]

theorem laterChecks_watch (h : s.coils[i].stage = .watch) : s.laterChecks i p r =
    if p.dose.upper ≤ s.coils[i].dose then s.enterStage i .guard .doseGuard
    else if r.atOrAbove p ∧ s.coils[i].dose = 0 then s.enterStage i .clear .cleared else s := by
  unfold State.laterChecks
  rw [h]

theorem laterChecks_guard (h : s.coils[i].stage = .guard) : s.laterChecks i p r =
    if s.coils[i].dose ≤ p.dose.lower ∧ r.atOrAbove p then s.enterStage i .watch .doseWatch else s := by
  unfold State.laterChecks
  rw [h]

theorem laterChecks_fanRestart (h : s.coils[i].stage = .recovery .fanRestart) : s.laterChecks i p r =
    if r.fan = .running then s.enterProve i else s := by
  unfold State.laterChecks
  rw [h]

theorem laterChecks_prove (h : s.coils[i].stage = .recovery .prove) : s.laterChecks i p r =
    if r.below p then s.setCoil i { s.coils[i] with holdTimer := some (s.now + s.coils[i].holdTime) } else s := by
  unfold State.laterChecks
  rw [h]

theorem laterChecks_stepDown {d : Dropped} (h : s.coils[i].stage = .recovery (.stepDown d)) : s.laterChecks i p r =
    if r.below p then s.enterStage i .guard .doseGuard else s.testDrops i := by
  unfold State.laterChecks
  rw [h]

/-- From CLEAR and WATCH, a dose at or above U takes the record to GUARD (R73). -/
theorem laterChecks_doseGuard (h : s.coils[i].stage = .clear ∨ s.coils[i].stage = .watch) (hdose : p.dose.upper ≤ s.coils[i].dose) :
    s.laterChecks i p r = s.enterStage i .guard .doseGuard := by
  rcases h with h | h
  · exact (laterChecks_clear h).trans (if_pos hdose)
  · exact (laterChecks_watch h).trans (if_pos hdose)

/-! ### What the checks leave of the other records and of the summaries -/

theorem enterStage_slotKept (st : Stage) (cause : Cause) (h : j ≠ i) : s.SlotKept (s.enterStage i st cause) j :=
  (changeCoil_slotKept _ h).trans (setNotice_slotKept h)

theorem laterChecks_slotKept (h : j ≠ i) : s.SlotKept (s.laterChecks i p r) j := by
  unfold State.laterChecks
  dsimp only
  split
  · split_ifs
    · exact enterStage_slotKept _ _ h
    · exact enterStage_slotKept _ _ h
    · exact .refl s j
  · split_ifs
    · exact enterStage_slotKept _ _ h
    · exact enterStage_slotKept _ _ h
    · exact .refl s j
  · split_ifs
    · exact enterStage_slotKept _ _ h
    · exact .refl s j
  · split_ifs
    · exact enterProve_slotKept h
    · exact .refl s j
  · split_ifs
    · exact setCoil_slotKept _ h
    · exact .refl s j
  · split_ifs
    · exact enterStage_slotKept _ _ h
    · exact dropLoop_slotKept 4 h
  · exact .refl s j
  · exact .refl s j

/-- What the checks leave is the state as it was, a trip, a GUARD for the lost sensor, or what the checks of the stage leave. -/
theorem stageChecks_cases {P : State → Prop} (hs : P s) (htrip : ∀ cause, P (s.trip i cause))
    (hguard : P (s.enterStage i .guard .sensorLost)) (hlater : P (s.laterChecks i p r)) : P (s.stageChecks i p r) := by
  unfold State.stageChecks State.sensorLost
  split_ifs
  · exact hs
  · exact htrip _
  · exact htrip _
  · exact hs
  · exact hguard
  · exact hlater

theorem stageChecks_slotKept (h : j ≠ i) : s.SlotKept (s.stageChecks i p r) j :=
  stageChecks_cases (P := fun t => s.SlotKept t j) (.refl s j) (fun _ => trip_slotKept _ h) (enterStage_slotKept _ _ h)
    (laterChecks_slotKept h)

theorem laterChecks_units (s : State) (i : Slot) (p : Profile) (r : EvalResult) : (s.laterChecks i p r).units = s.units := by
  unfold State.laterChecks
  dsimp only
  split
  · split_ifs <;> rfl
  · split_ifs <;> rfl
  · split_ifs <;> rfl
  · split_ifs <;> rfl
  · split_ifs <;> rfl
  · split_ifs
    · rfl
    · exact testDrops_units s i
  · rfl
  · rfl

/-- SENSOR_LOST stands in a unit's summary after the checks where it stood before them. -/
theorem stageChecks_keepsSensorLost {u : UnitNo} (h : s.units[u].faults.sensorLost = true) :
    (s.stageChecks i p r).units[u].faults.sensorLost = true := by
  have htrip (cause : Cause) : (s.trip i cause).units[u].faults.sensorLost = true := by
    rw [trip_unit]
    split_ifs <;> exact h
  refine stageChecks_cases (P := fun t => t.units[u].faults.sensorLost = true) h htrip h ?_
  rwa [laterChecks_units]

/-! ### The state that the checks find -/

/-- The state with the record evaluated and SENSOR_LOST added where a required binding is unavailable, before the checks. -/
def State.beforeChecks (s : State) (i : Slot) (p : Profile) : State :=
  (s.setCoil i (s.evaluated i p)).markUnavailable i (s.evaluate s.coils[i] p)

theorem evaluation_eq (h : s.coils[i].profile = some p) :
    s.evaluation i = (s.beforeChecks i p).stageChecks i p (s.evaluate s.coils[i] p) := by
  unfold State.evaluation
  dsimp only
  split
  next hn => exact absurd (h.symm.trans hn) (Option.some_ne_none p)
  next q hq =>
    obtain rfl := Option.some.inj (h.symm.trans hq)
    rfl

theorem beforeChecks_coil (s : State) (i : Slot) (p : Profile) : (s.beforeChecks i p).coils[i] = s.evaluated i p := by
  unfold State.beforeChecks
  rw [markUnavailable_coils, setCoil_coils, tablePut_get_same]

theorem beforeChecks_available (h : (s.evaluate s.coils[i] p).available = true) :
    s.beforeChecks i p = s.setCoil i (s.evaluated i p) := if_pos h

theorem beforeChecks_unavailable (h : ¬ (s.evaluate s.coils[i] p).available = true) :
    s.beforeChecks i p = (s.setCoil i (s.evaluated i p)).addFault s.coils[i].unit .sensorLost := by
  have hunit : (s.setCoil i (s.evaluated i p)).coils[i].unit = s.coils[i].unit := by
    rw [setCoil_coils, tablePut_get_same]
    rfl
  unfold State.beforeChecks State.markUnavailable
  rw [if_neg h, hunit]

theorem beforeChecks_aside (s : State) (i : Slot) (p : Profile) : s.Aside (s.beforeChecks i p) := by
  unfold State.beforeChecks State.markUnavailable
  split_ifs <;> exact ⟨rfl, rfl, rfl, rfl⟩

theorem beforeChecks_slotKept (h : j ≠ i) : s.SlotKept (s.beforeChecks i p) j := by
  unfold State.beforeChecks State.markUnavailable
  split_ifs
  · exact setCoil_slotKept _ h
  · exact (setCoil_slotKept _ h).trans (addFault_slotKept _ _)

theorem beforeChecks_apart (s : State) (i : Slot) (p : Profile) : (s.beforeChecks i p).apart = s.apart := by
  unfold State.beforeChecks State.markUnavailable
  split_ifs <;> rfl

theorem setCoil_aside (s : State) (i : Slot) (c : Coil) : s.Aside (s.setCoil i c) := ⟨rfl, rfl, rfl, rfl⟩

theorem State.Aside.noticeKept (h : s.Aside t) : s.NoticeKept t j :=
  ⟨by rw [h.flags], fun n hn _ => h.notice.trans hn⟩

theorem State.Aside.noticeSet (h : s.Aside t) (h' : t.NoticeSet y j) : s.NoticeSet y j :=
  ⟨h'.1, fun n hn => h'.2 n (h.notice.trans hn)⟩

/-! ### What each outcome leaves -/

theorem enterStage_notice (s : State) (i : Slot) (st : Stage) (cause : Cause) : s.NoticeSet (s.enterStage i st cause) i := by
  unfold State.enterStage
  exact setNotice_noticeSet_of rfl

/-- The record as it was before an evaluation, but with the dose, the result and the evaluation timer that the evaluation gave. -/
abbrev Coil.evaluatedAs (c d : Coil) : Coil := { c with dose := d.dose, last := d.last, evalTimer := d.evalTimer }

/-- An outcome moves no more of the evaluated record than `g` says. -/
theorem evaluatedAs_of (p : Profile) {d : Coil} {g : Coil → Coil}
    (hg : ∀ c, (g c).dose = c.dose ∧ (g c).last = c.last ∧ (g c).evalTimer = c.evalTimer) (h : d = g (s.evaluated i p)) : d = g (s.coils[i].evaluatedAs d) := by
  obtain ⟨hdose, hlast, htimer⟩ := hg (s.evaluated i p)
  rw [Coil.evaluatedAs, h, hdose, hlast, htimer]
  rfl

section
variable (s i p)

/-- The checks leave the record as evaluated. -/
theorem beforeChecks_stands :
    (s.beforeChecks i p).endEvent.coils[i] = s.coils[i].evaluatedAs (s.beforeChecks i p).endEvent.coils[i]
      ∧ s.NoticeKept (s.beforeChecks i p).endEvent i := by
  refine ⟨evaluatedAs_of p (g := id) (fun _ => ⟨rfl, rfl, rfl⟩) ?_,
    noticeKept_slotKept (beforeChecks_aside s i p).noticeKept endEvent_slotKept⟩
  rw [endEvent_coils]
  exact beforeChecks_coil s i p

/-- The checks take the record to CLEAR, WATCH or GUARD. -/
theorem beforeChecks_enters (st : Stage) (cause : Cause) :
    s.NoticeSet ((s.beforeChecks i p).enterStage i st cause).endEvent i
      ∧ ((s.beforeChecks i p).enterStage i st cause).endEvent.coils[i] =
        { s.coils[i].evaluatedAs ((s.beforeChecks i p).enterStage i st cause).endEvent.coils[i] with
          stage := st, cause := cause, holdTimer := none, cleanTimer := if st = .clear then some (s.now + 3600000) else none } := by
  refine ⟨noticeSet_endEvent ((beforeChecks_aside s i p).noticeSet (enterStage_notice _ i st cause)),
    evaluatedAs_of p (g := fun c : Coil => { c with
      stage := st, cause := cause, holdTimer := none, cleanTimer := if st = .clear then some (s.now + 3600000) else none })
      (fun _ => ⟨rfl, rfl, rfl⟩) ?_⟩
  rw [endEvent_coils, enterStage_coils, tablePut_get_same, beforeChecks_coil, now_of_apart (beforeChecks_apart s i p)]
  rfl

/-- The checks take the record from FAN_RESTART to PROVE. -/
theorem beforeChecks_proves :
    s.NoticeSet ((s.beforeChecks i p).enterProve i).endEvent i
      ∧ ((s.beforeChecks i p).enterProve i).endEvent.coils[i] =
        { s.coils[i].evaluatedAs ((s.beforeChecks i p).enterProve i).endEvent.coils[i] with
          stage := .recovery .prove, holdTimer := some (s.now + s.coils[i].holdTime) } := by
  refine ⟨noticeSet_endEvent ((beforeChecks_aside s i p).noticeSet (enterProve_notice _ i)),
    evaluatedAs_of p (g := fun c : Coil => { c with stage := .recovery .prove, holdTimer := some (s.now + s.coils[i].holdTime) })
      (fun _ => ⟨rfl, rfl, rfl⟩) ?_⟩
  rw [endEvent_coils, enterProve_coils, tablePut_get_same, beforeChecks_coil, now_of_apart (beforeChecks_apart s i p)]
  rfl

theorem coil_holdTime {c : Coil} {p : Profile} (h : c.profile = some p) : c.holdTime = p.hold * 1000 := by
  unfold Coil.holdTime
  rw [h]
  rfl

/-- A margin below W in PROVE starts the hold again. -/
theorem beforeChecks_holds (h : s.coils[i].profile = some p) :
    let t := ((s.beforeChecks i p).setCoil i
      { (s.beforeChecks i p).coils[i] with
        holdTimer := some ((s.beforeChecks i p).now + (s.beforeChecks i p).coils[i].holdTime) }).endEvent
    t.coils[i] = { s.coils[i].evaluatedAs t.coils[i] with holdTimer := some (s.now + p.hold * 1000) }
      ∧ s.NoticeKept t i := by
  intro t
  refine ⟨evaluatedAs_of p (g := fun c : Coil => { c with holdTimer := some (s.now + p.hold * 1000) })
    (fun _ => ⟨rfl, rfl, rfl⟩) ?_, ?_⟩
  · have hhold : (s.evaluated i p).holdTime = p.hold * 1000 := coil_holdTime h
    show t.coils[i] = _
    rw [endEvent_coils, setCoil_coils, tablePut_get_same, beforeChecks_coil, now_of_apart (beforeChecks_apart s i p), hhold]
  · exact noticeKept_slotKept ((beforeChecks_aside s i p).trans (setCoil_aside _ i _)).noticeKept endEvent_slotKept

/-- The checks trip the record. -/
theorem beforeChecks_trips (ha : s.coils[i].lifecycle = .armed) (cause : Cause) :
    let t := ((s.beforeChecks i p).trip i cause).endEvent
    t.coils[i] = (s.coils[i].evaluatedAs t.coils[i]).trip cause ∧ s.NoticeSet t i ∧ t.MarkedDirty (.coil i)
      ∧ t.units[s.coils[i].unit].faults.trip = true ∧ (s.power = .running → t.units[s.coils[i].unit].fso = .stop) := by
  intro t
  have harmed : (s.beforeChecks i p).coils[i].lifecycle = .armed := by
    rw [beforeChecks_coil]
    exact ha
  have hunit : (s.beforeChecks i p).coils[i].unit = s.coils[i].unit := by
    rw [beforeChecks_coil]
    rfl
  have hpower : (s.beforeChecks i p).power = s.power := power_of_apart (beforeChecks_apart s i p)
  have htripped : (s.beforeChecks i p).Tripped t i cause :=
    (trip_tripped cause harmed).between (.refl _ i) rfl (endEvent_passedBy _ i)
  clear_value t
  have hcoil : t.coils[i] = (s.evaluated i p).trip cause := htripped.coil.trans (by rw [beforeChecks_coil])
  exact ⟨evaluatedAs_of p (g := fun c : Coil => c.trip cause) (fun _ => ⟨rfl, rfl, rfl⟩) hcoil,
    (beforeChecks_aside s i p).noticeSet htripped.notice, htripped.dirty, htripped.fault_of hunit,
    fun hp => htripped.stop_of hunit (hpower.trans hp)⟩

/-- The test for drops in STEP_DOWN. -/
theorem beforeChecks_testsDrops (ha : s.coils[i].lifecycle = .armed) {d : Dropped} (hd : s.coils[i].stage = .recovery (.stepDown d))
    (hr : (s.evaluate s.coils[i] p).available = true) :
    let t := ((s.beforeChecks i p).testDrops i).endEvent
    (s.setCoil i (s.coils[i].evaluatedAs t.coils[i])).TestsDrops t i d := by
  intro t
  have hcoils : t.coils = ((s.beforeChecks i p).testDrops i).coils := endEvent_coils _
  have hrestaged : (s.evaluated i p).Restaged t.coils[i] := by
    rw [hcoils, ← beforeChecks_coil]
    exact (dropLoop_stagesOnly 4 (s.beforeChecks i p) i).coil
  have heval : s.coils[i].evaluatedAs t.coils[i] = s.evaluated i p :=
    (congrArg (s.coils[i].evaluatedAs ·) hrestaged).trans rfl
  have hbefore : s.beforeChecks i p = s.setCoil i (s.evaluated i p) := beforeChecks_available hr
  rw [heval, ← hbefore]
  exact testsDrops_endEvent (testDrops_testsDrops (by rw [beforeChecks_coil]; exact ha) (by rw [beforeChecks_coil]; exact hd))

end

end Sys2Proof.Machine
end

