-- ==== Sys2Proof/Proofs/StageMoves.lean ====
section
/-! An evaluation moves its record's stage by the first check that matches (R70 to R75). -/

namespace Sys2Proof.Machine

variable {s : State} {i j : Slot} {p : Profile}

/-! ### The dose, the result and the summary after an evaluation -/

theorem Coil.Restaged.last {c d : Coil} (h : c.Restaged d) : d.last = c.last := by
  unfold Coil.Restaged at h
  exact (congrArg Coil.last h :)

theorem Coil.Restaged.dose {c d : Coil} (h : c.Restaged d) : d.dose = c.dose := by
  unfold Coil.Restaged at h
  exact (congrArg Coil.dose h :)

theorem evaluation_result (h : s.coils[i].profile = some p) :
    (s.evaluation i).endEvent.coils[i].last = some (s.evaluate s.coils[i] p)
      ∧ (s.evaluation i).endEvent.coils[i].dose = (s.beforeChecks i p).coils[i].dose := by
  obtain ⟨hcoil, -⟩ := evaluation_leaves h
  rw [endEvent_coils, beforeChecks_coil]
  exact ⟨hcoil.last, hcoil.dose⟩

theorem evaluation_slotKept (h : s.coils[i].profile = some p) (hj : j ≠ i) : s.SlotKept (s.evaluation i).endEvent j := by
  rw [evaluation_eq h]
  exact ((beforeChecks_slotKept hj).trans (stageChecks_slotKept hj)).trans endEvent_slotKept

/-- SENSOR_LOST is added where the evaluation finds a required binding unavailable, whichever check then matches (R72, R133). -/
theorem evaluation_sensorLost (h : s.coils[i].profile = some p) (hr : ¬ (s.evaluate s.coils[i] p).available = true) :
    (s.evaluation i).endEvent.units[s.coils[i].unit].faults.sensorLost = true := by
  rw [endEvent_units, evaluation_eq h]
  refine stageChecks_keepsSensorLost ?_
  rw [beforeChecks_unavailable hr, addFault_unit, if_pos rfl]
  rfl

/-- Settles O48: the first check that matches moves the stage. -/
theorem evaluationMovesTheStage : Obligations.EvaluationMovesTheStage := by
  intro s i p due c now htimer hprofile ha
  let x : State := s.atExpiry due
  let y : State := x.beforeChecks i p
  let r : EvalResult := x.evaluate c p
  have hexec : exec (.evaluationExpiry i) s = .next (x.evaluation i).endEvent :=
    congrArg Host.Outcome.next (expire_some htimer _)
  obtain ⟨hlast, hdose⟩ := evaluation_result (s := x) (i := i) hprofile
  refine ⟨_, r, hexec, hlast, ?_⟩
  intro d below above airLimit doseTrip stands enters dirty trips checked passed
  have hstage : y.coils[i].stage = c.stage := by rw [beforeChecks_coil]; rfl
  have hchecked : y.coils[i].stage ≠ .trip ∧ y.coils[i].stage ≠ .lockout ↔ checked := by rw [hstage]
  have hchecks : x.evaluation i = y.stageChecks i p r := evaluation_eq hprofile
  have hdoseTrip : p.dose.tripDose ≤ y.coils[i].dose ↔ doseTrip := by rw [← hdose]
  have hstands (h : x.evaluation i = y) : stands := by
    show (x.evaluation i).endEvent.coils[i] = c.evaluatedAs (x.evaluation i).endEvent.coils[i]
      ∧ x.NoticeKept (x.evaluation i).endEvent i
    rw [h]
    exact beforeChecks_stands x i p
  have henters (st : Stage) (cause : Cause) (h : x.evaluation i = y.enterStage i st cause) : enters st cause := by
    show x.NoticeSet (x.evaluation i).endEvent i ∧ (x.evaluation i).endEvent.coils[i] =
      { c.evaluatedAs (x.evaluation i).endEvent.coils[i] with
        stage := st, cause := cause, holdTimer := none, cleanTimer := if st = .clear then some (now + 3600000) else none }
    rw [h]
    exact beforeChecks_enters x i p st cause
  have htrips (cause : Cause) (h : x.evaluation i = y.trip i cause) : trips cause := by
    obtain ⟨hcoil, hleft⟩ := beforeChecks_trips x i p ha cause
    rw [← h] at hcoil hleft
    exact ⟨hcoil.trans (coil_trip_eq _ cause), hleft⟩
  have hair : r.airLimit = true ↔ airLimit := airLimit_iff r
  have hbelow : r.below p = true ↔ below := below_iff r p
  have habove : r.atOrAbove p = true ↔ above := atOrAbove_iff r p
  have hlater (h : passed) : x.evaluation i = y.laterChecks i p r :=
    hchecks.trans (stageChecks_later (hchecked.2 h.1) (mt hair.1 h.2.1) (mt hdoseTrip.1 h.2.2.1) h.2.2.2)
  refine ⟨fun j hj => (evaluation_slotKept (s := x) hprofile hj).kept, fun h => ?_, fun h ha => ?_, fun h hna hd => ?_,
    fun h hna hnd hr => ?_, fun hr => ?_, fun h hst hu => ?_, fun h hst hu => ?_, fun h hst hu => ?_, fun h hst => ?_,
    fun h hst => ?_, fun h hst => ?_, fun k h hst hb => ?_, fun k h hst hb => ?_⟩
  · exact hstands (hchecks.trans (stageChecks_unchecked (mt hchecked.1 h)))
  · exact htrips _ (hchecks.trans (stageChecks_airLimit (hchecked.2 h) (hair.2 ha)))
  · exact htrips _ (hchecks.trans (stageChecks_doseTrip (hchecked.2 h) (mt hair.1 hna) (hdoseTrip.2 hd)))
  · have hlost := hchecks.trans (stageChecks_sensorLost (hchecked.2 h) (mt hair.1 hna) (mt hdoseTrip.1 hnd) hr)
    rw [hstage] at hlost
    split_ifs at hlost ⊢ with hguard
    · exact hstands hlost
    · exact henters _ _ hlost
  · exact evaluation_sensorLost (s := x) hprofile (by rw [show (x.evaluate x.coils[i] p).available = false from hr]; decide)
  · exact henters _ _ ((hlater h).trans (laterChecks_doseGuard (by rwa [hstage]) (by rwa [← hdose])))
  · have hmove := ((hlater h).trans (laterChecks_clear (hstage.trans hst))).trans (if_neg (by rw [← hdose]; exact not_le.2 hu))
    split_ifs with hb
    · exact henters _ _ (hmove.trans (if_pos (hbelow.2 hb)))
    · exact hstands (hmove.trans (if_neg (mt hbelow.1 hb)))
  · have hmove := ((hlater h).trans (laterChecks_watch (hstage.trans hst))).trans (if_neg (by rw [← hdose]; exact not_le.2 hu))
    have hcond : r.atOrAbove p = true ∧ y.coils[i].dose = 0 ↔ above ∧ d.dose = 0 := and_congr habove (by rw [← hdose])
    split_ifs with hb
    · exact henters _ _ (hmove.trans (if_pos (hcond.2 hb)))
    · exact hstands (hmove.trans (if_neg (mt hcond.1 hb)))
  · have hmove := (hlater h).trans (laterChecks_guard (hstage.trans hst))
    have hcond : y.coils[i].dose ≤ p.dose.lower ∧ r.atOrAbove p = true ↔ d.dose ≤ p.dose.lower ∧ above :=
      and_congr (by rw [← hdose]) habove
    split_ifs with hb
    · exact henters _ _ (hmove.trans (if_pos (hcond.2 hb)))
    · exact hstands (hmove.trans (if_neg (mt hcond.1 hb)))
  · have hmove := (hlater h).trans (laterChecks_fanRestart (hstage.trans hst))
    split_ifs with hf
    · have hproves := beforeChecks_proves x i p
      rw [← hmove.trans (if_pos hf), show x.coils[i].holdTime = p.hold * 1000 from coil_holdTime hprofile] at hproves
      exact hproves
    · exact hstands (hmove.trans (if_neg hf))
  · have hmove := (hlater h).trans (laterChecks_prove (hstage.trans hst))
    split_ifs with hb
    · have hholds := beforeChecks_holds x i p hprofile
      rw [← hmove.trans (if_pos (hbelow.2 hb))] at hholds
      exact hholds
    · exact hstands (hmove.trans (if_neg (mt hbelow.1 hb)))
  · exact henters _ _ (((hlater h).trans (laterChecks_stepDown (hstage.trans hst))).trans (if_pos (hbelow.2 hb)))
  · have hmove := ((hlater h).trans (laterChecks_stepDown (hstage.trans hst))).trans (if_neg (mt hbelow.1 hb))
    have htests := beforeChecks_testsDrops x i p ha hst h.2.2.2
    rw [← hmove] at htests
    exact htests

end Sys2Proof.Machine
end

