-- ==== Sys2Proof/Proofs/StepDownTests.lean ====
section
/-! The tests that a completed dispatch causes in the records in STEP_DOWN (R87, R116), one after another in the order of the slots. -/

namespace Sys2Proof.Machine

variable {s t : State} {k : DemandKey} {i j : Slot} {p : Dropped}

/-! ### A loop over the slots, cut short -/

/-- An operation applied to the slots below `n`, one after another. -/
def forSlotsBelow (n : Nat) (f : Slot → State → State) (s : State) : State :=
  ((List.finRange 48).take n).foldl (fun s i => f i s) s

theorem forSlotsBelow_zero (f : Slot → State → State) (s : State) : forSlotsBelow 0 f s = s := rfl

theorem forSlotsBelow_succ (f : Slot → State → State) (s : State) (i : Slot) :
    forSlotsBelow (i.val + 1) f s = f i (forSlotsBelow i.val f s) := by
  have hlen : i.val < (List.finRange 48).length := by rw [List.length_finRange]; exact i.isLt
  unfold forSlotsBelow
  rw [List.take_add_one, List.getElem?_eq_getElem hlen, Option.toList_some, List.foldl_append, List.foldl_cons, List.foldl_nil,
    List.getElem_finRange]
  rfl

theorem forSlotsBelow_all (f : Slot → State → State) (s : State) : forSlotsBelow 48 f s = forSlots f s := by
  unfold forSlotsBelow
  rw [List.take_of_length_le (by rw [List.length_finRange])]
  rfl

theorem forSlotsBelow_keeps {P : State → Prop} {f : Slot → State → State} (h : ∀ i s, P s → P (f i s)) (n : Nat) (hs : P s) :
    P (forSlotsBelow n f s) := foldl_keeps_prop h _ s hs

/-! ### One test -/

/-- The test of one slot: made where its record is ARMED in STEP_DOWN and dropped the key last. -/
def State.stepDownTest (k : DemandKey) (i : Slot) (s : State) : State :=
  match s.coils[i].stage with
  | .recovery (.stepDown d) =>
    if s.coils[i].lifecycle = .armed ∧ s.lastDropped s.coils[i] d = some k then s.testDrops i else s
  | _ => s

theorem stepDownTests_eq (s : State) (k : DemandKey) : s.stepDownTests k = forSlots (State.stepDownTest k) s := rfl

/-- A record in STEP_DOWN that waits for the entry of a key. -/
abbrev State.Tested (s : State) (c : Coil) (p : Dropped) (k : DemandKey) : Prop :=
  c.lifecycle = .armed ∧ c.stage = .recovery (.stepDown p) ∧ s.DroppedLast c p k

theorem stepDownTest_tested (h : s.Tested s.coils[i] p k) : s.stepDownTest k i = s.testDrops i := by
  obtain ⟨ha, hst, hlast⟩ := h
  unfold State.stepDownTest
  rw [hst]
  exact if_pos ⟨ha, lastDropped_iff.2 hlast⟩

theorem stepDownTest_other (h : ∀ p, ¬ s.Tested s.coils[i] p k) : s.stepDownTest k i = s := by
  unfold State.stepDownTest
  split
  next d hst => exact if_neg fun ht => h d ⟨ht.1, hst, lastDropped_iff.1 ht.2⟩
  · rfl

/-- A property that the test for drops of a tested record keeps, every test keeps. -/
theorem stepDownTest_keeps {P : State → Prop} (h : ∀ p, s.Tested s.coils[i] p k → P (s.testDrops i)) (hs : P s) :
    P (s.stepDownTest k i) := by
  by_cases ht : ∃ p, s.Tested s.coils[i] p k
  · obtain ⟨p, hp⟩ := ht
    rw [stepDownTest_tested hp]
    exact h p hp
  · rw [stepDownTest_other (not_exists.1 ht)]
    exact hs

theorem stepDownTest_passedBy (h : j ≠ i) : s.PassedBy (s.stepDownTest k i) j :=
  stepDownTest_keeps (P := fun t => s.PassedBy t j) (fun _ _ => testDrops_passedBy h) (.refl s j)

theorem stepDownTest_units (s : State) (k : DemandKey) (i : Slot) : (s.stepDownTest k i).units = s.units :=
  stepDownTest_keeps (P := fun t => t.units = s.units) (fun _ _ => testDrops_units s i) rfl

theorem stepDownTest_joinStamp (s : State) (k : DemandKey) (i : Slot) : (s.stepDownTest k i).joinStamp = s.joinStamp :=
  stepDownTest_keeps (P := fun t => t.joinStamp = s.joinStamp) (fun _ _ => testDrops_joinStamp s i) rfl

/-- The key that a tested record waits for is dropped already, so that the test leaves its entry (R87). -/
theorem stepDownTest_demandOf (s : State) (k : DemandKey) (i : Slot) :
    demandOf (s.stepDownTest k i).demands k = demandOf s.demands k := by
  refine stepDownTest_keeps (P := fun t => demandOf t.demands k = demandOf s.demands k) (fun p ht => ?_) rfl
  obtain ⟨ha, hst, -, hhas, -⟩ := ht
  obtain ⟨n, -, -, -, -, -, -, -, -, hother, -⟩ := testDrops_testsDrops ha hst
  refine hother k fun hk => ?_
  have hleft := (mem_dropsLeft.1 (List.mem_of_mem_take hk)).2.2
  rw [hhas] at hleft
  cases hleft

/-! ### All tests -/

theorem stepDownTests_units (s : State) (k : DemandKey) : (s.stepDownTests k).units = s.units :=
  forSlots_keeps (g := State.units) (fun i t => stepDownTest_units t k i) s

theorem stepDownTests_demandOf (s : State) (k : DemandKey) : demandOf (s.stepDownTests k).demands k = demandOf s.demands k :=
  forSlots_keeps (g := fun t => demandOf t.demands k) (fun i t => stepDownTest_demandOf t k i) s

/-- A record that does not wait for the key is passed by. -/
theorem stepDownTests_passedBy (h : ∀ p, s.coils[j].stage = .recovery (.stepDown p) → ¬ s.DroppedLast s.coils[j] p k) :
    s.PassedBy (s.stepDownTests k) j := by
  obtain ⟨t, hunits, hbefore, hafter⟩ := forSlots_slot (s := s) (P := fun _ t => t.units = s.units)
    (R := fun s t => s.PassedBy t j) (f := State.stepDownTest k) j (fun t => .refl t j) .trans
    (fun i t ht => (stepDownTest_units t k i).trans ht) (fun _ _ hj _ => stepDownTest_passedBy hj) rfl
  have htarget : t.targetPairs = s.targetPairs := targetPairs_of_controllers fun u => by rw [hunits]
  have hnot : ∀ p, ¬ t.Tested t.coils[j] p k := by
    intro p hp
    rw [hbefore.slot.coil] at hp
    obtain ⟨-, hst, hlast⟩ := hp
    rw [State.DroppedLast, htarget] at hlast
    exact h p hst hlast
  rw [stepDownTest_other hnot] at hafter
  exact hbefore.trans hafter

end Sys2Proof.Machine
end

