-- ==== Sys2Proof/Proofs/Escalations.lean ====
section
/-! The fault of an entry (R111 to R113): ACTUATOR_FAIL in the summaries of the units that it concerns, and the escalation of a
faulted OAC or VFO assert to the records that contribute to the entry (R77). -/

namespace Sys2Proof.Machine

variable {s t : State} {k : DemandKey} {i j : Slot} {d : Dispatch}

/-! ### Faults added to several units (R133) -/

theorem addFaultWhere_unit (s : State) (q : FaultKind) (p : UnitNo → Bool) (v : UnitNo) : (s.addFaultWhere q p).units[v] =
    if p v = true then { s.units[v] with faults := s.units[v].faults.add q } else s.units[v] := by
  refine forUnits_units (P := fun _ => True) (g := fun v e => if p v = true then { e with faults := e.faults.add q } else e)
    (fun _ _ _ => trivial) (fun u t _ w => ?_) trivial v
  by_cases hw : w = u
  · subst hw
    rw [if_pos rfl]
    split_ifs
    · rw [addFault_unit, if_pos rfl]
    · rfl
  · rw [if_neg hw]
    split_ifs
    · rw [addFault_unit, if_neg hw]
    · rfl

theorem addFaultWhere_eq (s : State) (q : FaultKind) (p : UnitNo → Bool) :
    s.addFaultWhere q p = { s with units := (s.addFaultWhere q p).units } := by
  refine forUnits_keeps_prop (P := fun t => t = { s with units := t.units }) (fun v t ht => ?_) s rfl
  split_ifs
  · exact congrArg (fun x : State => x.addFault v q) ht
  · exact ht

/-- A fault added to several units passes every slot by. -/
theorem addFaultWhere_passedBy (s : State) (q : FaultKind) (p : UnitNo → Bool) (j : Slot) : s.PassedBy (s.addFaultWhere q p) j where
  slot := by
    rw [addFaultWhere_eq]
    exact ⟨rfl, rfl, fun _ h _ => h⟩
  dirty h := by
    rw [addFaultWhere_eq]
    exact h
  fault v h := by
    rw [addFaultWhere_unit]
    split_ifs
    · cases q with
      | trip => rfl
      | _ => exact h
    · exact h
  stop v h := by
    rw [addFaultWhere_unit]
    split_ifs <;> exact h

/-! ### The units that a fault concerns (R112) -/

theorem actuatorUnits_iff (s : State) (k : DemandKey) (u : UnitNo) : s.actuatorUnits k u = true ↔
    (∃ j : Slot, s.coils[j].unit = u ∧ (s.coils[j].lifecycle = .settling ∨ s.coils[j].lifecycle = .armed)
        ∧ k ∈ s.targetPairs s.coils[j])
      ∨ ((k.kind = .fs ∨ k.kind = .oac) ∧ s.units[u].controller = some k.station) := by
  have hmem (c : Coil) : c ∈ s.coils.toList ↔ ∃ j : Slot, s.coils[j] = c := by
    rw [Vector.mem_toList_iff, Vector.mem_iff_getElem]
    exact ⟨fun ⟨j, h, e⟩ => ⟨⟨j, h⟩, e⟩, fun ⟨j, e⟩ => ⟨j.val, j.isLt, e⟩⟩
  unfold State.actuatorUnits
  simp only [Bool.or_eq_true, Bool.and_eq_true, List.any_eq_true, hmem, beq_iff_eq, holdsReferences_iff, List.contains_iff_mem,
    and_assoc]
  exact or_congr_left ⟨fun ⟨_, ⟨j, hj⟩, h⟩ => ⟨j, hj ▸ h⟩, fun ⟨j, h⟩ => ⟨_, ⟨j, rfl⟩, h⟩⟩

/-! ### The escalation (R77, R113) -/

theorem escalates_iff (st : Stage) : st.escalates = true ↔ st = .guard ∨ ∃ ph, st = .recovery ph := by
  cases st <;> simp [Stage.escalates]

theorem dispatch_escalates_iff (d : Dispatch) :
    d.escalates = true ↔ d.polarity = .assert ∧ (d.key.kind = .oac ∨ d.key.kind = .vfo) := by
  simp [Dispatch.escalates]

/-- A record in GUARD or RECOVERY that contributes to the entry of a key. -/
abbrev State.Contributes (s : State) (c : Coil) (k : DemandKey) : Prop :=
  c.stage.escalates = true ∧ k ∈ s.demandedPairs c

theorem contributes_iff (s : State) (c : Coil) (k : DemandKey) : s.Contributes c k ↔
    c.lifecycle = .armed ∧ (c.stage = .guard ∨ ∃ ph, c.stage = .recovery ph) ∧ k ∈ s.demandedPairs c := by
  rw [State.Contributes, escalates_iff]
  exact ⟨fun h => ⟨(mem_demandedPairs.1 h.2).1, h⟩, fun h => h.2⟩

theorem trip_controller (s : State) (i : Slot) (cause : Cause) (v : UnitNo) :
    (s.trip i cause).units[v].controller = s.units[v].controller := by
  rw [trip_unit]
  split_ifs <;> rfl

theorem trip_actuatorFail (s : State) (i : Slot) (cause : Cause) (v : UnitNo) :
    (s.trip i cause).units[v].faults.actuatorFail = s.units[v].faults.actuatorFail := by
  rw [trip_unit]
  split_ifs <;> rfl

/-- An escalation trips the records that contribute, once each, and passes the others by. -/
theorem escalate_slot (s : State) (k : DemandKey) (j : Slot) :
    (s.Contributes s.coils[j] k → s.Tripped (s.escalate k) j .actuator)
    ∧ (¬ s.Contributes s.coils[j] k → s.PassedBy (s.escalate k) j) := by
  refine forSlots_trips (P := fun t => ∀ v : UnitNo, t.units[v].controller = s.units[v].controller)
    (meets := fun t c => t.Contributes c k) .actuator (fun t c h => (mem_demandedPairs.1 h.2).1) (fun t ht c => ?_)
    (fun i t ht v => (trip_controller t i _ v).trans (ht v)) (fun _ => rfl) j
  rw [State.Contributes, demandedPairs_of_target (targetPairs_of_controllers ht)]

theorem escalate_actuatorFail (s : State) (k : DemandKey) (v : UnitNo) :
    (s.escalate k).units[v].faults.actuatorFail = s.units[v].faults.actuatorFail := by
  obtain ⟨e, he, hkept⟩ := forSlots_keeps_prop
    (P := fun t => ∃ e, t.units[v] = e ∧ e.faults.actuatorFail = s.units[v].faults.actuatorFail)
    (f := fun i t => if t.Contributes t.coils[i] k then t.trip i .actuator else t)
    (fun i t ⟨e, he, hkept⟩ => by
      split_ifs
      · exact ⟨_, rfl, (trip_actuatorFail t i _ v).trans (by rw [he, hkept])⟩
      · exact ⟨e, he, hkept⟩)
    s ⟨_, rfl, rfl⟩
  have hunit : (s.escalate k).units[v] = e := he
  rw [hunit, hkept]

/-! ### The entry of the fault -/

theorem contributeAll_nodup {ds : List DemandEntry} (hd : (ds.map (·.key)).Nodup) (stamp : Nat) (removed added : List DemandKey) :
    ((contributeAll stamp removed added ds).map (·.key)).Nodup := by
  have hkeys : (ds.map (DemandEntry.contribute stamp removed added)).map (·.key) = ds.map (·.key) := by
    rw [List.map_map]
    exact List.map_congr_left fun e _ => contribute_key stamp removed added e
  unfold contributeAll
  refine List.Nodup.sublist (List.filter_sublist.map _) ?_
  rw [hkeys]
  exact hd

theorem trip_demands (s : State) (i : Slot) (cause : Cause) :
    (s.trip i cause).demands = (s.changeCoil i (s.coils[i].trip cause)).demands := by
  unfold State.trip
  exact markDirty_demands _

theorem trip_joinStamp (s : State) (i : Slot) (cause : Cause) : (s.trip i cause).joinStamp = s.joinStamp := by
  unfold State.trip
  exact markDirty_joinStamp _ _

/-- A record that contributes before its trip contributes after it (R90): TRIP and LOCKOUT demand every kind. -/
theorem trip_demandedPairs {c : Coil} (cause : Cause) (h : k ∈ s.demandedPairs c) : k ∈ s.demandedPairs (c.trip cause) := by
  obtain ⟨ha, hk, -⟩ := mem_demandedPairs.1 h
  refine mem_demandedPairs.2 ⟨ha, ?_, ?_⟩
  · rwa [targetPairs_congr (s := s) (c := c) (d := c.trip cause) rfl rfl rfl]
  · rcases coil_trip_stage c cause with hst | hst <;> rw [hst] <;> rfl

/-- The trip of a record leaves the entry of a key that the record demands. -/
theorem trip_demandOf (hd : (s.demands.map (·.key)).Nodup) (cause : Cause) (h : k ∈ s.demandedPairs s.coils[i]) :
    demandOf (s.trip i cause).demands k = demandOf s.demands k := by
  have hafter := trip_demandedPairs (s := s) cause h
  rw [trip_demands, changeCoil_demandOf hd]
  cases demandOf s.demands k with
  | none => rfl
  | some e => exact (if_neg fun hn => hn.2 h).trans (if_neg fun hn => hn.2 hafter)

/-- An escalation leaves the entry whose fault it hands on. -/
theorem escalate_demandOf (hd : (s.demands.map (·.key)).Nodup) (k : DemandKey) :
    demandOf (s.escalate k).demands k = demandOf s.demands k := by
  refine (forSlots_keeps_prop
    (P := fun t => (t.demands.map (·.key)).Nodup ∧ demandOf t.demands k = demandOf s.demands k) (fun i t ⟨hn, hk⟩ => ?_) s
    ⟨hd, rfl⟩).2
  split_ifs with h
  · refine ⟨?_, (trip_demandOf hn _ h.2).trans hk⟩
    rw [trip_demands]
    exact contributeAll_nodup hn _ _ _
  · exact ⟨hn, hk⟩

theorem escalate_joinStamp (s : State) (k : DemandKey) : (s.escalate k).joinStamp = s.joinStamp := by
  refine forSlots_keeps (g := State.joinStamp) (fun i t => ?_) s
  split_ifs
  · exact trip_joinStamp t i _
  · rfl

/-! ### A fault handed on -/

theorem handFault_eq (s : State) (d : Dispatch) : s.handFault d =
    if d.escalates = true then (s.addFaultWhere .actuatorFail (s.actuatorUnits d.key)).escalate d.key
    else s.addFaultWhere .actuatorFail (s.actuatorUnits d.key) := rfl

theorem addFaultWhere_contributes (s : State) (q : FaultKind) (p : UnitNo → Bool) (c : Coil) (k : DemandKey) :
    (s.addFaultWhere q p).Contributes c k ↔ s.Contributes c k := by
  rw [State.Contributes, demandedPairs_of_target (targetPairs_of_controllers fun v => ?_)]
  rw [addFaultWhere_unit]
  split_ifs <;> rfl

/-- A fault trips the records that it escalates to, and passes the others by (R77, R113). -/
theorem handFault_slot (s : State) (d : Dispatch) (j : Slot) :
    (d.escalates = true ∧ s.Contributes s.coils[j] d.key → s.Tripped (s.handFault d) j .actuator)
    ∧ (¬ (d.escalates = true ∧ s.Contributes s.coils[j] d.key) → s.PassedBy (s.handFault d) j) := by
  rw [handFault_eq]
  have hadded := addFaultWhere_passedBy s .actuatorFail (s.actuatorUnits d.key) j
  split_ifs with he
  · obtain ⟨htrips, hpasses⟩ := escalate_slot (s.addFaultWhere .actuatorFail (s.actuatorUnits d.key)) d.key j
    rw [addFaultWhere_contributes, hadded.slot.coil] at htrips hpasses
    exact ⟨fun h => (htrips h.2).between hadded (power_of_apart (addFaultWhere_apart _ _ _)) (.refl _ j),
      fun h => hadded.trans (hpasses fun hc => h ⟨he, hc⟩)⟩
  · exact ⟨fun h => absurd h.1 he, fun _ => hadded⟩

/-- ACTUATOR_FAIL after a fault: where it stood, and in the units that the fault concerns (R112). -/
theorem handFault_actuatorFail (s : State) (d : Dispatch) (v : UnitNo) : (s.handFault d).units[v].faults.actuatorFail = true ↔
    s.units[v].faults.actuatorFail = true ∨ s.actuatorUnits d.key v = true := by
  have hadded : (s.addFaultWhere .actuatorFail (s.actuatorUnits d.key)).units[v].faults.actuatorFail = true ↔
      s.units[v].faults.actuatorFail = true ∨ s.actuatorUnits d.key v = true := by
    rw [addFaultWhere_unit]
    split_ifs with h
    · exact iff_of_true rfl (.inr h)
    · exact ⟨.inl, fun hor => hor.resolve_right h⟩
  have hkept : (s.handFault d).units[v].faults.actuatorFail =
      (s.addFaultWhere .actuatorFail (s.actuatorUnits d.key)).units[v].faults.actuatorFail := by
    by_cases he : d.escalates = true
    · rw [handFault_eq, if_pos he, escalate_actuatorFail]
    · rw [handFault_eq, if_neg he]
  rw [hkept, hadded]

theorem handFault_apart (s : State) (d : Dispatch) : (s.handFault d).apart = s.apart := by
  rw [handFault_eq]
  split_ifs <;> simp

/-- A fault moves no unit's controller, and so no record's pairs. -/
theorem handFault_targetPairs (s : State) (d : Dispatch) : (s.handFault d).targetPairs = s.targetPairs := by
  have hadded : (s.addFaultWhere .actuatorFail (s.actuatorUnits d.key)).targetPairs = s.targetPairs := by
    refine targetPairs_of_controllers fun v => ?_
    rw [addFaultWhere_unit]
    split_ifs <;> rfl
  rw [handFault_eq]
  split_ifs
  · refine (forSlots_keeps (g := State.targetPairs) (fun i t => ?_) _).trans hadded
    split_ifs
    · exact targetPairs_of_controllers (trip_controller t i _)
    · rfl
  · exact hadded

theorem handFault_joinStamp (s : State) (d : Dispatch) : (s.handFault d).joinStamp = s.joinStamp := by
  have hadded : (s.addFaultWhere .actuatorFail (s.actuatorUnits d.key)).joinStamp = s.joinStamp := by rw [addFaultWhere_eq]
  rw [handFault_eq]
  split_ifs
  · exact (escalate_joinStamp _ _).trans hadded
  · exact hadded

theorem handFault_demandOf (hd : (s.demands.map (·.key)).Nodup) (d : Dispatch) :
    demandOf (s.handFault d).demands d.key = demandOf s.demands d.key := by
  have hadded : (s.addFaultWhere .actuatorFail (s.actuatorUnits d.key)).demands = s.demands := by rw [addFaultWhere_eq]
  rw [handFault_eq]
  split_ifs
  · rw [escalate_demandOf (by rwa [hadded]), hadded]
  · rw [hadded]

end Sys2Proof.Machine
end

