-- ==== Sys2Proof/Proofs/ActionCompletions.lean ====
section
/-! An ACTION frame that completes (R87, R108 to R113, R116): the outcome applied to the entry, the fault handed on, and the tests
for drops that follow. -/

namespace Sys2Proof.Machine

variable {s t : State} {k : DemandKey} {i j : Slot} {d : Dispatch} {e : DemandEntry} {ack : AckBits} {fr : Frame} {now stamp : Nat}
  {p : Polarity}

/-! ### The outcome (R108, R160) -/

theorem readAck_accept_iff (ack : AckBits) : readAck ack = .accept ↔ ack = ⟨.dominant, .recessive⟩ := by
  obtain ⟨first, second⟩ := ack
  cases first <;> cases second <;> decide

/-- A frame is accepted where the slot says so, and not where the target is the part itself. -/
theorem actionOutcome_accept_iff (s : State) (d : Dispatch) (ack : AckBits) : s.actionOutcome d ack = .accept ↔
    ack = ⟨.dominant, .recessive⟩ ∧ d.key.station ≠ s.address := by
  unfold State.actionOutcome
  split_ifs with h
  · exact iff_of_false (fun h => by cases h) fun hn => hn.2 h
  · rw [readAck_accept_iff]
    exact (and_iff_left h).symm

/-! ### The entry (R109 to R111) -/

section
variable (hq : e.queued = none) (hr : e.refreshDue = false)
include hq hr

/-- The comparison of an entry that is neither queued nor in flight, neither faulted nor refresh-due (R102). -/
theorem compare_idle (hi : e.inFlight = none) (hf : e.faulted = false) : e.compare stamp =
    { e with queued := if e.required ≠ e.commanded then some stamp else none } := by
  have hidle : ¬ (e.inFlight.isSome || e.faulted) = true := by simp [hi, hf]
  unfold DemandEntry.compare
  rw [if_neg hidle]
  split_ifs with hn h
  · simp [hq, hr]
  · rw [hr] at h
    cases h
  · rfl

/-- The entry after ACCEPT. -/
theorem accepted_eq (hf : e.faulted = false) : DemandEntry.accepted now stamp p e =
    { e with
      inFlight := none, commanded := if p = .assert then .asserted else .released, attempts := 0
      holdOff := some (now + if p = .assert then 1000 else 200)
      refreshTimer := if p = .assert then some (now + 60000) else none
      queued :=
        if (if e.demand = 0 then Commanded.released else .asserted) ≠ (if p = .assert then .asserted else .released) then some stamp
        else none } := by
  unfold DemandEntry.accepted
  cases p with
  | assert => exact compare_idle (by exact hq) (by exact hr) rfl (by exact hf)
  | release => exact compare_idle (by exact hq) (by exact hr) rfl (by exact hf)

/-- The entry after a failure that does not fault it: it joins the queue again where it differs from its demand, or as a refresh. -/
theorem failed_eq (ha : e.attempts < 3) :
    let required : Commanded := if e.demand = 0 then .released else .asserted
    let joins : Bool := required ≠ e.commanded
    let refresh : Bool := p = .assert ∧ e.commanded = .asserted ∧ required = .asserted
    DemandEntry.failed now stamp p e =
      { e with
        inFlight := none, attempts := if joins || refresh then e.attempts + 1 else 0, holdOff := some (now + 1000)
        queued := if joins || refresh then some stamp else none, refreshDue := refresh } := by
  intro required joins refresh
  have hattempts : ¬ Config.maxAttempts ≤ e.attempts + 1 := Nat.not_le.2 (Nat.succ_lt_succ ha)
  by_cases hj : required ≠ e.commanded
  · have hjoins : joins = true := decide_eq_true hj
    have hrefresh : refresh = false := decide_eq_false fun h => hj (h.2.2.trans h.2.1.symm)
    rw [hjoins, hrefresh, ← hr]
    exact (if_neg hattempts).trans (if_pos hj)
  · have hjoins : joins = false := decide_eq_false hj
    by_cases hp : p = .assert ∧ e.commanded = .asserted
    · have hrefresh : refresh = true := decide_eq_true ⟨hp.1, hp.2, (not_not.1 hj).trans hp.2⟩
      rw [hjoins, hrefresh]
      exact (if_neg hattempts).trans ((if_neg hj).trans (if_pos hp))
    · have hrefresh : refresh = false := decide_eq_false fun h => hp ⟨h.1, h.2.1⟩
      rw [hjoins, hrefresh, ← hr]
      refine ((if_neg hattempts).trans ((if_neg hj).trans (if_neg hp))).trans ?_
      simp [hq, hr]

end

/-- The entry at its fault. -/
theorem failed_fault (ha : 3 ≤ e.attempts) : DemandEntry.failed now stamp p e =
    { e with
      inFlight := none, attempts := e.attempts + 1, holdOff := some (now + 1000), faulted := true
      commanded := .unknown, queued := none, refreshDue := false, refreshTimer := none, retryTimer := some (now + 30000) } :=
  if_pos (Nat.succ_le_succ ha)

/-! ### The outcome applied -/

/-- The state with the entry of a key changed and tested for removal. -/
def State.withEntry (s : State) (k : DemandKey) (g : DemandEntry → DemandEntry) : State :=
  { s with demands := sweepDemand k (updateDemand k g s.demands) }

theorem applyOutcome_accept {outcome : Ack} (h : outcome = .accept) :
    s.applyOutcome d e outcome = s.withEntry d.key (DemandEntry.accepted s.now s.joinStamp d.polarity) := if_pos h

theorem applyOutcome_fails {outcome : Ack} (h : outcome ≠ .accept) (ha : e.attempts < 3) :
    s.applyOutcome d e outcome = s.withEntry d.key (DemandEntry.failed s.now s.joinStamp d.polarity) :=
  (if_neg h).trans (if_neg (Nat.not_le.2 (Nat.succ_lt_succ ha)))

theorem applyOutcome_faults {outcome : Ack} (h : outcome ≠ .accept) (ha : 3 ≤ e.attempts) :
    s.applyOutcome d e outcome = (s.withEntry d.key (DemandEntry.failed s.now s.joinStamp d.polarity)).handFault d :=
  (if_neg h).trans (if_pos (Nat.succ_le_succ ha))

/-- The state in which the outcome is applied: the line and the dispatcher are free. -/
def State.undispatched (s : State) : State := { s with line := none, dispatch := none }

/-- The completion of the frame in flight. -/
theorem exec_actionCompletion (hl : s.line = some ⟨.action, fr, false⟩) (hd : s.dispatch = some d)
    (he : demandOf s.demands d.key = some e) : exec (.actionCompletion ack) s =
      .next ((s.undispatched.applyOutcome d e (s.actionOutcome d ack)).stepDownTests d.key).endEvent := by
  have hcomplete : s.offLine.completeAction ack =
      ((s.undispatched.applyOutcome d e (s.actionOutcome d ack)).stepDownTests d.key).endEvent := by
    unfold State.completeAction
    rw [show s.offLine.dispatch = some d from hd]
    dsimp only
    rw [show demandOf s.offLine.demands d.key = some e from he]
    rfl
  exact congrArg Host.Outcome.next ((completeLine_takes hl rfl rfl).trans hcomplete)

/-! ### A fault reported and escalated (R74, R77, R111 to R113) -/

/-- Settles O46: the units that the fault concerns, and the records that it trips. -/
theorem faultIsReportedAndEscalated : Obligations.FaultIsReportedAndEscalated := by
  intro s fr ack d e hl hd he hattempts hfails k contributes escalated
  let x : State := s.undispatched.withEntry k (DemandEntry.failed s.now s.joinStamp d.polarity)
  let y : State := x.handFault d
  have houtcome : s.actionOutcome d ack ≠ .accept := fun h => by
    obtain ⟨hack, hstation⟩ := (actionOutcome_accept_iff s d ack).1 h
    exact hfails.elim (absurd hack) fun hown => hstation hown
  have hy : s.undispatched.applyOutcome d e (s.actionOutcome d ack) = y := applyOutcome_faults houtcome hattempts.ge
  have hescalated : d.escalates = true ↔ escalated := dispatch_escalates_iff d
  have hcontributes (i : Slot) : x.Contributes x.coils[i] k ↔ contributes i := contributes_iff x x.coils[i] k
  refine ⟨((y.stepDownTests k).endEvent), (exec_actionCompletion hl hd he).trans (by rw [hy]), fun u => ?_, fun i => ⟨?_, ?_⟩⟩
  · rw [endEvent_units, stepDownTests_units, handFault_actuatorFail, actuatorUnits_iff]
    exact .rfl
  · rintro ⟨hesc, hcon⟩
    have htripped : x.Tripped y i .actuator := (handFault_slot x d i).1 ⟨hescalated.2 hesc, (hcontributes i).2 hcon⟩
    have htests : y.PassedBy (y.stepDownTests k) i := stepDownTests_passedBy fun p hp => by
      rw [htripped.coil] at hp
      rcases coil_trip_stage x.coils[i] .actuator with hst | hst <;> rw [hst] at hp <;> cases hp
    have hafter := htests.trans (endEvent_passedBy _ i)
    generalize (y.stepDownTests k).endEvent = t at hafter ⊢
    obtain ⟨hcoil, hnotice, hdirty, hfault, hstop⟩ := htripped.between (.refl x i) rfl hafter
    exact ⟨hcoil.trans (coil_trip_eq _ _), hnotice, hdirty, hfault, hstop⟩
  · intro hnot hdrops
    have hpassed : x.PassedBy y i :=
      (handFault_slot x d i).2 fun h => hnot ⟨hescalated.1 h.1, (hcontributes i).1 h.2⟩
    have htests : y.PassedBy (y.stepDownTests k) i := stepDownTests_passedBy fun p hp => by
      rw [hpassed.slot.coil] at hp ⊢
      rw [State.DroppedLast, handFault_targetPairs]
      exact hdrops p hp
    have hslot := ((hpassed.trans htests).trans (endEvent_passedBy _ i)).slot
    exact ⟨hslot.coil, hslot.kept⟩

/-! ### The outcome and the tests that follow (R87, R101, R108 to R116) -/

/-- The entry of a key, changed and tested for removal. -/
theorem withEntry_demandOf (hd : (s.demands.map (·.key)).Nodup) {g : DemandEntry → DemandEntry} (hg : ∀ e, (g e).key = e.key)
    (he : demandOf s.demands k = some e) :
    demandOf (s.withEntry k g).demands k = if (g e).Unneeded then none else some (g e) := by
  refine (demandOf_updateSweep hd hg k k).trans ?_
  rw [if_pos rfl, he]
  rfl

theorem withEntry_demandOf_other (hd : (s.demands.map (·.key)).Nodup) {g : DemandEntry → DemandEntry} (hg : ∀ e, (g e).key = e.key)
    {l : DemandKey} (hl : l ≠ k) : demandOf (s.withEntry k g).demands l = demandOf s.demands l :=
  (demandOf_updateSweep hd hg k l).trans (if_neg hl)

theorem withEntry_nodup (hd : (s.demands.map (·.key)).Nodup) {g : DemandEntry → DemandEntry} (hg : ∀ e, (g e).key = e.key) :
    ((s.withEntry k g).demands.map (·.key)).Nodup := by
  refine List.Nodup.sublist (List.filter_sublist.map _) ?_
  rw [updateDemand_keys hg]
  exact hd

/-- What an outcome other than a fault leaves: the entry changed, and all else as it was. -/
structure State.EntryOnly (s t : State) (k : DemandKey) : Prop where
  coils : t.coils = s.coils
  units : t.units = s.units
  noticeFlags : t.noticeFlags = s.noticeFlags
  notice : t.notice = s.notice
  storeQueue : t.storeQueue = s.storeQueue
  writing : t.writing = s.writing
  demands : ∀ l, l ≠ k → demandOf t.demands l = demandOf s.demands l

theorem withEntry_entryOnly (hd : (s.demands.map (·.key)).Nodup) {g : DemandEntry → DemandEntry} (hg : ∀ e, (g e).key = e.key) :
    s.EntryOnly (s.withEntry k g) k :=
  ⟨rfl, rfl, rfl, rfl, rfl, rfl, fun _ hl => withEntry_demandOf_other hd hg hl⟩

/-- An outcome changes the entry, and leaves all else or hands on the fault. -/
theorem applyOutcome_cases {P : State → Prop} (outcome : Ack) (h : ∀ g, P (s.withEntry d.key g))
    (hfault : ∀ g, P ((s.withEntry d.key g).handFault d)) : P (s.applyOutcome d e outcome) := by
  unfold State.applyOutcome
  split_ifs
  · exact h _
  · exact hfault _
  · exact h _

theorem applyOutcome_apart (s : State) (d : Dispatch) (e : DemandEntry) (outcome : Ack) :
    (s.applyOutcome d e outcome).apart = s.apart :=
  applyOutcome_cases (P := fun t => t.apart = s.apart) outcome (fun _ => rfl) fun _ => handFault_apart _ d

theorem applyOutcome_joinStamp (s : State) (d : Dispatch) (e : DemandEntry) (outcome : Ack) :
    (s.applyOutcome d e outcome).joinStamp = s.joinStamp :=
  applyOutcome_cases (P := fun t => t.joinStamp = s.joinStamp) outcome (fun _ => rfl) fun _ => handFault_joinStamp _ d

/-- A record that does not contribute to the entry keeps its place at the outcome (R77). -/
theorem applyOutcome_coil (e : DemandEntry) (outcome : Ack) (h : ¬ s.Contributes s.coils[i] d.key) :
    (s.applyOutcome d e outcome).coils[i] = s.coils[i] :=
  applyOutcome_cases (P := fun t => t.coils[i] = s.coils[i]) outcome (fun _ => rfl) fun g =>
    ((handFault_slot (s.withEntry d.key g) d i).2 fun hc => h hc.2).slot.coil

/-- Settles O45: the outcome is applied to the entry, and the records that waited for it make their test, one after another. -/
theorem actionCompletionAppliesTheOutcome : Obligations.ActionCompletionAppliesTheOutcome := by
  intro s fr ack
  refine ⟨fun h => congrArg Host.Outcome.next (completeLine_orphan h rfl rfl),
    fun h => congrArg Host.Outcome.next (completeLine_stays h), ?_⟩
  intro d e hl hd he hnodup _ hq hf hr accepted faults required contributes
  let x : State := s.undispatched
  let outcome : Ack := s.actionOutcome d ack
  let y : State := x.applyOutcome d e outcome
  let v (n : Nat) : State := forSlotsBelow n (State.stepDownTest d.key) y
  let t : State := (y.stepDownTests d.key).endEvent
  have hv : v 48 = y.stepDownTests d.key := forSlotsBelow_all _ y
  have haccept : outcome = .accept ↔ accepted := actionOutcome_accept_iff s d ack
  have hacceptedKey (e : DemandEntry) := (accepted_completes s.now s.joinStamp d.polarity).1 e
  have hfailedKey (e : DemandEntry) := (failed_completes s.now s.joinStamp d.polarity).1 e
  have haccepts (h : accepted) : y = x.withEntry d.key (DemandEntry.accepted s.now s.joinStamp d.polarity) :=
    applyOutcome_accept (haccept.2 h)
  have hfails (h : ¬ accepted) (ha : e.attempts < 3) :
      y = x.withEntry d.key (DemandEntry.failed s.now s.joinStamp d.polarity) := applyOutcome_fails (mt haccept.1 h) ha
  have hfaults (h : faults) :
      y = (x.withEntry d.key (DemandEntry.failed s.now s.joinStamp d.polarity)).handFault d :=
    applyOutcome_faults (mt haccept.1 h.1) h.2
  have hkey : demandOf t.demands d.key = demandOf y.demands d.key :=
    (congrArg (demandOf · d.key) (endEvent_demands _)).trans (stepDownTests_demandOf y d.key)
  have hapart : t.apart = x.apart :=
    (endEvent_apart _).trans ((stepDownTests_apart y d.key).trans (applyOutcome_apart x d e outcome))
  have hstamp (n : Nat) : (v n).joinStamp = s.joinStamp :=
    forSlotsBelow_keeps (P := fun t => t.joinStamp = s.joinStamp) (fun i t ht => (stepDownTest_joinStamp t d.key i).trans ht) n
      (applyOutcome_joinStamp x d e outcome)
  refine ⟨t, v, exec_actionCompletion hl hd he, field_of_apart State.dispatch hapart fun _ => rfl,
    field_of_apart State.line hapart fun _ => rfl, ?_⟩
  intro becomes
  refine ⟨fun h => ?_, fun h ha => ?_, fun h => ?_, hkey.symm, applyOutcome_apart x d e outcome, fun n _ => hstamp n, fun h => ?_,
    fun i h => ?_, fun i => ⟨fun p hp => ?_, fun hn => ?_⟩, fun n hn => ?_, ?_⟩
  · have hentry := withEntry_demandOf (s := x) hnodup hacceptedKey he
    rw [← haccepts h, accepted_eq hq hr hf] at hentry
    exact hkey.trans hentry
  · have hentry := withEntry_demandOf (s := x) hnodup hfailedKey he
    rw [← hfails h ha, failed_eq hq hr ha] at hentry
    exact hkey.trans hentry
  · have hentry := withEntry_demandOf (s := x) hnodup hfailedKey he
    rw [← handFault_demandOf (withEntry_nodup (s := x) hnodup hfailedKey), ← hfaults h, failed_fault h.2] at hentry
    exact hkey.trans hentry
  · have hentry : x.EntryOnly y d.key := by
      by_cases ha : accepted
      · rw [haccepts ha]
        exact withEntry_entryOnly (s := x) hnodup hacceptedKey
      · rw [hfails ha (Nat.not_le.1 fun hle => h ⟨ha, hle⟩)]
        exact withEntry_entryOnly (s := x) hnodup hfailedKey
    obtain ⟨hcoils, hunits, hflags, hnotice, hqueue, hwriting, hdemands⟩ := hentry
    exact ⟨hcoils, hunits, hflags, hnotice, hqueue, hwriting, hdemands⟩
  · exact applyOutcome_coil (s := x) e outcome fun hc => h ((contributes_iff x x.coils[i] d.key).1 hc)
  · have hnext : v (i.val + 1) = (v i.val).testDrops i := (forSlotsBelow_succ _ y i).trans (stepDownTest_tested hp)
    rw [hnext]
    exact testDrops_testsDrops hp.1 hp.2.1
  · exact (forSlotsBelow_succ _ y i).trans (stepDownTest_other hn)
  · rw [hv] at hn
    exact endEvent_notice_some hn
  · rw [hv]
    exact ⟨endEvent_coils _, endEvent_demands _, endEvent_units _, endEvent_noticeFlags _, endEvent_storeQueue _,
      endEvent_writing _, endEvent_apart _⟩

end Sys2Proof.Machine
end

