-- ==== Sys2Proof/Proofs/ActionQueue.lean ====
section
/-! The action queue and its lookup (R103, R104, R117, R185): the queue order is that of four ranks, the fold over the table keeps the
first eligible entry so far, and QUERY_DEMAND answers an entry's fields. -/

namespace Sys2Proof.Machine

variable {s : State} {f : RxFrame} {rest : List RxFrame} {now : Nat} {ds : List DemandEntry} {a b d e : DemandEntry}

/-! ### Queue order (R103) -/

/-- What the queue compares of an entry, the first that differs deciding: polarity, kind priority, join order, target station (R103). -/
def DemandEntry.queueRank (e : DemandEntry) : Nat ×ₗ Nat ×ₗ Nat ×ₗ Nat :=
  toLex (polarityRank e.polarity, toLex (kindPriority e.key.kind, toLex (e.queued.getD 0, e.key.station)))

theorem before_iff_queueRank : a.before b = true ↔ a.queueRank < b.queueRank := by
  simp only [DemandEntry.before, DemandEntry.queueRank, Prod.Lex.toLex_lt_toLex, Bool.or_eq_true, Bool.and_eq_true,
    decide_eq_true_eq, beq_iff_eq]

/-- An entry with demand goes as an assert, before every release (R103). -/
theorem polarityRank_eq (e : DemandEntry) : polarityRank e.polarity = if e.demand = 0 then 1 else 0 := by
  unfold DemandEntry.polarity
  split_ifs <;> rfl

theorem polarityRank_lt_iff : polarityRank a.polarity < polarityRank b.polarity ↔ a.demand ≠ 0 ∧ b.demand = 0 := by
  rw [polarityRank_eq, polarityRank_eq]
  split_ifs <;> simp_all

theorem polarityRank_eq_iff : polarityRank a.polarity = polarityRank b.polarity ↔ (a.demand = 0 ↔ b.demand = 0) := by
  rw [polarityRank_eq, polarityRank_eq]
  split_ifs <;> simp_all

theorem queueRank_lt_iff : a.queueRank < b.queueRank ↔
    (a.demand ≠ 0 ∧ b.demand = 0)
    ∨ ((a.demand = 0 ↔ b.demand = 0) ∧ (kindPriority a.key.kind < kindPriority b.key.kind
      ∨ (kindPriority a.key.kind = kindPriority b.key.kind ∧ (a.queued.getD 0 < b.queued.getD 0
        ∨ (a.queued.getD 0 = b.queued.getD 0 ∧ a.key.station < b.key.station))))) := by
  simp only [DemandEntry.queueRank, Prod.Lex.toLex_lt_toLex, polarityRank_lt_iff, polarityRank_eq_iff]

/-! ### The first eligible entry (R104) -/

theorem eligible_iff : e.eligible now = true ↔ e.queued.isSome ∧ ∀ t, e.holdOff = some t → t ≤ now := by
  unfold DemandEntry.eligible
  cases e.holdOff <;> simp

/-- One entry more at the table's end: it is chosen where it is eligible and comes before the one chosen so far. -/
theorem firstEligible_append (now : Nat) (ds : List DemandEntry) (e : DemandEntry) :
    firstEligible now (ds ++ [e]) =
      if e.eligible now then (firstEligible now ds).elim (some e) fun b => some (if e.before b then e else b)
      else firstEligible now ds := by
  unfold firstEligible
  rw [List.foldl_append]
  simp only [List.foldl_cons, List.foldl_nil]
  split_ifs with he
  · split
    next h => rw [h]; rfl
    next b h => rw [h]; exact (apply_ite some _ _ _).symm
  · rfl

/-- A choice among the entries of a table: none where none is eligible, else an eligible one of least rank. -/
structure ChosenFirst (now : Nat) (ds : List DemandEntry) (best : Option DemandEntry) : Prop where
  nothing : best = none → ∀ d ∈ ds, ¬ d.eligible now = true
  first : ∀ e, best = some e → e ∈ ds ∧ e.eligible now = true ∧ ∀ d ∈ ds, d.eligible now = true → e.queueRank ≤ d.queueRank

/-- An entry that is not eligible changes no choice. -/
theorem ChosenFirst.skip {best : Option DemandEntry} (h : ChosenFirst now ds best) (he : ¬ e.eligible now = true) :
    ChosenFirst now (ds ++ [e]) best := by
  have hlast (d : DemandEntry) (hd : d ∈ ds ++ [e]) (hel : d.eligible now = true) : d ∈ ds :=
    (List.mem_append.1 hd).resolve_right fun h => he (List.mem_singleton.1 h ▸ hel)
  refine ⟨fun hn d hd hel => h.nothing hn d (hlast d hd hel) hel, fun b hb => ?_⟩
  obtain ⟨hm, hbe, hmin⟩ := h.first b hb
  exact ⟨List.mem_append_left _ hm, hbe, fun d hd hel => hmin d (hlast d hd hel) hel⟩

/-- The choice falls on an entry of the longer table that no entry of the shorter one, nor the last, outranks. -/
theorem ChosenFirst.choose (hm : b ∈ ds ++ [e]) (hb : b.eligible now = true) (he : b.queueRank ≤ e.queueRank)
    (hmin : ∀ d ∈ ds, d.eligible now = true → b.queueRank ≤ d.queueRank) : ChosenFirst now (ds ++ [e]) (some b) := by
  refine ⟨fun hn => (Option.some_ne_none b hn).elim, fun c hc => ?_⟩
  obtain rfl := Option.some.inj hc
  refine ⟨hm, hb, fun d hd hel => ?_⟩
  rcases List.mem_append.1 hd with hd | hd
  · exact hmin d hd hel
  · exact List.mem_singleton.1 hd ▸ he

theorem firstEligible_chosenFirst (now : Nat) (ds : List DemandEntry) : ChosenFirst now ds (firstEligible now ds) := by
  induction ds using List.reverseRecOn with
  | nil => exact ⟨fun _ d hd => absurd hd List.not_mem_nil, fun e he => by cases he⟩
  | append_singleton ds e ih =>
    have hlast : e ∈ ds ++ [e] := List.mem_append_right _ (List.mem_singleton_self e)
    rw [firstEligible_append]
    split_ifs with he
    · cases hbest : firstEligible now ds with
      | none => exact .choose hlast he le_rfl fun d hd hel => absurd hel (ih.nothing hbest d hd)
      | some b =>
        obtain ⟨hm, hb, hmin⟩ := ih.first b hbest
        rw [Option.elim_some]
        split_ifs with hbefore
        · have hlt := before_iff_queueRank.1 hbefore
          exact .choose hlast he le_rfl fun d hd hel => hlt.le.trans (hmin d hd hel)
        · exact .choose (List.mem_append_left _ hm) hb (not_lt.1 (mt before_iff_queueRank.2 hbefore)) hmin
    · exact ih.skip he

/-- Settles O40: the fold's choice is an eligible entry of least rank, and the ranks are compared as R103 says. -/
theorem firstEligibleEntryComesFirst : Obligations.FirstEligibleEntryComesFirst := by
  intro now ds eligible rank before
  have hchosen := firstEligible_chosenFirst now ds
  have heligible (e : DemandEntry) : e.eligible now = true ↔ eligible e := eligible_iff
  have hrank : rank = kindPriority := funext fun k => by cases k <;> rfl
  have hbefore (a b : DemandEntry) : before a b ↔ a.queueRank < b.queueRank := by
    rw [queueRank_lt_iff, ← hrank]
  refine ⟨⟨fun hn d hd hel => hchosen.nothing hn d hd ((heligible d).2 hel), fun hn => ?_⟩, fun e he => ?_⟩
  · refine Option.eq_none_iff_forall_ne_some.2 fun e he => ?_
    obtain ⟨hm, hel, -⟩ := hchosen.first e he
    exact hn e hm ((heligible e).1 hel)
  · obtain ⟨hm, hel, hmin⟩ := hchosen.first e he
    exact ⟨hm, (heligible e).1 hel, fun d hd hd' hb =>
      ((hbefore d e).1 hb).not_ge (hmin d hd ((heligible d).2 hd'))⟩

/-! ### QUERY_DEMAND (R117, R185) -/

/-- A key in its ranges that an entry holds is answered with the entry's fields, and a free value is taken (log 16). -/
theorem queryDemandOwner_entry {kind : ActionKind} (h1 : 1 ≤ byteAt f.payload 0) (h223 : byteAt f.payload 0 ≤ 223)
    (hk : byteAt f.payload 1 = actionKindWire kind) (he : demandOf s.demands ⟨byteAt f.payload 0, kind⟩ = some e) :
    queryDemandOwner f s = ({ s with freeCount := s.freeCount + 1 }, some (.done (s.demandView e))) := by
  have hst : isStation (byteAt f.payload 0) = true := isStation_iff.2 ⟨h1, h223⟩
  unfold queryDemandOwner
  rw [hk, actionKindOf_wire]
  dsimp only
  rw [hst, he]
  rfl

/-- The polarity an entry would go with is that of its demand (R103). -/
theorem polarity_assert_eq (e : DemandEntry) : (e.polarity == .assert) = decide (1 ≤ e.demand) := by
  rw [Bool.eq_iff_iff, beq_iff_eq, decide_eq_true_eq, Nat.one_le_iff_ne_zero, DemandEntry.polarity]
  split_ifs with h
  · exact iff_of_false (fun h => by cases h) (not_not.2 h)
  · exact iff_of_true rfl h

/-- The polarity-sent bit: the polarity of an entry in flight, and a free value else (R185, log 16). -/
def State.sentBit (s : State) (e : DemandEntry) : Bool :=
  e.inFlight.elim (Config.polarityBitAtRest s.freeCount) fun p => p == .assert

theorem sentBit_inFlight {p : Polarity} (h : e.inFlight = some p) : s.sentBit e = true ↔ p = .assert := by
  rw [State.sentBit, h, Option.elim_some, beq_iff_eq]

theorem demandView_eq (s : State) (e : DemandEntry) : s.demandView e =
    [byteOf e.key.station, byteOf (actionKindWire e.key.kind), byteOf e.mapRefs, byteOf e.demand, byteOf e.commanded.wire,
     flagsByte
       [e.queued.isSome, decide (1 ≤ e.demand), e.refreshDue, e.inFlight.isSome, s.sentBit e, e.faulted],
     byteOf e.attempts, optByte (holdOffLeft s.now e.holdOff), optByte (e.refreshTimer.map (secondsLeft s.now)),
     optByte (e.retryTimer.map (secondsLeft s.now))] := by
  unfold State.demandView State.sentBit
  rw [polarity_assert_eq]
  cases e.inFlight <;> rfl

/-- Settles O16: the key is in its ranges, and its entry gives the data. -/
theorem queryDemandReportsTheEntry : Obligations.QueryDemandReportsTheEntry := by
  intro s f rest kind e ht h1 h223 hk he
  let t : State := { s with rx := rest }
  have howner := queryDemandOwner_entry (s := t) h1 h223 hk he
  rw [demandView_eq] at howner
  exact ⟨s.sentBit e, fun p hp => sentBit_inFlight hp, congrArg Host.Outcome.next (takeRequest_answers ht howner)⟩

end Sys2Proof.Machine
end

