-- ==== Sys2Proof/Proofs/LineGrants.lean ====
section
/-! The grants and the losses of the part's own frames (R107, R108, R166, R168, R170 to R174): the source that the arbiter picks, what a
grant to each source leaves, and what each source does with a frame that it gets back. -/

namespace Sys2Proof.Machine

variable {s : State} {fr : Frame} {l : LineFrame} {src : Source} {d : Dispatch} {p : PollOffer} {n : NoticeOffer} {a : Answer}
  {rest : List Answer}

/-! ### What the sources offer (R168) -/

/-- The Action Dispatcher would send an assert. -/
def State.OffersAssert (s : State) : Prop := ∃ d, s.nextAction = some d ∧ d.polarity = .assert

/-- The Poll Engine offers an urgent poll. -/
def State.OffersUrgent (s : State) : Prop := ∃ p, s.poll = some p ∧ p.cls = .urgent

theorem offersAssert_iff : s.nextAction.any (fun d => d.polarity == .assert) = true ↔ s.OffersAssert := by
  simp only [Option.any_eq_true, beq_iff_eq, State.OffersAssert]

theorem offersUrgent_iff : s.poll.any (fun p => p.cls == .urgent) = true ↔ s.OffersUrgent := by
  simp only [Option.any_eq_true, beq_iff_eq, State.OffersUrgent]

/-- With no frame held, the dispatcher offers its first eligible entry (R106, R108). -/
theorem nextAction_eq_entry (h : s.dispatch = none) : s.nextAction = (firstEligible s.now s.demands).map fun e =>
    { key := e.key, polarity := if e.demand = 0 then .release else .assert } := by
  unfold State.nextAction
  rw [h]
  rfl

theorem nextAction_eq_held (h : s.dispatch = some d) : s.nextAction = some d := by
  unfold State.nextAction
  rw [h]

/-! ### The places of the arbiter (R168) -/

/-- Asserts come first. -/
theorem arbiter_assert (h : s.OffersAssert) : s.arbiter = some .action := if_pos (offersAssert_iff.2 h)

/-- Urgent polls come next. -/
theorem arbiter_urgent (ha : ¬ s.OffersAssert) (h : s.OffersUrgent) : s.arbiter = some .poll :=
  (if_neg (mt offersAssert_iff.1 ha)).trans (if_pos (offersUrgent_iff.2 h))

section
variable (ha : ¬ s.OffersAssert) (hu : ¬ s.OffersUrgent)
include ha hu

theorem arbiter_answer (h : s.answers = a :: rest) : s.arbiter = some .answer :=
  (if_neg (mt offersAssert_iff.1 ha)).trans ((if_neg (mt offersUrgent_iff.1 hu)).trans (if_pos (by rw [h]; rfl)))

/-- With neither an assert, an urgent poll nor an answer, a release comes before a notice, and that before a routine poll. -/
theorem arbiter_later (h : s.answers = []) : s.arbiter =
    if s.nextAction.isSome then some .action
    else if s.notice.isSome then some .notice
    else if s.poll.isSome then some .poll
    else none :=
  (if_neg (mt offersAssert_iff.1 ha)).trans ((if_neg (mt offersUrgent_iff.1 hu)).trans (if_neg (by simp [h])))

end

theorem not_offersAssert (h : s.nextAction = none) : ¬ s.OffersAssert := fun ⟨d, hd, _⟩ => by
  rw [h] at hd
  cases hd

/-- The dispatcher is granted an assert, and a release where nothing before it in the order is offered. -/
theorem arbiter_action (hd : s.nextAction = some d) (h : d.polarity = .assert ∨ ¬ s.OffersUrgent ∧ s.answers = []) :
    s.arbiter = some .action := by
  by_cases ha : s.OffersAssert
  · exact arbiter_assert ha
  · obtain ⟨hu, hn⟩ := h.resolve_left fun h => ha ⟨d, hd, h⟩
    rw [arbiter_later ha hu hn, hd]
    rfl

/-- The Poll Engine is granted an urgent poll, and a routine one where nothing else is offered. -/
theorem arbiter_poll (hp : s.poll = some p) (ha : ¬ s.OffersAssert)
    (h : p.cls = .urgent ∨ s.answers = [] ∧ s.nextAction = none ∧ s.notice = none) : s.arbiter = some .poll := by
  by_cases hu : s.OffersUrgent
  · exact arbiter_urgent ha hu
  · obtain ⟨hn, hd, hnotice⟩ := h.resolve_left fun h => hu ⟨p, hp, h⟩
    rw [arbiter_later ha hu hn, hd, hnotice, hp]
    rfl

/-- The notice source is granted where neither the dispatcher nor the answer source offers, and no urgent poll is. -/
theorem arbiter_notice (hn : s.notice = some n) (hd : s.nextAction = none) (hu : ¬ s.OffersUrgent) (h : s.answers = []) :
    s.arbiter = some .notice := by
  rw [arbiter_later (not_offersAssert hd) hu h, hd, hn]
  rfl

theorem arbiter_none (hd : s.nextAction = none) (hp : s.poll = none) (h : s.answers = []) (hn : s.notice = none) :
    s.arbiter = none := by
  have hu : ¬ s.OffersUrgent := fun ⟨p, hp', _⟩ => by
    rw [hp] at hp'
    cases hp'
  rw [arbiter_later (not_offersAssert hd) hu h, hd, hn, hp]
  rfl

/-! ### The grant to each source -/

/-- The grant to the dispatcher: its frame goes on the line, and an entry not taken before leaves the queue and is in flight (R107). -/
theorem grantAction_eq (h : s.nextAction = some d) : s.grantAction =
    { s with
      dispatch := some d
      demands := if s.dispatch.isSome then s.demands else s.demands.map fun e =>
        if e.key = d.key then { e with queued := none, inFlight := some d.polarity, refreshDue := false } else e
      line := some ⟨.action, s.actionFrame d, false⟩ } := by
  unfold State.grantAction
  rw [h]
  cases hd : s.dispatch with
  | none => rfl
  | some held =>
    obtain rfl : held = d := Option.some.inj ((nextAction_eq_held hd).symm.trans h)
    show s.onLine .action (s.actionFrame held) =
      { s with dispatch := some held, line := some ⟨.action, s.actionFrame held, false⟩ }
    rw [← hd]
    rfl

theorem actionFrame_eq (s : State) (d : Dispatch) : s.actionFrame d =
    ⟨if d.polarity = .assert then .urgent else .routine, byteOf s.address, byteOf d.key.station, 4,
      [byteOf (actionKindWire d.key.kind), byteOf d.polarity.wire]⟩ := by
  unfold State.actionFrame
  cases d.polarity <;> rfl

theorem grantPoll_eq (h : s.poll = some p) : s.grantPoll = s.onLine .poll (s.pollFrame p) := by
  unfold State.grantPoll
  rw [h]

theorem grantAnswer_eq (h : s.answers = a :: rest) : s.grantAnswer = s.onLine .answer (s.answerFrame a) := by
  unfold State.grantAnswer
  rw [h]

theorem grantNotice_eq (h : s.notice = some n) : s.grantNotice =
    { s.onLine .notice (s.noticeFrame n.slot) with notice := some { n with setAgain := false } } := by
  unfold State.grantNotice
  rw [h]

/-- The grant to a source. -/
def State.grantTo (s : State) : Source → State
  | .action => s.grantAction
  | .poll => s.grantPoll
  | .answer => s.grantAnswer
  | .notice => s.grantNotice

/-- Out of service, and with a frame of the part on the line, nothing is granted (R174, log 2). -/
theorem grant_stays (h : s.power ≠ .running ∨ s.line ≠ none) : s.grant = s :=
  if_pos (h.imp_right Option.isSome_iff_ne_none.2)

section
variable (hp : s.power = .running) (hl : s.line = none)
include hp hl

theorem grant_none (h : s.arbiter = none) : s.grant = s := by
  unfold State.grant
  rw [if_neg (by simp [hp, hl]), h]

theorem grant_picked (h : s.arbiter = some src) : s.grant = s.grantTo src := by
  unfold State.grant
  rw [if_neg (by simp [hp, hl]), h]
  cases src <;> rfl

end

/-- Settles O41: the arbiter's pick in each of its places, and the grant to the source picked. -/
theorem lineGrantGoesToTheFirstSource : Obligations.LineGrantGoesToTheFirstSource := by
  intro s offer assert urgent frame grants
  have hoffer : offer = s.nextAction := by
    cases hd : s.dispatch with
    | none => rw [nextAction_eq_entry hd]; simp only [offer, hd]
    | some d => rw [nextAction_eq_held hd]; simp only [offer, hd]
  have hassert : assert ↔ s.OffersAssert := by
    simp only [assert, hoffer]
    exact .rfl
  rw [hoffer, hassert]
  have next {t : State} (h : s.grant = t) : grants t := congrArg Host.Outcome.next h
  refine ⟨fun h => next (grant_stays h), fun hp hl => ⟨fun d hd h => ?_, fun p hpoll ha h => ?_, fun a rest h ha hu => ?_,
    fun n hn hd hu h => ?_, fun hd hpoll h hn => ?_⟩⟩
  · refine next ((grant_picked hp hl (arbiter_action hd h)).trans ((grantAction_eq hd).trans ?_))
    rw [actionFrame_eq]
  · exact next ((grant_picked hp hl (arbiter_poll hpoll ha h)).trans (grantPoll_eq hpoll))
  · exact next ((grant_picked hp hl (arbiter_answer ha hu h)).trans (grantAnswer_eq h))
  · exact next ((grant_picked hp hl (arbiter_notice hn hd hu h)).trans (grantNotice_eq hn))
  · exact next (grant_none hp hl (arbiter_none hd hpoll h hn))

/-! ### Losses (R170) -/

/-- A source gets its frame back: the dispatcher keeps it and counts nothing, the others count a loss (R108, R170). -/
def State.returnTo (s : State) : Source → State
  | .action => s
  | .answer => s.loseAnswer
  | .poll => s.losePoll
  | .notice => s.loseNotice

theorem loseLine_none (h : s.line = none) : s.loseLine = s := by
  unfold State.loseLine
  rw [h]

/-- An orphaned frame only leaves the line (log 21). -/
theorem loseLine_orphan (h : s.line = some l) (ho : l.orphan = true) : s.loseLine = s.offLine := by
  unfold State.loseLine
  rw [h]
  exact if_pos ho

theorem loseLine_returns (h : s.line = some l) (ho : l.orphan = false) : s.loseLine = s.offLine.returnTo l.source := by
  unfold State.loseLine
  rw [h]
  dsimp only
  rw [if_neg (by rw [ho]; exact Bool.false_ne_true)]
  cases l.source <;> rfl

section
variable (ha : s.answers = a :: rest)
include ha

theorem loseAnswer_counts (h : a.losses < 7) :
    s.loseAnswer = { s with answers := { a with losses := a.losses + 1 } :: rest } := by
  unfold State.loseAnswer
  rw [ha]
  exact if_neg (Nat.not_le.2 (Nat.succ_lt_succ h))

/-- An answer is dropped at its eighth loss, and its place is freed (R166, R170). -/
theorem loseAnswer_drops (h : 7 ≤ a.losses) : s.loseAnswer = s.freeAnswer := by
  unfold State.loseAnswer
  rw [ha]
  exact if_pos (Nat.succ_le_succ h)

end

section
variable (hp : s.poll = some p)
include hp

theorem losePoll_counts (h : p.losses < 7) : s.losePoll = { s with poll := some { p with losses := p.losses + 1 } } := by
  unfold State.losePoll
  rw [hp]
  exact if_neg (Nat.not_le.2 (Nat.succ_lt_succ h))

/-- A poll is dropped at its eighth loss, and the engine chooses again (R48, R170). -/
theorem losePoll_drops (h : 7 ≤ p.losses) : s.losePoll = ({ s with poll := none } : State).choosePoll := by
  unfold State.losePoll
  rw [hp]
  exact if_pos (Nat.succ_le_succ h)

end

section
variable (hn : s.notice = some n)
include hn

theorem loseNotice_counts (h : n.losses < 7) :
    s.loseNotice = { s with notice := some { n with losses := n.losses + 1 } } := by
  unfold State.loseNotice
  rw [hn]
  exact if_neg (Nat.not_le.2 (Nat.succ_lt_succ h))

/-- A notice is dropped at its eighth loss, its flag stays, and the source chooses again (R170, R173). -/
theorem loseNotice_drops (h : 7 ≤ n.losses) : s.loseNotice = ({ s with notice := none } : State).chooseNotice := by
  unfold State.loseNotice
  rw [hn]
  exact if_pos (Nat.succ_le_succ h)

end

/-- Settles O42: the frame leaves the line, and its source counts the loss or drops it. -/
theorem lossReturnsTheFrameOrDropsIt : Obligations.LossReturnsTheFrameOrDropsIt := by
  intro s fr loses free
  have next {t : State} (h : s.loseLine = t) : loses t := ⟨congrArg Host.Outcome.next h, congrArg Host.Outcome.next h⟩
  have returns {src : Source} {t : State} (hl : s.line = some ⟨src, fr, false⟩) (h : free.returnTo src = t) : loses t :=
    next ((loseLine_returns hl rfl).trans h)
  refine ⟨fun hl => next (loseLine_none hl), fun src hl => next (loseLine_orphan hl rfl), fun hl => returns hl rfl,
    fun a rest hl ha => ?_, fun p hl hp => ?_, fun n hl hn => ?_⟩
  · have htail : s.answers.tail = rest := by rw [ha]; rfl
    subst htail
    exact ⟨fun h => returns hl (loseAnswer_counts (s := free) ha h),
      fun h hd => returns hl ((loseAnswer_drops (s := free) ha h).trans (freeAnswer_nil (s := free) hd)),
      fun d ds h hd => returns hl ((loseAnswer_drops (s := free) ha h).trans (freeAnswer_cons (s := free) hd))⟩
  · exact ⟨fun h => returns hl (losePoll_counts (s := free) hp h), fun h => returns hl (losePoll_drops (s := free) hp h)⟩
  · exact ⟨fun h => returns hl (loseNotice_counts (s := free) hn h), fun h => returns hl (loseNotice_drops (s := free) hn h)⟩

end Sys2Proof.Machine
end

