-- ==== Sys2Proof/Proofs/OtherTimers.lean ====
section
/-! The timers of claims, units, demand entries and the store retry expire (R104, R114, R115, R124, R142, R190): which timer an expiry
reads, what a change of one demand entry leaves, and the items that the store retry queues. -/

namespace Sys2Proof.Machine

variable {s : State} {n : ClaimNo} {k : DemandKey} {e : DemandEntry} {it : Item}

/-! ### The timers that the expiries read (R142) -/

theorem claimTimer_none (h : ∀ c, s.claims[n] = some c → c.timer = none) : s.claimTimer n = none :=
  Option.bind_eq_none_iff.2 h

theorem claimTimer_some {c : Claim} (h : s.claims[n] = some c) : s.claimTimer n = c.timer := by
  rw [State.claimTimer, h, Option.bind_some]

section
variable (timer : DemandEntry → Option Nat)

/-- No entry holds the key, and no timer of it runs (log 2). -/
theorem demandTimer_none (h : demandOf s.demands k = none) : s.demandTimer k timer = none := by
  rw [State.demandTimer, h, Option.bind_none]

theorem demandTimer_some (h : demandOf s.demands k = some e) : s.demandTimer k timer = timer e := by
  rw [State.demandTimer, h, Option.bind_some]

end

/-! ### A demand entry's expiry (R114, R115) -/

/-- An event that changes the entry of a key. -/
def State.entryEvent (s : State) (k : DemandKey) (g : DemandEntry → DemandEntry) : State :=
  ({ s with demands := updateDemand k g s.demands } : State).endEvent

/-- The entry of the key is changed. Every other entry stands, and so do the records, the units, the store queue, the write under way
and the fields that no stage operation reaches. -/
theorem entryEvent_changes {g : DemandEntry → DemandEntry} (hg : ∀ e, (g e).key = e.key) (he : demandOf s.demands k = some e) :
    demandOf (s.entryEvent k g).demands k = some (g e)
    ∧ (∀ j, j ≠ k → demandOf (s.entryEvent k g).demands j = demandOf s.demands j)
    ∧ (s.entryEvent k g).apart = s.apart ∧ (s.entryEvent k g).coils = s.coils ∧ (s.entryEvent k g).units = s.units
    ∧ (s.entryEvent k g).storeQueue = s.storeQueue ∧ (s.entryEvent k g).writing = s.writing := by
  have hdemands : (s.entryEvent k g).demands = updateDemand k g s.demands := endEvent_demands _
  refine ⟨?_, fun j hj => ?_, endEvent_apart _, endEvent_coils _, endEvent_units _, endEvent_storeQueue _, endEvent_writing _⟩
  · rw [hdemands, demandOf_updateDemand hg, if_pos rfl, he, Option.map_some]
  · rw [hdemands, demandOf_updateDemand hg, if_neg hj]

theorem refreshes_iff : e.refreshes = true ↔
    1 ≤ e.demand ∧ e.commanded = .asserted ∧ e.queued = none ∧ e.inFlight = none ∧ e.faulted = false := by
  simp only [DemandEntry.refreshes, Bool.and_eq_true, decide_eq_true_eq, beq_iff_eq, Option.isNone_iff_eq_none,
    Bool.not_eq_true', and_assoc]

/-- An asserted entry at rest with demand is queued as a refresh; any other only has its timer stopped (R115). -/
theorem refreshExpired_eq (stamp : Nat) (e : DemandEntry) : e.refreshExpired stamp =
    if 1 ≤ e.demand ∧ e.commanded = .asserted ∧ e.queued = none ∧ e.inFlight = none ∧ e.faulted = false then
      { e with refreshTimer := none, refreshDue := true, queued := some stamp }
    else { e with refreshTimer := none } := if_congr refreshes_iff rfl rfl

theorem refreshExpired_key (stamp : Nat) (e : DemandEntry) : (e.refreshExpired stamp).key = e.key := by
  unfold DemandEntry.refreshExpired
  split_ifs <;> rfl

/-! ### The store retry (R190) -/

theorem mem_allItems (it : Item) : it ∈ allItems := by
  cases it <;> simp [allItems]

theorem isWriting_eq_false_iff : s.isWriting it = false ↔ ∀ w, s.writing = some w → w.content.item ≠ it := by
  simp only [State.isWriting, Option.any_eq_false, beq_eq_false_iff_ne]

/-- The retry queues the stale items that are neither queued nor being written. -/
theorem mem_retryItems : it ∈ s.retryItems ↔
    s.isStale it = true ∧ it ∉ s.storeQueue ∧ ∀ w, s.writing = some w → w.content.item ≠ it := by
  simp only [State.retryItems, List.mem_filter, mem_allItems, true_and, Bool.and_eq_true, Bool.not_eq_true', and_assoc,
    isWriting_eq_false_iff, List.contains_eq_mem, decide_eq_false_iff_not]

/-- Settles O51: a stopped timer does nothing, and a running one takes its effect at its moment. -/
theorem otherTimersExpire : Obligations.OtherTimersExpire := by
  intro s due u
  have stopped {timer : Option Nat} (h : timer = none) (effect : State → State) :
      (Host.Outcome.next (s.expire timer effect) : Step) = .next s := congrArg Host.Outcome.next (expire_none h effect)
  have expires {timer : Option Nat} (h : timer = some due) (effect : State → State) :
      (Host.Outcome.next (s.expire timer effect) : Step) = .next (effect u) := congrArg Host.Outcome.next (expire_some h effect)
  refine ⟨fun n => ⟨fun h => stopped (claimTimer_none h) _, fun c hc h => expires ((claimTimer_some hc).trans h) _⟩,
    fun v => ⟨fun h => stopped h _, fun h => expires h _⟩,
    fun k hk => ⟨stopped (demandTimer_none _ hk) _, stopped (demandTimer_none _ hk) _, stopped (demandTimer_none _ hk) _⟩,
    fun k e he => ?_, fun h => stopped h _, fun h => ?_⟩
  · have htimer (g : DemandEntry → Option Nat) : s.demandTimer k g = g e := demandTimer_some g he
    refine ⟨fun h => stopped ((htimer _).trans h) _, fun h => stopped ((htimer _).trans h) _,
      fun h => stopped ((htimer _).trans h) _, fun h => expires ((htimer _).trans h) _,
      fun h => ⟨_, expires ((htimer _).trans h) _, ?_⟩, fun h => ⟨_, expires ((htimer _).trans h) _, ?_⟩⟩
    · rw [← refreshExpired_eq]
      exact entryEvent_changes (s := u) (refreshExpired_key s.joinStamp) he
    · exact entryEvent_changes (s := u) (g := DemandEntry.retryExpired s.joinStamp) (fun _ => rfl) he
  · intro stale
    have hstale (it : Item) : stale it ↔ s.isStale it = true := by cases it <;> exact .rfl
    refine ⟨s.retryItems, List.filter_sublist, fun it => ?_, expires h _⟩
    rw [hstale]
    exact mem_retryItems

end Sys2Proof.Machine
end

