-- ==== Sys2Proof/Proofs/LoadCompletions.lean ====
section
/-! The completion of a load (R130, R174, R186, R192, R193): the service it begins, the settle timers it starts, the items it queues and
the fan-stop outputs it leaves. -/

namespace Sys2Proof.Machine

variable {s : State} {it : Item} {i : Slot} {u : UnitNo}

/-! ### The loads in progress and the marks (R188, R193) -/

theorem loading_iff : s.loading = true ↔ s.power = .startLoad ∨ s.power = .restartLoad := by
  unfold State.loading
  cases s.power <;> simp

/-- With no write under way, distinct items that do not wait join the queue's tail in their order (R188). -/
theorem foldl_markDirty_joins {l : List Item} (hw : s.writing = none) (hl : (s.storeQueue ++ l).Nodup) :
    (l.foldl State.markDirty s).storeQueue = s.storeQueue ++ l := by
  induction l generalizing s with
  | nil => exact (List.append_nil _).symm
  | cons it l ih =>
    have hq : it ∉ s.storeQueue := fun h => (List.nodup_append.1 hl).2.2 it h it List.mem_cons_self rfl
    have hjoin : s.markDirty it = { s with storeQueue := s.storeQueue ++ [it] } :=
      (markDirty_waiting fun w h => by cases hw.symm.trans h).trans (if_neg hq)
    rw [List.append_cons] at hl ⊢
    rw [List.foldl_cons, hjoin]
    exact ih (s := { s with storeQueue := s.storeQueue ++ [it] }) hw hl

/-! ### The items that loaded otherwise than as stored (R192) -/

theorem loadedOtherwise_settings : s.loadedOtherwise .settings = true ↔ s.retained.settings = .invalid := beq_iff_eq

theorem loadedOtherwise_unit : s.loadedOtherwise (.unit u) = true ↔ s.retained.units[u] = .invalid := beq_iff_eq

theorem loadedOtherwise_coil : s.loadedOtherwise (.coil i) = true ↔
    s.retained.coils[i] = .invalid
    ∨ ∃ d, s.retained.coils[i] = .valid (.record d)
      ∧ (s.coils[i].lifecycle = .vacant ∨ d.lifecycle = .armed ∧ s.coils[i].lifecycle = .suspended) := by
  unfold State.loadedOtherwise
  dsimp only
  generalize s.retained.coils[i] = item
  rcases item with _ | (_ | d) | _
  case blank => simp
  case valid.erased => simp
  case valid.record => simp only [Bool.or_eq_true, Bool.and_eq_true, beq_iff_eq, reduceCtorEq, false_or, Stored.valid.injEq,
    CoilItem.record.injEq, exists_eq_left']
  case invalid => simp

/-! ### The completion, field by field -/

theorem completeLoad_service (s : State) :
    s.completeLoad.power = .running ∧ s.completeLoad.line = none ∧ s.completeLoad.pollTimer = some (s.now + 10000)
      ∧ s.completeLoad.pollPeriod = 10000 ∧ s.completeLoad.lastLoadRestart = (s.power == .restartLoad) := by
  obtain ⟨units, he, -⟩ := completeLoad_fields s
  rw [he]
  exact ⟨rfl, rfl, rfl, rfl, rfl⟩

theorem completeLoad_settingsDefaulted : s.completeLoad.settingsDefaulted = true ↔ ∀ c, s.retained.settings ≠ .valid c := by
  obtain ⟨units, he, -⟩ := completeLoad_fields s
  rw [he]
  cases s.retained.settings <;> simp

theorem completeLoad_coil (s : State) (i : Slot) : s.completeLoad.coils[i] =
    if s.coils[i].lifecycle = .settling then { s.coils[i] with settleTimer := some (s.now + 300000) } else s.coils[i] := by
  obtain ⟨units, he, -⟩ := completeLoad_fields s
  rw [he]
  exact startSettling_coil s i

/-- The settle timers are no condition of R130. -/
theorem startSettling_mustStop : ({ s with coils := s.startSettling.coils } : State).MustStop u ↔ s.MustStop u :=
  mustStop_of_records u rfl fun i => by
    show _ ∧ (s.startSettling.coils[i].tripped || s.startSettling.coils[i].settlesLatched) = true ↔ _
    rw [startSettling_coil]
    split_ifs <;> rfl

/-- A unit after the load differs in its output alone, which stands as R130 says. -/
theorem completeLoad_unit (s : State) (u : UnitNo) :
    ∃ fso, s.completeLoad.units[u] = { s.units[u] with fso := fso } ∧ (fso = .stop ↔ s.MustStop u) := by
  obtain ⟨units, he, hunits⟩ := completeLoad_fields s
  obtain ⟨fso, hunit, hstop⟩ := hunits u
  rw [he]
  exact ⟨fso, hunit, hstop.trans startSettling_mustStop⟩

theorem completeLoad_storeQueue (hq : s.storeQueue = []) (hw : s.writing = none) :
    s.completeLoad.storeQueue = allItems.filter s.loadedOtherwise := by
  have hn : (s.storeQueue ++ allItems.filter s.loadedOtherwise).Nodup := by
    rw [hq]
    exact allItems_nodup.filter _
  obtain ⟨units, he, -⟩ := completeLoad_fields s
  rw [he]
  refine (foldl_markDirty_joins hw hn).trans ?_
  rw [hq]
  rfl

/-- With an empty store at the load, the queue holds the items that loaded otherwise than as stored (R192). -/
theorem mem_completeLoad_storeQueue (hq : s.storeQueue = []) (hw : s.writing = none) (it : Item) :
    it ∈ s.completeLoad.storeQueue ↔ s.loadedOtherwise it = true := by
  rw [completeLoad_storeQueue hq hw, List.mem_filter]
  exact and_iff_right (mem_allItems it)

/-- Settles O55: no load, no effect; else the completion, field by field. -/
theorem loadCompletionBeginsService : Obligations.LoadCompletionBeginsService := by
  intro s
  refine ⟨fun hs hr => congrArg Host.Outcome.next (if_neg fun h => (loading_iff.1 h).elim hs hr), fun hload => ?_⟩
  obtain ⟨hpower, hline, htimer, hperiod, hlast⟩ := completeLoad_service s
  refine ⟨s.completeLoad, congrArg Host.Outcome.next (if_pos (loading_iff.2 hload)), hpower, hline, htimer, hperiod, ?_,
    completeLoad_settingsDefaulted, completeLoad_coil s, completeLoad_unit s, fun hq hw => ⟨?_, ?_, fun u => ?_, fun i => ?_⟩⟩
  · rw [hlast]
    exact beq_iff_eq
  · rw [completeLoad_storeQueue hq hw]
    exact List.filter_sublist
  · exact (mem_completeLoad_storeQueue hq hw _).trans loadedOtherwise_settings
  · exact (mem_completeLoad_storeQueue hq hw _).trans loadedOtherwise_unit
  · exact (mem_completeLoad_storeQueue hq hw _).trans loadedOtherwise_coil

end Sys2Proof.Machine
end

