-- ==== Sys2Proof/Proofs/AirHandlers.lean ====
section
/-! The requests about a unit (chapter 6): QUERY_UNIT and READ_FAULTS (R134, R135, R184), and UNIT_SET with its refusals in their order
(R121, R122). -/

namespace Sys2Proof.Machine

variable {s : State} {f : RxFrame} {rest : List RxFrame} {u : UnitNo} {zone : Fin 16}

/-! ### QUERY_UNIT (R135, R184) -/

theorem coils_toList (s : State) : s.coils.toList = (List.finRange 48).map fun i => s.coils[i] := by
  apply List.ext_getElem <;> simp

/-- A count over the records is the number of the slots counted. -/
theorem coils_countP (s : State) (p : Coil → Bool) :
    s.coils.toList.countP p = ((List.finRange 48).filter fun i => p s.coils[i]).length := by
  rw [coils_toList, List.countP_map, List.countP_eq_length_filter]
  rfl

theorem isPending_eq (filter : ContactFilter) : filter.isPending = (filter != .steady) := by cases filter <;> rfl

theorem queryUnitOwner_unit (hu : byteAt f.payload 0 = u.val) : queryUnitOwner f s = (s, some (.done (s.unitView u))) := by
  unfold queryUnitOwner
  rw [hu, unitOf_val]

/-- Settles O15: the owner answers the view of the unit, which in service says that no start-up load is in progress. -/
theorem queryUnitReportsTheUnit : Obligations.QueryUnitReportsTheUnit := by
  intro s f rest u ht hu e count
  refine (takeRequest_done ht (queryUnitOwner_unit (s := { s with rx := rest }) hu)).trans ?_
  obtain ⟨⟨-, hrunning, -⟩, -⟩ := ht
  unfold State.unitView State.trippedCount State.latchedSettlingCount
  dsimp only
  rw [coils_countP, coils_countP, isPending_eq, hrunning]
  rfl

/-! ### READ_FAULTS (R134) -/

theorem readFaultsOwner_unit (hu : byteAt f.payload 0 = u.val) : readFaultsOwner f s =
    (s.setUnit u { s.units[u] with faults := .empty }, some (.done [byteOf u.val, s.units[u].faults.wire])) := by
  unfold readFaultsOwner
  rw [hu, unitOf_val]

theorem readFaultsOwner_outOfRange (h : 15 < byteAt f.payload 0) : readFaultsOwner f s = refuse s .outOfRange := by
  unfold readFaultsOwner
  rw [unitOf_eq_none h]

/-- Settles O18: a unit's summary is answered and emptied, and a number that is no unit's is refused. -/
theorem readFaultsEmptiesTheSummary : Obligations.ReadFaultsEmptiesTheSummary := by
  intro s f rest ht
  refine ⟨fun u hu => ?_, fun h => takeRequest_refuses ht (readFaultsOwner_outOfRange h)⟩
  exact congrArg Host.Outcome.next (takeRequest_answers ht (readFaultsOwner_unit (s := { s with rx := rest }) hu))

/-! ### UNIT_SET (R121, R122) -/

theorem zoneOf_eq_none {n : Nat} (h : 15 < n) : zoneOf n = none := dif_neg (by omega)

/-- A controller station is none, written 0, or lies in its range. -/
theorem stationOrNone_inRange_iff {n : Nat} : (stationOrNone n).all isStation = true ↔ n ≤ 223 := by
  unfold stationOrNone
  split_ifs with h0
  · simp [h0]
  · rw [Option.all_some, isStation_iff]
    omega

/-- The unit is used by a record that is SETTLING or ARMED (R121). -/
theorem unitInUse_iff : s.unitInUse u = true ↔
    ∃ i : Slot, s.coils[i].unit = u ∧ (s.coils[i].lifecycle = .settling ∨ s.coils[i].lifecycle = .armed) := by
  unfold State.unitInUse
  rw [coils_toList, List.any_map]
  simp only [List.any_eq_true, List.mem_finRange, true_and, Function.comp_apply, Bool.and_eq_true, beq_iff_eq, holdsReferences_iff]

theorem unitSetOwner_notPermitted (h : ¬ s.Supervisor f.sender) : unitSetOwner f s = refuse s .notPermitted :=
  if_pos (not_isSupervisor h)

theorem unitSetOwner_outOfRange (hs : s.Supervisor f.sender)
    (h : ¬ (byteAt f.payload 0 ≤ 15 ∧ byteAt f.payload 1 ≤ 223 ∧ byteAt f.payload 2 ≤ 15)) :
    unitSetOwner f s = refuse s .outOfRange := by
  refine (if_neg (isSupervisor_passes hs)).trans ?_
  split
  next u zone hu hz =>
    refine if_pos ((not_eq_true_iff stationOrNone_inRange_iff).2 fun hstation => h ⟨?_, hstation, ?_⟩)
    · by_contra hn
      rw [unitOf_eq_none (not_le.1 hn)] at hu
      cases hu
    · by_contra hn
      rw [zoneOf_eq_none (not_le.1 hn)] at hz
      cases hz
  · rfl

/-- A UNIT_SET in its ranges is judged on the use of its unit (R121). -/
theorem unitSetOwner_judged (hs : s.Supervisor f.sender) (hu : byteAt f.payload 0 = u.val) (hz : byteAt f.payload 2 = zone.val)
    (hstation : byteAt f.payload 1 ≤ 223) : unitSetOwner f s =
      if s.unitInUse u then refuse s .wrongState
      else (s.defineUnit u (stationOrNone (byteAt f.payload 1)) zone, some (.done [])) := by
  refine (if_neg (isSupervisor_passes hs)).trans ?_
  rw [hu, hz, unitOf_val, zoneOf_val]
  exact if_neg fun h => (not_eq_true_iff stationOrNone_inRange_iff).1 h hstation

/-- Settles O34: the owner's checks in their order, and the definition of a unit that no record uses. -/
theorem unitSetDefinesTheUnit : Obligations.UnitSetDefinesTheUnit := by
  intro s f rest ht station inRange used
  let t : State := { s with rx := rest }
  refine ⟨fun hs => takeRequest_refuses ht (unitSetOwner_notPermitted (s := t) hs),
    fun hs hr => takeRequest_refuses ht (unitSetOwner_outOfRange (s := t) hs hr), fun u zone hu hz hstation hs => ?_⟩
  have hjudged := unitSetOwner_judged (s := t) hs hu hz hstation
  refine ⟨fun h => takeRequest_refuses ht (hjudged.trans (if_pos (unitInUse_iff.2 h))), fun h => ?_⟩
  have hdefined : unitSetOwner f t = (t.defineUnit u station zone, some (.done [])) :=
    hjudged.trans (if_neg fun hused => h (unitInUse_iff.1 hused))
  refine congrArg Host.Outcome.next ((takeRequest_answers ht hdefined).trans ?_)
  exact markDirty_replied (s.setUnit u (s.units[u].define station zone)) f rest (.unit u)

end Sys2Proof.Machine
end

