-- ==== Sys2Proof/Proofs/ClaimedEdits.lean ====
section
/-! The claimed edits (chapter 7): CLAIM (R140 to R142), the checks that the STAGE functions, COMMIT and ABANDON share (R143), the
staging area (R144, R145), the clamps of a commit (R147), and ABANDON (R155). -/

namespace Sys2Proof.Machine

variable {s : State} {f : RxFrame} {rest : List RxFrame} {i : Slot} {n : ClaimNo} {c : Claim} {a : Nat}

/-! ### CLAIM (R140 to R142) -/

/-- Another station holds the claim on the record. -/
theorem claimOn_elsewhere_iff : (s.claimOn i).any (fun p => p.2.holder != a) = true ↔
    ∃ n c, s.claimOn i = some (n, c) ∧ c.holder ≠ a := by
  simp only [Option.any_eq_true, Prod.exists, bne_iff_ne]

/-- The station holds a claim. -/
theorem claimOf_isSome_iff : (s.claimOf a).isSome = true ↔
    ∃ (n : ClaimNo) (c : Claim), s.claims[n] = some c ∧ c.holder = a := by
  rw [Option.isSome_iff_ne_none, ne_eq, claimOf_eq_none]
  push Not
  rfl

theorem lowestFreeClaim_eq_none (h : ∀ n : ClaimNo, s.claims[n] ≠ none) : s.lowestFreeClaim = none :=
  List.find?_eq_none.2 fun n _ hn => h n (Option.isNone_iff_eq_none.1 hn)

theorem lowestFreeClaim_eq_some (hn : s.claims[n] = none) (h : ∀ m, m < n → s.claims[m] ≠ none) : s.lowestFreeClaim = some n :=
  find_finRange_lowest (Option.isNone_iff_eq_none.2 hn) fun m hm =>
    Option.isNone_eq_false_iff.2 (Option.isSome_iff_ne_none.2 (h m hm))

/-- A permitted CLAIM on a record is judged on the claims, the record's first and the sender's next (R141). -/
theorem claimOwner_judged (hi : byteAt f.payload 0 = i.val) (hv : s.coils[i].lifecycle ≠ .vacant) (hp : s.Permitted f.sender i) :
    claimOwner f s =
      if (s.claimOn i).any (fun p => p.2.holder != f.sender) then refuse s .claimedElsewhere
      else if (s.claimOf f.sender).isSome then refuse s .wrongState
      else
        match s.lowestFreeClaim with
        | none => refuse s .noStaging
        | some n => (s.setClaim n (some (.new f.sender i s.now)), some (.done [byteOf i.val])) :=
  (withRecord_named hi hv _).trans (if_neg (mayEdit_passes hp))

/-- Settles O27: the claims decide in their order, and the lowest FREE entry takes the new claim. -/
theorem claimTakesTheLowestFreeEntry : Obligations.ClaimTakesTheLowestFreeEntry := by
  intro s f rest i ht hi hv hp elsewhere holds
  let t : State := { s with rx := rest }
  have hjudged := claimOwner_judged (s := t) hi hv hp
  have hother (h : ¬ elsewhere) : ¬ (t.claimOn i).any (fun p => p.2.holder != f.sender) = true := fun hx =>
    h (claimOn_elsewhere_iff.1 hx)
  have hown (h : ¬ holds) : ¬ (t.claimOf f.sender).isSome = true := fun hx => h (claimOf_isSome_iff.1 hx)
  refine ⟨fun h => takeRequest_refuses ht (hjudged.trans (if_pos (claimOn_elsewhere_iff.2 h))),
    fun ⟨he, hh⟩ => takeRequest_refuses ht (hjudged.trans ((if_neg (hother he)).trans (if_pos (claimOf_isSome_iff.2 hh)))),
    fun ⟨he, hh, hfull⟩ => takeRequest_refuses ht (hjudged.trans ((if_neg (hother he)).trans ((if_neg (hown hh)).trans ?_))),
    fun n ⟨he, hh, hfree, hlow⟩ => ?_⟩
  · rw [lowestFreeClaim_eq_none (s := t) hfull]
  · have hclaims : claimOwner f t = (t.setClaim n (some (.new f.sender i t.now)), some (.done [byteOf i.val])) := by
      refine hjudged.trans ((if_neg (hother he)).trans ((if_neg (hown hh)).trans ?_))
      rw [lowestFreeClaim_eq_some (s := t) hfree hlow]
    exact congrArg Host.Outcome.next (takeRequest_answers ht hclaims)

/-! ### The checks that the claimed edits share (R143) -/

theorem isCommitted_iff : c.isCommitted = true ↔ c.state ≠ .opened := by
  unfold Claim.isCommitted
  cases c.state <;> simp

theorem withClaim_notClaimed (h : s.claimOf f.sender = none) (k : ClaimNo → Claim → Handled) :
    withClaim f s k = refuse s .notClaimed := by
  unfold withClaim
  rw [h]

/-- The holder of a claim is judged on its permission and on the claim's state. -/
theorem withClaim_held (hc : s.claimOf f.sender = some (n, c)) (k : ClaimNo → Claim → Handled) : withClaim f s k =
    if !s.mayEdit f.sender c.slot then refuse s .notPermitted else if c.isCommitted then refuse s .writing else k n c := by
  unfold withClaim
  rw [hc]

/-- The permitted holder of an OPEN claim passes the shared checks. -/
theorem withClaim_opened (hc : s.claimOf f.sender = some (n, c)) (hp : s.Permitted f.sender c.slot) (ho : c.state = .opened)
    (k : ClaimNo → Claim → Handled) : withClaim f s k = k n c :=
  withClaim_passes hc ((mayEdit_iff _ _ _).2 hp) (Bool.eq_false_iff.2 fun h => isCommitted_iff.1 h ho) k

/-- Each claimed edit but CLAIM itself makes the shared checks first. -/
theorem claimedEdit_owner {fn : Func}
    (h : fn ∈ [Func.stageLimits, .stageDose, .stageTiming, .stageMap, .stageBind, .commit, .abandon]) :
    ∃ (owner : RxFrame → State → Handled) (k : RxFrame → State → ClaimNo → Claim → Handled),
      (∀ s, exec fn.command s = .next (takeRequest fn owner s)) ∧ ∀ f s, owner f s = withClaim f s (k f s) := by
  simp only [List.mem_cons, List.not_mem_nil, or_false] at h
  rcases h with rfl | rfl | rfl | rfl | rfl | rfl | rfl
  · exact ⟨stageLimitsOwner, _, fun _ => rfl, fun _ _ => rfl⟩
  · exact ⟨stageDoseOwner, _, fun _ => rfl, fun _ _ => rfl⟩
  · exact ⟨stageTimingOwner, _, fun _ => rfl, fun _ _ => rfl⟩
  · exact ⟨stageMapOwner, _, fun _ => rfl, fun _ _ => rfl⟩
  · exact ⟨stageBindOwner, _, fun _ => rfl, fun _ _ => rfl⟩
  · exact ⟨commitOwner, _, fun _ => rfl, fun _ _ => rfl⟩
  · exact ⟨abandonOwner, _, fun _ => rfl, fun _ _ => rfl⟩

/-- Settles O29: the shared checks in their order. -/
theorem claimedEditsAreRefusedInOrder : Obligations.ClaimedEditsAreRefusedInOrder := by
  intro fn s f rest ht hfn refused
  let t : State := { s with rx := rest }
  obtain ⟨owner, k, hexec, howner⟩ := claimedEdit_owner hfn
  have refuses {r : Result} (h : withClaim f t (k f t) = refuse t r) : refused r :=
    (hexec s).trans (takeRequest_refuses ht ((howner f t).trans h))
  refine ⟨fun h => refuses (withClaim_notClaimed (s := t) (claimOf_eq_none.2 h) _), fun n c hc => ?_⟩
  have hheld := withClaim_held (s := t) hc (k f t)
  exact ⟨fun hp => refuses (hheld.trans (if_pos (not_mayEdit (s := t) hp))),
    fun hp ho => refuses (hheld.trans ((if_neg (mayEdit_passes (s := t) hp)).trans (if_pos (isCommitted_iff.2 ho))))⟩

/-! ### The staging area (R144, R145) -/

/-- STAGE_BIND stages LAT for role 0 and FT for role 1, and knows no other role (R180). -/
theorem stageBindOwner_judged (hc : s.claimOf f.sender = some (n, c)) (hp : s.Permitted f.sender c.slot) (ho : c.state = .opened) :
    (byteAt f.payload 0 = 0 → stageBindOwner f s = s.stage n c { c.staging with lat := some (bindFields f.payload) })
    ∧ (byteAt f.payload 0 = 1 → stageBindOwner f s = s.stage n c { c.staging with ft := some (bindFields f.payload) })
    ∧ (2 ≤ byteAt f.payload 0 → stageBindOwner f s = refuse s .outOfRange) := by
  have hopened := withClaim_opened hc hp ho
  refine ⟨fun h => (hopened _).trans ?_, fun h => (hopened _).trans ?_, fun h => (hopened _).trans ?_⟩ <;>
    generalize byteAt f.payload 0 = role at h
  · subst h
    rfl
  · subst h
    rfl
  · obtain ⟨m, rfl⟩ := Nat.exists_eq_add_of_le' h
    rfl

/-- Settles O28: past the shared checks, each function stages the group that its payload spells. -/
theorem stageFunctionsLayTheirGroups : Obligations.StageFunctionsLayTheirGroups := by
  intro fn s f rest n c ht hc hp ho p laid binding
  let t : State := { s with rx := rest }
  have hopened := withClaim_opened (s := t) hc hp ho
  have lays {owner : RxFrame → State → Handled} {st : Staging} (hx : exec fn.command s = .next (takeRequest fn owner s))
      (h : owner f t = t.stage n c st) : laid st := hx.trans (congrArg Host.Outcome.next (takeRequest_answers ht h))
  obtain ⟨hlat, hft, hrole⟩ := stageBindOwner_judged (s := t) hc hp ho
  refine ⟨?_, ?_, ?_, ?_, ?_⟩ <;> rintro rfl
  · exact lays (owner := stageLimitsOwner) rfl (hopened _)
  · exact lays (owner := stageDoseOwner) rfl (hopened _)
  · exact lays (owner := stageTimingOwner) rfl (hopened _)
  · exact lays (owner := stageMapOwner) rfl (hopened _)
  · exact ⟨fun h => lays rfl (hlat h), fun h => lays rfl (hft h), fun h => takeRequest_refuses ht (hrole h)⟩

/-! ### ABANDON (R155) -/

/-- Settles O33: past the shared checks, the entry is freed. -/
theorem abandonFreesTheClaim : Obligations.AbandonFreesTheClaim := by
  intro s f rest n c ht hc hp ho
  have hfrees : abandonOwner f { s with rx := rest } = (({ s with rx := rest } : State).setClaim n none, some (.done [])) :=
    withClaim_opened (s := { s with rx := rest }) hc hp ho _
  exact congrArg Host.Outcome.next (takeRequest_answers ht hfrees)

/-! ### The clamps of a commit (R147) -/

/-- A clamp between bounds in order: below the lower one, above the upper one, or unchanged. -/
theorem clampTo_eq_ite {lo hi : Int} (h : lo ≤ hi) (x : Int) :
    clampTo lo hi x = if x < lo then lo else if hi < x then hi else x := by
  unfold clampTo
  split_ifs <;> omega

theorem clampedHold_eq_ite (h : Nat) : clampedHold h = if h < 30 then 30 else if 1800 < h then 1800 else h := by
  unfold clampedHold
  split_ifs <;> omega

/-- Candidates that agree in every group are equal. -/
theorem candidate_ext {x y : Candidate} (hlimits : x.limits = y.limits) (hdose : x.dose = y.dose) (hhold : x.hold = y.hold)
    (hmap : x.map = y.map) (hlat : x.lat = y.lat) (hft : x.ft = y.ft) : x = y := by
  cases x
  cases y
  simp_all only

/-- A binding whose offset is clamped, by the branches of the clamp. -/
theorem clamped_bind_eq (b : Binding) : (some { b with offset := clampTo (-50) 50 b.offset } : Option Binding) =
    some { b with offset := if b.offset < -50 then -50 else if 50 < b.offset then 50 else b.offset } := by
  rw [clampTo_eq_ite (by decide)]

/-- Settles O31, group by group: a staged group is clamped where it has a clamp, and a group that is not staged is the record's. -/
theorem commitClampsTheStagedValues : Obligations.CommitClampsTheStagedValues := by
  rintro ⟨limits, dose, timing, map, lat, ft⟩ c clamp merged
  refine candidate_ext ?_ ?_ ?_ ?_ ?_ ?_
  · cases limits with
    | none => rfl
    | some l =>
      exact congrArg₂ (fun w d => some { l with watchBand := w, decay := d })
        (clampTo_eq_ite (lo := 5) (hi := 200) (by decide) _)
        (clampTo_eq_ite (lo := 1) (hi := 1000) (by decide) _)
  · cases dose <;> rfl
  · cases timing with
    | none => rfl
    | some h => exact congrArg some (clampedHold_eq_ite h)
  · cases map <;> rfl
  · rcases lat with _ | _ | b
    · rfl
    · rfl
    · exact clamped_bind_eq b
  · rcases ft with _ | _ | b
    · rfl
    · rfl
    · exact clamped_bind_eq b

end Sys2Proof.Machine
end

