-- ==== Sys2Proof/Proofs/SupervisorList.lean ====
section
/-! SUPERVISOR_SET (R138): its refusals in their order, and the list that replaces the one held. -/

namespace Sys2Proof.Machine

variable {s : State} {f : RxFrame} {rest : List RxFrame} {p : List Byte}

theorem length_distinct_le {α : Type} [DecidableEq α] (l : List α) : (distinct l).length ≤ l.length :=
  (distinct_perm_dedup l).length_eq.trans_le (List.dedup_sublist l).length_le

theorem length_supervisorFields : (supervisorFields p).length = byteAt p 0 := by
  simp [supervisorFields]

/-- A list that the owner refuses: too many stations, or one out of its range (R138). -/
theorem supervisorSet_outOfRange_iff :
    (decide (Config.supervisorCapacity < byteAt p 0) || !(distinct (supervisorFields p)).all isStation) = true ↔
      ¬ (byteAt p 0 ≤ 4 ∧ ∀ a ∈ supervisorFields p, 1 ≤ a ∧ a ≤ 223) := by
  have hall : (distinct (supervisorFields p)).all isStation = true ↔ ∀ a ∈ supervisorFields p, 1 ≤ a ∧ a ≤ 223 := by
    simp only [List.all_eq_true, distinct_mem, isStation_iff]
  have hcount : decide (Config.supervisorCapacity < byteAt p 0) = true ↔ ¬ byteAt p 0 ≤ 4 := decide_eq_true_iff.trans not_le.symm
  rw [Bool.or_eq_true, hcount, not_eq_true_iff hall, not_and_or]

/-- A supervisor's SUPERVISOR_SET is judged on its list. -/
theorem supervisorSetOwner_judged (hs : s.Supervisor f.sender) : supervisorSetOwner f s =
    if decide (Config.supervisorCapacity < byteAt f.payload 0) || !(distinct (supervisorFields f.payload)).all isStation then
      refuse s .outOfRange
    else (({ s with supervisors := distinct (supervisorFields f.payload) } : State).markDirty .settings,
      some (.done (supervisorView (distinct (supervisorFields f.payload))))) :=
  if_neg (isSupervisor_passes hs)

/-- Settles O36: the list is the one sent, each address at its first place. -/
theorem supervisorSetReplacesTheList : Obligations.SupervisorSetReplacesTheList := by
  intro s f rest ht sent inRange
  let t : State := { s with rx := rest }
  refine ⟨fun hs => takeRequest_refuses ht (if_pos (not_isSupervisor (s := t) hs)),
    fun hs hr => takeRequest_refuses ht
      ((supervisorSetOwner_judged (s := t) hs).trans (if_pos (supervisorSet_outOfRange_iff.2 hr))),
    fun hs hr => ⟨distinct sent, distinct_nodup _, ?_, fun a => distinct_mem a _, ?_⟩⟩
  · calc (distinct sent).length ≤ sent.length := length_distinct_le _
      _ = byteAt f.payload 0 := length_supervisorFields
      _ ≤ 4 := hr.1
  · have howner : supervisorSetOwner f t =
        (({ t with supervisors := distinct sent } : State).markDirty .settings, some (.done (supervisorView (distinct sent)))) :=
      (supervisorSetOwner_judged (s := t) hs).trans (if_neg fun h => supervisorSet_outOfRange_iff.1 h hr)
    refine congrArg Host.Outcome.next ((takeRequest_answers ht howner).trans ?_)
    exact congrArg (State.pushAnswer · (f.answer (.done (supervisorView (distinct sent)))))
      (markDirty_rx { s with supervisors := distinct sent } rest .settings)

end Sys2Proof.Machine
end

