-- ==== Sys2Proof/Proofs/SentFrames.lean ====
section
/-! A frame and its levels (R158, R175): the frame that received bits announce, and the levels it is sent as (O39). -/

namespace Sys2Proof.Machine

variable {bs pre post : List Bool} {p q : List Byte} {g g' : Frame} {levels : List LineLevel}

/-! ### Slices of bits -/

theorem length_bitSlice {start n : Nat} (h : start + n ≤ bs.length) : (bitSlice bs start n).length = n := by
  rw [bitSlice, List.length_take, List.length_drop]
  omega

/-- The bits up to a slice, with the slice, are the bits up to its end. -/
theorem take_append_bitSlice (bs : List Bool) (start n : Nat) : bs.take start ++ bitSlice bs start n = bs.take (start + n) :=
  List.take_add.symm

/-- The bits up to a run of slices, with the slices, are the bits up to the run's end. -/
theorem take_append_bitSlices (bs : List Bool) (start w n : Nat) :
    bs.take start ++ (List.range n).flatMap (fun k => bitSlice bs (start + w * k) w) = bs.take (start + w * n) := by
  induction n with
  | zero => simp
  | succ n ih =>
    rw [List.range_succ, List.flatMap_append, ← List.append_assoc, ih, List.flatMap_singleton, take_append_bitSlice, Nat.mul_succ,
      Nat.add_assoc]

/-- Bits that stand behind others are a slice at their place. -/
theorem bitSlice_append {a n : Nat} {mid : List Bool} (ha : pre.length = a) (hn : mid.length = n) :
    bitSlice (pre ++ (mid ++ post)) a n = mid := by
  rw [bitSlice, List.drop_left' ha, List.take_left' hn]

/-- A field read from a slice of its width has the slice's bits. -/
theorem fieldBits_ofNat_bitSlice {start w : Nat} (h : start + w ≤ bs.length) :
    fieldBits (BitVec.ofNat w (bitsToNat (bitSlice bs start w))) = bitSlice bs start w :=
  fieldBits_ofNat (length_bitSlice h)

/-! ### A frame's body determines the frame -/

theorem classBit_injective {c d : FrameClass} (h : classBit c = classBit d) : c = d := by
  cases c <;> cases d <;> simp_all [classBit]

theorem fieldBits_injective {w : Nat} {x y : BitVec w} (h : fieldBits x = fieldBits y) : x = y :=
  BitVec.eq_of_toNat_eq (by rw [← bitsToNat_fieldBits x, h, bitsToNat_fieldBits])

@[simp] theorem length_payloadBits (p : List Byte) : (p.flatMap fieldBits).length = 8 * p.length := by
  induction p with
  | nil => rfl
  | cons x p ih => rw [List.flatMap_cons, List.length_append, ih, fieldBits_length, List.length_cons]; omega

theorem payloadBits_injective (hl : p.length = q.length) (h : p.flatMap fieldBits = q.flatMap fieldBits) : p = q := by
  induction p generalizing q with
  | nil => exact (List.length_eq_zero_iff.1 hl.symm).symm
  | cons x p ih =>
    cases q with
    | nil => cases hl
    | cons y q =>
      rw [List.flatMap_cons, List.flatMap_cons] at h
      obtain ⟨hxy, hpq⟩ := List.append_inj h (by rw [fieldBits_length, fieldBits_length])
      rw [fieldBits_injective hxy, ih (Nat.succ.inj hl) hpq]

theorem length_body (g : Frame) : g.body.length = 28 + 8 * g.payload.length := by
  simp only [Frame.body, List.length_cons, List.length_append, fieldBits_length, length_payloadBits]
  omega

/-- Frames of one payload length and one body are the same: each field stands at the same place. -/
theorem body_injective (hl : g.payload.length = g'.payload.length) (h : g.body = g'.body) : g = g' := by
  obtain ⟨cls, sender, target, code, payload⟩ := g
  obtain ⟨cls', sender', target', code', payload'⟩ := g'
  obtain ⟨hcls, h⟩ := List.cons.inj h
  obtain ⟨h, hpayload⟩ := List.append_inj h (by simp)
  obtain ⟨h, -⟩ := List.append_inj h (by simp)
  obtain ⟨h, hcode⟩ := List.append_inj h (by simp)
  obtain ⟨hsender, htarget⟩ := List.append_inj h (by simp)
  rw [Frame.mk.injEq]
  exact ⟨classBit_injective hcls, fieldBits_injective hsender, fieldBits_injective htarget, fieldBits_injective hcode,
    payloadBits_injective hl hpayload⟩

/-! ### The frame that bits announce -/

/-- The length field of received bits (R175). -/
def announcedLength (bs : List Bool) : Nat := bitsToNat (bitSlice bs 23 5)

/-- The frame whose fields stand at their places in received bits (R175). -/
def announcedFrame (bs : List Bool) : Frame where
  cls := if bs.headD true then .routine else .urgent
  sender := BitVec.ofNat 8 (bitsToNat (bitSlice bs 1 8))
  target := BitVec.ofNat 8 (bitsToNat (bitSlice bs 9 8))
  code := BitVec.ofNat 6 (bitsToNat (bitSlice bs 17 6))
  payload := (List.range (announcedLength bs)).map fun k => BitVec.ofNat 8 (bitsToNat (bitSlice bs (28 + 8 * k) 8))

/-- The bits that the part does not judge bad (R158): the payload announced is 24 bytes at most, the bits reach to the end of the CRC,
and the CRC is that of the bits before it. -/
structure GoodBits (bs : List Bool) : Prop where
  payload : announcedLength bs ≤ 24
  whole : 28 + 8 * announcedLength bs + 16 ≤ bs.length
  checked : bitsToNat (bitSlice bs (28 + 8 * announcedLength bs) 16) = (crc (bs.take (28 + 8 * announcedLength bs))).toNat

theorem readFrame_good (h : GoodBits (removeSeparators 0 levels)) :
    readFrame levels = some (announcedFrame (removeSeparators 0 levels)) := by
  obtain ⟨hpayload, hwhole, hchecked⟩ := h
  refine (if_neg ?_).trans (if_pos hchecked)
  rintro (hshort | hlong | hshort)
  · exact absurd (le_trans (show 28 ≤ _ by omega) hwhole) (not_le.2 hshort)
  · exact absurd hpayload (not_le.2 hlong)
  · exact absurd hwhole (not_le.2 hshort)

theorem goodBits_of_readFrame (h : readFrame levels = some g) : GoodBits (removeSeparators 0 levels) := by
  have hnone : ¬ readFrame levels = none := by rw [h]; exact Option.some_ne_none g
  have hreads : ¬ ((removeSeparators 0 levels).length < 28 ∨ 24 < announcedLength (removeSeparators 0 levels)
      ∨ (removeSeparators 0 levels).length < 28 + 8 * announcedLength (removeSeparators 0 levels) + 16) :=
    fun hbad => hnone (if_pos hbad)
  by_contra hgood
  refine hnone ((if_neg hreads).trans (if_neg fun hchecked => hgood ⟨?_, ?_, hchecked⟩)) <;> omega

/-- What the part reads (R158): the frame that its good bits announce, and nothing else. -/
theorem readFrame_eq_some_iff : readFrame levels = some g ↔
    GoodBits (removeSeparators 0 levels) ∧ announcedFrame (removeSeparators 0 levels) = g :=
  ⟨fun h => ⟨goodBits_of_readFrame h, Option.some.inj ((readFrame_good (goodBits_of_readFrame h)).symm.trans h)⟩,
    fun ⟨hgood, h⟩ => (readFrame_good hgood).trans (congrArg some h)⟩

theorem length_announced (bs : List Bool) : (announcedFrame bs).payload.length = announcedLength bs := by
  simp [announcedFrame]

/-- The class bit is the first of some bits. -/
theorem classBit_announced (h : bs ≠ []) : [classBit (announcedFrame bs).cls] = bs.take 1 := by
  cases bs with
  | nil => exact absurd rfl h
  | cons b bs => cases b <;> rfl

/-- The payload's bits are the slices behind the header. -/
theorem payloadBits_announced (h : 28 + 8 * announcedLength bs ≤ bs.length) :
    (announcedFrame bs).payload.flatMap fieldBits
      = (List.range (announcedLength bs)).flatMap fun k => bitSlice bs (28 + 8 * k) 8 := by
  rw [announcedFrame, List.flatMap_map]
  refine List.flatMap_congr fun k hk => fieldBits_ofNat_bitSlice ?_
  have := List.mem_range.1 hk
  omega

/-- The frame announced has the bits it was read from as its body. -/
theorem body_announced (h : 28 + 8 * announcedLength bs ≤ bs.length) :
    (announcedFrame bs).body = bs.take (28 + 8 * announcedLength bs) := by
  have hlength : fieldBits (BitVec.ofNat 5 (announcedFrame bs).payload.length) = bitSlice bs 23 5 := by
    rw [length_announced]; exact fieldBits_ofNat_bitSlice (by omega)
  have hsender : fieldBits (announcedFrame bs).sender = bitSlice bs 1 8 := fieldBits_ofNat_bitSlice (by omega)
  have htarget : fieldBits (announcedFrame bs).target = bitSlice bs 9 8 := fieldBits_ofNat_bitSlice (by omega)
  have hcode : fieldBits (announcedFrame bs).code = bitSlice bs 17 6 := fieldBits_ofNat_bitSlice (by omega)
  have hclass := classBit_announced (bs := bs) (by rintro rfl; simp at h)
  rw [Frame.body, hlength, hsender, htarget, hcode, payloadBits_announced h, ← List.singleton_append, hclass]
  simp only [← List.append_assoc]
  rw [take_append_bitSlice, take_append_bitSlice, take_append_bitSlice, take_append_bitSlice, take_append_bitSlices]

/-! ### Bits that begin with a frame's -/

/-- The bits that a frame is sent as, less its separators: its body and its CRC (R175). -/
def Frame.bits (g : Frame) : List Bool := g.body ++ fieldBits (crc g.body)

theorem levels_eq_insertSeparators (g : Frame) : g.levels = insertSeparators 0 g.bits := rfl

theorem length_bits (g : Frame) : g.bits.length = 44 + 8 * g.payload.length := by
  rw [Frame.bits, List.length_append, length_body, fieldBits_length]
  omega

/-- A frame of 24 bytes at most announces its own length: the length field has room for it. -/
theorem announcedLength_body (hp : g.payload.length ≤ 24) (post : List Bool) :
    announcedLength (g.body ++ post) = g.payload.length := by
  have hbody : g.body ++ post = (classBit g.cls :: (fieldBits g.sender ++ fieldBits g.target ++ fieldBits g.code))
      ++ (fieldBits (BitVec.ofNat 5 g.payload.length) ++ (g.payload.flatMap fieldBits ++ post)) := by simp [Frame.body]
  rw [announcedLength, hbody, bitSlice_append (by simp) (fieldBits_length _), bitsToNat_fieldBits, BitVec.toNat_ofNat,
    Nat.mod_eq_of_lt (by omega)]

/-- Bits are good and announce a frame exactly where its payload is 24 bytes at most and they begin with its own. -/
theorem goodBits_announced_iff : GoodBits bs ∧ announcedFrame bs = g ↔ g.payload.length ≤ 24 ∧ g.bits <+: bs := by
  constructor
  · rintro ⟨⟨hpayload, hwhole, hchecked⟩, rfl⟩
    have hcrc : fieldBits (crc (announcedFrame bs).body) = bitSlice bs (28 + 8 * announcedLength bs) 16 := by
      refine bitsToNat_inj ((fieldBits_length _).trans (length_bitSlice hwhole).symm) ?_
      rw [bitsToNat_fieldBits, body_announced (by omega), hchecked]
    refine ⟨(length_announced bs).trans_le hpayload, ?_⟩
    rw [Frame.bits, hcrc, body_announced (by omega), take_append_bitSlice]
    exact List.take_prefix _ _
  · rintro ⟨hp, post, rfl⟩
    rw [Frame.bits, List.append_assoc]
    have hlen := announcedLength_body hp (fieldBits (crc g.body) ++ post)
    have htake : (g.body ++ (fieldBits (crc g.body) ++ post)).take (28 + 8 * g.payload.length) = g.body :=
      List.take_left' (length_body g)
    have hwhole : 28 + 8 * g.payload.length + 16 ≤ (g.body ++ (fieldBits (crc g.body) ++ post)).length := by
      simp only [List.length_append, length_body, fieldBits_length]
      omega
    refine ⟨⟨hlen.trans_le hp, by rwa [hlen], ?_⟩, body_injective ((length_announced _).trans hlen) ?_⟩
    · rw [hlen, htake, bitSlice_append (length_body g) (fieldBits_length _), bitsToNat_fieldBits]
    · rw [body_announced (by rw [hlen]; omega), hlen, htake]

/-- Levels begin with a frame's levels exactly where their bits begin with its bits: no separator falls at the frame's end. -/
theorem levels_prefix_iff : g.levels <+: levels ↔ g.bits <+: removeSeparators 0 levels := by
  rw [levels_eq_insertSeparators]
  constructor
  · rintro ⟨post, rfl⟩
    rw [removeSeparators_insertSeparators _ _ (by decide)]
    exact List.prefix_append _ _
  · intro h
    have hlen := length_bits g
    exact insertSeparators_prefix g.bits 0 (by decide) levels h (Or.inr (by omega))

/-- Settles O39: the part reads what good bits announce, and those are the bits of the frame announced. -/
theorem sentFrameIsReadBack : Obligations.SentFrameIsReadBack := by
  intro g levels
  rw [readFrame_eq_some_iff, goodBits_announced_iff, levels_prefix_iff]

end Sys2Proof.Machine
end

