-- ==== Sys2Proof/Proofs/Receptions.lean ====
section
/-! A frame received from the line (R158, R161, R162, R174): what the part hears, what its filter takes, and what joins the queue
(O38). -/

namespace Sys2Proof.Machine

variable {s : State} {g : Frame} {levels : List LineLevel}

theorem not_hears_iff : s.hears = false ↔ s.power = .off ∨ s.power = .held ∨ s.line ≠ none := by
  unfold State.hears
  cases s.power <;> simp [Option.isSome_iff_ne_none]

/-- The frames that the filter takes: of a station, for the part, its zone group or every station (R161). -/
theorem filterTakes_iff : (isStation g.sender.toNat && s.takesTarget g.target.toNat) = true ↔
    1 ≤ g.sender.toNat ∧ g.sender.toNat ≤ 223
      ∧ (g.target.toNat = s.address ∨ g.target.toNat = 255 ∨ g.target.toNat = 224 + s.zone.val) := by
  rw [Bool.and_eq_true, isStation_iff, and_assoc]
  simp only [State.takesTarget, zoneAddress, Bool.or_eq_true, beq_iff_eq, or_assoc]

theorem receive_deaf (h : s.hears = false) : s.receive levels = s := if_pos (by rw [h]; rfl)

theorem receive_bad (h : s.hears = true) (hr : readFrame levels = none) : s.receive levels = { s with ack := .nothing } := by
  rw [State.receive, h, hr]
  rfl

/-- A good frame is judged by the filter (R161, R162). -/
theorem receive_good (h : s.hears = true) (hr : readFrame levels = some g) :
    s.receive levels = if isStation g.sender.toNat && s.takesTarget g.target.toNat then s.acceptFrame g
      else { s with ack := .nothing } := by
  rw [State.receive, h, hr]
  rfl

/-- In service and with room, the frame joins the queue, and one addressed to the part is accepted (R162). -/
theorem acceptFrame_joins (h : s.power = .running ∧ s.rx.length < 8) : s.acceptFrame g =
    { s with ack := if g.target.toNat == s.address then .accept else .nothing, rx := s.rx ++ [s.received g] } := by
  simp only [State.acceptFrame, State.slotFor, State.received, Config.rxCapacity, if_pos h]
  cases g.target.toNat == s.address <;> rfl

/-- Out of service or without room, the frame is lost, and one addressed to the part is refused (R162, R174). -/
theorem acceptFrame_refuses (h : ¬ (s.power = .running ∧ s.rx.length < 8)) : s.acceptFrame g =
    { s with ack := if g.target.toNat == s.address then .refuse else .nothing } := by
  simp only [State.acceptFrame, State.slotFor, State.received, Config.rxCapacity, if_neg h]
  cases g.target.toNat == s.address <;> rfl

/-- Settles O38: the reception judges in this order whether it hears, whether the frame is good, and whether the filter takes it. -/
theorem frameReceptionFiltersAndQueues : Obligations.FrameReceptionFiltersAndQueues := by
  intro s levels deaf hears
  have hhears (h : ¬ deaf) : s.hears = true := by rwa [← Bool.not_eq_false, not_hears_iff]
  have hreceives {t : State} (h : s.receive levels = t) : hears t := congrArg Host.Outcome.next h
  refine ⟨fun h => hreceives (receive_deaf (not_hears_iff.2 h)), fun h hr => hreceives (receive_bad (hhears h) hr), ?_⟩
  intro g h hr taken addressed
  have hgood := receive_good (hhears h) hr
  have haccepts (ht : taken) : s.receive levels = s.acceptFrame g := hgood.trans (if_pos (filterTakes_iff.2 ht))
  refine ⟨fun ht => hreceives (hgood.trans (if_neg fun h => ht (filterTakes_iff.1 h))), fun ht hp hl => ?_, fun ht hn => ?_⟩
  · exact hreceives ((haccepts ht).trans (acceptFrame_joins ⟨hp, hl⟩))
  · refine hreceives ((haccepts ht).trans (acceptFrame_refuses ?_))
    rwa [not_and_or, not_lt]

end Sys2Proof.Machine
end

