-- ==== Sys2Proof/Proofs/RequestHandling.lean ====
section
/-! The request handler (R164 to R166): when it waits, which frames it discards, and which it answers without an owner (O4 to O6); and
PART_RESTART, which it never answers (O37). -/

namespace Sys2Proof.Machine

variable {s : State} {f : RxFrame} {rest : List RxFrame} {fn : Func} {owner : RxFrame → State → Handled}

/-! ### Function codes (R177) -/

@[simp] theorem ofCode_code (fn : Func) : Func.ofCode fn.code = some fn := by cases fn <;> rfl

/-- No function has a code outside R177's table. -/
theorem code_inTable (fn : Func) : fn.code.toNat ∉ [0, 7, 14, 15, 22, 23] ∧ fn.code.toNat < 36 := by cases fn <;> decide

theorem ofCode_eq_none {c : FuncCode} (h : c.toNat ∈ [0, 7, 14, 15, 22, 23] ∨ 36 ≤ c.toNat) : Func.ofCode c = none := by
  refine List.find?_eq_none.2 fun fn _ hfn => ?_
  obtain ⟨hout, hlt⟩ := code_inTable fn
  rw [beq_iff_eq.1 hfn] at hout hlt
  exact h.elim hout (not_le.2 hlt)

/-- The codes 3 to 6 are those of the functions that only the part sends (R165, R177). -/
theorem sentByPart_of_code {c : FuncCode} (h : 3 ≤ c.toNat ∧ c.toNat ≤ 6) : ∃ fn : Func, fn.code = c ∧ fn.sentByPart = true := by
  have hc {n : Nat} (h : c.toNat = n) : BitVec.ofNat 6 n = c := by rw [← h, BitVec.ofNat_toNat, BitVec.setWidth_eq]
  obtain h | h | h | h : c.toNat = 3 ∨ c.toNat = 4 ∨ c.toNat = 5 ∨ c.toNat = 6 := by omega
  · exact ⟨.poll, hc h, rfl⟩
  · exact ⟨.action, hc h, rfl⟩
  · exact ⟨.stageNotice, hc h, rfl⟩
  · exact ⟨.answer, hc h, rfl⟩

/-! ### The command of a function -/

/-- The command of every function takes a frame, or does nothing. -/
theorem exec_command (fn : Func) : ∃ p effect, ∀ s, exec fn.command s = .next (takeFrame p effect s) := by
  cases fn <;> exact ⟨_, _, fun _ => rfl⟩

/-- The command of a request hands the frame to the request's owner. -/
theorem exec_request (h : fn.isRequest = true) : ∃ owner, ∀ s, exec fn.command s = .next (takeRequest fn owner s) := by
  cases fn with
  | report | unitStatus | poll | action | stageNotice | answer => cases h
  | _ => exact ⟨_, fun _ => rfl⟩

/-- The handler takes nothing while a condition of R164 fails. -/
theorem takeFrame_blocked
    (h : s.rx = [] ∨ s.power ≠ .running ∨ s.restartPending = true ∨ s.deferred ≠ [] ∨ 8 ≤ s.answers.length)
    (p : RxFrame → Bool) (effect : RxFrame → State → State) : takeFrame p effect s = s := by
  rcases h with h | h
  · exact takeFrame_empty h p effect
  · refine takeFrame_waits (Bool.eq_false_iff.2 fun hready => ?_) p effect
    obtain ⟨hp, hr, hd, ha⟩ := (handlerReady_iff s).1 hready
    rcases h with h | h | h | h
    · exact h hp
    · cases hr.symm.trans h
    · exact h hd
    · exact absurd ha (not_lt.2 h)

/-- Settles O4: each command of a function, and UNKNOWN_FUNCTION, takes a frame or nothing. -/
theorem handlerWaits : Obligations.HandlerWaits := by
  intro fn s h
  obtain ⟨p, effect, hexec⟩ := exec_command fn
  exact ⟨by rw [hexec, takeFrame_blocked h], congrArg Host.Outcome.next (takeFrame_blocked h _ _)⟩

/-! ### Frames that reach no owner (R165) -/

theorem takeRequest_broadcast (ht : s.TakesFrame f rest) (hc : f.code = fn.code) (ha : f.addressed = false) :
    takeRequest fn owner s = { s with rx := rest } := by
  rw [takeRequest, takeFrame_takes ht (by simp [hc])]
  exact if_pos (by simp [ha])

theorem takeRequest_badLength (ht : s.TakesFrame f rest) (hc : f.code = fn.code) (ha : f.addressed = true)
    (hl : f.payload.length ≠ fn.length) : takeRequest fn owner s = s.replied f rest .badLength [] := by
  rw [takeRequest, takeFrame_takes ht (by simp [hc])]
  exact (if_neg (by simp [ha])).trans (if_pos hl)

theorem exec_discarded (ht : s.TakesFrame f rest) (hd : f.isDiscarded = true) :
    exec .discardedFunctionFrame s = .next { s with rx := rest } :=
  congrArg Host.Outcome.next (takeFrame_takes ht hd _)

theorem exec_unknown (ht : s.TakesFrame f rest) (hc : Func.ofCode f.code = none) :
    exec .unknownFunction s = .next (if f.addressed then s.replied f rest .unknownFunction [] else { s with rx := rest }) :=
  congrArg Host.Outcome.next (takeFrame_takes ht (p := fun f => (Func.ofCode f.code).isNone) (by rw [hc]; rfl) _)

theorem isDiscarded_of_code (hc : f.code = fn.code) : f.isDiscarded = (fn.sentByPart || (fn.isRequest && !f.addressed)) := by
  rw [RxFrame.isDiscarded, hc, ofCode_code]

/-- Settles O5: addressing and length are judged before the owner. -/
theorem requestsAreScreened : Obligations.RequestsAreScreened := by
  intro fn s f rest hfn ht hc
  obtain ⟨owner, hexec⟩ := exec_request hfn
  refine ⟨fun ha => ⟨by rw [hexec, takeRequest_broadcast ht hc ha], exec_discarded ht ?_⟩, fun ha hl => ?_⟩
  · rw [isDiscarded_of_code hc, hfn, ha, Bool.not_false, Bool.and_true, Bool.or_true]
  · rw [hexec, takeRequest_badLength ht hc ha hl]

/-- Settles O6: codes 3 to 6 are the part's own functions, and a code outside R177's table is no function's. -/
theorem framesOfNoRequestAreDiscardedOrAnswered : Obligations.FramesOfNoRequestAreDiscardedOrAnswered := by
  intro s f rest ht
  refine ⟨fun h => ?_, fun h => exec_unknown ht (ofCode_eq_none h)⟩
  obtain ⟨fn, hc, hsent⟩ := sentByPart_of_code h
  exact exec_discarded ht (by rw [isDiscarded_of_code hc.symm, hsent, Bool.true_or])

/-! ### PART_RESTART (R194) -/

/-- Settles O37: the owner judges the sender alone, and answers nobody. -/
theorem partRestartBecomesPending : Obligations.PartRestartBecomesPending := by
  intro s f rest ht
  let t : State := { s with rx := rest }
  exact ⟨fun hs => congrArg Host.Outcome.next (takeRequest_defers ht (if_pos ((isSupervisor_iff t f.sender).2 hs))),
    fun hs => congrArg Host.Outcome.next (takeRequest_defers ht (if_neg fun h => hs ((isSupervisor_iff t f.sender).1 h)))⟩

end Sys2Proof.Machine
end

