-- ==== Sys2Proof/Proofs/IdleSteps.lean ====
section
/-! A step with no command waiting (log 4): the running timers with the commands of their expiries, and the order in which the part
makes its own events (O2). -/

namespace Sys2Proof.Machine

variable {s : State} {f : RxFrame} {rest : List RxFrame} {fn : Func} {t : Nat} {c : Instr}

/-! ### The running timers -/

theorem filterTimer_eq_some {k : ContactFilter} : k.timer = some t ↔ k = .pending t := by
  cases k <;> simp [ContactFilter.timer]

theorem claimTimer_eq_some {n : ClaimNo} : s.claimTimer n = some t ↔ ∃ d : Claim, s.claims[n] = some d ∧ d.timer = some t :=
  Option.bind_eq_some_iff

theorem mem_coilTimers {i : Slot} : (some t, c) ∈ s.coilTimers i ↔
    s.coils[i].evalTimer = some t ∧ c = .evaluationExpiry i
    ∨ s.coils[i].holdTimer = some t ∧ c = .restartHoldExpiry i
    ∨ s.coils[i].cleanTimer = some t ∧ c = .cleanTimerExpiry i
    ∨ s.coils[i].settleTimer = some t ∧ c = .settleTimerExpiry i := by
  simp [State.coilTimers, eq_comm (a := some t)]

theorem mem_unitTimers {u : UnitNo} : (some t, c) ∈ s.unitTimers u ↔
    s.units[u].statusTimer = some t ∧ c = .statusTimerExpiry u
    ∨ s.units[u].filter = .pending t ∧ c = .contactFilterExpiry u := by
  simp [State.unitTimers, ← filterTimer_eq_some, eq_comm (a := some t)]

theorem mem_demandTimers {e : DemandEntry} : (some t, c) ∈ e.timers ↔
    e.refreshTimer = some t ∧ c = .refreshTimerExpiry e.key
    ∨ e.retryTimer = some t ∧ c = .faultRetryTimerExpiry e.key := by
  simp [DemandEntry.timers, eq_comm (a := some t)]

/-- The timers that run, each with the command of its expiry. -/
theorem mem_timers : (some t, c) ∈ s.timers ↔
    (∃ i : Slot, s.coils[i].evalTimer = some t ∧ c = .evaluationExpiry i
      ∨ s.coils[i].holdTimer = some t ∧ c = .restartHoldExpiry i
      ∨ s.coils[i].cleanTimer = some t ∧ c = .cleanTimerExpiry i
      ∨ s.coils[i].settleTimer = some t ∧ c = .settleTimerExpiry i)
    ∨ (∃ u : UnitNo, s.units[u].statusTimer = some t ∧ c = .statusTimerExpiry u
      ∨ s.units[u].filter = .pending t ∧ c = .contactFilterExpiry u)
    ∨ (∃ e ∈ s.demands, e.refreshTimer = some t ∧ c = .refreshTimerExpiry e.key
      ∨ e.retryTimer = some t ∧ c = .faultRetryTimerExpiry e.key)
    ∨ (∃ (n : ClaimNo) (d : Claim), s.claims[n] = some d ∧ d.timer = some t ∧ c = .claimTimerExpiry n)
    ∨ s.pollTimer = some t ∧ c = .pollPeriodExpiry
    ∨ s.storeRetry = some t ∧ c = .storeRetryTimerExpiry := by
  have hclaims : (some t, c) ∈ (List.finRange 4).map (fun n => (s.claimTimer n, Instr.claimTimerExpiry n)) ↔
      ∃ (n : ClaimNo) (d : Claim), s.claims[n] = some d ∧ d.timer = some t ∧ c = .claimTimerExpiry n := by
    simp only [List.mem_map, List.mem_finRange, true_and, Prod.mk.injEq, claimTimer_eq_some, eq_comm (b := c), ← exists_and_right,
      and_assoc]
  have hpart : (some t, c) ∈ [(s.pollTimer, Instr.pollPeriodExpiry), (s.storeRetry, .storeRetryTimerExpiry)] ↔
      s.pollTimer = some t ∧ c = .pollPeriodExpiry ∨ s.storeRetry = some t ∧ c = .storeRetryTimerExpiry := by
    simp [eq_comm (a := some t)]
  rw [State.timers, List.mem_append, List.mem_append, List.mem_append, List.mem_append, hclaims, hpart]
  simp only [List.mem_flatMap, List.mem_finRange, true_and, mem_coilTimers, mem_unitTimers, mem_demandTimers, or_assoc]

/-- No timer is due exactly where the part chooses none. -/
theorem dueTimer_eq_none_iff : s.dueTimer = none ↔ ∀ t c, (some t, c) ∈ s.timers → s.now < t := by
  refine ⟨fun h t c hm => (dueTimer_spec s).1 h _ hm t rfl, fun h => ?_⟩
  by_contra hd
  obtain ⟨c, hc⟩ := Option.ne_none_iff_exists'.1 hd
  obtain ⟨t, hm, hle, -⟩ := (dueTimer_spec s).2 c hc
  exact absurd hle (not_le.2 (h t c hm))

/-! ### The part's own event -/

theorem step_idle (hp : s.pending = []) : step s = s.idle := by
  unfold step
  split
  next h => cases hp.symm.trans h
  next => rfl

theorem step_ownEvent (hp : s.pending = []) (h : s.ownEvent = some c) : step s = exec c s := by
  rw [step_idle hp, State.idle, h]

theorem step_tick (hp : s.pending = []) (h : s.ownEvent = none) : step s = .next { s with now := s.now + 1 } := by
  rw [step_idle hp, State.idle, h]
  rfl

/-- A due timer comes first. -/
theorem ownEvent_dueTimer (h : s.dueTimer = some c) : s.ownEvent = some c := by
  rw [State.ownEvent, h]
  rfl

/-- With no timer due, the loads and the store come next. -/
theorem ownEvent_storeEvent (hd : s.dueTimer = none) (h : s.storeEvent = some c) : s.ownEvent = some c := by
  rw [State.ownEvent, hd, h]
  rfl

/-- With no timer due and nothing to load or write, the request handler comes last. -/
theorem ownEvent_handlerEvent (hd : s.dueTimer = none) (h : s.storeEvent = none) : s.ownEvent = s.handlerEvent := by
  rw [State.ownEvent, hd, h]
  rfl

/-! ### Loads and writes (R188, R193, R194) -/

theorem storeEvent_loading (h : s.power = .startLoad ∨ s.power = .restartLoad) : s.storeEvent = some .loadCompletion :=
  if_pos (loading_iff.2 h)

theorem not_loading_of_running (h : s.power = .running) : ¬ s.loading = true := by
  rw [loading_iff, h]
  decide

theorem storeEvent_restarts (hp : s.power = .running) (hw : s.writing = none) (hr : s.restartPending = true) :
    s.storeEvent = some (.partRestartLoadBegin s.strap) :=
  (if_neg (not_loading_of_running hp)).trans (if_pos ⟨hp, hr, by rw [hw]; rfl⟩)

theorem storeEvent_writes (hp : s.power = .running) (hw : s.writing = none) (hr : s.restartPending = false)
    (hq : s.storeQueue ≠ []) : s.storeEvent = some .storeWriteBegin := by
  refine (if_neg (not_loading_of_running hp)).trans ((if_neg fun h => ?_).trans (if_pos ?_))
  · cases hr.symm.trans h.2.1
  · rw [storeReady_iff.2 ⟨hp, hw, hr⟩, List.isEmpty_eq_false_iff.2 hq]
    rfl

theorem storeEvent_eq_none (hload : ¬ (s.power = .startLoad ∨ s.power = .restartLoad))
    (hrestart : ¬ (s.power = .running ∧ s.writing = none ∧ s.restartPending = true))
    (hwrite : ¬ (s.power = .running ∧ s.writing = none ∧ s.restartPending = false ∧ s.storeQueue ≠ [])) :
    s.storeEvent = none := by
  refine (if_neg fun h => hload (loading_iff.1 h)).trans ((if_neg ?_).trans (if_neg ?_))
  · exact fun ⟨hp, hr, hw⟩ => hrestart ⟨hp, Option.isNone_iff_eq_none.1 hw, hr⟩
  · intro h
    obtain ⟨hready, hq⟩ := Bool.and_eq_true_iff.1 h
    obtain ⟨hp, hw, hr⟩ := storeReady_iff.1 hready
    exact hwrite ⟨hp, hw, hr, fun he => by rw [he] at hq; cases hq⟩

/-! ### The request handler (R164, R165) -/

theorem handlerEvent_takes (h : s.TakesFrame f rest) : s.handlerEvent = some f.command := by
  rw [State.handlerEvent, if_pos (takesFrame_ready h), h.1]
  rfl

theorem handlerEvent_eq_none (h : ∀ f rest, ¬ s.TakesFrame f rest) : s.handlerEvent = none := by
  by_cases hready : s.handlerReady = true
  · cases hrx : s.rx with
    | nil => rw [State.handlerEvent, if_pos hready, hrx]; rfl
    | cons f rest => exact absurd ⟨hrx, (handlerReady_iff s).1 hready⟩ (h f rest)
  · exact if_neg hready

theorem command_of_code (h : f.code = fn.code) : f.command = fn.command := by
  rw [RxFrame.command, h, ofCode_code]

theorem command_unknown (h : Func.ofCode f.code = none) : f.command = .unknownFunction := by
  rw [RxFrame.command, h]

/-- Settles O2: due timers first, then the loads and the store, then the request handler, and else a millisecond. -/
theorem emptyQueueLetsThePartAct : Obligations.EmptyQueueLetsThePartAct := by
  intro s hp runs due loading restarts writes
  have hruns (t : Nat) (c : Instr) : (some t, c) ∈ s.timers ↔ runs t c := mem_timers
  have hquiet (hd : ¬ due) : s.dueTimer = none :=
    dueTimer_eq_none_iff.2 fun t c hm => not_le.1 fun hle => hd ⟨t, c, (hruns t c).1 hm, hle⟩
  have hstore {c : Instr} (hd : ¬ due) (h : s.storeEvent = some c) : step s = exec c s :=
    step_ownEvent hp (ownEvent_storeEvent (hquiet hd) h)
  refine ⟨fun ⟨t, c, hr, hle⟩ => ?_, fun hd h => hstore hd (storeEvent_loading h),
    fun hd ⟨h, hw, hr⟩ => hstore hd (storeEvent_restarts h hw hr),
    fun hd ⟨h, hw, hr, hq⟩ => hstore hd (storeEvent_writes h hw hr hq), fun hd hload hrestart hwrite => ?_⟩
  · have hdue : s.dueTimer ≠ none := fun h => absurd hle (not_le.2 (dueTimer_eq_none_iff.1 h t c ((hruns t c).2 hr)))
    obtain ⟨c, hc⟩ := Option.ne_none_iff_exists'.1 hdue
    obtain ⟨t, hm, hle, hfirst⟩ := (dueTimer_spec s).2 c hc
    exact ⟨t, c, (hruns t c).1 hm, hle, fun t' c' hr' => hfirst _ ((hruns t' c').2 hr') t' rfl,
      step_ownEvent hp (ownEvent_dueTimer hc)⟩
  · have hown := ownEvent_handlerEvent (hquiet hd) (storeEvent_eq_none hload hrestart hwrite)
    refine ⟨fun f rest ht => ?_, fun h => step_tick hp (hown.trans (handlerEvent_eq_none h))⟩
    have htakes : step s = exec f.command s := step_ownEvent hp (hown.trans (handlerEvent_takes ht))
    exact ⟨fun fn h => htakes.trans (by rw [command_of_code h]),
      fun h => htakes.trans (by rw [command_unknown (ofCode_eq_none h)])⟩

end Sys2Proof.Machine
end

