-- ==== Sys2Proof/Proofs/PartStatus.lean ====
section
/-! PART_STATUS (R186): the counts that the part answers, as numbers of places and entries counted, and the lost-slot count that the
answer empties. -/

namespace Sys2Proof.Machine

variable {s : State} {f : RxFrame} {rest : List RxFrame}

/-! ### The counts (R1, R7, R157, R186) -/

/-- A count over a table is the number of the places counted. -/
theorem table_countP {α : Type} {n : Nat} (t : Table α n) (p : α → Bool) :
    t.toList.countP p = ((List.finRange n).filter fun i => p t[i]).length := by
  have ht : t.toList = (List.finRange n).map fun i => t[i] := by apply List.ext_getElem <;> simp
  rw [ht, List.countP_map, List.countP_eq_length_filter]
  rfl

theorem lifecycleCount_eq (s : State) (l : Lifecycle) :
    s.lifecycleCount l = ((List.finRange 48).filter fun i => s.coils[i].lifecycle == l).length := coils_countP s _

theorem staleCount_eq (s : State) :
    s.staleCount = ((List.finRange 48).filter fun i => s.coils[i].storeStale).length := coils_countP s _

theorem claimCount_eq (s : State) :
    s.claimCount = ((List.finRange 4).filter fun n => s.claims[n].isSome).length := table_countP s.claims _

theorem pointsInUse_eq (points : Table (Option PointEntry) 96) :
    pointsInUse points = ((List.finRange 96).filter fun n => points[n].isSome).length := table_countP points _

theorem queueLength_eq (ds : List DemandEntry) : queueLength ds = (ds.filter fun e => e.queued.isSome).length :=
  List.countP_eq_length_filter

/-! ### The answer (R186) -/

/-- The data of PART_STATUS with each count as the number of what it counts. -/
theorem statusView_eq (s : State) : s.statusView =
    [byteOf s.address, byteOf s.zone.val,
      flagsByte [s.strapValid, s.regime == .mild, s.average.isSome, s.lastLoadRestart, s.settingsDefaulted]]
      ++ optInt16 s.average
      ++ ([Lifecycle.vacant, .draft, .settling, .armed, .suspended].map fun l =>
          byteOf ((List.finRange 48).filter fun i => s.coils[i].lifecycle == l).length)
      ++ [byteOf ((List.finRange 4).filter fun n => s.claims[n].isSome).length,
          byteOf ((List.finRange 96).filter fun n => s.points[n].isSome).length,
          byteOf s.demands.length, byteOf (s.demands.filter fun e => e.queued.isSome).length,
          byteOf ((List.finRange 48).filter fun i => s.coils[i].storeStale).length, byteOf s.lostSlots] := by
  simp only [State.statusView, lifecycleCount_eq, staleCount_eq, claimCount_eq, pointsInUse_eq, queueLength_eq,
    List.map_cons, List.map_nil, List.append_assoc, List.cons_append, List.nil_append]

/-- The owner answers the view as it stands before the lost-slot count is emptied. -/
theorem takeRequest_partStatus (ht : s.TakesRequest .partStatus f rest) :
    takeRequest .partStatus partStatusOwner s = { s.replied f rest .done s.statusView with lostSlots := 0 } := by
  have howner : partStatusOwner f { s with rx := rest } =
      ({ s with rx := rest, lostSlots := 0 }, some (.done s.statusView)) := rfl
  exact takeRequest_answers ht howner

/-- Settles O17: the owner answers the view of the part, whose counts are those of the tables, and empties the lost-slot count. -/
theorem partStatusReportsAndEmptiesTheLostSlots : Obligations.PartStatusReportsAndEmptiesTheLostSlots := by
  intro s f rest ht count
  have hanswer := takeRequest_partStatus ht
  rw [statusView_eq] at hanswer
  exact congrArg Host.Outcome.next hanswer

end Sys2Proof.Machine
end

