-- ==== Sys2Proof/Proofs/StartOfService.lean ====
section
/-! The state after reset (R191, R193): its live state is blank, so that it has every invariant, and a start-up load of a retained
memory that has never been written leads to it. -/

namespace Sys2Proof.Machine

variable {s : State}

/-! ### The invariants of a blank live state -/

/-- With nothing bound and no outdoor binding, the empty Point Table counts every key (R29). -/
theorem State.Swept.pointsCounted (h : s.Swept) (ho : s.outdoor = none) : s.PointsCounted :=
  (countsKept_of (s := s.breakOff .off .asBefore) h.points ho h.coils).pointsCounted (breakOff_pointsCounted s .off .asBefore)

/-- VACANT slots refer to no entry and demand none, so that the empty demand table is safe (R97, R98). -/
theorem State.Swept.demandSafe (h : s.Swept) : s.DemandSafe :=
  demandSafe_iff.2 ⟨h.shaped, tabled_of_empty h.vacant h.demands h.dispatch⟩

/-- With no notice flag set, no notice is offered (R171). -/
theorem State.Swept.noticeOffered (h : s.Swept) : s.NoticeOffered := by
  refine ⟨fun i hi => ?_, fun n hn => ?_⟩
  · rw [h.flag] at hi
    cases hi
  · rw [h.notice] at hn
    cases hn

/-! ### A retained memory that has never been written (R187) -/

theorem blank_unit (u : UnitNo) : Retained.blank.units[u] = .blank := Table.replicate_get _ u

theorem blank_coil (i : Slot) : Retained.blank.coils[i] = .blank := Table.replicate_get _ i

/-- A blank memory holds no thresholds: those of the settings alone count. -/
theorem thresholdsOrdered_of_blank (hr : s.retained = .blank) (hw : s.writing = none) (h : s.regimeOn < s.regimeOff) :
    s.ThresholdsOrdered := by
  refine ⟨h, fun c hc => ?_, fun w c hwrite => ?_⟩
  · rw [hr] at hc
    cases hc
  · rw [hw] at hwrite
    cases hwrite

/-- A blank memory holds no definition: those of the records alone count. -/
theorem definitionsInRange_of_blank (hr : s.retained = .blank) (hw : s.writing = none) (h : s.CoilsInRange) :
    s.DefinitionsInRange := by
  refine ⟨h, fun i d hd => ?_, fun w i d hwrite => ?_⟩
  · rw [hr, blank_coil] at hd
    cases hd
  · rw [hw] at hwrite
    cases hwrite

/-- No blank item loads otherwise than as stored (R192). -/
theorem loadedOtherwise_blank (hr : s.retained = .blank) (it : Item) : s.loadedOtherwise it = false := by
  refine Bool.eq_false_iff.2 fun h => ?_
  cases it with
  | settings =>
    rw [loadedOtherwise_settings, hr] at h
    cases h
  | unit u =>
    rw [loadedOtherwise_unit, hr, blank_unit] at h
    cases h
  | coil i =>
    rw [loadedOtherwise_coil, hr, blank_coil] at h
    rcases h with h | ⟨d, h, -⟩ <;> cases h

/-! ### The load of a blank memory (R191) -/

/-- The load gives the default settings and undefined units of zone 0, and leaves every slot, point and demand as it is. -/
theorem load_blank (h : s.Swept) (hr : s.retained = .blank) :
    s.load = { s with
      outdoor := none, regimeOn := 20, regimeOff := 50, supervisors := []
      units := tableMap (fun e => { e with controller := none, zone := 0 }) s.units, joinStamp := s.joinStamp + 1 } := by
  have hsettings : s.loadSettings = { s with outdoor := none, regimeOn := 20, regimeOff := 50, supervisors := [] } :=
    loadSettings_default fun c hc => by
      rw [hr] at hc
      cases hc
  have hunits : s.loadUnits.units = tableMap (fun e => { e with controller := none, zone := 0 }) s.units := by
    refine table_ext fun u => ?_
    rw [loadUnits_units, hr, blank_unit, tableMap_get]
    rfl
  have hpoints : s.beforeSlots.points = s.points := by rw [beforeSlots_points, hsettings]
  have hslot (i : Slot) (t : State) (ht : t = s.beforeSlots) : t.loadCoil i = s.beforeSlots := by
    have hitem : t.retained.coils[i] = .blank := by rw [ht, beforeSlots_retained, hr, blank_coil]
    unfold State.loadCoil
    rw [hitem]
    exact ht
  have hslots : forSlots (fun i s => s.loadCoil i) s.beforeSlots = s.beforeSlots :=
    forSlots_keeps_prop (P := fun t => t = s.beforeSlots) hslot _ rfl
  have hchoice : s.beforeSlots.chooseNotice = s.beforeSlots :=
    chooseNotice_none (by rw [beforeSlots_eq]; exact h.notice) fun i => by rw [beforeSlots_eq]; exact h.flag i
  rw [load_eq, hslots, State.endEvent, hchoice, beforeSlots_eq, hpoints, hunits, hsettings]

/-- The completion of a load of blank memory marks no item and starts no settle timer, and while every contact is OPEN each output
stays at STOP: service begins, and nothing else changes (R130, R193). -/
theorem completeLoad_blank (hr : s.retained = .blank) (hv : ∀ i : Slot, s.coils[i].lifecycle = .vacant)
    (hu : ∀ u : UnitNo, s.units[u].contact = .opened ∧ s.units[u].fso = .stop) :
    s.completeLoad = { s with
      power := .running, lastLoadRestart := s.power == .restartLoad, settingsDefaulted := true
      pollTimer := some (s.now + 10000), pollPeriod := 10000, line := none } := by
  obtain ⟨units, he, hunits⟩ := completeLoad_fields s
  have hcoils : s.startSettling.coils = s.coils := by
    refine table_ext fun i => ?_
    rw [startSettling_coil, hv i]
    exact if_neg (by decide)
  have hmarks : allItems.filter s.loadedOtherwise = [] :=
    List.filter_eq_nil_iff.2 fun it _ => by rw [loadedOtherwise_blank hr]; exact Bool.false_ne_true
  have hkept : units = s.units := by
    refine table_ext fun u => ?_
    obtain ⟨fso, hunit, hstop⟩ := hunits u
    obtain ⟨hopen, hstopped⟩ := hu u
    rw [hunit, hstop.2 (.inl hopen), ← hstopped]
  rw [he, hcoils, hmarks, hkept, hr]
  rfl

/-! ### The state after reset -/

theorem reset_swept : State.reset.Swept := ⟨rfl, rfl, rfl, rfl, rfl, rfl, rfl, rfl, rfl, rfl, rfl, rfl⟩

theorem reset_unit (u : UnitNo) : State.reset.units[u] = UnitEntry.blank .openLevel := Table.replicate_get _ u

/-- Every contact is OPEN and every output stands at STOP (R127, R130). -/
theorem reset_fansStand : State.reset.FansStand := by
  intro u
  have hopen : State.reset.units[u].contact = .opened := by rw [reset_unit]; rfl
  have hstop : State.reset.units[u].fso = .stop := by rw [reset_unit]; rfl
  exact ⟨fun _ => .inl hopen, fun _ => hstop⟩

/-- A start-up load finds the units as they are after reset: their inputs stand at the open level, so that no filter runs (R127). -/
theorem startState_reset_units (strap : Strap) (cut : BrokenWrite) :
    (State.reset.startState strap cut).units = State.reset.units := by
  refine table_ext fun u => ?_
  rw [startState_unit, reset_unit]
  rfl

/-- The units are undefined and of zone 0 already, as blank items load them (R187, log 34). -/
theorem reset_units_undefined :
    tableMap (fun e : UnitEntry => { e with controller := none, zone := 0 }) State.reset.units = State.reset.units := by
  refine table_ext fun u => ?_
  rw [tableMap_get, reset_unit]
  rfl

/-- What a start-up load makes of the state after reset: the part is in the load, with the poll period stopped. -/
theorem startUp_reset : State.reset.startUp ⟨0, 0⟩ .asBefore =
    { State.reset with power := .startLoad, pollTimer := none, joinStamp := 1 } := by
  rw [startUp_eq, load_blank (startState_swept _ _ _) rfl, startState_reset_units, reset_units_undefined]
  rfl

/-- The completion of that load takes the part back to the state after reset, one event later. -/
theorem completeLoad_startUp_reset :
    (State.reset.startUp ⟨0, 0⟩ .asBefore).completeLoad = { State.reset with joinStamp := 1 } := by
  rw [startUp_reset, completeLoad_blank rfl]
  · rfl
  · exact reset_swept.vacant
  · intro u
    show State.reset.units[u].contact = .opened ∧ State.reset.units[u].fso = .stop
    rw [reset_unit]
    exact ⟨rfl, rfl⟩

/-- Settles O60: the live state after reset is blank, as is its retained memory, and the load of that memory leads back to it. -/
theorem resetIsSafeAndFollowsALoad : Obligations.ResetIsSafeAndFollowsALoad := by
  have h := reset_swept
  refine ⟨⟨h.shaped, reset_fansStand⟩, h.demandSafe, h.pointsCounted rfl, h.bounded (Nat.zero_le _),
    thresholdsOrdered_of_blank rfl rfl (by decide), h.tagsDistinct, h.claimsDistinct, h.pointsInAccount,
    definitionsInRange_of_blank rfl rfl h.coilsInRange, h.storeQueuedOnce, h.noticeOffered,
    State.reset.startUp ⟨0, 0⟩ .asBefore, { State.reset with joinStamp := 1 }, rfl, ?_, rfl⟩
  have hload : (State.reset.startUp ⟨0, 0⟩ .asBefore).loading = true := by rw [startUp_reset]; rfl
  exact congrArg Host.Outcome.next ((if_pos hload).trans completeLoad_startUp_reset)

end Sys2Proof.Machine
end

