-- ==== Sys2Proof/Proofs/CommandQueue.lean ====
section
/-! The queue of waiting commands (log 1): a step takes the command at its front (O1), every command answers a next state (log 2), and
no event of the part touches the queue (O3). -/

namespace Sys2Proof.Machine

variable {s t : State} {f : RxFrame} {i : Slot}

/-! ### What the shared operations leave of the queue -/

@[simp] theorem chooseNotice_pending (s : State) : s.chooseNotice.pending = s.pending := by rw [chooseNotice_eq]
@[simp] theorem endEvent_pending (s : State) : s.endEvent.pending = s.pending := by rw [endEvent_eq]
@[simp] theorem markDirty_pending (s : State) (it : Item) : (s.markDirty it).pending = s.pending := by rw [markDirty_eq]
@[simp] theorem lifecycleChanged_pending (s : State) (i : Slot) : (s.lifecycleChanged i).pending = s.pending := by
  rw [lifecycleChanged_eq]
@[simp] theorem changeRefs_pending (s : State) (ch : RefChange) : (s.changeRefs ch).pending = s.pending := by rw [changeRefs_eq]
@[simp] theorem changeMapRefs_pending (s : State) (old new : Coil) : (s.changeMapRefs old new).pending = s.pending := by
  rw [changeMapRefs_eq]
@[simp] theorem beforeSlots_pending (s : State) : s.beforeSlots.pending = s.pending := by rw [beforeSlots_eq]

/-- A chain of moves that ends its event leaves the queue. -/
theorem endEvent_moves_pending (h : StageMoves s t) : t.endEvent.pending = s.pending :=
  (endEvent_pending t).trans (pending_of_apart h.apart)

theorem cleanExpired_pending (s : State) (i : Slot) : (s.cleanExpired i).pending = s.pending := by
  unfold State.cleanExpired
  dsimp only
  split_ifs
  · rfl
  · exact markDirty_pending _ _

theorem setPart_pending (s : State) (k : Option PointKey) (on off : Int) : (s.setPart k on off).pending = s.pending := by
  unfold State.setPart State.rebindOutdoor
  split_ifs <;> simp

/-! ### Requests -/

theorem request_pending (h : Request f s t) : t.pending = s.pending := by
  cases h with
  | reported i e d r u v he hd hm hu =>
    obtain ⟨_, _, rfl⟩ := hu
    exact (endEvent_pending _).trans ((pending_of_apart hm.apart).trans rfl)
  | statusTaken u fan timer v hm => exact (endEvent_moves_pending hm).trans rfl
  | partSet k on off => exact setPart_pending s k on off
  | created | armed | suspended | retired | restarted | released | committed | unitDefined | supervisorsSet =>
    simp [State.arm, State.suspend, State.retire, State.restart, State.releaseLockout, State.commit, State.defineUnit,
      State.cancelClaim, State.changeCoil, State.recomputeFso, State.setNotice]
  | _ => rfl

/-! ### Loads -/

theorem slotLoad_pending (h : SlotLoad s i t) : t.pending = s.pending := by cases h <;> rfl

theorem load_pending (s : State) : s.load.pending = s.pending :=
  load_keeps (P := fun t => t.pending = s.pending) (beforeSlots_pending s) (fun _ _ _ h ht => (slotLoad_pending h).trans ht)
    fun t ht => (endEvent_pending t).trans ht

/-! ### Events -/

/-- An event reaches other fields of the state alone (log 1). -/
theorem event_pending (h : Event s t) : t.pending = s.pending := by
  cases h with
  | taken f rest _ hrx hq => exact (request_pending hq).trans rfl
  | answered f rest a _ hrx hr hq => exact (request_pending hq).trans rfl
  | noticeLeft flags => exact chooseNotice_pending _
  | completed d e g u hd he hg hm => exact (endEvent_moves_pending hm).trans rfl
  | moved u hm => exact endEvent_moves_pending hm
  | contactOpened u v hm => exact (endEvent_moves_pending hm).trans rfl
  | cleaned i => exact cleanExpired_pending s i
  | refreshed k => exact endEvent_pending _
  | retried k => exact endEvent_pending _
  | writeCompleted w success =>
    obtain ⟨_, _, _, _, _, _, he, -⟩ := writeCompleted_fields s w success
    rw [he]
  | startUp strap cut => exact load_pending (s.startState strap cut)
  | restartBegun strap => exact load_pending (s.clearedForRestart.readStrap strap)
  | loaded =>
    obtain ⟨_, he, -⟩ := completeLoad_fields s
    rw [he]
  | _ => rfl

/-! ### Commands and steps -/

/-- The model makes every command an effect on the state: none ends in a fault or a refusal (log 2). -/
theorem exec_answers (c : Instr) (s : State) : ∃ t, exec c s = .next t := by
  cases c <;> exact ⟨_, rfl⟩

theorem exec_pending {c : Instr} (h : exec c s = .next t) : t.pending = s.pending := by
  obtain ⟨_, he⟩ := exec_event c h
  exact (event_pending he).trans rfl

theorem step_command {c : Instr} {rest : List Instr} (h : s.pending = c :: rest) :
    step s = exec c { s with pending := rest } := by
  rw [step, h]

/-- Settles O1: `step` looks at the front of the queue first. -/
theorem frontCommandIsExecuted : Obligations.FrontCommandIsExecuted :=
  fun _ _ _ => step_command rfl

/-- Settles O3: every command is one event of the part, and no event touches the queue. -/
theorem commandsAnswerAndLeaveTheQueue : Obligations.CommandsAnswerAndLeaveTheQueue := by
  intro c s
  obtain ⟨t, ht⟩ := exec_answers c s
  exact ⟨t, ht, exec_pending ht⟩

end Sys2Proof.Machine
end
